-- ==== Sys2Proof/Word.lean ====
section
/-!
DEFINITION. The word types of the part and the index types of its tables.

Bit vectors stand for what the manual treats as bits or as wrapping words: bytes, 32-bit words,
48-bit times, 40-bit addresses. Table indices are bounded numbers.
-/

namespace Sys2Proof

/-- A byte of a record, of a request's data or of the management link. -/
abbrev Byte := BitVec 8

/-- A 32-bit field: serials, counters, digest sums, lead fields. -/
abbrev Word32 := BitVec 32

/-- A pack clock value (R150): 48 bits. -/
abbrev Time := BitVec 48

/-- An address on the upstream or memory port: 40 bits (section 1.1). -/
abbrev Addr := BitVec 40

/-- A lane number, 0..15. -/
abbrev LaneIx := Fin 16

/-- A member entry index, 0..4095. -/
abbrev MemberIx := Fin 4096

/-- A pack record index, which is also its directory slot number, 0..63. -/
abbrev PackIx := Fin 64

/-- A view slot number, 0..3. -/
abbrev SlotIx := Fin 4

/-- A class number, 0..7. -/
abbrev ClassIx := Fin 8

end Sys2Proof
end

