-- ==== Sys2Proof/Syntax.lean ====
section
/-!
DEFINITION. The commands of the part: one constructor for each row of spec/opcode_table.json, with the
operands that come from outside the part. No row of the table has bits.
-/

namespace Sys2Proof

/-- An upstream request (section 1.1): a READ of a length, or a WRITE with its data, at a 40-bit address, with the
requester's tag. The manual gives tags no width (log entry 24). -/
inductive Request where
  | read (tag : Nat) (addr : Addr) (len : Nat)
  | write (tag : Nat) (addr : Addr) (data : List Byte)
deriving DecidableEq, Repr

/-- The tag chosen by the requester. -/
def Request.tag : Request → Nat
  | .read t _ _ => t
  | .write t _ _ => t

/-- The address of the request's first byte. -/
def Request.addr : Request → Addr
  | .read _ a _ => a
  | .write _ a _ => a

/-- The request's length in bytes. -/
def Request.len : Request → Nat
  | .read _ _ n => n
  | .write _ _ d => d.length

/-- An answer of the memory port (section 1.2): DONE, with the data of a READ, or FAULT. -/
inductive MemAnswer where
  | done (data : List Byte)
  | fault
deriving DecidableEq, Repr

/-- What a select period of a command frame has besides its whole bytes (R160): the bits of an incomplete last byte, and
whether the response was BUSY when its first byte was received (log entry 6). -/
structure FrameEdges where
  extraBits : Fin 8
  begunBusy : Bool
deriving DecidableEq, Repr

/-- A response read (R161): its whole byte periods after the code, and whether its state byte was shifted out as BUSY before
the period's end (log entry 6). -/
structure ReadSpan where
  periods : Nat
  shownBusy : Bool
deriving DecidableEq, Repr

/-- The commands. Operands of management commands are the payload fields of Table 11-6 as they are sent. -/
inductive Instr where
  /-- POWER_ON (R170). -/
  | powerOn
  /-- RESETB_ASSERTION (R170): RESETB falls. -/
  | resetbAssertion
  /-- RESETB_RELEASE (R170): RESETB rises. -/
  | resetbRelease
  /-- QUIESCE_ONSET (R166): the QUIESCE line is asserted. -/
  | quiesceOnset
  /-- QUIESCE_RELEASE (R166): the QUIESCE line is deasserted. -/
  | quiesceRelease
  /-- UPSTREAM_REQUEST (R10): a request arrives on the upstream port. -/
  | upstreamRequest (r : Request)
  /-- GRANT (R13): the memory port can take a request while no burst is in progress. -/
  | grant
  /-- BURST_UNIT_ISSUE (R14): the memory port can take a request during a burst. -/
  | burstUnitIssue
  /-- MEMORY_RESPONSE (R4): the memory port answers the oldest request in flight. -/
  | memoryResponse (a : MemAnswer)
  /-- VIEW_READ_RESPONSE (R134): the oldest view read, all answered, is responded to. -/
  | viewReadResponse
  /-- COMMIT_END (R121). -/
  | commitEnd
  /-- COMMIT_SUSPENDED (R122). -/
  | commitSuspended
  /-- DISCARDING_END (R107). -/
  | discardingEnd (record : PackIx)
  /-- PENDING_DISPOSITION_TAKEN (R137). -/
  | pendingDispositionTaken (slot : SlotIx)
  /-- PENDING_IDLE_RETURN (R142). -/
  | pendingIdleReturn (slot : SlotIx)
  /-- RESTART_COMPLETION (R169). -/
  | restartCompletion
  /-- PACK_CLOCK_TICK (R150): the prescaler's carry. -/
  | packClockTick
  /-- HOLD_EXPIRY (R51): a lane takes the expiry of its hold deadline. -/
  | holdExpiry (lane : LaneIx)
  /-- AGE_EXPIRY (R104): an OPEN pack takes the expiry of its age deadline. -/
  | ageExpiry (record : PackIx)
  /-- IDLE_EXPIRY (R142): a slot takes the expiry of its idle deadline. -/
  | idleExpiry (slot : SlotIx)
  /-- COMMAND_FRAME_DISCARD (R160): a select period that ends in a discard, as the whole bytes received and what it has
  besides them. -/
  | commandFrameDiscard (bytes : List Byte) (edges : FrameEdges)
  /-- UNKNOWN_COMMAND (R162): a whole frame by its command code and payload. -/
  | unknownCommand (code : Byte) (payload : List Byte)
  /-- RESPONSE_READ (R161): a select period whose first byte is 0xF0. -/
  | responseRead (span : ReadSpan)
  /-- READ_PART (R163). -/
  | readPart
  /-- READ_LANE (R41). -/
  | readLane (lane : Byte)
  /-- READ_PACK (R111). -/
  | readPack (record : Byte)
  /-- SET_LANE (R7). -/
  | setLane (lane enabled exponent : Byte) (base : Addr)
  /-- SET_WINDOWS (R7). -/
  | setWindows (viewBase : Addr) (mask : Byte) (dirBase : Addr)
  /-- SET_SERIAL (R164). -/
  | setSerial (serial : Word32) (former : BitVec 16) (tb : Word32)
  /-- SET_CLASS (R92). -/
  | setClass (cls enabled : Byte) (target cap : BitVec 16) (age : Word32) (tag : Byte)
  /-- SET_LIMITS (R165). -/
  | setLimits (hold idle : Word32) (share mode : Byte)
  /-- SET_CLOCK (R154). -/
  | setClock (p : Time)
  /-- START (R167). -/
  | start
  /-- RESTART (R168). -/
  | restart
  /-- SEAL_CLASS (R102). -/
  | sealClass (cls : Byte)
  /-- DRAIN (R103). -/
  | drain
  /-- DISCARD_PACK (R105 to R107). -/
  | discardPack (record : Byte) (serial : Word32)
  /-- RECOMMIT_PACK (R105, R108). -/
  | recommitPack (record : Byte) (serial : Word32)
  /-- LANE_RESTART (R37, R38). -/
  | laneRestart (lane : Byte)
  /-- POP_EVENT (R172). -/
  | popEvent
  /-- SET_ATTENTION_MASK (R173). -/
  | setAttentionMask (mask : BitVec 16)
  /-- QUIESCE_LINE_IGNORED (R166): the QUIESCE line goes to a level. -/
  | quiesceLineIgnored (level : Bool)
deriving DecidableEq, Repr

end Sys2Proof
end

