-- ==== Sys2Proof/Config.lean ====
section
/-!
DEFINITION. Constants of the part that rules name, and the values the manual leaves open.
-/

namespace Sys2Proof.Config

/-- Free value (log entry 8, DESIGN CHOICE). Table 11-8 encodes a slot's state in one byte and Table 11-9 gives
no code for it: the byte the part record shows for a FREE slot (`false`) or a BOUND slot (`true`).
No body, so that nothing can lean on a value. -/
opaque slotStateCode : Bool → Byte

/-- Outstanding upstream requests the port holds at most (R2). -/
def portPlaces : Nat := 96

/-- Writes one lane's hold queue holds at most (R42). -/
def holdPlaces : Nat := 4

/-- Records the event queue holds at most (R171). -/
def eventPlaces : Nat := 32

/-- Bytes of payload the command buffer holds (R160). -/
def commandBuffer : Nat := 64

/-- REFCLK periods of one pack clock millisecond (R150). -/
def refclkPerTick : Nat := 50000

/-- The mark of a lead (Table 2-2). -/
def leadMark : Nat := 0x7E1DA5C2

/-- The mark of a disposition record (Table 8-3). -/
def dispositionMark : Nat := 0x3B94E06D

/-- The mark of a pack header (Table 11-3). -/
def headerMark : Nat := 0x6D2B90F4

/-- The mark of a pack trailer (Table 11-5). -/
def trailerMark : Nat := 0xA4F3172E

/-- The response read code (R177). -/
def responseReadCode : Byte := 0xF0

/-- The greatest data length of a member (Table 2-2). -/
def maxDataLength : Nat := 16777215

/-- Bytes of the view window of one slot: 2 GiB (Table 1-1). -/
def slotWindowSize : Nat := 2 ^ 31

/-- Bytes of the whole view window: 8 GiB (Table 1-1). -/
def viewWindowSize : Nat := 2 ^ 33

/-- Bytes of the directory area: 8 MiB (Table 1-1). -/
def directorySize : Nat := 2 ^ 23

/-- Bytes of one directory slot: 128 KiB (R113). -/
def directorySlotSize : Nat := 131072

end Sys2Proof.Config
end

