-- ==== Sys2Proof/Machine/State.lean ====
section
/-!
DEFINITION. The state of the part as plain data, and its value after power-on.

Every piece of state the manual names has one home here. What a rule derives from other state (tail, used, the collected
count, n, the outstanding count, ATTN, whether a slot is FREE) is computed where it is read (log entry 14).
-/

namespace Sys2Proof.Machine

/-- What stops the part with a fault: nothing. The manual names no such stop, so the type has no constructor. -/
inductive Fault : Type
deriving DecidableEq, Repr

/-- Why a step has no next state. -/
inductive Refusal where
  /-- Raised by `exec` alone, for a command that has no meaning yet. Safe. -/
  | notModelled (mnemonic : String)
  /-- Raised by UPSTREAM_REQUEST for a request of no byte or of more than 4,096 bytes: the port's length field cannot
  express it (section 1.1), so no such request arrives (log entry 15). Safe. -/
  | malformedRequest
deriving DecidableEq, Repr

/-! ### Records -/

/-- A digest (R84): two sums modulo 2^32. -/
structure Digest where
  a : Word32 := 0
  b : Word32 := 0
deriving DecidableEq, Repr

/-- A deadline cell (R152, R153): absent, pending with its value, due with its value and not yet taken by its owner, or
dormant while the clock holds at 2^48 - 1. -/
inductive Deadline where
  | absent
  | pending (value : Time)
  | due (value : Time)
  | dormant
deriving DecidableEq, Repr

/-- Part states (Table 10-4). -/
inductive PartState where
  | config | run | quiesced
deriving DecidableEq, Repr

/-- Parser states (Table 2-4). -/
inductive ParserState where
  | lead | data | pad | seek
deriving DecidableEq, Repr

/-- A held write (R42): its tag, its address and all of its data. -/
structure HeldWrite where
  tag : Nat
  addr : Addr
  data : List Byte
deriving DecidableEq, Repr

/-- The eight counters of a lane (Table 2-5). -/
structure LaneCounters where
  membersCompleted : Word32 := 0
  bytesAccepted : Word32 := 0
  strayRefusals : Word32 := 0
  edgeRefusals : Word32 := 0
  holdFullRefusals : Word32 := 0
  holdExpiries : Word32 := 0
  leadFaults : Word32 := 0
  brokenMembers : Word32 := 0
deriving DecidableEq, Repr

/-- One lane: its region table entry (Table 1-1), its lane state (Table 2-1), its hold state (Table 3-1), its lane order
list (section 4.3) and its counters (Table 2-5). -/
structure Lane where
  enabled : Bool := false
  base : Addr := 0
  exponent : Nat := 25
  cursor : Nat := 0
  parser : ParserState := .lead
  leadBuffer : List Byte := []
  candidate : List Byte := []
  remaining : Nat := 0
  receiving : Option MemberIx := none
  pendingLead : Option Nat := none
  hold : List HeldWrite := []
  holdDeadline : Deadline := .absent
  order : List MemberIx := []
  counts : LaneCounters := {}
deriving DecidableEq, Repr

/-- Member states (section 4.2). -/
inductive MemberState where
  | free | receiving | waiting | packed | filed | released
deriving DecidableEq, Repr

/-- A member record (Table 4-1). The default values are those of a FREE record. -/
structure Member where
  state : MemberState := .free
  lane : LaneIx := 0
  leadOffset : Nat := 0
  dataLength : Nat := 0
  received : Nat := 0
  cls : ClassIx := 0
  dataset : Word32 := 0
  producerSeq : Word32 := 0
  nameDigest : BitVec 128 := 0
  leadDigest : Digest := {}
  dataDigest : Digest := {}
  sectionDigest : Digest := {}
  leadTime : Time := 0
  doneTime : Time := 0
  packRecord : Option PackIx := none
  sectionOffset : Option Nat := none
deriving DecidableEq, Repr

/-- The Member Table in its canonical form: the records that differ from a FREE record, by strictly rising index. An index
that is not listed is a FREE record (log entry 13). -/
abbrev MemberTable := List (MemberIx × Member)

/-- A class (Table 6-1). -/
structure PackClass where
  enabled : Bool := false
  target : Nat := 256
  cap : Nat := 256
  ageLimit : Nat := 600000
  retention : Byte := 0
deriving DecidableEq, Repr

/-- Pack states (Table 6-3). `opened` is the manual's OPEN. -/
inductive PackState where
  | free | opened | sealing | ready | bound | failed | discarding
deriving DecidableEq, Repr

/-- Seal causes (Table 6-4). -/
inductive SealCause where
  | size | count | age | lead | command | drain | classClosed
deriving DecidableEq, Repr

/-- A pack record (Table 6-2). The default values are those of a FREE record; n is the length of `members`. -/
structure Pack where
  state : PackState := .free
  serial : Word32 := 0
  cls : ClassIx := 0
  target : Nat := 0
  cap : Nat := 0
  retention : Byte := 0
  members : List MemberIx := []
  body : Nat := 0
  digest : Digest := {}
  projected : Nat := 0
  openTime : Time := 0
  firstDone : Time := 0
  lastDone : Time := 0
  sealTime : Time := 0
  age : Deadline := .absent
  cause : Option SealCause := none
  viewSlot : Option SlotIx := none
  returns : Word32 := 0
deriving DecidableEq, Repr

/-- Engine states (Table 7-2). -/
inductive EngineState where
  | idle | issuing | settling | suspending | suspended | stopping
deriving DecidableEq, Repr

/-- The current pack of the commit engine: its record and serial (Table 7-2). -/
structure Current where
  record : PackIx
  serial : Word32
deriving DecidableEq, Repr

/-- A record in DISCARDING and its count of units in flight (Table 7-2). -/
structure Discarding where
  record : PackIx
  units : Nat
deriving DecidableEq, Repr

/-- What an engine whose commit has ended keeps of it until the next one begins (log entry 27). -/
structure Leftover where
  nextUnit : Nat
  faults : Nat
  firstFaulted : Option Nat
  trailerAcc : Digest
deriving DecidableEq, Repr

/-- The Directory Commit Engine (Table 7-2). `afterEnd` is the model's own (log entry 30): while the commit in progress was
begun by the end of another within the present REFCLK period, and no unit of it has been issued, it holds what that end left,
for a QUIESCE onset that falls together with the last answer (R124). -/
structure Engine where
  queue : List PackIx := []
  state : EngineState := .idle
  current : Option Current := none
  nextUnit : Nat := 1
  unitsInFlight : Nat := 0
  faults : Nat := 0
  firstFaulted : Option Nat := none
  headerAcc : Digest := {}
  indexAcc : Digest := {}
  trailerAcc : Digest := {}
  discards : List Discarding := []
  afterEnd : Option Leftover := none
deriving DecidableEq, Repr

/-- The extent of one commit grant (Table 1-4). -/
inductive CommitMode where
  | steal | burst
deriving DecidableEq, Repr

/-- The Port Arbiter (Table 1-4). -/
structure Arbiter where
  share : Nat := 8
  mode : CommitMode := .steal
  run : Nat := 0
  burst : Option Nat := none
deriving DecidableEq, Repr

/-- Whose request a memory request is (R4): an upstream request, by its tag; a part of a view read; or a commit unit, by
its record and number. -/
inductive Owner where
  | upstream (tag : Nat)
  | viewPart
  | commitUnit (record : PackIx) (unit : Nat)
deriving DecidableEq, Repr

/-- A memory request in the forwarding queue or the in-flight list: READ (`write` false) or WRITE, its address, length,
write data and owner. -/
structure MemReq where
  write : Bool
  addr : Addr
  len : Nat
  data : List Byte
  owner : Owner
deriving DecidableEq, Repr

/-- One part of a view read (R133): a run of zeros, or a memory part still waiting for its answer, answered DONE with its
bytes, or answered FAULT. -/
inductive Piece where
  | zeros (len : Nat)
  | waiting (len : Nat)
  | filled (data : List Byte)
  | faulted
deriving DecidableEq, Repr

/-- A view read taken and not yet answered (R134): its tag, the slot of the binding it was taken on while that binding
stands (R147), and its parts in image order. -/
structure ViewRead where
  tag : Nat
  slot : Option SlotIx
  pieces : List Piece
deriving DecidableEq, Repr

/-- What a slot is bound to (Table 8-1). -/
structure Binding where
  record : PackIx
  serial : Word32
  length : Nat
deriving DecidableEq, Repr

/-- A disposition or return waiting for reads in flight (Table 8-1): a WRITTEN or a RETURN, each kept with the tag of its
write and its tape tag (R137), or an idle return. -/
inductive PendingReturn where
  | written (tag : Nat) (tapeTag : BitVec 128)
  | returned (tag : Nat) (tapeTag : BitVec 128)
  | idle
deriving DecidableEq, Repr

/-- A view slot (Table 8-1): FREE when nothing is bound. Whether it is enabled is its bit of the slot enable mask. -/
structure Slot where
  bound : Option Binding := none
  reads : Nat := 0
  pending : Option PendingReturn := none
  idle : Deadline := .absent
deriving DecidableEq, Repr

/-- The view window entry of the region table (Table 1-1). -/
structure ViewWindow where
  set : Bool := false
  base : Addr := 0
  mask : BitVec 4 := 0
deriving DecidableEq, Repr

/-- The directory area entry of the region table (Table 1-1). -/
structure DirectoryArea where
  set : Bool := false
  base : Addr := 0
deriving DecidableEq, Repr

/-- What an upstream response reports (R3). A REFUSED response carries no cause. -/
inductive UpBody where
  | done (data : List Byte)
  | refused
  | fault
deriving DecidableEq, Repr

/-- An upstream response with the request's tag (R1, R3). -/
structure UpResponse where
  tag : Nat
  body : UpBody
deriving DecidableEq, Repr

/-- Lead fault reasons (Table 2-3). -/
inductive LeadReason where
  | mark | check | kind | cls | length | sealLength
deriving DecidableEq, Repr

/-- Disposition refusal reasons (R136). -/
inductive DispositionReason where
  | notBound | format | serial | pending
deriving DecidableEq, Repr

/-- The cause of PACK_RETURNED (Table 10-5). -/
inductive ReturnCause where
  | returned | idle
deriving DecidableEq, Repr

/-- The cause of MEMBER_BROKEN (R36). -/
inductive BreakCause where
  | restart | holdExpired
deriving DecidableEq, Repr

/-- Events and their arguments (Table 10-5). -/
inductive EventBody where
  | packReady (record : PackIx) (serial : Word32) (length : Nat)
  | slotBound (slot : SlotIx) (serial : Word32) (length : Nat)
  | packReleased (serial : Word32) (tapeTag : BitVec 128)
  | packReturned (slot : SlotIx) (serial : Word32) (cause : ReturnCause)
  | commitFailed (record : PackIx) (serial : Word32) (faults : Nat) (firstUnit : Nat)
  | commitSuspended (record : PackIx) (serial : Word32) (nextUnit : Nat)
  | leadFault (lane : LaneIx) (offset : Nat) (reason : LeadReason)
  | resync (lane : LaneIx) (offset : Nat)
  | memberBroken (lane : LaneIx) (member : MemberIx) (leadOffset : Nat) (cause : BreakCause) (received : Nat)
  | holdExpired (lane : LaneIx) (refused : Nat) (cursor : Nat)
  | dispositionRefused (slot : SlotIx) (reason : DispositionReason)
  | waiting (member : MemberIx) (cls : ClassIx)
  | clockEnd
deriving DecidableEq, Repr

/-- A record of the event queue (R171). -/
structure EventRecord where
  time : Time
  body : EventBody
deriving DecidableEq, Repr

/-- Status codes of the management link (Table 10-3). -/
inductive Status where
  | ok | badState | badArg | overlap | bound | notFound | badConfig
deriving DecidableEq, Repr

/-- The response state and, in READY, the held response (Table 10-1). -/
inductive LinkResponse where
  | none
  | busy
  | ready (status : Status) (payload : List Byte)
deriving DecidableEq, Repr

/-- The part-wide counters: Tables 1-3, 6-5, 7-3, 8-4 and the two of R174. -/
structure Counters where
  rangeRefusals : Word32 := 0
  straddleRefusals : Word32 := 0
  placementRefusals : Word32 := 0
  memoryFaults : Word32 := 0
  sealedSize : Word32 := 0
  sealedCount : Word32 := 0
  sealedAge : Word32 := 0
  sealedLead : Word32 := 0
  sealedCommand : Word32 := 0
  sealedDrain : Word32 := 0
  sealedClassClosed : Word32 := 0
  packsReleased : Word32 := 0
  packsReturned : Word32 := 0
  packsDiscarded : Word32 := 0
  openPacksDiscarded : Word32 := 0
  commitsCompleted : Word32 := 0
  commitsFailed : Word32 := 0
  unitFaults : Word32 := 0
  readsServed : Word32 := 0
  readsRefused : Word32 := 0
  readFaults : Word32 := 0
  dispositionsRefused : Word32 := 0
  idleReturns : Word32 := 0
  framesDiscarded : Word32 := 0
  eventsLost : Word32 := 0
deriving DecidableEq, Repr

/-- The state of the part. The default values are those after power-on (R170). -/
structure State where
  /-- Commands waiting, first in, first out. -/
  pending : List Instr := []
  /-- RESETB is held low (R170). -/
  resetLow : Bool := false
  /-- The QUIESCE line is asserted (R166). -/
  quiesceLine : Bool := false
  /-- Part state (Table 10-4). -/
  part : PartState := .config
  /-- Response state and held response (Table 10-1). -/
  response : LinkResponse := .none
  /-- Bytes shifted out on MSDO in the last select period (R161, log entry 4). -/
  msdo : List Byte := []
  /-- Event queue, oldest first (R171). -/
  events : List EventRecord := []
  /-- Overflow flag (R171). -/
  overflow : Bool := false
  /-- Attention mask: bit c - 1 masks event kind code c (R173, Table 11-6). -/
  attentionMask : BitVec 13 := 0
  /-- Former id (R164). -/
  formerId : BitVec 16 := 0
  /-- Hold limit in ms (R165). -/
  holdLimit : Nat := 2000
  /-- Idle limit in ms (R165). -/
  idleLimit : Nat := 120000
  /-- Tape block size TB in bytes (R76). -/
  tapeBlock : Nat := 262144
  /-- serial_next (R95). -/
  serialNext : Word32 := 0
  /-- Class Table (R91). -/
  classes : Vector PackClass 8 := Vector.replicate 8 {}
  /-- View window (Table 1-1). -/
  window : ViewWindow := {}
  /-- Directory area (Table 1-1). -/
  directory : DirectoryArea := {}
  /-- The sixteen lanes. -/
  lanes : Vector Lane 16 := Vector.replicate 16 {}
  /-- Last-served lane (Table 3-1). -/
  lastServed : LaneIx := 15
  /-- Member Table (R58). -/
  members : MemberTable := []
  /-- Pack table (R94). -/
  packs : Vector Pack 64 := Vector.replicate 64 {}
  /-- Pack wait list (R99). -/
  waitList : List MemberIx := []
  /-- Ready queue, head first (R130). -/
  readyQueue : List PackIx := []
  /-- View slots (R129). -/
  slots : Vector Slot 4 := Vector.replicate 4 {}
  /-- Directory Commit Engine (Table 7-2). -/
  engine : Engine := {}
  /-- Port Arbiter (Table 1-4). -/
  arbiter : Arbiter := {}
  /-- Forwarding queue (R5). -/
  forwarding : List MemReq := []
  /-- In-flight list, in issue order (R4). -/
  inFlight : List MemReq := []
  /-- View reads with memory parts not yet all answered, in order of taking (R134). -/
  viewReads : List ViewRead := []
  /-- Requests waiting on the upstream bus (R2, log entry 3). -/
  bus : List Request := []
  /-- Upstream responses sent, oldest first (R3, log entry 4). -/
  sent : List UpResponse := []
  /-- Pack clock (R150). -/
  clock : Time := 0
  /-- Prescaler count (R150). -/
  prescaler : Nat := 0
  /-- Part-wide counters. -/
  counters : Counters := {}
deriving DecidableEq, Repr

/-- The part after power-on (R170): every piece of state at its initial value, the clock at 0, the part in CONFIG, and no
command waiting. RESETB is high and QUIESCE deasserted (log entry 5). -/
def State.reset : State := {}

end Sys2Proof.Machine
end

