-- ==== Sys2Proof/Machine/Operands.lean ====
section
/-!
DEFINITION. Reading and writing fields of records and frames: byte order, check sums, rounding, clamping, and the
operands of management commands (Conventions, R175, R177).
-/

namespace Sys2Proof.Machine

/-- The least significant `n` bytes of a number, little-endian (Conventions, Byte order). -/
def le : Nat → Nat → List Byte
  | 0, _ => []
  | n + 1, v => BitVec.ofNat 8 v :: le n (v / 256)

/-- The number a little-endian byte sequence stands for. -/
def leNat : List Byte → Nat
  | [] => 0
  | b :: bs => b.toNat + 256 * leNat bs

/-- The `size`-byte field at `offset` of a record. -/
def field (bytes : List Byte) (offset size : Nat) : Nat := leNat ((bytes.drop offset).take size)

/-- The sum of the little-endian 16-bit words of a record (R175). -/
def wordSum : List Byte → Nat
  | lo :: hi :: rest => lo.toNat + 256 * hi.toNat + wordSum rest
  | [lo] => lo.toNat
  | [] => 0

/-- The check of R175: the words sum to 0xFFFF modulo 2^16. -/
def checkPasses (bytes : List Byte) : Bool := wordSum bytes % 65536 == 0xFFFF

/-- The least multiple of `k` not less than `x` (Conventions). -/
def roundUp (k x : Nat) : Nat := (x + (k - 1)) / k * k

/-- A value clamped to a range (R7, R92, R165). -/
def clampTo (lo hi x : Nat) : Nat := max lo (min hi x)

/-- The tape block size stored for a requested value (R76). -/
def clampTapeBlock (x : Nat) : Nat :=
  if x ≤ 65536 then 65536
  else if x ≤ 131072 then 131072
  else if x ≤ 262144 then 262144
  else if x ≤ 524288 then 524288
  else 1048576

/-- A frame that R160 discards for its own form: an incomplete last byte, a count of whole bytes other than 3 plus the
payload length, or a payload length above 64. -/
def frameMalformed (bytes : List Byte) (extraBits : Nat) : Bool :=
  let len := ((bytes.getD 1 0).toNat + 256 * (bytes.getD 2 0).toNat)
  extraBits != 0 || bytes.length != 3 + len || Config.commandBuffer < len

/-- A lane number of a payload, 0..15. -/
def laneOf (b : Byte) : Option LaneIx := if h : b.toNat < 16 then some ⟨b.toNat, h⟩ else none

/-- A record index of a payload, 0..63. -/
def packOf (b : Byte) : Option PackIx := if h : b.toNat < 64 then some ⟨b.toNat, h⟩ else none

/-- A class number, 0..7. -/
def classOf (n : Nat) : Option ClassIx := if h : n < 8 then some ⟨n, h⟩ else none

/-- A flag byte: 0 or 1 (R177). -/
def flagOf (b : Byte) : Option Bool := if b = 0 then some false else if b = 1 then some true else none

/-- A commit mode byte: 0 is STEAL and 1 is BURST (R177). -/
def modeOf (b : Byte) : Option CommitMode := if b = 0 then some .steal else if b = 1 then some .burst else none

/-- The fields of a FILE lead that the Lane Parser keeps (R25). -/
structure LeadFields where
  cls : ClassIx
  dataLength : Nat
  dataset : Word32
  producerSeq : Word32
  nameDigest : BitVec 128
deriving DecidableEq, Repr

/-- The fields of a disposition record that is well formed (Table 11-2). -/
structure DispositionFields where
  written : Bool
  serial : Word32
  tapeTag : BitVec 128
deriving DecidableEq, Repr

/-- The FORMAT test of R136 on a write at a slot offset: the record's fields, or none. -/
def dispositionOf (offset : Nat) (bytes : List Byte) : Option DispositionFields :=
  let kind := field bytes 4 2
  if offset = 0 ∧ bytes.length = 32 ∧ field bytes 0 4 = Config.dispositionMark ∧ checkPasses bytes
      ∧ (kind = 1 ∨ kind = 2) ∧ field bytes 12 4 = 0 then
    some { written := kind = 1, serial := BitVec.ofNat 32 (field bytes 8 4), tapeTag := BitVec.ofNat 128 (field bytes 16 16) }
  else none

end Sys2Proof.Machine
end

