-- ==== Sys2Proof/Machine/Layout.lean ====
section
/-!
DEFINITION. Digest arithmetic (R84, R85) and the layout of a pack image (R77 to R82).
-/

namespace Sys2Proof.Machine

/-- The byte rule (R84): the byte is added to A, then the new A to B. -/
def Digest.byte (d : Digest) (x : Byte) : Digest :=
  let a := d.a + x.zeroExtend 32
  { a := a, b := d.b + a }

/-- A digest carried on over further bytes (R84). -/
def Digest.feed (d : Digest) (bytes : List Byte) : Digest := bytes.foldl Digest.byte d

/-- The digest of a byte sequence (R84). -/
def Digest.ofBytes (bytes : List Byte) : Digest := Digest.feed {} bytes

/-- The append rule (R85): `d` extended by a segment of `n` bytes whose own digest is `e`. -/
def Digest.append (d e : Digest) (n : Nat) : Digest :=
  { a := d.a + e.a, b := d.b + e.b + BitVec.ofNat 32 n * d.a }

/-- A digest extended by a run of `n` zero bytes (R85). -/
def Digest.zeros (d : Digest) (n : Nat) : Digest := d.append {} n

/-- The length of a member's section (R77). -/
def sectionLength (dataLength : Nat) : Nat := 64 + roundUp 64 dataLength

/-- The raw length of an image with `n` members and a body of so many bytes (R77). -/
def rawLength (body n : Nat) : Nat := 1024 + body + 64 * n

/-- The image length L (R77). -/
def imageLength (tb body n : Nat) : Nat := roundUp tb (rawLength body n)

/-- A size target in bytes (Conventions, Sizes). -/
def targetBytes (mib : Nat) : Nat := mib * 1048576

/-- The admission projection (R81): whether a member of data length `x` fits pack `p`. -/
def Pack.fits (tb : Nat) (p : Pack) (x : Nat) : Bool :=
  imageLength tb (p.body + sectionLength x) (p.members.length + 1) ≤ targetBytes p.target

/-- The section digest of a member (R72): its lead digest, its data digest over the data length, zeros over the pad. -/
def Member.formSection (m : Member) : Digest :=
  ((m.leadDigest.append m.dataDigest m.dataLength).zeros (roundUp 64 m.dataLength - m.dataLength))

end Sys2Proof.Machine
end

