-- ==== Sys2Proof/Machine/Flags.lean ====
section
/-!
DEFINITION. Counters, events and the attention output: everything the part computes to report what happened.
-/

namespace Sys2Proof.Machine

/-- A 32-bit counter increased by `n`, saturating at 2^32 - 1 (R11, R39, R110, R127, R146, R174). -/
def satAdd (c : Word32) (n : Nat) : Word32 := BitVec.ofNat 32 (min (c.toNat + n) (2 ^ 32 - 1))

/-- A change of the part-wide counters. -/
def State.count (f : Counters → Counters) (s : State) : State := { s with counters := f s.counters }

/-- The range refusals counter increases (R8). -/
def Counters.bumpRange (c : Counters) : Counters := { c with rangeRefusals := satAdd c.rangeRefusals 1 }

/-- The straddle refusals counter increases (R9). -/
def Counters.bumpStraddle (c : Counters) : Counters := { c with straddleRefusals := satAdd c.straddleRefusals 1 }

/-- The placement refusals counter increases (R10). -/
def Counters.bumpPlacement (c : Counters) : Counters := { c with placementRefusals := satAdd c.placementRefusals 1 }

/-- The memory faults counter increases (R5). -/
def Counters.bumpMemoryFault (c : Counters) : Counters := { c with memoryFaults := satAdd c.memoryFaults 1 }

/-- The sealed-pack counter of a cause increases (R101, R110). -/
def Counters.bumpSealed (cause : SealCause) (c : Counters) : Counters :=
  match cause with
  | .size => { c with sealedSize := satAdd c.sealedSize 1 }
  | .count => { c with sealedCount := satAdd c.sealedCount 1 }
  | .age => { c with sealedAge := satAdd c.sealedAge 1 }
  | .lead => { c with sealedLead := satAdd c.sealedLead 1 }
  | .command => { c with sealedCommand := satAdd c.sealedCommand 1 }
  | .drain => { c with sealedDrain := satAdd c.sealedDrain 1 }
  | .classClosed => { c with sealedClassClosed := satAdd c.sealedClassClosed 1 }

/-- The packs released counter increases (R139). -/
def Counters.bumpReleased (c : Counters) : Counters := { c with packsReleased := satAdd c.packsReleased 1 }

/-- The packs returned counter increases (R140). -/
def Counters.bumpReturned (c : Counters) : Counters := { c with packsReturned := satAdd c.packsReturned 1 }

/-- The packs-discarded counter, or the open-packs-discarded counter for a pack that was OPEN, increases (R106, R107). -/
def Counters.bumpDiscarded (wasOpen : Bool) (c : Counters) : Counters :=
  if wasOpen then { c with openPacksDiscarded := satAdd c.openPacksDiscarded 1 }
  else { c with packsDiscarded := satAdd c.packsDiscarded 1 }

/-- The commits-completed counter increases (R121). -/
def Counters.bumpCommitted (c : Counters) : Counters := { c with commitsCompleted := satAdd c.commitsCompleted 1 }

/-- The commits-failed counter increases (R121). -/
def Counters.bumpCommitFailed (c : Counters) : Counters := { c with commitsFailed := satAdd c.commitsFailed 1 }

/-- The commit unit faults counter increases (R120). -/
def Counters.bumpUnitFault (c : Counters) : Counters := { c with unitFaults := satAdd c.unitFaults 1 }

/-- The view reads served counter increases (R134). -/
def Counters.bumpServed (c : Counters) : Counters := { c with readsServed := satAdd c.readsServed 1 }

/-- The view reads refused counter increases (R132). -/
def Counters.bumpReadRefused (c : Counters) : Counters := { c with readsRefused := satAdd c.readsRefused 1 }

/-- The view read faults counter increases (R134). -/
def Counters.bumpReadFault (c : Counters) : Counters := { c with readFaults := satAdd c.readFaults 1 }

/-- The dispositions refused counter increases (R136). -/
def Counters.bumpDispositionRefused (c : Counters) : Counters :=
  { c with dispositionsRefused := satAdd c.dispositionsRefused 1 }

/-- The idle returns counter increases (R142). -/
def Counters.bumpIdleReturn (c : Counters) : Counters := { c with idleReturns := satAdd c.idleReturns 1 }

/-- The frames-discarded counter increases (R160). -/
def Counters.bumpFrameDiscarded (c : Counters) : Counters := { c with framesDiscarded := satAdd c.framesDiscarded 1 }

/-- The events-lost counter increases (R171). -/
def Counters.bumpEventLost (c : Counters) : Counters := { c with eventsLost := satAdd c.eventsLost 1 }

/-- An event is raised at stamp `t` (R171): its record joins the event queue, or is lost to a full queue, which sets the
overflow flag and increases the events-lost counter. -/
def State.raise (t : Time) (e : EventBody) (s : State) : State :=
  if s.events.length < Config.eventPlaces then { s with events := s.events ++ [⟨t, e⟩] }
  else { s with overflow := true, counters := s.counters.bumpEventLost }

/-- The code of an event kind (Table 11-9). -/
def EventBody.kindCode : EventBody → Nat
  | .packReady _ _ _ => 1
  | .slotBound _ _ _ => 2
  | .packReleased _ _ => 3
  | .packReturned _ _ _ => 4
  | .commitFailed _ _ _ _ => 5
  | .commitSuspended _ _ _ => 6
  | .leadFault _ _ _ => 7
  | .resync _ _ => 8
  | .memberBroken _ _ _ _ _ => 9
  | .holdExpired _ _ _ => 10
  | .dispositionRefused _ _ => 11
  | .waiting _ _ => 12
  | .clockEnd => 13

/-- ATTN is asserted (R173): the event queue holds a record whose kind is not in the attention mask. -/
def State.attn (s : State) : Bool := s.events.any (fun e => !s.attentionMask.getLsbD (e.body.kindCode - 1))

end Sys2Proof.Machine
end

