-- ==== Sys2Proof/Machine/Ops.lean ====
section
/-!
DEFINITION. The named operations on the parts of the state: the tables, the deadlines, upstream responses.
-/

namespace Sys2Proof.Machine

/-! ### The Member Table (chapter 4) -/

/-- The record at an index: a listed record, or a FREE one (R66). -/
def MemberTable.get : MemberTable → MemberIx → Member
  | [], _ => {}
  | (j, m) :: rest, i => if j = i then m else MemberTable.get rest i

/-- The table with the record at an index replaced; a record equal to a FREE one is not listed. -/
def MemberTable.put : MemberTable → MemberIx → Member → MemberTable
  | [], i, m => if m = {} then [] else [(i, m)]
  | (j, x) :: rest, i, m =>
      if i < j then (if m = {} then (j, x) :: rest else (i, m) :: (j, x) :: rest)
      else if i = j then (if m = {} then rest else (i, m) :: rest)
      else (j, x) :: MemberTable.put rest i m

/-- The canonical form: indices strictly rising, and no listed record equal to a FREE one. -/
def MemberTable.wf : MemberTable → Bool
  | [] => true
  | [(_, m)] => m ≠ {}
  | (i, m) :: (j, x) :: rest => m ≠ {} && decide (i < j) && MemberTable.wf ((j, x) :: rest)

/-- The least index from `n` on that the (rising) rest of the table does not list. -/
def MemberTable.gap : Nat → MemberTable → Nat
  | n, [] => n
  | n, (j, _) :: rest => if j.val = n then MemberTable.gap (n + 1) rest else n

/-- The lowest-numbered FREE record (R59), if there is one. -/
def MemberTable.lowestFree (t : MemberTable) : Option MemberIx :=
  let n := t.gap 0
  if h : n < 4096 then some ⟨n, h⟩ else none

/-- The FREE count (R67): 4,096 minus the records that are not FREE. -/
def MemberTable.freeCount (t : MemberTable) : Nat := 4096 - t.length

/-- The member record at an index. -/
def State.member (s : State) (m : MemberIx) : Member := s.members.get m

/-- The state with a member record replaced. -/
def State.setMember (m : MemberIx) (r : Member) (s : State) : State := { s with members := s.members.put m r }

/-! ### Lanes, packs, slots, classes -/

/-- Lane `k`. -/
def State.lane (s : State) (k : LaneIx) : Lane := s.lanes[k]

/-- The state with lane `k` replaced. -/
def State.setLane (k : LaneIx) (l : Lane) (s : State) : State := { s with lanes := s.lanes.set k l }

/-- Pack record `d`. -/
def State.pack (s : State) (d : PackIx) : Pack := s.packs[d]

/-- The state with pack record `d` replaced. -/
def State.setPack (d : PackIx) (p : Pack) (s : State) : State := { s with packs := s.packs.set d p }

/-- View slot `j`. -/
def State.slot (s : State) (j : SlotIx) : Slot := s.slots[j]

/-- The state with view slot `j` replaced. -/
def State.setSlot (j : SlotIx) (v : Slot) (s : State) : State := { s with slots := s.slots.set j v }

/-- Class `c`. -/
def State.cls (s : State) (c : ClassIx) : PackClass := s.classes[c]

/-- A change of a lane's counters. -/
def Lane.count (f : LaneCounters → LaneCounters) (l : Lane) : Lane := { l with counts := f l.counts }

/-- All lane numbers, ascending. -/
def allLanes : List LaneIx := [0, 1, 2, 3, 4, 5, 6, 7, 8, 9, 10, 11, 12, 13, 14, 15]

/-- All pack record indices, ascending. -/
def allPacks : List PackIx := List.finRange 64

/-- All slot numbers, ascending. -/
def allSlots : List SlotIx := [0, 1, 2, 3]

/-- All class numbers, ascending. -/
def allClasses : List ClassIx := [0, 1, 2, 3, 4, 5, 6, 7]

/-- Slot `j` is enabled: its bit of the slot enable mask (R129). -/
def State.slotEnabled (s : State) (j : SlotIx) : Bool := s.window.mask.getLsbD j.val

/-- The lane size in bytes (R17). -/
def Lane.size (l : Lane) : Nat := 2 ^ l.exponent

/-- The tail of lane `k` (R18): the lead offset of the head of its order list, else its pending lead start, else its
cursor. -/
def State.tail (s : State) (k : LaneIx) : Nat :=
  match (s.lane k).order with
  | m :: _ => (s.member m).leadOffset
  | [] => (s.lane k).pendingLead.getD (s.lane k).cursor

/-- Used (R18): the distance from tail forward to cursor around the ring. -/
def State.used (s : State) (k : LaneIx) : Nat :=
  ((s.lane k).cursor + (s.lane k).size - s.tail k) % (s.lane k).size

/-- The lengths of the held writes of a lane, summed. -/
def Lane.heldBytes (l : Lane) : Nat := (l.hold.map (fun w => w.data.length)).sum

/-- The projected cursor (R22). -/
def Lane.projected (l : Lane) : Nat := (l.cursor + l.heldBytes) % l.size

/-- The collected count (Table 2-1): bytes of the lead or candidate gathered so far. -/
def Lane.collected (l : Lane) : Nat := if l.parser = .seek then l.candidate.length else l.leadBuffer.length

/-! ### Deadlines (chapter 9) -/

/-- The end of the clock, 2^48 - 1. -/
def timeMax : Time := BitVec.allOnes 48

/-- A time clamped to 2^48 - 1 (R152). -/
def clampTime (n : Nat) : Time := BitVec.ofNat 48 (min n (2 ^ 48 - 1))

/-- A deadline armed at a clock value with a limit (R152): pending, or dormant while the clock holds at its end. -/
def Deadline.arm (now : Time) (limit : Nat) : Deadline :=
  if now = timeMax then .dormant else .pending (clampTime (now.toNat + limit))

/-- What a tick to `now` does to a deadline (R153): a pending deadline equal to it becomes due. -/
def Deadline.onTick (now : Time) : Deadline → Deadline
  | .pending v => if v = now then .due v else .pending v
  | d => d

/-- What SET_CLOCK to `p`, taken at `now`, does to a deadline whose owner's limit is `limit` (R156). -/
def Deadline.rebase (now p : Time) (limit : Nat) : Deadline → Deadline
  | .absent => .absent
  | .pending v => .pending (clampTime (p.toNat + (v.toNat - now.toNat)))
  | .due _ => .due p
  | .dormant => Deadline.arm p limit

/-- The value a report shows for a deadline (R159). -/
def Deadline.shown : Deadline → Option Time
  | .absent => none
  | .pending v => some v
  | .due v => some v
  | .dormant => some timeMax

/-! ### Upstream responses -/

/-- An upstream response is sent (R3). -/
def State.send (tag : Nat) (body : UpBody) (s : State) : State := { s with sent := s.sent ++ [⟨tag, body⟩] }

/-- REFUSED responses to held writes, in queue order (R3). -/
def State.refuseAll : List HeldWrite → State → State
  | [], s => s
  | w :: ws, s => State.refuseAll ws (s.send w.tag .refused)

/-- A memory request belongs to an upstream request. -/
def MemReq.isUpstream (r : MemReq) : Bool := match r.owner with | .upstream _ => true | _ => false

/-- A memory request is a commit unit. -/
def MemReq.isCommit (r : MemReq) : Bool := match r.owner with | .commitUnit _ _ => true | _ => false

/-- A slot keeps an upstream disposition write pending (R137). -/
def Slot.holdsWrite (v : Slot) : Bool :=
  match v.pending with
  | some (.written _ _) => true
  | some (.returned _ _) => true
  | _ => false

/-- The outstanding upstream requests (R2): held writes, forwarded requests waiting or in flight, view reads and pending
disposition writes. A refused request has been responded to within its own event (R3). -/
def State.outstanding (s : State) : Nat :=
  (allLanes.map (fun k => (s.lane k).hold.length)).sum + s.forwarding.countP MemReq.isUpstream
    + s.inFlight.countP MemReq.isUpstream + s.viewReads.length + allSlots.countP (fun j => (s.slot j).holdsWrite)

end Sys2Proof.Machine
end

