-- ==== Sys2Proof/Machine/Assembler.lean ====
section
/-!
DEFINITION. The Pack Assembler (chapter 6) and the beginning of a commit (R117): completion, opening, admission, sealing,
the wait list and its drain. `t` is the stamp of the event in progress (R23, R153).
-/

namespace Sys2Proof.Machine

/-- The commit engine begins a commit when it is IDLE, the part is in RUN and its queue is not empty (R117). -/
def State.beginCommit (s : State) : State :=
  if s.engine.state = .idle ∧ s.part = .run then
    match s.engine.queue with
    | [] => s
    | d :: _ =>
        { s with engine := { s.engine with
            state := .issuing, current := some ⟨d, (s.pack d).serial⟩, nextUnit := 1, unitsInFlight := 0, faults := 0,
            firstFaulted := none, headerAcc := {}, indexAcc := {}, trailerAcc := {}, afterEnd := none } }
  else s

/-- A pack joins the tail of the commit queue (R116), and an IDLE engine in RUN begins (R117). -/
def State.joinCommitQueue (d : PackIx) (s : State) : State :=
  State.beginCommit { s with engine := { s.engine with queue := s.engine.queue ++ [d] } }

/-- Members of a pack go from PACKED to FILED together (R63). -/
def State.fileMembers : List MemberIx → State → State
  | [], s => s
  | m :: ms, s => State.fileMembers ms (s.setMember m { s.member m with state := .filed })

/-- The seal of pack `d` (R101). -/
def State.sealPack (t : Time) (cause : SealCause) (d : PackIx) (s : State) : State :=
  let p := s.pack d
  ((((s.setPack d { p with state := .sealing, age := .absent, sealTime := t, cause := some cause }).fileMembers p.members).count
    (Counters.bumpSealed cause)).joinCommitQueue d)

/-- The OPEN pack of a class (R97), if there is one. -/
def State.openPackOf (s : State) (c : ClassIx) : Option PackIx :=
  allPacks.find? (fun d => decide ((s.pack d).state = .opened) && decide ((s.pack d).cls = c))

/-- The lowest-numbered FREE pack record, if there is one. -/
def State.freePack (s : State) : Option PackIx := allPacks.find? (fun d => decide ((s.pack d).state = .free))

/-- A seal request for a class (R102): its OPEN pack is sealed, or nothing happens. -/
def State.sealClassPack (t : Time) (cause : SealCause) (c : ClassIx) (s : State) : State :=
  match s.openPackOf c with
  | some d => s.sealPack t cause d
  | none => s

/-- Opening record `d` for class `c` (R98, R95). Its first member is added in the same event by the caller. -/
def State.openPack (t : Time) (d : PackIx) (c : ClassIx) (s : State) : State :=
  let k := s.cls c
  let p : Pack :=
    { state := .opened, serial := s.serialNext, cls := c, target := k.target, cap := k.cap, retention := k.retention,
      openTime := t, age := Deadline.arm s.clock k.ageLimit }
  { s.setPack d p with serialNext := s.serialNext + 1 }

/-- The pack record after member record `r`, entry `m`, has been added (R80, R98 steps 1 to 3). -/
def Pack.withMember (tb : Nat) (m : MemberIx) (r : Member) (p : Pack) : Pack :=
  let len := sectionLength r.dataLength
  { p with
    digest := p.digest.append r.sectionDigest len
    body := p.body + len
    members := p.members ++ [m]
    projected := imageLength tb (p.body + len) (p.members.length + 1)
    firstDone := if p.members.length = 0 then r.doneTime else p.firstDone
    lastDone := r.doneTime }

/-- The tests that end an add (R98 step 4): SIZE for an image beyond the target, else COUNT at the cap. -/
def State.sealIfFull (t : Time) (d : PackIx) (s : State) : State :=
  if targetBytes (s.pack d).target < (s.pack d).projected then s.sealPack t .size d
  else if (s.pack d).cap ≤ (s.pack d).members.length then s.sealPack t .count d
  else s

/-- Adding member `m` to pack `d` (R80, R98). -/
def State.addMember (t : Time) (m : MemberIx) (d : PackIx) (s : State) : State :=
  let r := s.member m
  let p := s.pack d
  (((s.setPack d (p.withMember s.tapeBlock m r)).setMember m
    { r with state := .packed, packRecord := some d, sectionOffset := some (512 + p.body) }).sealIfFull t d)

/-- Member `m` of class `c` joins the tail of the wait list and becomes WAITING; the event is raised when the list was
empty (R99). -/
def State.joinWaitList (t : Time) (m : MemberIx) (c : ClassIx) (s : State) : State :=
  let s1 := s.setMember m { s.member m with state := .waiting }
  let s2 := if s.waitList = [] then s1.raise t (.waiting m c) else s1
  { s2 with waitList := s.waitList ++ [m] }

/-- Member `m` needs a new pack (R97 step 3): the lowest FREE record is opened with it, or it waits. -/
def State.newPackFor (t : Time) (m : MemberIx) (c : ClassIx) (s : State) : State :=
  match s.freePack with
  | some d => (s.openPack t d c).addMember t m d
  | none => s.joinWaitList t m c

/-- A disabled class holds no OPEN pack at the end of a completion, a drain of the class or the SET_CLASS that disables
it (R93, R98). -/
def State.closeIfDisabled (t : Time) (c : ClassIx) (s : State) : State :=
  if (s.cls c).enabled then s else s.sealClassPack t .classClosed c

/-- A member of class `c` waits (R97 step 1). -/
def State.classWaits (s : State) (c : ClassIx) : Bool := s.waitList.any (fun w => decide ((s.member w).cls = c))

/-- A completed member handed to the Pack Assembler (R97, R98). -/
def State.assemble (t : Time) (m : MemberIx) (s : State) : State :=
  let c := (s.member m).cls
  State.closeIfDisabled t c <|
    if s.classWaits c then s.joinWaitList t m c
    else match s.openPackOf c with
      | some d =>
          if (s.pack d).fits s.tapeBlock (s.member m).dataLength then s.addMember t m d
          else (s.sealPack t .size d).newPackFor t m c
      | none => s.newPackFor t m c

/-- Member `m` leaves the wait list. -/
def State.unwait (m : MemberIx) (s : State) : State := { s with waitList := s.waitList.filter (fun w => decide (w ≠ m)) }

/-- A waiting member given a new pack: the lowest FREE record (R100). -/
def State.openWaiting (t : Time) (m : MemberIx) (c : ClassIx) (d : PackIx) (s : State) : State :=
  (((s.unwait m).openPack t d c).addMember t m d)

/-- The further waiting members of class `c`, in list order (R100 step 3), and whether all of them were added. -/
def State.drainMembers (t : Time) (c : ClassIx) : List MemberIx → State → State × Bool
  | [], s => (s, true)
  | m :: ms, s =>
      match s.openPackOf c with
      | some d =>
          if (s.pack d).fits s.tapeBlock (s.member m).dataLength then
            State.drainMembers t c ms ((s.unwait m).addMember t m d)
          else
            let s1 := s.sealPack t .size d
            match s1.freePack with
            | some e => State.drainMembers t c ms (s1.openWaiting t m c e)
            | none => (s1, false)
      | none =>
          match s.freePack with
          | some e => State.drainMembers t c ms (s.openWaiting t m c e)
          | none => (s, false)

/-- One round of a drain (R100 steps 1 to 4), for the class of the head of the wait list, into FREE record `d`. -/
def State.drainRound (t : Time) (m : MemberIx) (d : PackIx) (s : State) : State :=
  let c := (s.member m).cls
  let others := (s.waitList.drop 1).filter (fun w => decide ((s.member w).cls = c))
  let r := (s.openWaiting t m c d).drainMembers t c others
  if r.2 then r.1.closeIfDisabled t c else r.1

/-- Rounds of a drain while a record is FREE and the wait list is not empty. Each round takes at least one member off the
list, so as many rounds as the list is long are enough. -/
def State.drainRounds (t : Time) : Nat → State → State
  | 0, s => s
  | n + 1, s =>
      match s.waitList, s.freePack with
      | m :: _, some d => State.drainRounds t n (s.drainRound t m d)
      | _, _ => s

/-- A drain of the wait list (R100). -/
def State.drainWaitList (t : Time) (s : State) : State := s.drainRounds t s.waitList.length

/-- Record `d` becomes FREE, with the initial values of Table 6-2 (R94). -/
def State.freeRecord (d : PackIx) (s : State) : State := s.setPack d {}

end Sys2Proof.Machine
end

