-- ==== Sys2Proof/Machine/Lead.lean ====
section
/-!
DEFINITION. The Lane Parser as a reader of bytes: the validation of leads (R20) and what each parser state does with one
byte (R24 to R33). What a byte gives rise to outside its lane (a member entry, a seal request, an event) is handed on as
a result, in lane order (R23).
-/

namespace Sys2Proof.Machine

/-- The outcome of validating 64 bytes as a lead (R20). -/
inductive Verdict where
  | file (f : LeadFields)
  | seal (cls : ClassIx)
  | bad (reason : LeadReason)
deriving DecidableEq, Repr

/-- What a byte of an accepted write gives rise to (R23). -/
inductive Found where
  /-- A valid FILE lead, or FILE candidate if `resync` (R25, R33). -/
  | file (start : Nat) (lead : List Byte) (f : LeadFields) (resync : Bool)
  /-- A valid SEAL lead, or SEAL candidate if `resync` (R27, R33). -/
  | seal (start : Nat) (cls : ClassIx) (resync : Bool)
  /-- A lead that fails validation in LEAD (R28). -/
  | fault (start : Nat) (reason : LeadReason)
  /-- A data byte of the receiving member; `last` when remaining reaches 0 (R29). -/
  | data (b : Byte) (last : Bool)
deriving DecidableEq, Repr

/-- The class of a lead's class byte, if it is below 8 and enabled (Table 2-3, test 4). -/
def enabledClass (classes : Vector PackClass 8) (n : Nat) : Option ClassIx :=
  match classOf n with
  | some c => if classes[c].enabled then some c else none
  | none => none

/-- The validation of a complete lead or candidate by the tests of Table 2-3, in order (R20). -/
def judgeLead (classes : Vector PackClass 8) (bytes : List Byte) : Verdict :=
  if field bytes 0 4 ≠ Config.leadMark then .bad .mark
  else if !checkPasses bytes then .bad .check
  else if field bytes 4 1 ≠ 1 ∧ field bytes 4 1 ≠ 2 then .bad .kind
  else match enabledClass classes (field bytes 5 1) with
    | none => .bad .cls
    | some c =>
        if Config.maxDataLength < field bytes 8 4 then .bad .length
        else if field bytes 4 1 = 2 ∧ field bytes 8 4 ≠ 0 then .bad .sealLength
        else if field bytes 4 1 = 1 then
          .file { cls := c, dataLength := field bytes 8 4, dataset := BitVec.ofNat 32 (field bytes 12 4),
                  producerSeq := BitVec.ofNat 32 (field bytes 16 4), nameDigest := BitVec.ofNat 128 (field bytes 20 16) }
        else .seal c

/-- The lane after a lead or candidate has been taken or given up: both buffers empty and no pending lead start (R19). -/
def Lane.clearLead (l : Lane) : Lane := { l with leadBuffer := [], candidate := [], pendingLead := none }

/-- SEEK entry (R34). The cursor is not moved. -/
def Lane.enterSeek (l : Lane) : Lane := { l.clearLead with parser := .seek, receiving := none, remaining := 0 }

/-- The lane after a valid FILE lead of data length `n` (R25, R26): DATA with `n` bytes to come, or LEAD when `n` is 0. -/
def Lane.afterFile (n : Nat) (l : Lane) : Lane :=
  if n = 0 then { l.clearLead with parser := .lead, remaining := 0 }
  else { l.clearLead with parser := .data, remaining := n }

/-- What the lane does with a complete lead in LEAD (R24 to R28). -/
def Lane.takeLead (classes : Vector PackClass 8) (start : Nat) (lead : List Byte) (l : Lane) : Lane × Option Found :=
  match judgeLead classes lead with
  | .file f => (l.afterFile f.dataLength, some (.file start lead f false))
  | .seal c => ({ l.clearLead with parser := .lead }, some (.seal start c false))
  | .bad r => (l.enterSeek, some (.fault start r))

/-- What the lane does with a complete candidate in SEEK (R33). -/
def Lane.takeCandidate (classes : Vector PackClass 8) (start : Nat) (lead : List Byte) (l : Lane) : Lane × Option Found :=
  match judgeLead classes lead with
  | .file f => (l.afterFile f.dataLength, some (.file start lead f true))
  | .seal c => ({ l.clearLead with parser := .lead }, some (.seal start c true))
  | .bad _ => (l.clearLead, none)

/-- The parser state once data or pad has been passed: LEAD at a 64-aligned cursor, else PAD (R30, R31). -/
def Lane.padOrLead (l : Lane) : Lane :=
  if l.cursor % 64 = 0 then { l with parser := .lead } else { l with parser := .pad }

/-- One byte in lane order (R23): the cursor moves past it, and the parser state at the byte says what it is. -/
def Lane.scanByte (classes : Vector PackClass 8) (l : Lane) (b : Byte) : Lane × Option Found :=
  let off := l.cursor
  let l1 := { l with cursor := (off + 1) % l.size }
  match l.parser with
  | .lead =>
      let start := if l.leadBuffer = [] then off else l.pendingLead.getD off
      let buf := l.leadBuffer ++ [b]
      if buf.length < 64 then ({ l1 with leadBuffer := buf, pendingLead := some start }, none)
      else l1.takeLead classes start buf
  | .data =>
      let left := l.remaining - 1
      if left = 0 then ({ l1 with remaining := 0 }.padOrLead, some (.data b true))
      else ({ l1 with remaining := left }, some (.data b false))
  | .pad => (l1.padOrLead, none)
  | .seek =>
      if l.candidate = [] ∧ off % 64 ≠ 0 then (l1, none)
      else
        let start := if l.candidate = [] then off else l.pendingLead.getD off
        let buf := l.candidate ++ [b]
        if buf.length < 64 then ({ l1 with candidate := buf, pendingLead := some start }, none)
        else l1.takeCandidate classes start buf

/-- A byte that completes a valid FILE lead. -/
def Found.isFile : Option Found → Bool
  | some (.file _ _ _ _) => true
  | _ => false

/-- The lead count (R35): the valid FILE leads whose 64th byte a write carries, parsed from the lane's state without
changing it. -/
def Lane.leadCount (classes : Vector PackClass 8) : Lane → List Byte → Nat
  | _, [] => 0
  | l, b :: bs =>
      let r := l.scanByte classes b
      (if Found.isFile r.2 then 1 else 0) + Lane.leadCount classes r.1 bs

end Sys2Proof.Machine
end

