-- ==== Sys2Proof/Machine/LaneOps.lean ====
section
/-!
DEFINITION. Lanes and members in the state: what an accepted write does (R23 to R33), the acceptance test (R45), release
passes (R50), broken members (R36), release and tail advance (R64, R69).
-/

namespace Sys2Proof.Machine

/-- A change of lane `k`. -/
def State.mapLane (k : LaneIx) (f : Lane → Lane) (s : State) : State := s.setLane k (f (s.lane k))

/-- Completion of member `m` of lane `k` (R30): completion time, section digest, the counter, and the hand-over to the Pack
Assembler. -/
def State.completeMember (t : Time) (k : LaneIx) (m : MemberIx) (s : State) : State :=
  let r := s.member m
  (((s.setMember m { r with doneTime := t, sectionDigest := r.formSection }).mapLane k (fun l =>
    { l with receiving := none,
             counts := { l.counts with membersCompleted := satAdd l.counts.membersCompleted 1 } })).assemble t m)

/-- RESYNC for a candidate found in SEEK (R33), before any event of the lead's own effects. -/
def State.resyncIf (t : Time) (k : LaneIx) (start : Nat) (resync : Bool) (s : State) : State :=
  if resync then s.raise t (.resync k start) else s

/-- The record of a member whose valid FILE lead has been taken (R25, R59, R72). -/
def newMember (t : Time) (k : LaneIx) (start : Nat) (lead : List Byte) (f : LeadFields) : Member :=
  { state := .receiving, lane := k, leadOffset := start, dataLength := f.dataLength, cls := f.cls, dataset := f.dataset,
    producerSeq := f.producerSeq, nameDigest := f.nameDigest, leadDigest := Digest.ofBytes lead, leadTime := t }

/-- A valid FILE lead (R25, R26): the lowest FREE entry becomes RECEIVING and joins the lane order list; a member of length
0 completes at once, another becomes the receiving member. -/
def State.takeFile (t : Time) (k : LaneIx) (start : Nat) (lead : List Byte) (f : LeadFields) (s : State) : State :=
  match s.members.lowestFree with
  | none => s
  | some m =>
      let s1 := (s.setMember m (newMember t k start lead f)).mapLane k (fun l => { l with order := l.order ++ [m] })
      if f.dataLength = 0 then s1.completeMember t k m
      else s1.mapLane k (fun l => { l with receiving := some m })

/-- A data byte of the lane's receiving member (R29, R60), which completes it when it is the last. -/
def State.takeData (t : Time) (k : LaneIx) (b : Byte) (last : Bool) (s : State) : State :=
  match (s.lane k).receiving with
  | none => s
  | some m =>
      let r := s.member m
      let s1 := s.setMember m { r with received := r.received + 1, dataDigest := r.dataDigest.byte b }
      if last then s1.completeMember t k m else s1

/-- A result of the parse of lane `k`, taken whole by the block that receives it (R23). -/
def State.takeFound (t : Time) (k : LaneIx) : Option Found → State → State
  | none, s => s
  | some (.file start lead f resync), s => (s.resyncIf t k start resync).takeFile t k start lead f
  | some (.seal start c resync), s => (s.resyncIf t k start resync).sealClassPack t .lead c
  | some (.fault start reason), s =>
      (s.raise t (.leadFault k start reason)).mapLane k (fun l =>
        l.count (fun c => { c with leadFaults := satAdd c.leadFaults 1 }))
  | some (.data b last), s => s.takeData t k b last

/-- The parse of the bytes of an accepted write of lane `k`, one by one in lane order (R23). -/
def State.parseBytes (t : Time) (k : LaneIx) : List Byte → State → State
  | [], s => s
  | b :: bs, s =>
      let r := (s.lane k).scanByte s.classes b
      State.parseBytes t k bs ((s.setLane k r.1).takeFound t k r.2)

/-- A memory request joins the tail of the forwarding queue (R5). -/
def State.forward (r : MemReq) (s : State) : State := { s with forwarding := s.forwarding ++ [r] }

/-- An accepted write of lane `k` (R46): parsed whole, counted, and passed to the forwarding queue. -/
def State.acceptWrite (t : Time) (k : LaneIx) (w : HeldWrite) (s : State) : State :=
  ((s.parseBytes t k w.data).mapLane k (fun l =>
    l.count (fun c => { c with bytesAccepted := satAdd c.bytesAccepted w.data.length }))).forward
    { write := true, addr := w.addr, len := w.data.length, data := w.data, owner := .upstream w.tag }

/-- The acceptance test (R45) on a write of lane `k` with these bytes. -/
def State.accepts (s : State) (k : LaneIx) (data : List Byte) : Bool :=
  s.used k + data.length ≤ (s.lane k).size - 64 && (s.lane k).leadCount s.classes data ≤ s.members.freeCount

/-! ### Release passes -/

/-- The held heads of lane `k` served by a release pass (R50): accepted one after another until one fails or the queue is
empty. `accepted` says whether a head of this lane has been accepted in this pass. -/
def State.serveHeads (t : Time) (k : LaneIx) : List HeldWrite → Bool → State → State
  | [], accepted, s => if accepted then s.mapLane k (fun l => { l with holdDeadline := .absent }) else s
  | w :: ws, accepted, s =>
      if s.accepts k w.data then
        let s1 := s.mapLane k (fun l => { l with hold := ws })
        State.serveHeads t k ws true (State.acceptWrite t k w { s1 with lastServed := k })
      else if accepted then s.mapLane k (fun l => { l with holdDeadline := Deadline.arm s.clock s.holdLimit })
      else s

/-- Release pass over a list of lanes, each visited once. -/
def State.serveLanes (t : Time) : List LaneIx → State → State
  | [], s => s
  | k :: ks, s => State.serveLanes t ks (s.serveHeads t k (s.lane k).hold false)

/-- The lanes in the order a release pass visits them: ascending from the lane after the last served, wrapping (R50). -/
def passOrder (lastServed : LaneIx) : List LaneIx := allLanes.map (fun i => lastServed + 1 + i)

/-- A release pass (R50). -/
def State.releasePass (t : Time) (s : State) : State := s.serveLanes t (passOrder s.lastServed)

/-! ### Broken members -/

/-- The receiving member of lane `k`, if any, is broken (R36, R65): its entry leaves the order list and becomes FREE. -/
def State.breakMember (t : Time) (cause : BreakCause) (k : LaneIx) (s : State) : State :=
  match (s.lane k).receiving with
  | none => s
  | some m =>
      let r := s.member m
      ((s.setMember m {}).mapLane k (fun l =>
        { l with order := l.order.filter (fun i => decide (i ≠ m)), receiving := none, remaining := 0,
                 counts := { l.counts with brokenMembers := satAdd l.counts.brokenMembers 1 } })).raise t
        (.memberBroken k m r.leadOffset cause r.received)

/-- Every held write of lane `k` is refused, in queue order, and its hold deadline is cancelled (R51, R54, R55). -/
def State.refuseHeld (k : LaneIx) (s : State) : State :=
  (State.refuseAll (s.lane k).hold s).mapLane k (fun l => { l with hold := [], holdDeadline := .absent })

/-- Every held write of every lane of a list is refused, lane by lane. -/
def State.refuseHeldIn : List LaneIx → State → State
  | [], s => s
  | k :: ks, s => State.refuseHeldIn ks (s.refuseHeld k)

/-! ### Release and tail advance -/

/-- Members of a pack become RELEASED, and refer to no pack any more (R64). -/
def State.releaseMembers : List MemberIx → State → State
  | [], s => s
  | m :: ms, s =>
      State.releaseMembers ms (s.setMember m
        { s.member m with state := .released, packRecord := none, sectionOffset := none })

/-- The order list and the Member Table once the RELEASED heads of the list have been popped and become FREE (R69 step 1). -/
def popReleased : List MemberIx → MemberTable → List MemberIx × MemberTable
  | [], t => ([], t)
  | m :: ms, t => if (t.get m).state = .released then popReleased ms (t.put m {}) else (m :: ms, t)

/-- The tail advance of lane `k` (R69). Tail and used follow from the list (R18). -/
def State.advanceTail (k : LaneIx) (s : State) : State :=
  let r := popReleased (s.lane k).order s.members
  ({ s with members := r.2 } : State).mapLane k (fun l => { l with order := r.1 })

/-- The tail advances of a list of lanes. -/
def State.advanceTails : List LaneIx → State → State
  | [], s => s
  | k :: ks, s => State.advanceTails ks (s.advanceTail k)

/-- The lanes that hold a member of a list. -/
def State.lanesOf (s : State) (ms : List MemberIx) : List LaneIx :=
  allLanes.filter (fun k => ms.any (fun m => decide ((s.member m).lane = k)))

/-- The release of the members of pack `d` (R64), the tail advance (R69) and the release pass that follows. -/
def State.releasePack (t : Time) (d : PackIx) (s : State) : State :=
  let ms := (s.pack d).members
  State.releasePass t ((s.releaseMembers ms).advanceTails (s.lanesOf ms))

end Sys2Proof.Machine
end

