-- ==== Sys2Proof/Machine/Records.lean ====
section
/-!
DEFINITION. The code values of Table 11-9 and the byte layouts of the header, the index entry, the trailer and the event
record (R176, Tables 11-3 to 11-7).
-/

namespace Sys2Proof.Machine

/-- `n` zero bytes. -/
def zeroBytes (n : Nat) : List Byte := List.replicate n 0

/-- A digest in 8 bytes, A then B (R176). -/
def Digest.bytes (d : Digest) : List Byte := le 4 d.a.toNat ++ le 4 d.b.toNat

/-- A flag in one byte. -/
def flagByte (b : Bool) : Byte := if b then 1 else 0

/-- Part state codes. -/
def PartState.code : PartState → Nat
  | .config => 0 | .run => 1 | .quiesced => 2

/-- Pack state codes. -/
def PackState.code : PackState → Nat
  | .free => 0 | .opened => 1 | .sealing => 2 | .ready => 3 | .bound => 4 | .failed => 5 | .discarding => 6

/-- Parser state codes. -/
def ParserState.code : ParserState → Nat
  | .lead => 0 | .data => 1 | .pad => 2 | .seek => 3

/-- Engine state codes. -/
def EngineState.code : EngineState → Nat
  | .idle => 0 | .issuing => 1 | .settling => 2 | .suspending => 3 | .suspended => 4 | .stopping => 5

/-- Slot pending codes. -/
def pendingCode : Option PendingReturn → Nat
  | none => 0 | some (.written _ _) => 1 | some (.returned _ _) => 2 | some .idle => 3

/-- Seal cause codes, 0 for none. -/
def sealCode : Option SealCause → Nat
  | none => 0 | some .size => 1 | some .count => 2 | some .age => 3 | some .lead => 4 | some .command => 5
  | some .drain => 6 | some .classClosed => 7

/-- Lead fault reason codes. -/
def LeadReason.code : LeadReason → Nat
  | .mark => 1 | .check => 2 | .kind => 3 | .cls => 4 | .length => 5 | .sealLength => 6

/-- Disposition refusal reason codes. -/
def DispositionReason.code : DispositionReason → Nat
  | .notBound => 1 | .format => 2 | .serial => 3 | .pending => 4

/-- PACK_RETURNED cause codes. -/
def ReturnCause.code : ReturnCause → Nat
  | .returned => 1 | .idle => 2

/-- MEMBER_BROKEN cause codes. -/
def BreakCause.code : BreakCause → Nat
  | .restart => 1 | .holdExpired => 2

/-- Commit mode codes (R177). -/
def CommitMode.code : CommitMode → Nat
  | .steal => 0 | .burst => 1

/-- Status codes (R177). -/
def Status.code : Status → Nat
  | .ok => 0 | .badState => 1 | .badArg => 2 | .overlap => 3 | .bound => 4 | .notFound => 5 | .badConfig => 6

/-! ### Directory records -/

/-- The 512 header bytes of a pack (Table 11-3). -/
def headerBytes (formerId : BitVec 16) (tb : Nat) (p : Pack) : List Byte :=
  le 4 Config.headerMark ++ le 2 1 ++ le 2 formerId.toNat ++ le 4 p.serial.toNat
    ++ [BitVec.ofNat 8 p.cls.val, p.retention, BitVec.ofNat 8 (sealCode p.cause), 0]
    ++ le 4 p.members.length ++ le 4 p.projected ++ le 4 (512 + p.body) ++ le 4 (p.projected - 512) ++ le 4 tb
    ++ zeroBytes 4
    ++ le 8 p.openTime.toNat ++ le 8 p.firstDone.toNat ++ le 8 p.lastDone.toNat ++ le 8 p.sealTime.toNat
    ++ zeroBytes 440

/-- The 64-byte index entry of a member (Table 11-4). -/
def indexEntry (m : Member) : List Byte :=
  le 16 m.nameDigest.toNat ++ le 4 m.dataset.toNat ++ le 4 m.producerSeq.toNat ++ le 4 (m.sectionOffset.getD 0)
    ++ le 4 m.dataLength ++ m.dataDigest.bytes ++ le 8 m.doneTime.toNat
    ++ [BitVec.ofNat 8 m.lane.val, BitVec.ofNat 8 m.cls.val] ++ zeroBytes 6 ++ le 8 m.leadTime.toNat

/-- Trailer bytes 0 to 503 of a pack with a given index digest (Table 11-5). -/
def trailerBytes (formerId : BitVec 16) (indexDigest : Digest) (p : Pack) : List Byte :=
  le 4 Config.trailerMark ++ le 2 formerId.toNat ++ zeroBytes 2 ++ le 4 p.serial.toNat ++ le 4 p.members.length
    ++ le 4 p.projected ++ zeroBytes 4 ++ p.digest.bytes ++ indexDigest.bytes ++ zeroBytes 464

/-- The pack digest (R88): header, body, index, image pad and trailer bytes 0 to 503, appended in order. -/
def packDigest (p : Pack) (header index trailer : Digest) : Digest :=
  let n := p.members.length
  ((((header.append p.digest p.body).append index (64 * n)).zeros (p.projected - rawLength p.body n)).append trailer 504)

/-- The number of commit units of a pack (R114). -/
def Pack.unitCount (p : Pack) : Nat := p.members.length + 16

/-- The last unit of the commit block of unit `u` (R114). -/
def Pack.blockEnd (p : Pack) (u : Nat) : Nat := min (roundUp 64 u) p.unitCount

/-- 64 bytes of a record, from an offset. -/
def slice64 (bytes : List Byte) (offset : Nat) : List Byte := (bytes.drop offset).take 64

/-- A commit unit's bytes and the accumulators after it has been built. -/
structure BuiltUnit where
  bytes : List Byte
  headerAcc : Digest
  indexAcc : Digest
  trailerAcc : Digest
deriving DecidableEq, Repr

/-- Building unit `u` of pack `p` (R115, R119): header units 1 to 8, index units 9 to n + 8, trailer units n + 9 to
n + 16, the last of which ends in the pack digest. -/
def buildUnit (formerId : BitVec 16) (tb : Nat) (members : MemberTable) (p : Pack) (e : Engine) (u : Nat) : BuiltUnit :=
  let n := p.members.length
  if u ≤ 8 then
    let bytes := slice64 (headerBytes formerId tb p) (64 * (u - 1))
    { bytes := bytes, headerAcc := e.headerAcc.feed bytes, indexAcc := e.indexAcc, trailerAcc := e.trailerAcc }
  else if u ≤ n + 8 then
    let bytes := match p.members[u - 9]? with
      | some m => indexEntry (members.get m)
      | none => zeroBytes 64
    { bytes := bytes, headerAcc := e.headerAcc, indexAcc := e.indexAcc.feed bytes, trailerAcc := e.trailerAcc }
  else
    let part := slice64 (trailerBytes formerId e.indexAcc p) (64 * (u - n - 9))
    let acc := e.trailerAcc.feed part
    let bytes := if u = n + 16 then part ++ (packDigest p e.headerAcc e.indexAcc acc).bytes else part
    { bytes := bytes, headerAcc := e.headerAcc, indexAcc := e.indexAcc, trailerAcc := acc }

/-! ### Event record -/

/-- The argument bytes of an event, without the zeros that fill 24 bytes (Table 11-7). -/
def EventBody.arguments : EventBody → List Byte
  | .packReady d s l => le 1 d.val ++ zeroBytes 3 ++ le 4 s.toNat ++ le 4 l
  | .slotBound j s l => le 1 j.val ++ zeroBytes 3 ++ le 4 s.toNat ++ le 4 l
  | .packReleased s tag => le 4 s.toNat ++ le 16 tag.toNat
  | .packReturned j s c => le 1 j.val ++ le 1 c.code ++ zeroBytes 2 ++ le 4 s.toNat
  | .commitFailed d s f u => le 1 d.val ++ zeroBytes 1 ++ le 2 u ++ le 4 s.toNat ++ le 2 f
  | .commitSuspended d s u => le 1 d.val ++ zeroBytes 1 ++ le 2 u ++ le 4 s.toNat
  | .leadFault k o r => le 1 k.val ++ le 1 r.code ++ zeroBytes 2 ++ le 4 o
  | .resync k o => le 1 k.val ++ zeroBytes 3 ++ le 4 o
  | .memberBroken k m o c r => le 1 k.val ++ le 1 c.code ++ le 2 m.val ++ le 4 o ++ le 4 r
  | .holdExpired k n c => le 1 k.val ++ le 1 n ++ zeroBytes 2 ++ le 4 c
  | .dispositionRefused j r => le 1 j.val ++ le 1 r.code
  | .waiting m c => le 2 m.val ++ le 1 c.val
  | .clockEnd => []

/-- The 32-byte event record (Table 11-7). -/
def EventRecord.bytes (e : EventRecord) : List Byte :=
  let args := e.body.arguments
  le 1 e.body.kindCode ++ zeroBytes 1 ++ le 6 e.time.toNat ++ args ++ zeroBytes (24 - args.length)

end Sys2Proof.Machine
end

