-- ==== Sys2Proof/Machine/View.lean ====
section
/-!
DEFINITION. The View Translator (chapter 8): binding, translation of view reads, dispositions, returns.
-/

namespace Sys2Proof.Machine

/-! ### Binding -/

/-- The lowest-numbered enabled FREE slot (R131), if there is one. -/
def State.freeSlot (s : State) : Option SlotIx :=
  allSlots.find? (fun j => s.slotEnabled j && (s.slot j).bound.isNone)

/-- Binding pack `d` to slot `j` (R131 steps 2 to 5). -/
def State.bindSlot (t : Time) (j : SlotIx) (d : PackIx) (s : State) : State :=
  let p := s.pack d
  ((s.setSlot j { bound := some ⟨d, p.serial, p.projected⟩, idle := Deadline.arm s.clock s.idleLimit }).setPack d
    { p with state := .bound, viewSlot := some j }).raise t (.slotBound j p.serial p.projected)

/-- Bindings while an enabled slot is FREE and the ready queue is not empty (R131). -/
def State.bindSlots (t : Time) : Nat → State → State
  | 0, s => s
  | n + 1, s =>
      match s.readyQueue, s.freeSlot with
      | d :: ds, some j => State.bindSlots t n (State.bindSlot t j d { s with readyQueue := ds })
      | _, _ => s

/-- The bindings of an event (R131). Each fills one of the four slots, so four rounds are enough. -/
def State.bindReady (t : Time) (s : State) : State := s.bindSlots t 4

/-! ### Translation of reads -/

/-- A maximal stretch of an image from one source (R133): memory from an address, or zeros. -/
structure Segment where
  len : Nat
  source : Option Addr
deriving DecidableEq, Repr

/-- An address from a region base and an offset. -/
def addrAt (base : Addr) (offset : Nat) : Addr := BitVec.ofNat 40 (base.toNat + offset)

/-- The start of the directory slot of a record (R113). -/
def State.directorySlot (s : State) (d : PackIx) : Addr := addrAt s.directory.base (d.val * Config.directorySlotSize)

/-- The data of a member as segments, cut at the ring end of its lane (R133). -/
def dataSegments (l : Lane) (m : Member) : List Segment :=
  let first := (m.leadOffset + 64) % l.size
  let run := min m.dataLength (l.size - first)
  [⟨run, some (addrAt l.base first)⟩, ⟨m.dataLength - run, some l.base⟩]

/-- The section of a member as segments: lead, data, member pad (R79, Table 8-2). -/
def sectionSegments (l : Lane) (m : Member) : List Segment :=
  ⟨64, some (addrAt l.base m.leadOffset)⟩ :: dataSegments l m ++ [⟨roundUp 64 m.dataLength - m.dataLength, none⟩]

/-- The whole image of pack record `d` as segments in image order (R79, Table 8-2). -/
def State.imageSegments (s : State) (d : PackIx) : List Segment :=
  let p := s.pack d
  let n := p.members.length
  let start := s.directorySlot d
  [⟨512, some start⟩]
    ++ p.members.flatMap (fun m => sectionSegments (s.lane (s.member m).lane) (s.member m))
    ++ [⟨64 * n, some (addrAt start 512)⟩, ⟨p.projected - rawLength p.body n, none⟩, ⟨512, some (addrAt start (512 + 64 * n))⟩]

/-- The parts of a read of `len` bytes from offset `o` of a sequence of segments (R133). Segments of length 0 have no
bytes and give no part. -/
def cutSegments : List Segment → Nat → Nat → List Segment
  | [], _, _ => []
  | g :: gs, o, len =>
      if len = 0 then []
      else if g.len ≤ o then cutSegments gs (o - g.len) len
      else
        let run := min (g.len - o) len
        ⟨run, g.source.map (fun a => addrAt a o)⟩ :: cutSegments gs 0 (len - run)

/-- The part of a view read for a segment. -/
def Segment.piece (g : Segment) : Piece :=
  match g.source with
  | some _ => .waiting g.len
  | none => .zeros g.len

/-- The memory READ for a memory part (R134), if the segment is one. -/
def Segment.request (g : Segment) : Option MemReq :=
  match g.source with
  | some a => some { write := false, addr := a, len := g.len, data := [], owner := .viewPart }
  | none => none

/-- The bytes of a part once answered (R134). -/
def Piece.bytes : Piece → List Byte
  | .zeros n => zeroBytes n
  | .waiting n => zeroBytes n
  | .filled d => d
  | .faulted => []

/-- A part still waits for its memory answer. -/
def Piece.isWaiting : Piece → Bool
  | .waiting _ => true
  | _ => false

/-- A part was answered FAULT. -/
def Piece.isFaulted : Piece → Bool
  | .faulted => true
  | _ => false

/-! ### Dispositions and returns -/

/-- The effects of a WRITTEN disposition taken for slot `j`, bound as `b` (R139, R138): `tag` is its write's tag. -/
def State.takeWritten (t : Time) (j : SlotIx) (b : Binding) (tag : Nat) (tapeTag : BitVec 128) (s : State) : State :=
  let s1 := s.setPack b.record { s.pack b.record with viewSlot := none }
  let s2 := s1.releasePack t b.record
  let s3 := s2.setSlot j {}
  let s4 := ((s3.freeRecord b.record).count Counters.bumpReleased).drainWaitList t
  ((s4.raise t (.packReleased b.serial tapeTag)).bindReady t).send tag (.done [])

/-- A BOUND pack put back at the head of the ready queue and its slot freed (R140 steps 1 to 3). -/
def State.unbind (t : Time) (j : SlotIx) (b : Binding) (cause : ReturnCause) (s : State) : State :=
  let p := s.pack b.record
  let s1 := s.setPack b.record { p with state := .ready, viewSlot := none, returns := satAdd p.returns 1 }
  ((({ s1 with readyQueue := b.record :: s1.readyQueue } : State).setSlot j {}).count Counters.bumpReturned).raise t
    (.packReturned j b.serial cause)

/-- The effects of a RETURN disposition taken for slot `j` (R140, R138). -/
def State.takeReturned (t : Time) (j : SlotIx) (b : Binding) (tag : Nat) (s : State) : State :=
  ((s.unbind t j b .returned).bindReady t).send tag (.done [])

/-- The return of slot `j` with cause IDLE (R142). -/
def State.takeIdle (t : Time) (j : SlotIx) (b : Binding) (s : State) : State :=
  (((s.unbind t j b .idle).count Counters.bumpIdleReturn).bindReady t)

/-- The pending WRITTEN or RETURN of slot `j` is taken once its reads in flight are 0 (R137). -/
def State.takePendingDisposition (t : Time) (j : SlotIx) (s : State) : State :=
  if (s.slot j).reads = 0 then
    match (s.slot j).bound, (s.slot j).pending with
    | some b, some (.written tag tape) => s.takeWritten t j b tag tape
    | some b, some (.returned tag _) => s.takeReturned t j b tag
    | _, _ => s
  else s

/-- The pending idle return of slot `j` is taken once its reads in flight are 0 (R142). -/
def State.takePendingIdle (t : Time) (j : SlotIx) (s : State) : State :=
  if (s.slot j).reads = 0 then
    match (s.slot j).bound, (s.slot j).pending with
    | some b, some .idle => s.takeIdle t j b
    | _, _ => s
  else s

/-! ### Taking view reads and disposition writes -/

/-- The disposition write of R136 on slot `j`: refused with a reason, taken at once, or made pending (R137). -/
def State.takeDisposition (t : Time) (j : SlotIx) (offset tag : Nat) (data : List Byte) (s : State) : State :=
  let refuse := fun reason =>
    ((s.raise t (.dispositionRefused j reason)).count Counters.bumpDispositionRefused).send tag .refused
  match (s.slot j).bound with
  | none => refuse .notBound
  | some b =>
      match dispositionOf offset data with
      | none => refuse .format
      | some f =>
          if f.serial ≠ (s.pack b.record).serial then refuse .serial
          else if (s.slot j).pending.isSome then refuse .pending
          else if (s.slot j).reads = 0 then
            if f.written then s.takeWritten t j b tag f.tapeTag else s.takeReturned t j b tag
          else
            s.setSlot j { s.slot j with
              pending := some (if f.written then .written tag f.tapeTag else .returned tag f.tapeTag), idle := .absent }

/-- A view read refused (R132). -/
def State.refuseRead (tag : Nat) (s : State) : State := (s.count Counters.bumpReadRefused).send tag .refused

/-- A view read of slot `j` that passes R132, bound as `b` (R133, R134). -/
def State.serveRead (j : SlotIx) (b : Binding) (offset len tag : Nat) (s : State) : State :=
  let parts := cutSegments (s.imageSegments b.record) offset len
  let s1 := s.setSlot j { s.slot j with idle := Deadline.arm s.clock s.idleLimit }
  let requests := parts.filterMap Segment.request
  if requests = [] then
    (s1.count Counters.bumpServed).send tag (.done (parts.flatMap (fun g => g.piece.bytes)))
  else
    let s2 := s1.setSlot j { s1.slot j with reads := (s1.slot j).reads + 1 }
    { s2 with
      forwarding := s2.forwarding ++ requests
      viewReads := s2.viewReads ++ [{ tag := tag, slot := some j, pieces := parts.map Segment.piece }] }

/-- A view read of slot `j` (R132): refused, or served. -/
def State.takeRead (j : SlotIx) (offset len tag : Nat) (s : State) : State :=
  match (s.slot j).bound with
  | none => s.refuseRead tag
  | some b =>
      if b.length < offset + len then s.refuseRead tag
      else if (s.slot j).pending.isSome then s.refuseRead tag
      else s.serveRead j b offset len tag

/-! ### Answers to view reads -/

/-- The first waiting part of a read takes its answer. Answers come in issue order, so an answer belongs to the first part
still waiting (R4, log entry 9). -/
def fillPieces (a : MemAnswer) : List Piece → List Piece
  | [] => []
  | .waiting _ :: ps => (match a with | .done d => .filled d | .fault => .faulted) :: ps
  | .zeros n :: ps => .zeros n :: fillPieces a ps
  | .filled d :: ps => .filled d :: fillPieces a ps
  | .faulted :: ps => .faulted :: fillPieces a ps

/-- The read in flight of a slot has been responded to (R134): the count falls, and a pending disposition or idle return
is taken when it reaches 0 (R137, R142). -/
def State.endRead (t : Time) (slot : Option SlotIx) (s : State) : State :=
  match slot with
  | none => s
  | some j =>
      let s1 := s.setSlot j { s.slot j with reads := (s.slot j).reads - 1 }
      ((s1.takePendingDisposition t j).takePendingIdle t j)

/-- The response of the oldest view read, when every memory part of it has been answered (R134). -/
def State.respondRead (t : Time) (s : State) : State :=
  match s.viewReads with
  | [] => s
  | r :: rs =>
      if r.pieces.any Piece.isWaiting then s
      else
        let s1 : State := { s with viewReads := rs }
        let s2 := if r.pieces.any Piece.isFaulted then (s1.count Counters.bumpReadFault).send r.tag .fault
          else (s1.count Counters.bumpServed).send r.tag (.done (r.pieces.flatMap Piece.bytes))
        s2.endRead t r.slot

/-- An answer to a part of a view read: delivered to the oldest view read, and the read responded to when it was the last
(R4, R134). -/
def State.answerPart (t : Time) (a : MemAnswer) (s : State) : State :=
  match s.viewReads with
  | [] => s
  | r :: rs => State.respondRead t { s with viewReads := { r with pieces := fillPieces a r.pieces } :: rs }

end Sys2Proof.Machine
end

