-- ==== Sys2Proof/Machine/Commit.lean ====
section
/-!
DEFINITION. The Directory Commit Engine (chapter 7) and the Port Arbiter (section 1.6): grants, issue of commit units,
their answers, the end of a commit, suspension, discards and the completion of RESTART.
-/

namespace Sys2Proof.Machine

/-! ### Candidate and grants -/

/-- The commit engine has a candidate (R118). -/
def State.hasCandidate (s : State) : Bool := decide (s.engine.state = .issuing)

/-- The commit engine withdraws its candidate: a burst ends and the run count becomes 0 (R14, R15). -/
def State.withdraw (s : State) : State := { s with arbiter := { s.arbiter with run := 0, burst := none } }

/-- The engine after unit `u` of its current pack has been built and issued (R118, R119). -/
def Engine.issued (e : Engine) (b : BuiltUnit) : Engine :=
  { e with nextUnit := e.nextUnit + 1, unitsInFlight := e.unitsInFlight + 1, headerAcc := b.headerAcc,
           indexAcc := b.indexAcc, trailerAcc := b.trailerAcc, afterEnd := none }

/-- The memory WRITE of unit `u` of record `d` (R114). -/
def State.unitRequest (s : State) (d : PackIx) (u : Nat) (bytes : List Byte) : MemReq :=
  { write := true, addr := addrAt (s.directorySlot d) (64 * (u - 1)), len := 64, data := bytes, owner := .commitUnit d u }

/-- Issue of the engine's next unit (R118). After unit n + 16 the engine is SETTLING and its candidate is withdrawn. -/
def State.issueUnit (s : State) : State :=
  match s.engine.current with
  | none => s
  | some cur =>
      let p := s.pack cur.record
      let u := s.engine.nextUnit
      let b := buildUnit s.formerId s.tapeBlock s.members p s.engine u
      let s1 : State :=
        { s with engine := s.engine.issued b, inFlight := s.inFlight ++ [s.unitRequest cur.record u b.bytes] }
      if u = p.unitCount then State.withdraw { s1 with engine := { s1.engine with state := .settling } } else s1

/-- A forwarded grant (R13): the head of the forwarding queue is issued, and the run count becomes `c`. -/
def State.forwardGrant (c : Nat) (s : State) : State :=
  match s.forwarding with
  | [] => s
  | r :: rs =>
      { s with forwarding := rs, inFlight := s.inFlight ++ [r], arbiter := { s.arbiter with run := c } }

/-- The units a BURST grant covers after its first (R14). -/
def State.burstRest (s : State) : Nat :=
  match s.engine.current with
  | none => 0
  | some cur => (s.pack cur.record).blockEnd s.engine.nextUnit - s.engine.nextUnit

/-- The burst field for so many units still to issue. -/
def burstOf (n : Nat) : Option Nat := if n = 0 then none else some n

/-- A commit grant (R14). The run count becomes 0 (R13). -/
def State.commitGrant (s : State) : State :=
  match s.arbiter.mode with
  | .steal => State.issueUnit { s with arbiter := { s.arbiter with run := 0 } }
  | .burst => State.issueUnit { s with arbiter := { s.arbiter with run := 0, burst := burstOf s.burstRest } }

/-- A grant decision (R13). With a burst in progress, or no candidate, there is no grant. -/
def State.grant (s : State) : State :=
  if s.arbiter.burst.isSome then s
  else if s.forwarding = [] then (if s.hasCandidate then s.commitGrant else s)
  else if !s.hasCandidate then s.forwardGrant 0
  else if s.arbiter.run < s.arbiter.share then s.forwardGrant (s.arbiter.run + 1)
  else s.commitGrant

/-- The issue of one further unit of a burst in progress (R14). -/
def State.issueBurstUnit (s : State) : State :=
  match s.arbiter.burst with
  | none => s
  | some n =>
      if s.hasCandidate then
        State.issueUnit { s with arbiter := { s.arbiter with burst := burstOf (n - 1) } }
      else s

/-! ### End of a commit and suspension -/

/-- The engine once its current commit has ended (R121, R119): the pack is off the queue, no record is current. -/
def Engine.ended (e : Engine) (d : PackIx) : Engine :=
  { e with state := .idle, current := none, queue := e.queue.filter (fun x => decide (x ≠ d)), headerAcc := {}, indexAcc := {},
           afterEnd := none }

/-- What an engine whose commit has ended keeps of it (log entry 27). -/
def Engine.leftover (e : Engine) : Leftover := ⟨e.nextUnit, e.faults, e.firstFaulted, e.trailerAcc⟩

/-- The engine as the end of its last commit left it: the commit begun there has not begun (R124). The queue and the discard
list are kept. -/
def Engine.unbegun (l : Leftover) (e : Engine) : Engine :=
  { queue := e.queue, nextUnit := l.nextUnit, faults := l.faults, firstFaulted := l.firstFaulted, trailerAcc := l.trailerAcc,
    discards := e.discards }

/-- A commit ends with fault count 0 (R121): the pack becomes READY and may be bound at once. -/
def State.commitReady (t : Time) (cur : Current) (s : State) : State :=
  let p := s.pack cur.record
  let s1 := s.setPack cur.record { p with state := .ready }
  let s2 : State := { s1 with engine := s1.engine.ended cur.record, readyQueue := s1.readyQueue ++ [cur.record] }
  ((s2.raise t (.packReady cur.record cur.serial p.projected)).count Counters.bumpCommitted).bindReady t

/-- A commit ends with fault count 1 or more (R121): the pack becomes FAILED. -/
def State.commitFailed (t : Time) (cur : Current) (s : State) : State :=
  let e := s.engine
  let s1 := s.setPack cur.record { s.pack cur.record with state := .failed }
  let s2 : State := { s1 with engine := s1.engine.ended cur.record }
  (s2.raise t (.commitFailed cur.record cur.serial e.faults (e.firstFaulted.getD 0))).count Counters.bumpCommitFailed

/-- The beginning of the next commit within the event that has ended one (R121, R117). The engine keeps what the end left, for
an onset that falls together with it (R124, log entry 30). -/
def State.beginAfterEnd (s : State) : State :=
  let s1 := s.beginCommit
  if s1.engine.state = .issuing then { s1 with engine := { s1.engine with afterEnd := some s.engine.leftover } } else s1

/-- The end of a SETTLING commit with no unit in flight, and the beginning of the next (R121, R117). -/
def State.endCommit (t : Time) (s : State) : State :=
  if s.engine.state = .settling ∧ s.engine.unitsInFlight = 0 then
    match s.engine.current with
    | none => s
    | some cur => (if s.engine.faults = 0 then s.commitReady t cur else s.commitFailed t cur).beginAfterEnd
  else s

/-- The engine becomes SUSPENDED and raises COMMIT_SUSPENDED (R122). -/
def State.suspend (t : Time) (s : State) : State :=
  match s.engine.current with
  | none => s
  | some cur =>
      (State.withdraw { s with engine := { s.engine with state := .suspended } }).raise t
        (.commitSuspended cur.record cur.serial s.engine.nextUnit)

/-- A suspension is complete (R122): a SUSPENDING engine, or an ISSUING one in a part that is QUIESCED, with no unit in
flight. -/
def State.suspendDue (s : State) : Bool :=
  decide (s.engine.unitsInFlight = 0)
    && (decide (s.engine.state = .suspending) || (decide (s.engine.state = .issuing) && decide (s.part = .quiesced)))

/-- The completion of a suspension (R122). -/
def State.endSuspending (t : Time) (s : State) : State := if s.suspendDue then s.suspend t else s

/-- The commit engine at QUIESCE onset (R122). An onset that falls together with the last answer of a commit finds the engine
IDLE whichever is taken first (R124): a commit that the end of another began in the present REFCLK period, with no unit issued,
has not begun (log entry 30). -/
def State.engineOnset (t : Time) (s : State) : State :=
  if s.engine.state = .issuing then
    match s.engine.afterEnd with
    | some l => State.withdraw { s with engine := s.engine.unbegun l }
    | none =>
        if s.engine.unitsInFlight = 0 then s.suspend t
        else State.withdraw { s with engine := { s.engine with state := .suspending } }
  else s

/-- The commit engine at QUIESCE release (R123). -/
def State.engineRelease (s : State) : State :=
  match s.engine.state with
  | .suspended => { s with engine := { s.engine with state := .issuing } }
  | .suspending => { s with engine := { s.engine with state := .issuing } }
  | .idle => s.beginCommit
  | _ => s

/-! ### Discards -/

/-- A record is on the discard list. -/
def Engine.discards? (e : Engine) (d : PackIx) : Bool := e.discards.any (fun x => decide (x.record = d))

/-- One unit of a record on the discard list has been answered (R125). -/
def Engine.lowerDiscard (e : Engine) (d : PackIx) : Engine :=
  { e with discards := e.discards.map (fun x => if x.record = d then { x with units := x.units - 1 } else x) }

/-- One unit of the current pack has been answered (R120). -/
def Engine.lowerInFlight (e : Engine) : Engine := { e with unitsInFlight := e.unitsInFlight - 1 }

/-- The current-commit fields take the values of Table 7-2 and the engine becomes IDLE (R125). The queue and the discard
list are kept. -/
def Engine.dropped (e : Engine) : Engine := { queue := e.queue, discards := e.discards }

/-- A record on the discard list has no unit in flight any more (R107, R125). -/
def State.discardingDue (s : State) (d : PackIx) : Bool :=
  decide (s.engine.state ≠ .stopping) && s.engine.discards.any (fun x => decide (x.record = d) && decide (x.units = 0))

/-- The end of DISCARDING (R107, R125): the record leaves the discard list and becomes FREE, and a drain is made. While a
RESTART is in progress nothing happens (R126). -/
def State.endDiscarding (t : Time) (d : PackIx) (s : State) : State :=
  if s.discardingDue d then
    let e := s.engine
    let s1 : State := { s with engine := { e with discards := e.discards.filter (fun x => decide (x.record ≠ d)) } }
    (s1.freeRecord d).drainWaitList t
  else s

/-! ### Completion of RESTART -/

/-- A lane in its initial lane state (R40), its region, its counters and nothing else kept. -/
def Lane.fresh (l : Lane) : Lane := { enabled := l.enabled, base := l.base, exponent := l.exponent, counts := l.counts }

/-- The completion of RESTART (R169). -/
def State.finishRestart (s : State) : State :=
  { s with lanes := s.lanes.map Lane.fresh, members := [], packs := Vector.replicate 64 {}, waitList := [], engine := {},
           part := .config, response := .ready .ok [] }

/-- A RESTART in progress waits on no commit unit in flight. -/
def State.restartDue (s : State) : Bool :=
  decide (s.engine.state = .stopping) && !s.inFlight.any MemReq.isCommit

/-- RESTART completes when no commit unit remains in flight (R126, R169). -/
def State.endRestart (s : State) : State := if s.restartDue then s.finishRestart else s

/-! ### Answers -/

/-- A FAULT answer to a unit of the current pack (R120). -/
def State.unitFaulted (u : Nat) (s : State) : State :=
  let e := s.engine
  State.count Counters.bumpUnitFault
    { s with engine := { e with faults := e.faults + 1, firstFaulted := some (e.firstFaulted.getD u) } }

/-- The answer to unit `u` of record `d` (R120, R125, R126), with what it brings about in the same event (log entry 1). -/
def State.answerUnit (t : Time) (d : PackIx) (u : Nat) (a : MemAnswer) (s : State) : State :=
  if s.engine.state = .stopping then
    State.endRestart { s with engine := if s.engine.discards? d then s.engine.lowerDiscard d else s.engine.lowerInFlight }
  else if s.engine.discards? d then
    State.endDiscarding t d { s with engine := s.engine.lowerDiscard d }
  else
    let s1 : State := { s with engine := s.engine.lowerInFlight }
    let s2 := match a with
      | .done _ => s1
      | .fault => s1.unitFaulted u
    (s2.endCommit t).endSuspending t

/-- The answer to a forwarded request is passed upstream (R5). -/
def State.answerForwarded (tag : Nat) (write : Bool) (a : MemAnswer) (s : State) : State :=
  match a with
  | .done d => s.send tag (.done (if write then [] else d))
  | .fault => (s.count Counters.bumpMemoryFault).send tag .fault

/-- A memory answer is delivered to the owner of the request at the head of the in-flight list (R4). With nothing in
flight no answer arrives (log entry 19). -/
def State.takeAnswer (t : Time) (a : MemAnswer) (s : State) : State :=
  match s.inFlight with
  | [] => s
  | r :: rs =>
      let s1 : State := { s with inFlight := rs }
      match r.owner with
      | .upstream tag => s1.answerForwarded tag r.write a
      | .viewPart => s1.answerPart t a
      | .commitUnit d u => s1.answerUnit t d u a

end Sys2Proof.Machine
end

