-- ==== Sys2Proof/Machine/Upstream.lean ====
section
/-!
DEFINITION. The upstream port and the Region Classifier (chapter 1), and the acceptance step of a lane write (chapters 2
and 3).
-/

namespace Sys2Proof.Machine

/-- Where an address lies (R6, R9): a lane region, a slot window of the view window, the directory area, or other space. -/
inductive Region where
  | other
  | lane (k : LaneIx)
  | slotWindow (j : SlotIx)
  | directory
deriving DecidableEq, Repr

/-- The route of a request (R8 to R10): refused with RANGE, STRADDLE or by Table 1-2, forwarded, handed to a Lane Parser,
or handed to the view path. -/
inductive Route where
  | range
  | straddle
  | placement
  | forward
  | lane (k : LaneIx)
  | viewRead (j : SlotIx)
  | disposition (j : SlotIx)
deriving DecidableEq, Repr

/-- An address lies in the `size` bytes from a base. -/
def covers (base : Addr) (size a : Nat) : Bool := base.toNat ≤ a && a < base.toNat + size

/-- The region of an address (R6). -/
def State.regionOf (s : State) (a : Nat) : Region :=
  match allLanes.find? (fun k => (s.lane k).enabled && covers (s.lane k).base (s.lane k).size a) with
  | some k => .lane k
  | none =>
      if s.window.set && covers s.window.base Config.viewWindowSize a then
        .slotWindow (Fin.ofNat 4 ((a - s.window.base.toNat) / Config.slotWindowSize))
      else if s.directory.set && covers s.directory.base Config.directorySize a then .directory
      else .other

/-- A request is a WRITE. -/
def isWriteRequest : Request → Bool
  | .read _ _ _ => false
  | .write _ _ _ => true

/-- The data of a request: nothing for a READ. -/
def requestData : Request → List Byte
  | .read _ _ _ => []
  | .write _ _ d => d

/-- The route of a request that lies wholly in one region (Table 1-2). -/
def routeIn (part : PartState) (write : Bool) : Region → Route
  | .other => .forward
  | .lane k => if write then (match part with | .config => .forward | .run => .lane k | .quiesced => .placement) else .forward
  | .directory => if write ∧ part ≠ .config then .placement else .forward
  | .slotWindow j =>
      if part = .config then .placement else if write then .disposition j else .viewRead j

/-- A lane write taken in RUN that begins in an enabled lane region (R9): it goes to that lane's parser even when it runs
past the region's end. -/
def laneWriteInRun (part : PartState) (write : Bool) : Region → Bool
  | .lane _ => write && decide (part = .run)
  | _ => false

/-- Classification of a request (R8 to R10). The extent lies in one region when its first and its last byte do
(log entry 21). -/
def State.route (s : State) (r : Request) : Route :=
  if 2 ^ 40 < r.addr.toNat + r.len then .range
  else
    let first := s.regionOf r.addr.toNat
    let last := s.regionOf (r.addr.toNat + r.len - 1)
    if first ≠ last ∧ laneWriteInRun s.part (isWriteRequest r) first = false then .straddle
    else routeIn s.part (isWriteRequest r) first

/-- The offset of an address from a base. -/
def offsetIn (base a : Addr) : Nat := a.toNat - base.toNat

/-- The offset of an address within its slot window (R132). -/
def State.slotOffset (s : State) (a : Addr) : Nat := offsetIn s.window.base a % Config.slotWindowSize

/-- A lane write refused with EDGE (R21). -/
def State.refuseEdge (k : LaneIx) (tag : Nat) (s : State) : State :=
  (s.mapLane k (fun l => l.count (fun c => { c with edgeRefusals := satAdd c.edgeRefusals 1 }))).send tag .refused

/-- A lane write refused with STRAY (R22). -/
def State.refuseStray (k : LaneIx) (tag : Nat) (s : State) : State :=
  (s.mapLane k (fun l => l.count (fun c => { c with strayRefusals := satAdd c.strayRefusals 1 }))).send tag .refused

/-- A lane write refused with HOLD_FULL (R44). -/
def State.refuseHoldFull (k : LaneIx) (tag : Nat) (s : State) : State :=
  (s.mapLane k (fun l => l.count (fun c => { c with holdFullRefusals := satAdd c.holdFullRefusals 1 }))).send tag .refused

/-- A lane write that fails the acceptance test into an empty hold queue (R43, R47). -/
def State.holdFirst (k : LaneIx) (w : HeldWrite) (s : State) : State :=
  s.mapLane k (fun l => { l with hold := [w], holdDeadline := Deadline.arm s.clock s.holdLimit })

/-- A lane write that joins a hold queue of 1 to 3 writes (R44). -/
def State.holdBehind (k : LaneIx) (w : HeldWrite) (s : State) : State :=
  s.mapLane k (fun l => { l with hold := l.hold ++ [w] })

/-- A lane write at its Lane Parser (R21, R22, R43, R44). -/
def State.takeLaneWrite (t : Time) (k : LaneIx) (w : HeldWrite) (s : State) : State :=
  let l := s.lane k
  let offset := offsetIn l.base w.addr
  if l.size < offset + w.data.length then s.refuseEdge k w.tag
  else if offset ≠ l.projected then s.refuseStray k w.tag
  else if l.hold = [] then
    if s.accepts k w.data then s.acceptWrite t k w else s.holdFirst k w
  else if l.hold.length < Config.holdPlaces then s.holdBehind k w
  else s.refuseHoldFull k w.tag

/-- A taken request, classified and routed (R8 to R10). -/
def State.takeRequest (r : Request) (s : State) : State :=
  match s.route r with
  | .range => (s.count Counters.bumpRange).send r.tag .refused
  | .straddle => (s.count Counters.bumpStraddle).send r.tag .refused
  | .placement => (s.count Counters.bumpPlacement).send r.tag .refused
  | .forward =>
      s.forward { write := isWriteRequest r, addr := r.addr, len := r.len, data := requestData r, owner := .upstream r.tag }
  | .lane k => s.takeLaneWrite s.clock k ⟨r.tag, r.addr, (requestData r)⟩
  | .viewRead j => s.takeRead j (s.slotOffset r.addr) r.len r.tag
  | .disposition j => s.takeDisposition s.clock j (s.slotOffset r.addr) r.tag (requestData r)

/-- The requests on the bus taken while the port holds fewer than 96 outstanding requests (R2). The list is the bus. -/
def State.serveBus : List Request → State → State
  | [], s => s
  | r :: rs, s =>
      if s.outstanding < Config.portPlaces then State.serveBus rs (State.takeRequest r { s with bus := rs }) else s

/-- The waiting requests of the bus are taken as far as there is room (R2). -/
def State.refill (s : State) : State := s.serveBus s.bus

/-- A request arrives on the upstream bus (R1, R2): it is taken, or waits behind the others for a place. -/
def State.arrive (r : Request) (s : State) : State := State.refill { s with bus := s.bus ++ [r] }

end Sys2Proof.Machine
end

