-- ==== Sys2Proof/Machine/Reports.lean ====
section
/-!
DEFINITION. The reports of READ_PART (R163), READ_LANE (R41) and READ_PACK (R111) and the stored-value payloads of Table
11-6, in bytes. Widths follow Table 11-8; a field whose kind that table does not list has the width log entry 7 names.
-/

namespace Sys2Proof.Machine

/-- An optional value of `size` bytes (Table 11-8): a presence byte, then the value, zero when absent. -/
def optionBytes (size : Nat) : Option Nat → List Byte
  | none => le 1 0 ++ zeroBytes size
  | some v => le 1 1 ++ le size v

/-- A list of entries of `size` bytes (Table 11-8): a 2-byte count, then the entries. -/
def listBytes (size : Nat) (l : List Nat) : List Byte := le 2 l.length ++ l.flatMap (le size)

/-- A deadline as a report shows it (R159). -/
def Deadline.bytes (d : Deadline) : List Byte := optionBytes 8 (d.shown.map BitVec.toNat)

/-- A class as a part record and the response of SET_CLASS hold it: 11 bytes (Tables 11-6, 11-8). -/
def classBytes (c : ClassIx) (k : PackClass) : List Byte :=
  le 1 c.val ++ [flagByte k.enabled] ++ le 2 k.target ++ le 2 k.cap ++ le 4 k.ageLimit ++ [k.retention]

/-- Counters, 4 bytes each. -/
def counterBytes (l : List Word32) : List Byte := l.flatMap (fun c => le 4 c.toNat)

/-! ### READ_LANE -/

/-- The eight counters of a lane in the order of Table 2-5. -/
def LaneCounters.all (c : LaneCounters) : List Word32 :=
  [c.membersCompleted, c.bytesAccepted, c.strayRefusals, c.edgeRefusals, c.holdFullRefusals, c.holdExpiries, c.leadFaults,
    c.brokenMembers]

/-- The lane report (R41). -/
def State.laneReport (s : State) (k : LaneIx) : List Byte :=
  let l := s.lane k
  [flagByte l.enabled] ++ le 8 l.base.toNat ++ le 1 l.exponent
    ++ le 4 l.cursor ++ le 4 (s.tail k) ++ le 4 (s.used k)
    ++ le 1 l.parser.code ++ le 1 l.collected
    ++ le 4 l.remaining
    ++ optionBytes 2 (l.receiving.map Fin.val)
    ++ optionBytes 4 l.pendingLead
    ++ le 1 l.hold.length ++ le 4 l.projected
    ++ l.holdDeadline.bytes
    ++ counterBytes l.counts.all

/-! ### READ_PACK -/

/-- The pack report (R111). -/
def State.packReport (s : State) (d : PackIx) : List Byte :=
  let p := s.pack d
  le 1 p.state.code ++ le 4 p.serial.toNat ++ le 1 p.cls.val
    ++ le 2 p.target ++ le 2 p.cap ++ [p.retention]
    ++ le 4 p.members.length ++ le 4 p.body ++ p.digest.bytes ++ le 4 p.projected
    ++ le 8 p.openTime.toNat ++ le 8 p.firstDone.toNat ++ le 8 p.lastDone.toNat ++ le 8 p.sealTime.toNat
    ++ p.age.bytes ++ le 1 (sealCode p.cause)
    ++ optionBytes 1 (p.viewSlot.map Fin.val) ++ le 4 p.returns.toNat
    ++ listBytes 2 (p.members.map Fin.val)

/-! ### READ_PART -/

/-- Member records in a state, FREE ones apart (the census of chapter 4). -/
def MemberTable.countIn (t : MemberTable) (m : MemberState) : Nat := t.countP (fun x => decide (x.2.state = m))

/-- The Member Table census (R74): the number of records in each of the six states. The manual gives the six numbers no order;
they stand in the order of the member state codes of Table 11-9 (the model's choice, log entry 7). -/
def State.memberCensus (s : State) : List Nat :=
  [s.members.freeCount, s.members.countIn .receiving, s.members.countIn .waiting, s.members.countIn .packed,
    s.members.countIn .filed, s.members.countIn .released]

/-- Pack records in a state. -/
def State.countPacks (s : State) (p : PackState) : Nat := allPacks.countP (fun d => decide ((s.pack d).state = p))

/-- The pack table census (R111): the number of records in each of the seven states. The manual gives the seven numbers no
order; they stand in the order of the pack state codes of Table 11-9 (the model's choice, log entry 7). -/
def State.packCensus (s : State) : List Nat :=
  [s.countPacks .free, s.countPacks .opened, s.countPacks .sealing, s.countPacks .ready, s.countPacks .bound,
    s.countPacks .failed, s.countPacks .discarding]

/-- The current record and serial of the engine in a report: a presence byte, the record, the serial. -/
def currentBytes : Option Current → List Byte
  | none => le 1 0 ++ zeroBytes 5
  | some c => le 1 1 ++ le 1 c.record.val ++ le 4 c.serial.toNat

/-- The commit engine report (R116). -/
def Engine.report (e : Engine) : List Byte :=
  le 1 e.state.code ++ currentBytes e.current ++ le 2 e.nextUnit ++ le 2 e.unitsInFlight ++ le 2 e.faults
    ++ listBytes 1 (e.queue.map Fin.val)
    ++ le 2 e.discards.length ++ e.discards.flatMap (fun x => le 1 x.record.val ++ le 2 x.units)

/-- What a slot is bound to, in a report: a presence byte, the record, the serial, the image length. -/
def bindingBytes : Option Binding → List Byte
  | none => le 1 0 ++ zeroBytes 9
  | some b => le 1 1 ++ le 1 b.record.val ++ le 4 b.serial.toNat ++ le 4 b.length

/-- The report of slot `j` (R146). Table 11-9 has no code for a slot's state: that byte is a free value (log entry 8). -/
def State.slotReport (s : State) (j : SlotIx) : List Byte :=
  let v := s.slot j
  [flagByte (s.slotEnabled j), Config.slotStateCode v.bound.isSome] ++ bindingBytes v.bound ++ le 1 v.reads
    ++ le 1 (pendingCode v.pending) ++ v.idle.bytes

/-- The port, pack, commit and view counters and the two management counters, in the order of R163. -/
def Counters.all (c : Counters) : List Word32 :=
  [c.rangeRefusals, c.straddleRefusals, c.placementRefusals, c.memoryFaults,
    c.sealedSize, c.sealedCount, c.sealedAge, c.sealedLead, c.sealedCommand, c.sealedDrain, c.sealedClassClosed,
    c.packsReleased, c.packsReturned, c.packsDiscarded, c.openPacksDiscarded,
    c.commitsCompleted, c.commitsFailed, c.unitFaults,
    c.readsServed, c.readsRefused, c.readFaults, c.dispositionsRefused, c.idleReturns,
    c.framesDiscarded, c.eventsLost]

/-- The class of the head of the wait list (R111). -/
def State.headClass (s : State) : Option Nat := s.waitList.head?.map (fun m => (s.member m).cls.val)

/-- The first half of the part record: part state to the class table (R163), its classes in ascending order (log entry 7). -/
def State.partSettings (s : State) : List Byte :=
  le 1 s.part.code ++ [flagByte s.quiesceLine]
    ++ le 8 s.clock.toNat ++ [flagByte (decide (s.clock = timeMax))]
    ++ le 1 s.events.length ++ [flagByte s.overflow] ++ le 2 s.attentionMask.toNat
    ++ le 2 s.formerId.toNat ++ le 4 s.tapeBlock ++ le 4 s.serialNext.toNat
    ++ le 4 s.holdLimit ++ le 4 s.idleLimit ++ le 4 s.arbiter.share ++ le 1 s.arbiter.mode.code
    ++ le 8 s.window.base.toNat ++ [flagByte s.window.set] ++ le 1 s.window.mask.toNat
    ++ le 8 s.directory.base.toNat ++ [flagByte s.directory.set]
    ++ allClasses.flatMap (fun c => classBytes c (s.cls c))

/-- The second half of the part record: the censuses to the counters (R163), its slot reports in ascending order (log
entry 7). -/
def State.partTables (s : State) : List Byte :=
  s.memberCensus.flatMap (le 2) ++ s.packCensus.flatMap (le 2)
    ++ le 2 s.waitList.length ++ optionBytes 1 s.headClass
    ++ s.engine.report ++ listBytes 1 (s.readyQueue.map Fin.val) ++ allSlots.flatMap (fun j => s.slotReport j)
    ++ counterBytes s.counters.all

/-- The part record (R163). -/
def State.partRecord (s : State) : List Byte := s.partSettings ++ s.partTables

end Sys2Proof.Machine
end

