-- ==== Sys2Proof/Machine/Link.lean ====
section
/-!
DEFINITION. The Management Link Interface (chapter 10): select periods, frames, responses, and the owners' rules of the
management commands. `State.carryOut…` is what a command does once its frame has been taken.
-/

namespace Sys2Proof.Machine

/-! ### Responses -/

/-- A command completes with a response (R162). -/
def State.respond (status : Status) (payload : List Byte) (s : State) : State :=
  { s with response := .ready status payload }

/-- A refused command: a status and no payload (R162). -/
def State.refuse (status : Status) (s : State) : State := s.respond status []

/-- The command frame of so many bytes is discarded (R160). On MSDO stood zeros. -/
def State.discardFrame (bytes : Nat) (s : State) : State :=
  State.count Counters.bumpFrameDiscarded { s with msdo := zeroBytes bytes }

/-- The taking of a frame of so many bytes (R160): discarded while BUSY, else a held response is dropped and the state
becomes BUSY, and the command is carried out. While RESETB is low no select period is taken (R170). -/
def State.takeFrame (bytes : Nat) (body : State → State) (s : State) : State :=
  if s.resetLow then s
  else if s.response = .busy then s.discardFrame bytes
  else body { s with response := .busy, msdo := zeroBytes bytes }

/-! ### Reading -/

/-- READ_PART (R163): the capture is made before the overflow flag is cleared. -/
def State.carryOutReadPart (s : State) : State := State.respond .ok s.partRecord { s with overflow := false }

/-- READ_LANE (R41). -/
def State.carryOutReadLane (lane : Byte) (s : State) : State :=
  match laneOf lane with
  | none => s.refuse .badArg
  | some k => s.respond .ok (s.laneReport k)

/-- READ_PACK (R111). -/
def State.carryOutReadPack (record : Byte) (s : State) : State :=
  match packOf record with
  | none => s.refuse .badArg
  | some d => s.respond .ok (s.packReport d)

/-! ### The region table -/

/-- Two regions, each a base and a size, share an address (R7). -/
def overlap (b1 n1 b2 n2 : Nat) : Bool := b1 < b2 + n2 && b2 < b1 + n1

/-- A region shares an address with an enabled lane region other than `skip` (R7). -/
def State.meetsLane (s : State) (skip : Option LaneIx) (b n : Nat) : Bool :=
  allLanes.any (fun j =>
    decide (some j ≠ skip) && (s.lane j).enabled && overlap b n (s.lane j).base.toNat (s.lane j).size)

/-- The new region of lane `k` shares an address with another defined region (R7 step 4). -/
def State.laneOverlaps (s : State) (k : LaneIx) (b n : Nat) : Bool :=
  s.meetsLane (some k) b n
    || (s.window.set && overlap b n s.window.base.toNat Config.viewWindowSize)
    || (s.directory.set && overlap b n s.directory.base.toNat Config.directorySize)

/-- The new windows share an address with each other or with an enabled lane region (R7 step 4). -/
def State.windowsOverlap (s : State) (v d : Nat) : Bool :=
  overlap v Config.viewWindowSize d Config.directorySize
    || s.meetsLane none v Config.viewWindowSize || s.meetsLane none d Config.directorySize

/-- Lane `k`'s region table entry is written (R7 step 5). -/
def State.writeRegion (k : LaneIx) (enabled : Bool) (e : Nat) (base : Addr) (s : State) : State :=
  s.mapLane k (fun l => { l with enabled := enabled, base := base, exponent := e })

/-- SET_LANE (R7). -/
def State.carryOutSetLane (lane enabled exponent : Byte) (base : Addr) (s : State) : State :=
  if s.part ≠ .config then s.refuse .badState
  else match laneOf lane, flagOf enabled with
    | some k, some f =>
        let e := clampTo 25 30 exponent.toNat
        if base.toNat % 2 ^ e ≠ 0 then s.refuse .badArg
        else if f && s.laneOverlaps k base.toNat (2 ^ e) then s.refuse .overlap
        else (s.writeRegion k f e base).respond .ok (le 1 k.val ++ [flagByte f] ++ le 1 e ++ le 5 base.toNat)
    | _, _ => s.refuse .badArg

/-- The slot enable mask that a mask byte stores (R177): bits 0 to 3. -/
def slotMask (mask : Byte) : BitVec 4 := mask.extractLsb' 0 4

/-- SET_WINDOWS (R7). -/
def State.carryOutSetWindows (viewBase : Addr) (mask : Byte) (dirBase : Addr) (s : State) : State :=
  if s.part ≠ .config then s.refuse .badState
  else if viewBase.toNat % Config.viewWindowSize ≠ 0 ∨ dirBase.toNat % Config.directorySize ≠ 0 then s.refuse .badArg
  else if s.windowsOverlap viewBase.toNat dirBase.toNat then s.refuse .overlap
  else
    State.respond .ok (le 5 viewBase.toNat ++ le 1 (slotMask mask).toNat ++ le 5 dirBase.toNat)
      { s with window := { set := true, base := viewBase, mask := slotMask mask },
               directory := { set := true, base := dirBase } }

/-! ### Settings -/

/-- SET_SERIAL (R95, R164). -/
def State.carryOutSetSerial (serial : Word32) (former : BitVec 16) (tb : Word32) (s : State) : State :=
  if s.part ≠ .config then s.refuse .badState
  else
    let stored := clampTapeBlock tb.toNat
    State.respond .ok (le 4 serial.toNat ++ le 2 former.toNat ++ le 4 stored)
      { s with serialNext := serial, formerId := former, tapeBlock := stored }

/-- The class that a SET_CLASS writes (R92): every numeric value clamped to its range of Table 6-1. -/
def clampedClass (enabled : Bool) (target cap : BitVec 16) (age : Word32) (retention : Byte) : PackClass :=
  { enabled := enabled, target := clampTo 16 2048 target.toNat, cap := clampTo 1 1024 cap.toNat,
    ageLimit := clampTo 1000 86400000 age.toNat, retention := retention }

/-- The class table with one class written. A class that goes from enabled to disabled has its OPEN pack sealed with
CLASS_CLOSED (R93). -/
def State.writeClass (c : ClassIx) (k : PackClass) (s : State) : State :=
  let s1 : State := { s with classes := s.classes.set c k }
  if (s.cls c).enabled && !k.enabled then s1.sealClassPack s.clock .classClosed c else s1

/-- SET_CLASS (R92, R93). -/
def State.carryOutSetClass (cls enabled : Byte) (target cap : BitVec 16) (age : Word32) (retention : Byte) (s : State) :
    State :=
  match classOf cls.toNat, flagOf enabled with
  | some c, some f =>
      let k := clampedClass f target cap age retention
      (s.writeClass c k).respond .ok (classBytes c k)
  | _, _ => s.refuse .badArg

/-- SET_LIMITS (R165). -/
def State.carryOutSetLimits (hold idle : Word32) (share mode : Byte) (s : State) : State :=
  match modeOf mode with
  | none => s.refuse .badArg
  | some m =>
      let h := clampTo 1 65535 hold.toNat
      let i := clampTo 1000 600000 idle.toNat
      let g := clampTo 1 255 share.toNat
      State.respond .ok (le 4 h ++ le 4 i ++ le 1 g ++ le 1 m.code)
        { s with holdLimit := h, idleLimit := i, arbiter := { s.arbiter with share := g, mode := m } }

/-- Every deadline rebased for a preset of the clock to `p` (R154 step 1, R156). The deadline that a rebinding armed after an
idle expiry taken before SET_CLOCK is rebased as well (R131, R153), though R143 says that SET_CLOCK then finds no idle
deadline of the slot (log entry 29). -/
def State.rebaseAll (p : Time) (s : State) : State :=
  { s with
    packs := s.packs.map (fun k => { k with age := k.age.rebase s.clock p (s.cls k.cls).ageLimit })
    lanes := s.lanes.map (fun l => { l with holdDeadline := l.holdDeadline.rebase s.clock p s.holdLimit })
    slots := s.slots.map (fun v => { v with idle := v.idle.rebase s.clock p s.idleLimit }) }

/-- SET_CLOCK (R154). -/
def State.carryOutSetClock (p : Time) (s : State) : State :=
  if 2 ^ 47 < p.toNat then s.refuse .badArg
  else State.respond .ok (le 6 p.toNat) { s.rebaseAll p with clock := p, prescaler := 0 }

/-! ### Part states -/

/-- The conditions of R167 that fail, as the byte of a BAD_CONFIG response (R177): bit i - 1 for condition i. -/
def State.failedConditions (s : State) : Nat :=
  (if s.window.set then 0 else 1) + (if s.directory.set then 0 else 2)
    + (if allLanes.any (fun k => (s.lane k).enabled) then 0 else 4)
    + (if allClasses.any (fun c => (s.cls c).enabled) then 0 else 8)
    + (if allSlots.any (fun j => s.slotEnabled j) then 0 else 16)

/-- The part state that START enters (R167). -/
def State.startState (s : State) : PartState := if s.quiesceLine then .quiesced else .run

/-- What START does when all five conditions hold (R167, and the START rows of R40, R56, R75, R112, R128, R148; log entry
16). -/
def State.enterRun (s : State) : State :=
  { s with
    lanes := s.lanes.map (fun l => if l.enabled then l.fresh else l)
    lastServed := 15, members := [], packs := Vector.replicate 64 {}, waitList := [], engine := {}, readyQueue := []
    slots := Vector.replicate 4 {}, arbiter := { s.arbiter with run := 0, burst := none }, part := s.startState }

/-- START (R167). -/
def State.carryOutStart (s : State) : State :=
  if s.part ≠ .config then s.refuse .badState
  else if s.failedConditions ≠ 0 then s.respond .badConfig (le 1 s.failedConditions)
  else s.enterRun.respond .ok (le 1 s.startState.code)

/-- The engine stopped by RESTART (R126, log entry 25). The units in flight and the discard list are kept. -/
def Engine.stopped (e : Engine) : Engine :=
  { state := .stopping, unitsInFlight := e.unitsInFlight, discards := e.discards }

/-- REFUSED responses to the upstream writes of pending dispositions of a list of slots (R147 step 1). R3, R147 and R168 give
these responses no order among slots; RESTART sends them in ascending slot order (the model's choice, log entry 28). -/
def State.refusePending : List SlotIx → State → State
  | [], s => s
  | j :: js, s =>
      State.refusePending js (match (s.slot j).pending with
        | some (.written tag _) => s.send tag .refused
        | some (.returned tag _) => s.send tag .refused
        | _ => s)

/-- A pack record at RESTART (R147 step 3): READY and BOUND packs become FAILED with no view slot. -/
def Pack.failedByRestart (p : Pack) : Pack :=
  if p.state = .ready ∨ p.state = .bound then { p with state := .failed, viewSlot := none } else p

/-- The View Translator at RESTART (R147), pending dispositions refused in ascending slot order (log entry 28). View reads
stay, but no longer count for a slot. -/
def State.clearView (s : State) : State :=
  let s1 := s.refusePending allSlots
  { s1 with slots := Vector.replicate 4 {}, readyQueue := [], packs := s1.packs.map Pack.failedByRestart,
            viewReads := s1.viewReads.map (fun r => { r with slot := none }) }

/-- RESTART (R168): it completes at once with no commit unit in flight, and otherwise leaves the response BUSY. -/
def State.carryOutRestart (s : State) : State :=
  if s.part = .config then s.refuse .badState
  else
    let s1 := s.refuseHeldIn allLanes
    let s2 := State.withdraw { s1 with lastServed := 15, engine := s1.engine.stopped }
    let s3 := s2.clearView
    if s3.restartDue then s3.finishRestart else { s3 with part := .quiesced }

/-! ### Packs -/

/-- SEAL_CLASS (R102). -/
def State.carryOutSealClass (cls : Byte) (s : State) : State :=
  if s.part = .config then s.refuse .badState
  else match classOf cls.toNat with
    | none => s.refuse .badArg
    | some c =>
        match s.openPackOf c with
        | some d => (s.sealPack s.clock .command d).respond .ok (le 1 1 ++ le 4 (s.pack d).serial.toNat)
        | none => s.respond .ok (le 1 0 ++ le 4 0)

/-- DRAIN over a list of classes (R103): every OPEN pack is sealed. -/
def State.drainClasses (t : Time) : List ClassIx → State → State
  | [], s => s
  | c :: cs, s => State.drainClasses t cs (s.sealClassPack t .drain c)

/-- The classes of a list that hold an OPEN pack. -/
def State.openClasses (s : State) : Nat := allClasses.countP (fun c => (s.openPackOf c).isSome)

/-- DRAIN (R103). -/
def State.carryOutDrain (s : State) : State :=
  if s.part = .config then s.refuse .badState
  else (s.drainClasses s.clock allClasses).respond .ok (le 1 s.openClasses)

/-- Record `d` is the current pack of the engine. -/
def State.isCurrent (s : State) (d : PackIx) : Bool :=
  match s.engine.current with
  | some cur => decide (cur.record = d)
  | none => false

/-- A pack leaves the commit queue, and the engine drops it when it is the current pack (R106, R107, R125). -/
def State.leaveCommit (d : PackIx) (s : State) : State :=
  let e := s.engine
  let e1 : Engine := { e with queue := e.queue.filter (fun x => decide (x ≠ d)) }
  if s.isCurrent d then State.beginCommit (State.withdraw { s with engine := e1.dropped }) else { s with engine := e1 }

/-- The pack leaves the structure that holds it (R106 step 1). An OPEN pack leaves its class without an OPEN pack, so what
the release pass of step 2 completes or seals does not reach it; its record, no longer OPEN, is not FREE before step 3. -/
def State.leaveStructure (d : PackIx) (s : State) : State :=
  match (s.pack d).state with
  | .ready => { s with readyQueue := s.readyQueue.filter (fun x => decide (x ≠ d)) }
  | .sealing => s.leaveCommit d
  | .opened => s.setPack d { s.pack d with state := .discarding, age := .absent }
  | _ => s

/-- DISCARD_PACK of a pack without commit units in flight (R106). -/
def State.discardWhole (t : Time) (d : PackIx) (s : State) : State :=
  let wasOpen := decide ((s.pack d).state = .opened)
  ((((s.leaveStructure d).releasePack t d).freeRecord d).count (Counters.bumpDiscarded wasOpen)).drainWaitList t

/-- DISCARD_PACK of the current pack with commit units in flight (R107, R125). -/
def State.discardInFlight (t : Time) (d : PackIx) (s : State) : State :=
  let s1 : State := { s with engine := { s.engine with discards := s.engine.discards ++ [⟨d, s.engine.unitsInFlight⟩] } }
  let s2 := (s1.leaveCommit d).releasePack t d
  (s2.setPack d { s2.pack d with state := .discarding }).count (Counters.bumpDiscarded false)

/-- The tests of R105 that DISCARD_PACK and RECOMMIT_PACK share: a status, or the record. -/
def State.namedPack (record : Byte) (serial : Word32) (s : State) : Status ⊕ PackIx :=
  if s.part = .config then .inl .badState
  else match packOf record with
    | none => .inl .badArg
    | some d =>
        if (s.pack d).state = .free ∨ (s.pack d).serial ≠ serial then .inl .notFound else .inr d

/-- Commit units of record `d`, the current pack, are in flight. -/
def State.unitsOut (s : State) (d : PackIx) : Bool := s.isCurrent d && decide (0 < s.engine.unitsInFlight)

/-- DISCARD_PACK (R105 to R107). -/
def State.carryOutDiscardPack (record : Byte) (serial : Word32) (s : State) : State :=
  match s.namedPack record serial with
  | .inl status => s.refuse status
  | .inr d =>
      match (s.pack d).state with
      | .bound => s.refuse .bound
      | .discarding => s.refuse .badState
      | found =>
          (if s.unitsOut d then s.discardInFlight s.clock d else s.discardWhole s.clock d).respond .ok (le 1 found.code)

/-- RECOMMIT_PACK (R105, R108). -/
def State.carryOutRecommitPack (record : Byte) (serial : Word32) (s : State) : State :=
  match s.namedPack record serial with
  | .inl status => s.refuse status
  | .inr d =>
      if (s.pack d).state = .failed then
        ((s.setPack d { s.pack d with state := .sealing }).joinCommitQueue d).respond .ok (le 1 (s.pack d).state.code)
      else s.refuse .badState

/-! ### Lanes -/

/-- The lane once its buffers are cleared, its cursor rounded up and its parser set to LEAD (R38 steps 3 to 5). -/
def Lane.restarted (l : Lane) : Lane :=
  { l.clearLead with parser := .lead, cursor := roundUp 64 l.cursor % l.size, remaining := 0 }

/-- LANE_RESTART carried out on lane `k` (R38). A release pass follows when a member was broken or the tail moved (R49,
log entry 12). -/
def State.restartLane (t : Time) (k : LaneIx) (s : State) : State :=
  let s1 := ((s.refuseHeld k).breakMember t .restart k).mapLane k Lane.restarted
  if (s.lane k).receiving.isSome || decide (s1.tail k ≠ s.tail k) then s1.releasePass t else s1

/-- LANE_RESTART (R37, R38). -/
def State.carryOutLaneRestart (lane : Byte) (s : State) : State :=
  if s.part = .config then s.refuse .badState
  else match laneOf lane with
    | none => s.refuse .badArg
    | some k =>
        if (s.lane k).enabled then
          let s1 := s.restartLane s.clock k
          s1.respond .ok (le 4 (s1.lane k).cursor)
        else s.refuse .notFound

/-! ### Events -/

/-- POP_EVENT (R172). -/
def State.carryOutPopEvent (s : State) : State :=
  match s.events with
  | [] => s.refuse .notFound
  | e :: rest => State.respond .ok (e.bytes ++ le 1 rest.length) { s with events := rest }

/-- SET_ATTENTION_MASK (R173): flags that name no kind are not stored. -/
def State.carryOutSetAttentionMask (mask : BitVec 16) (s : State) : State :=
  let stored : BitVec 13 := mask.extractLsb' 0 13
  State.respond .ok (le 2 stored.toNat) { s with attentionMask := stored }

/-! ### Frames by code -/

/-- A command by its code and payload, once its frame has been taken (R162, Table 11-6): a code that names no command and
a payload length other than the table's are answered BAD_ARG. -/
def State.carryOut (code : Byte) (payload : List Byte) (s : State) : State :=
  let n := payload.length
  let byte := fun o => payload.getD o 0
  let word16 := fun o => BitVec.ofNat 16 (field payload o 2)
  let word32 := fun o => BitVec.ofNat 32 (field payload o 4)
  let base := fun o => BitVec.ofNat 40 (field payload o 5)
  match code.toNat, n with
  | 1, 0 => s.carryOutReadPart
  | 2, 1 => s.carryOutReadLane (byte 0)
  | 3, 1 => s.carryOutReadPack (byte 0)
  | 4, 8 => s.carryOutSetLane (byte 0) (byte 1) (byte 2) (base 3)
  | 5, 11 => s.carryOutSetWindows (base 0) (byte 5) (base 6)
  | 6, 10 => s.carryOutSetSerial (word32 0) (word16 4) (word32 6)
  | 7, 11 => s.carryOutSetClass (byte 0) (byte 1) (word16 2) (word16 4) (word32 6) (byte 10)
  | 8, 10 => s.carryOutSetLimits (word32 0) (word32 4) (byte 8) (byte 9)
  | 9, 6 => s.carryOutSetClock (BitVec.ofNat 48 (field payload 0 6))
  | 10, 0 => s.carryOutStart
  | 11, 0 => s.carryOutRestart
  | 12, 1 => s.carryOutSealClass (byte 0)
  | 13, 0 => s.carryOutDrain
  | 14, 5 => s.carryOutDiscardPack (byte 0) (word32 1)
  | 15, 5 => s.carryOutRecommitPack (byte 0) (word32 1)
  | 16, 1 => s.carryOutLaneRestart (byte 0)
  | 17, 0 => s.carryOutPopEvent
  | 18, 2 => s.carryOutSetAttentionMask (word16 0)
  | _, _ => s.refuse .badArg

/-! ### Select periods -/

/-- The bytes of a response read after its first byte period (R161, R177): the state byte and, in READY, the response. -/
def LinkResponse.bytes : LinkResponse → List Byte
  | .none => [0]
  | .busy => [1]
  | .ready status payload => [2] ++ le 1 status.code ++ le 2 payload.length ++ payload

/-- A response read of so many whole byte periods after the code (R161): zeros follow the response, and a READY response
read to its last byte is gone. A read whose state byte was shifted out as BUSY finishes as a read in BUSY, and leaves a
response that has become READY since for the next read. -/
def State.readResponse (span : ReadSpan) (s : State) : State :=
  if s.resetLow then s
  else
    let shown := if span.shownBusy then .busy else s.response
    let all := shown.bytes
    let shifted := (all ++ zeroBytes (span.periods - all.length)).take span.periods
    let left := match shown with
      | .ready _ _ => if all.length ≤ span.periods then .none else s.response
      | _ => s.response
    { s with msdo := 0 :: shifted, response := left }

/-- A select period as it is received (R160): no whole byte is ignored; a first byte 0xF0 is a response read; a malformed
frame, and one whose first byte was received while the response was BUSY, is discarded; any other is taken. -/
def State.selectPeriod (bytes : List Byte) (edges : FrameEdges) (s : State) : State :=
  if s.resetLow then s
  else match bytes with
    | [] => s
    | code :: rest =>
        if code = Config.responseReadCode then s.readResponse ⟨rest.length, false⟩
        else if edges.begunBusy || frameMalformed bytes edges.extraBits.val then s.discardFrame bytes.length
        else s.takeFrame bytes.length (fun u => u.carryOut code (rest.drop 2))

end Sys2Proof.Machine
end

