-- ==== Sys2Proof/Machine/Clock.lean ====
section
/-!
DEFINITION. The pack clock (R150, R151) and the taking of expiries (R153). A report shows a due deadline equal to the clock
(R156, R159), so a tick has every due expiry taken before the clock moves (log entry 11).
-/

namespace Sys2Proof.Machine

/-! ### Expiries -/

/-- The expiry of lane `k`'s hold deadline, of value `v`, as its owner takes it (R51). -/
def State.expireHold (v : Time) (k : LaneIx) (s : State) : State :=
  let s1 := s.refuseHeld k
  let s2 := (s1.raise v (.holdExpired k (s.lane k).hold.length (s.lane k).cursor)).mapLane k (fun l =>
    l.count (fun c => { c with holdExpiries := satAdd c.holdExpiries 1 }))
  ((s2.breakMember v .holdExpired k).mapLane k Lane.enterSeek).releasePass v

/-- Lane `k` takes the expiry of its hold deadline, if it is due (R51, R153). The responses to held writes make room for
waiting requests (R2). -/
def State.takeHoldExpiry (k : LaneIx) (s : State) : State :=
  match (s.lane k).holdDeadline with
  | .due v => (s.expireHold v k).refill
  | _ => s

/-- The OPEN pack of record `d` takes the expiry of its age deadline, if it is due (R104, R153). A record that is not OPEN has
no deadline to act on, and a due one is removed. -/
def State.takeAgeExpiry (d : PackIx) (s : State) : State :=
  match (s.pack d).age with
  | .due v =>
      if (s.pack d).state = .opened then s.sealPack v .age d else s.setPack d { s.pack d with age := .absent }
  | _ => s

/-- The expiry of slot `j`'s idle deadline, of value `v`, bound as `b` (R142): the deadline is removed; the pack is returned,
or an idle return is made pending. -/
def State.expireIdle (v : Time) (j : SlotIx) (b : Binding) (s : State) : State :=
  let s1 := s.setSlot j { s.slot j with idle := .absent }
  if (s.slot j).reads = 0 then s1.takeIdle v j b
  else s1.setSlot j { s1.slot j with pending := some .idle }

/-- Slot `j` takes the expiry of its idle deadline, if it is due (R142, R153). A slot that is FREE or has a return pending has
no pack to return, and a due deadline is removed. -/
def State.takeIdleExpiry (j : SlotIx) (s : State) : State :=
  match (s.slot j).idle with
  | .due v =>
      match (s.slot j).bound, (s.slot j).pending with
      | some b, none => s.expireIdle v j b
      | _, _ => s.setSlot j { s.slot j with idle := .absent }
  | _ => s

/-- HOLD_EXPIRY (R51): the lane takes the expiry of a due hold deadline (R153). -/
def execHoldExpiry (k : LaneIx) (s : State) : Host.Outcome State Fault Refusal := .next (s.takeHoldExpiry k)

/-- AGE_EXPIRY (R104): the OPEN pack is sealed with cause AGE. -/
def execAgeExpiry (d : PackIx) (s : State) : Host.Outcome State Fault Refusal := .next (s.takeAgeExpiry d)

/-- IDLE_EXPIRY (R142). -/
def execIdleExpiry (j : SlotIx) (s : State) : Host.Outcome State Fault Refusal := .next (s.takeIdleExpiry j)

/-- Every due expiry taken by its owner. R153 leaves the order of expiries that fall together open; here lanes, then packs,
then slots take theirs, each in ascending order (the model's choice, log entry 11). -/
def State.takeDue (s : State) : State :=
  let s1 := allLanes.foldl (fun u k => u.takeHoldExpiry k) s
  let s2 := allPacks.foldl (fun u d => u.takeAgeExpiry d) s1
  allSlots.foldl (fun u j => u.takeIdleExpiry j) s2

/-! ### The clock -/

/-- The engine once the present REFCLK period is over: no QUIESCE onset falls together with the end of a commit any more (R124,
log entry 30). -/
def Engine.periodOver (e : Engine) : Engine := { e with afterEnd := none }

/-- The clock goes on by one (R150, R151, R153): pending deadlines equal to its new value become due, and CLOCK_END is raised
on reaching the end. -/
def State.advanceClock (s : State) : State :=
  let now := s.clock + 1
  let s1 : State :=
    { s with
      clock := now, prescaler := 0, engine := s.engine.periodOver
      packs := s.packs.map (fun p => { p with age := p.age.onTick now })
      lanes := s.lanes.map (fun l => { l with holdDeadline := l.holdDeadline.onTick now })
      slots := s.slots.map (fun v => { v with idle := v.idle.onTick now }) }
  if now = timeMax then s1.raise now .clockEnd else s1

/-- The prescaler's carry (R150, R151): its count returns to 0. At the end of the clock nothing else happens; below it, what is
due is taken (R153, R159, log entry 11) and the clock goes on. -/
def State.tick (s : State) : State :=
  if s.clock = timeMax then { s with prescaler := 0, engine := s.engine.periodOver } else s.takeDue.advanceClock

/-- One REFCLK period (R150). -/
def State.refclkPeriod (s : State) : State :=
  if s.prescaler + 1 < Config.refclkPerTick then { s with prescaler := s.prescaler + 1, engine := s.engine.periodOver }
  else s.tick

/-- PACK_CLOCK_TICK (R150): the prescaler reaches 50,000 and returns to 0. The command stands for the carry, whatever count the
prescaler is at, also right after a SET_CLOCK (R155): the REFCLK periods up to the carry are taken as passed (the model's
choice, log entry 2). -/
def execPackClockTick (s : State) : Host.Outcome State Fault Refusal := .next s.tick

end Sys2Proof.Machine
end

