-- ==== Sys2Proof/Machine/Lines.lean ====
section
/-!
DEFINITION. Power-on, RESETB and the QUIESCE line (R166, R170).
-/

namespace Sys2Proof.Machine

/-- The state after power-on (R170). The waiting commands and the levels of the two pins come from outside (log entry 5). -/
def State.powerOn (s : State) : State :=
  { State.reset with pending := s.pending, resetLow := s.resetLow, quiesceLine := s.quiesceLine }

/-- What RESETB makes of the state (R170, R16, R158): power-on values except the pack clock, its prescaler and serial_next.
Responses already sent stay sent, and the QUIESCE level comes from outside. -/
def State.resetTo (low : Bool) (s : State) : State :=
  { State.reset with
    pending := s.pending, resetLow := low, quiesceLine := s.quiesceLine, sent := s.sent
    clock := s.clock, prescaler := s.prescaler, serialNext := s.serialNext }

/-- POWER_ON (R170). -/
def execPowerOn (s : State) : Host.Outcome State Fault Refusal := .next s.powerOn

/-- RESETB_ASSERTION (R170): everything RESETB reaches is reset, and stays so while RESETB is low. -/
def execResetbAssertion (s : State) : Host.Outcome State Fault Refusal := .next (s.resetTo true)

/-- RESETB_RELEASE (R170). RESETB that is high does not rise (log entry 22). -/
def execResetbRelease (s : State) : Host.Outcome State Fault Refusal :=
  .next (if s.resetLow then s.resetTo false else s)

/-- QUIESCE onset (R166): the part becomes QUIESCED, every held write is refused (R54), the engine suspends (R122). R54
refuses "lane by lane" and gives the lanes no order; the model takes them in ascending order (log entry 28). -/
def State.onset (s : State) : State :=
  State.engineOnset s.clock (State.refuseHeldIn allLanes { s with part := .quiesced })

/-- QUIESCE release (R166): the part becomes RUN and the engine goes on (R123). -/
def State.release (s : State) : State := State.engineRelease { s with part := .run }

/-- The QUIESCE line goes to a level (R166). A line already there does not change. In CONFIG, while a RESTART is in
progress, and while RESETB is low, only the level changes. -/
def State.lineTo (level : Bool) (s : State) : State :=
  if s.quiesceLine = level then s
  else
    let s1 : State := { s with quiesceLine := level }
    if s.resetLow ∨ s.engine.state = .stopping then s1
    else match s.part, level with
      | .run, true => s1.onset
      | .quiesced, false => s1.release
      | _, _ => s1

/-- QUIESCE_ONSET (R166). The responses to held writes make room for waiting requests (R2). -/
def execQuiesceOnset (s : State) : Host.Outcome State Fault Refusal := .next (s.lineTo true).refill

/-- QUIESCE_RELEASE (R166). -/
def execQuiesceRelease (s : State) : Host.Outcome State Fault Refusal := .next (s.lineTo false).refill

/-- QUIESCE_LINE_IGNORED (R166): the line goes to a level where that is no onset and no release. -/
def execQuiesceLineIgnored (level : Bool) (s : State) : Host.Outcome State Fault Refusal := .next (s.lineTo level).refill

end Sys2Proof.Machine
end

