-- ==== Sys2Proof/Machine/LinkCommands.lean ====
section
/-!
DEFINITION. The meanings of the management link's rows (chapter 10). A management command is a whole frame of 3 bytes and
its payload (R160, Table 11-6), taken and carried out in one event (R162).
-/

namespace Sys2Proof.Machine

/-- COMMAND_FRAME_DISCARD (R160). A select period that ends in no discard is taken for what it is (log entry 6). -/
def execCommandFrameDiscard (bytes : List Byte) (edges : FrameEdges) (s : State) : Host.Outcome State Fault Refusal :=
  .next (s.selectPeriod bytes edges).refill

/-- UNKNOWN_COMMAND (R162): a whole frame by its code and payload; a code that names no command is answered BAD_ARG. A
payload above 64 bytes is discarded (R160). -/
def execUnknownCommand (code : Byte) (payload : List Byte) (s : State) : Host.Outcome State Fault Refusal :=
  .next (s.selectPeriod (code :: le 2 payload.length ++ payload) ⟨0, false⟩).refill

/-- RESPONSE_READ (R161). -/
def execResponseRead (span : ReadSpan) (s : State) : Host.Outcome State Fault Refusal := .next (s.readResponse span)

/-- READ_PART (R163). -/
def execReadPart (s : State) : Host.Outcome State Fault Refusal := .next (s.takeFrame 3 State.carryOutReadPart)

/-- READ_LANE (R41). -/
def execReadLane (lane : Byte) (s : State) : Host.Outcome State Fault Refusal :=
  .next (s.takeFrame 4 (State.carryOutReadLane lane))

/-- READ_PACK (R111). -/
def execReadPack (record : Byte) (s : State) : Host.Outcome State Fault Refusal :=
  .next (s.takeFrame 4 (State.carryOutReadPack record))

/-- SET_LANE (R7). -/
def execSetLane (lane enabled exponent : Byte) (base : Addr) (s : State) : Host.Outcome State Fault Refusal :=
  .next (s.takeFrame 11 (State.carryOutSetLane lane enabled exponent base))

/-- SET_WINDOWS (R7). -/
def execSetWindows (viewBase : Addr) (mask : Byte) (dirBase : Addr) (s : State) : Host.Outcome State Fault Refusal :=
  .next (s.takeFrame 14 (State.carryOutSetWindows viewBase mask dirBase))

/-- SET_SERIAL (R164). -/
def execSetSerial (serial : Word32) (former : BitVec 16) (tb : Word32) (s : State) : Host.Outcome State Fault Refusal :=
  .next (s.takeFrame 13 (State.carryOutSetSerial serial former tb))

/-- SET_CLASS (R92). -/
def execSetClass (cls enabled : Byte) (target cap : BitVec 16) (age : Word32) (retention : Byte) (s : State) :
    Host.Outcome State Fault Refusal :=
  .next (s.takeFrame 14 (State.carryOutSetClass cls enabled target cap age retention))

/-- SET_LIMITS (R165). -/
def execSetLimits (hold idle : Word32) (share mode : Byte) (s : State) : Host.Outcome State Fault Refusal :=
  .next (s.takeFrame 13 (State.carryOutSetLimits hold idle share mode))

/-- SET_CLOCK (R154). -/
def execSetClock (p : Time) (s : State) : Host.Outcome State Fault Refusal := .next (s.takeFrame 9 (State.carryOutSetClock p))

/-- START (R167). -/
def execStart (s : State) : Host.Outcome State Fault Refusal := .next (s.takeFrame 3 State.carryOutStart)

/-- RESTART (R168). The responses to held writes and dispositions make room for waiting requests (R2). -/
def execRestart (s : State) : Host.Outcome State Fault Refusal := .next (s.takeFrame 3 State.carryOutRestart).refill

/-- SEAL_CLASS (R102). -/
def execSealClass (cls : Byte) (s : State) : Host.Outcome State Fault Refusal :=
  .next (s.takeFrame 4 (State.carryOutSealClass cls))

/-- DRAIN (R103). -/
def execDrain (s : State) : Host.Outcome State Fault Refusal := .next (s.takeFrame 3 State.carryOutDrain)

/-- DISCARD_PACK (R105 to R107). -/
def execDiscardPack (record : Byte) (serial : Word32) (s : State) : Host.Outcome State Fault Refusal :=
  .next (s.takeFrame 8 (State.carryOutDiscardPack record serial))

/-- RECOMMIT_PACK (R108). -/
def execRecommitPack (record : Byte) (serial : Word32) (s : State) : Host.Outcome State Fault Refusal :=
  .next (s.takeFrame 8 (State.carryOutRecommitPack record serial))

/-- LANE_RESTART (R37, R38). The responses to held writes make room for waiting requests (R2). -/
def execLaneRestart (lane : Byte) (s : State) : Host.Outcome State Fault Refusal :=
  .next (s.takeFrame 4 (State.carryOutLaneRestart lane)).refill

/-- POP_EVENT (R172). -/
def execPopEvent (s : State) : Host.Outcome State Fault Refusal := .next (s.takeFrame 3 State.carryOutPopEvent)

/-- SET_ATTENTION_MASK (R173). -/
def execSetAttentionMask (mask : BitVec 16) (s : State) : Host.Outcome State Fault Refusal :=
  .next (s.takeFrame 5 (State.carryOutSetAttentionMask mask))

end Sys2Proof.Machine
end

