-- ==== Sys2Proof/Machine/Ports.lean ====
section
/-!
DEFINITION. The commands of the upstream port and the memory port, and the part's consequent events (R134, R137, R142, R121,
R122, R107, R169), which are also taken inside the event that brings about their condition (log entry 1).
-/

namespace Sys2Proof.Machine

/-- UPSTREAM_REQUEST (R1, R2, R10). While RESETB is low no request is taken (R170). -/
def execUpstreamRequest (r : Request) (s : State) : Host.Outcome State Fault Refusal :=
  if r.len = 0 ∨ 4096 < r.len then .refused .malformedRequest
  else if s.resetLow then .next s
  else .next (s.arrive r)

/-- GRANT (R13): the memory port can take a request. -/
def execGrant (s : State) : Host.Outcome State Fault Refusal := .next s.grant

/-- BURST_UNIT_ISSUE (R14). -/
def execBurstUnitIssue (s : State) : Host.Outcome State Fault Refusal := .next s.issueBurstUnit

/-- MEMORY_RESPONSE (R4). The upstream responses it brings make room for waiting requests (R2). -/
def execMemoryResponse (a : MemAnswer) (s : State) : Host.Outcome State Fault Refusal := .next (s.takeAnswer s.clock a).refill

/-- VIEW_READ_RESPONSE (R134). -/
def execViewReadResponse (s : State) : Host.Outcome State Fault Refusal := .next (s.respondRead s.clock).refill

/-- COMMIT_END (R121). -/
def execCommitEnd (s : State) : Host.Outcome State Fault Refusal := .next (s.endCommit s.clock)

/-- COMMIT_SUSPENDED (R122). -/
def execCommitSuspended (s : State) : Host.Outcome State Fault Refusal := .next (s.endSuspending s.clock)

/-- DISCARDING_END (R107). -/
def execDiscardingEnd (d : PackIx) (s : State) : Host.Outcome State Fault Refusal := .next (s.endDiscarding s.clock d)

/-- PENDING_DISPOSITION_TAKEN (R137). -/
def execPendingDispositionTaken (j : SlotIx) (s : State) : Host.Outcome State Fault Refusal :=
  .next (s.takePendingDisposition s.clock j).refill

/-- PENDING_IDLE_RETURN (R142). -/
def execPendingIdleReturn (j : SlotIx) (s : State) : Host.Outcome State Fault Refusal := .next (s.takePendingIdle s.clock j)

/-- RESTART_COMPLETION (R169). -/
def execRestartCompletion (s : State) : Host.Outcome State Fault Refusal := .next s.endRestart

end Sys2Proof.Machine
end

