-- ==== Sys2Proof/Machine/Dispatch.lean ====
section
/-!
DEFINITION. The meaning of every command: one arm per row of spec/opcode_table.json.
-/

namespace Sys2Proof.Machine

/-- The effect of a command on everything but the queue of commands. -/
def exec (i : Instr) (s : State) : Host.Outcome State Fault Refusal :=
  match i with
  | .powerOn => Sys2Proof.Machine.execPowerOn s
  | .resetbAssertion => Sys2Proof.Machine.execResetbAssertion s
  | .resetbRelease => Sys2Proof.Machine.execResetbRelease s
  | .quiesceOnset => Sys2Proof.Machine.execQuiesceOnset s
  | .quiesceRelease => Sys2Proof.Machine.execQuiesceRelease s
  | .upstreamRequest r => Sys2Proof.Machine.execUpstreamRequest r s
  | .grant => Sys2Proof.Machine.execGrant s
  | .burstUnitIssue => Sys2Proof.Machine.execBurstUnitIssue s
  | .memoryResponse a => Sys2Proof.Machine.execMemoryResponse a s
  | .viewReadResponse => Sys2Proof.Machine.execViewReadResponse s
  | .commitEnd => Sys2Proof.Machine.execCommitEnd s
  | .commitSuspended => Sys2Proof.Machine.execCommitSuspended s
  | .discardingEnd record => Sys2Proof.Machine.execDiscardingEnd record s
  | .pendingDispositionTaken slot => Sys2Proof.Machine.execPendingDispositionTaken slot s
  | .pendingIdleReturn slot => Sys2Proof.Machine.execPendingIdleReturn slot s
  | .restartCompletion => Sys2Proof.Machine.execRestartCompletion s
  | .packClockTick => Sys2Proof.Machine.execPackClockTick s
  | .holdExpiry lane => Sys2Proof.Machine.execHoldExpiry lane s
  | .ageExpiry record => Sys2Proof.Machine.execAgeExpiry record s
  | .idleExpiry slot => Sys2Proof.Machine.execIdleExpiry slot s
  | .commandFrameDiscard bytes edges => Sys2Proof.Machine.execCommandFrameDiscard bytes edges s
  | .unknownCommand code payload => Sys2Proof.Machine.execUnknownCommand code payload s
  | .responseRead span => Sys2Proof.Machine.execResponseRead span s
  | .readPart => Sys2Proof.Machine.execReadPart s
  | .readLane lane => Sys2Proof.Machine.execReadLane lane s
  | .readPack record => Sys2Proof.Machine.execReadPack record s
  | .setLane lane enabled exponent base => Sys2Proof.Machine.execSetLane lane enabled exponent base s
  | .setWindows viewBase mask dirBase => Sys2Proof.Machine.execSetWindows viewBase mask dirBase s
  | .setSerial serial former tb => Sys2Proof.Machine.execSetSerial serial former tb s
  | .setClass cls enabled target cap age tag => Sys2Proof.Machine.execSetClass cls enabled target cap age tag s
  | .setLimits hold idle share mode => Sys2Proof.Machine.execSetLimits hold idle share mode s
  | .setClock p => Sys2Proof.Machine.execSetClock p s
  | .start => Sys2Proof.Machine.execStart s
  | .restart => Sys2Proof.Machine.execRestart s
  | .sealClass cls => Sys2Proof.Machine.execSealClass cls s
  | .drain => Sys2Proof.Machine.execDrain s
  | .discardPack record serial => Sys2Proof.Machine.execDiscardPack record serial s
  | .recommitPack record serial => Sys2Proof.Machine.execRecommitPack record serial s
  | .laneRestart lane => Sys2Proof.Machine.execLaneRestart lane s
  | .popEvent => Sys2Proof.Machine.execPopEvent s
  | .setAttentionMask mask => Sys2Proof.Machine.execSetAttentionMask mask s
  | .quiesceLineIgnored level => Sys2Proof.Machine.execQuiesceLineIgnored level s

end Sys2Proof.Machine
end

