-- ==== Sys2Proof/WellFormed.lean ====
section
/-!
DEFINITION. Which commands the part's interfaces can carry.
-/

namespace Sys2Proof

/-- The length field of the upstream port expresses 1 to 4,096 bytes (section 1.1). -/
def Request.wellFormed (r : Request) : Bool := 1 ≤ r.len && r.len ≤ 4096

/-- A memory answer carries at most the 4,096 bytes of the longest request (section 1.2). -/
def MemAnswer.wellFormed : MemAnswer → Bool
  | .done d => d.length ≤ 4096
  | .fault => true

/-- Whether a code byte names a command of Table 11-6. -/
def commandCodeKnown (code : Byte) : Bool := 1 ≤ code.toNat && code.toNat ≤ 18

/-- The operands a command can have. A COMMAND_FRAME_DISCARD is a select period of at least one byte that is no response
read; a RESPONSE_READ that has shown a state byte has had a byte period after its code; an UNKNOWN_COMMAND is a frame of a
code that names nothing, with a payload the command buffer holds. -/
def Instr.wellFormed : Instr → Bool
  | .upstreamRequest r => r.wellFormed
  | .memoryResponse a => a.wellFormed
  | .responseRead span => !span.shownBusy || 1 ≤ span.periods
  | .commandFrameDiscard bytes _ => bytes != [] && bytes.head? != some Config.responseReadCode
  | .unknownCommand code payload =>
      !commandCodeKnown code && code != Config.responseReadCode && payload.length ≤ Config.commandBuffer
  | .powerOn | .resetbAssertion | .resetbRelease | .quiesceOnset | .quiesceRelease | .grant | .burstUnitIssue
  | .viewReadResponse | .commitEnd | .commitSuspended | .discardingEnd _ | .pendingDispositionTaken _
  | .pendingIdleReturn _ | .restartCompletion | .packClockTick | .holdExpiry _ | .ageExpiry _ | .idleExpiry _
  | .readPart | .readLane _ | .readPack _ | .setLane _ _ _ _ | .setWindows _ _ _ | .setSerial _ _ _
  | .setClass _ _ _ _ _ _ | .setLimits _ _ _ _ | .setClock _ | .start | .restart | .sealClass _ | .drain
  | .discardPack _ _ | .recommitPack _ _ | .laneRestart _ | .popEvent | .setAttentionMask _ | .quiesceLineIgnored _ => true

end Sys2Proof
end

