-- ==== Sys2Proof/Safety.lean ====
section
/-!
DEFINITION. What stays true of the part: predicates on states that every step keeps, from the laws of the device and the
ranges of the tables of state.
-/

namespace Sys2Proof.Machine

/-- The event queue holds at most 32 records (R171, Table 10-1). -/
def State.eventsBounded (s : State) : Prop := s.events.length ≤ Config.eventPlaces

/-- The number of writes on one lane's hold queue never exceeds 4 (R42). -/
def State.holdsBounded (s : State) : Prop := ∀ k : LaneIx, (s.lane k).hold.length ≤ Config.holdPlaces

/-- The Member Table is in its canonical form (log entry 13). -/
def State.membersCanonical (s : State) : Prop := s.members.wf = true

/-- A deadline that is pending lies ahead of the clock. -/
def Deadline.ahead (now : Time) : Deadline → Prop
  | .pending v => now < v
  | _ => True

/-- Every limit a deadline is armed with is at least 1 ms (R152). -/
structure State.limitsPositive (s : State) : Prop where
  hold : 1 ≤ s.holdLimit
  idle : 1 ≤ s.idleLimit
  age : ∀ c : ClassIx, 1 ≤ (s.cls c).ageLimit

/-- Every pending deadline is greater than the pack clock (R153). -/
structure State.deadlinesAhead (s : State) : Prop where
  ages : ∀ d : PackIx, (s.pack d).age.ahead s.clock
  holds : ∀ k : LaneIx, (s.lane k).holdDeadline.ahead s.clock
  idles : ∀ j : SlotIx, (s.slot j).idle.ahead s.clock

/-- Every due deadline equals the pack clock (R156, R159): no tick passes over an expiry not yet taken (log entry 11). -/
structure State.duesNow (s : State) : Prop where
  ages : ∀ (d : PackIx) (v : Time), (s.pack d).age = .due v → v = s.clock
  holds : ∀ (k : LaneIx) (v : Time), (s.lane k).holdDeadline = .due v → v = s.clock
  idles : ∀ (j : SlotIx) (v : Time), (s.slot j).idle = .due v → v = s.clock

/-- While the engine is in any state other than ISSUING, no burst is in progress and the run count is 0 (R118, R15). -/
def State.arbiterQuiet (s : State) : Prop :=
  s.engine.state ≠ .issuing → s.arbiter.run = 0 ∧ s.arbiter.burst = none

/-- The response is BUSY exactly while a RESTART waits on commit units in flight (R162, R168). -/
def State.busyIsRestart (s : State) : Prop := s.response = .busy ↔ s.engine.state = .stopping

/-- The fields of a class lie in the ranges of Table 6-1. -/
structure PackClass.inRange (k : PackClass) : Prop where
  target : 16 ≤ k.target ∧ k.target ≤ 2048
  cap : 1 ≤ k.cap ∧ k.cap ≤ 1024
  ageLimit : 1000 ≤ k.ageLimit ∧ k.ageLimit ≤ 86400000

/-- Every setting lies in its range: the limits and G (R165), TB (R76), the classes (R92), the size exponents (R7), the run
count (Table 1-4). -/
structure State.settingsInRange (s : State) : Prop where
  hold : 1 ≤ s.holdLimit ∧ s.holdLimit ≤ 65535
  idle : 1000 ≤ s.idleLimit ∧ s.idleLimit ≤ 600000
  share : 1 ≤ s.arbiter.share ∧ s.arbiter.share ≤ 255
  tapeBlock : s.tapeBlock ∈ [65536, 131072, 262144, 524288, 1048576]
  classes : ∀ c : ClassIx, (s.cls c).inRange
  exponents : ∀ k : LaneIx, 25 ≤ (s.lane k).exponent ∧ (s.lane k).exponent ≤ 30

/-- Two regions share no address. -/
def apart (b1 : Addr) (n1 : Nat) (b2 : Addr) (n2 : Nat) : Prop :=
  b1.toNat + n1 ≤ b2.toNat ∨ b2.toNat + n2 ≤ b1.toNat

/-- Every defined region is aligned to its size, and no two share an address (Table 1-1, R7). -/
structure State.regionsSound (s : State) : Prop where
  laneAligned : ∀ k : LaneIx, (s.lane k).base.toNat % (s.lane k).size = 0
  windowAligned : s.window.base.toNat % Config.viewWindowSize = 0
  directoryAligned : s.directory.base.toNat % Config.directorySize = 0
  lanesApart : ∀ j k : LaneIx, j ≠ k → (s.lane j).enabled = true → (s.lane k).enabled = true →
    apart (s.lane j).base (s.lane j).size (s.lane k).base (s.lane k).size
  windowApart : ∀ k : LaneIx, s.window.set = true → (s.lane k).enabled = true →
    apart s.window.base Config.viewWindowSize (s.lane k).base (s.lane k).size
  directoryApart : ∀ k : LaneIx, s.directory.set = true → (s.lane k).enabled = true →
    apart s.directory.base Config.directorySize (s.lane k).base (s.lane k).size
  bothApart : s.window.set = true → s.directory.set = true →
    apart s.window.base Config.viewWindowSize s.directory.base Config.directorySize

/-- No counter of `c'` is below its value in `c`. -/
def Counters.Le (c c' : Counters) : Prop := List.Forall₂ (fun a b : Word32 => a.toNat ≤ b.toNat) c.all c'.all

/-- No counter of a lane in `c'` is below its value in `c`. -/
def LaneCounters.Le (c c' : LaneCounters) : Prop := List.Forall₂ (fun a b : Word32 => a.toNat ≤ b.toNat) c.all c'.all

/-- No counter of the part is lower after than before (R174). -/
structure State.countersKept (s s' : State) : Prop where
  part : s.counters.Le s'.counters
  lanes : ∀ k : LaneIx, (s.lane k).counts.Le (s'.lane k).counts

/-- The region table is unchanged (R6). -/
structure State.sameRegions (s s' : State) : Prop where
  window : s'.window = s.window
  directory : s'.directory = s.directory
  enabled : ∀ k : LaneIx, (s'.lane k).enabled = (s.lane k).enabled
  base : ∀ k : LaneIx, (s'.lane k).base = (s.lane k).base
  exponent : ∀ k : LaneIx, (s'.lane k).exponent = (s.lane k).exponent

/-- The engine has a current pack exactly while a commit is in progress (R117, R121, R125, R126). -/
def State.engineCurrent (s : State) : Prop :=
  s.engine.current.isSome = true ↔
    s.engine.state = .issuing ∨ s.engine.state = .settling ∨ s.engine.state = .suspending ∨ s.engine.state = .suspended

/-! ### Words of the statements -/

/-- The management link takes the next frame (R160, R170): RESETB is high and the response is not BUSY. -/
structure State.linkFree (s : State) : Prop where
  high : s.resetLow = false
  idle : s.response ≠ .busy

/-- `s` with the answer to a frame of `n` bytes held in the response buffer, and nothing else changed. -/
def State.answered (s : State) (n : Nat) (status : Status) (payload : List Byte) : State :=
  { s with response := .ready status payload, msdo := zeroBytes n }

/-- No deadline is due: every expiry has been taken by its owner (R153). -/
structure State.nothingDue (s : State) : Prop where
  ages : ∀ (d : PackIx) (v : Time), (s.pack d).age ≠ .due v
  holds : ∀ (k : LaneIx) (v : Time), (s.lane k).holdDeadline ≠ .due v
  idles : ∀ (j : SlotIx) (v : Time), (s.slot j).idle ≠ .due v

/-- The state after a command that has a next state, for chains of commands. -/
def State.carriedOut (s : State) (c : Instr) : State :=
  match exec c s with
  | .next t => t
  | _ => s

/-- The upstream port takes the next request at its arrival (R2). -/
structure State.takesNow (s : State) : Prop where
  high : s.resetLow = false
  free : s.bus = []
  room : s.outstanding < 96

/-- Two regions share an address (R7). -/
def shares (b1 n1 b2 n2 : Nat) : Prop := ∃ a, b1 ≤ a ∧ a < b1 + n1 ∧ b2 ≤ a ∧ a < b2 + n2

/-- An address lies in the extent of a request (R8). -/
def touches (r : Request) (a : Nat) : Prop := r.addr.toNat ≤ a ∧ a < r.addr.toNat + r.len

/-- Every address of the request lies in region `g`, within the 40-bit space. -/
structure State.liesIn (s : State) (r : Request) (g : Region) : Prop where
  formed : r.wellFormed = true
  space : r.addr.toNat + r.len ≤ 2 ^ 40
  region : ∀ a, touches r a → s.regionOf a = g

/-- A write of lane `k` in RUN that reaches its Lane Parser (R9, R10). -/
structure State.reachesLane (s : State) (k : LaneIx) (tag : Nat) (addr : Addr) (data : List Byte) : Prop where
  now : s.takesNow
  formed : (Request.write tag addr data).wellFormed = true
  space : addr.toNat + data.length ≤ 2 ^ 40
  run : s.part = .run
  first : s.regionOf addr.toNat = .lane k

/-- A write that passes R21 and R22: it ends in the lane and begins at the projected cursor. -/
structure State.inSequence (s : State) (k : LaneIx) (tag : Nat) (addr : Addr) (data : List Byte) : Prop
    extends s.reachesLane k tag addr data where
  inside : addr.toNat + data.length ≤ (s.lane k).base.toNat + (s.lane k).size
  atCursor : addr.toNat - (s.lane k).base.toNat = ((s.lane k).cursor + (s.lane k).heldBytes) % (s.lane k).size

/-- The length of a command's frame in bytes: 3 and its payload (R160, Table 11-6). A first byte 0xF0 is no command. -/
def frameBytes : Instr → Option Nat
  | .readPart | .start | .restart | .drain | .popEvent => some 3
  | .readLane _ | .readPack _ | .sealClass _ | .laneRestart _ => some 4
  | .setAttentionMask _ => some 5
  | .discardPack _ _ | .recommitPack _ _ => some 8
  | .setClock _ => some 9
  | .setLane _ _ _ _ => some 11
  | .setSerial _ _ _ | .setLimits _ _ _ _ => some 13
  | .setWindows _ _ _ | .setClass _ _ _ _ _ _ => some 14
  | .unknownCommand code payload => if code = Config.responseReadCode then none else some (3 + payload.length)
  | _ => none

/-- The payload length of the command of a code (Table 11-6). -/
def payloadLength : Nat → Option Nat
  | 1 | 10 | 11 | 13 | 17 => some 0
  | 2 | 3 | 12 | 16 => some 1
  | 4 => some 8
  | 5 | 7 => some 11
  | 6 | 8 => some 10
  | 9 => some 6
  | 14 | 15 => some 5
  | 18 => some 2
  | _ => none

/-- The REFUSED responses to held writes, lane by lane, ascending (R55 for RESTART; at QUIESCE onset R54 leaves the order of
the lanes open, log entry 28), in queue order (R3). -/
def State.heldRefusals (s : State) : List UpResponse :=
  allLanes.flatMap (fun k => (s.lane k).hold.map (fun w => ⟨w.tag, .refused⟩))

/-- The REFUSED responses to the writes of pending dispositions (R147), in ascending slot order (the model's choice, log
entry 28). -/
def State.pendingRefusals (s : State) : List UpResponse :=
  allSlots.flatMap (fun j => match (s.slot j).pending with
    | some (.written tag _) => [⟨tag, .refused⟩]
    | some (.returned tag _) => [⟨tag, .refused⟩]
    | _ => [])

/-- The engine at the beginning of a commit of pack `d` (R117), with no end of another for an onset to fall together with (log
entry 30). -/
def State.begun (s : State) (d : PackIx) (e : Engine) : Engine :=
  { e with state := .issuing, current := some ⟨d, (s.pack d).serial⟩, nextUnit := 1, unitsInFlight := 0, faults := 0,
           firstFaulted := none, headerAcc := {}, indexAcc := {}, trailerAcc := {}, afterEnd := none }

/-- What the drop of pack `d`, the current one, makes of the engine (R125): the pack is off the queue, the fields of the current
commit take the values of Table 7-2, the discard list is as given, and in RUN the head of the queue is begun (R117). What the
end before it left for an onset is gone with it (log entry 30). -/
structure DroppedIn (s : State) (e : Engine) (d : PackIx) (discards : List Discarding) : Prop where
  waits : s.part ≠ .run ∨ s.engine.queue.filter (fun x => decide (x ≠ d)) = [] →
    e = { queue := s.engine.queue.filter (fun x => decide (x ≠ d)), discards := discards }
  begins : ∀ (x : PackIx) (xs : List PackIx), s.part = .run →
    s.engine.queue.filter (fun x => decide (x ≠ d)) = x :: xs →
    e = s.begun x { queue := x :: xs, discards := discards }

/-- What the seal of pack `d` does (R101, R116): also to the commit engine, which begins the head of its queue when it is IDLE
in RUN, and otherwise changes in the tail of its queue alone (R117). -/
structure SealedIn (s t : State) (d : PackIx) (time : Time) (cause : SealCause) : Prop where
  pack : t.pack d = { s.pack d with state := .sealing, age := .absent, sealTime := time, cause := some cause }
  packs : ∀ e : PackIx, e ≠ d → t.pack e = s.pack e
  filed : ∀ m : MemberIx, m ∈ (s.pack d).members → t.member m = { s.member m with state := .filed }
  members : ∀ m : MemberIx, m ∉ (s.pack d).members → t.member m = s.member m
  queue : t.engine.queue = s.engine.queue ++ [d]
  begins : s.engine.state = .idle → s.part = .run → ∀ (e : PackIx) (es : List PackIx), s.engine.queue ++ [d] = e :: es →
    t.engine = s.begun e { s.engine with queue := s.engine.queue ++ [d] }
  waits : s.engine.state ≠ .idle ∨ s.part ≠ .run → t.engine = { s.engine with queue := s.engine.queue ++ [d] }
  counters : t.counters = s.counters.bumpSealed cause
  rest : t = { s with packs := t.packs, members := t.members, engine := t.engine, counters := t.counters,
                      response := t.response, msdo := t.msdo }

/-- No lane holds a write. -/
def State.nothingHeld (s : State) : Prop := ∀ k : LaneIx, (s.lane k).hold = []

/-- The bytes of the units `u`, `u + 1`, … of a commit, `count` of them, built one after another from engine `e`. -/
def commitBytes (formerId : BitVec 16) (tb : Nat) (members : MemberTable) (p : Pack) : Nat → Engine → Nat → List Byte
  | 0, _, _ => []
  | count + 1, e, u =>
      let b := buildUnit formerId tb members p e u
      b.bytes ++ commitBytes formerId tb members p count (e.issued b) (u + 1)

/-- Where the bytes of a segment come from, byte by byte: an address, or a zero. -/
def Segment.places (g : Segment) : List (Option Addr) := (List.range g.len).map (fun i => g.source.map (fun a => addrAt a i))

end Sys2Proof.Machine
end

