-- ==== Sys2Proof/Certificates/Slice0/Obligations.lean ====
section
/-!
DEFINITION. The statements about the part, from the numbered rules of spec/. A statement that rests on a choice of the model
says so and names the log entry.
-/

open Sys2Proof Sys2Proof.Machine

/-! ### The step -/

/-- A step with a command at the front of the queue is `exec` of it on the state with the queue's rest. The manual has events
taken one at a time and gives no queue of commands: the queue and its order are the model's own (log entries 22 and 26). -/
def Obligations.StepRunsFrontCommand : Prop :=
  ∀ (s : State) (c : Instr) (rest : List Instr), s.pending = c :: rest → step s = exec c { s with pending := rest }

/-- With no command waiting a step is one REFCLK period (the model's choice, log entry 2): the prescaler counts, and on
reaching 50,000 the pack clock ticks (R150). With the period ends what the model holds for a QUIESCE onset that falls
together with the end of a commit (log entry 30). -/
def Obligations.EmptyQueueStepIsRefclkPeriod : Prop :=
  ∀ s : State, s.pending = [] →
    (s.prescaler + 1 < 50000 → step s = .next { s with
      prescaler := s.prescaler + 1, engine := { s.engine with afterEnd := none } }) ∧
    (50000 ≤ s.prescaler + 1 → step s = exec .packClockTick s)

/-! ### Power-on, RESETB, QUIESCE -/

/-- The values the manual's tables of state give for power-on (R170): the link, the settings, the region table (1-1), every
field of the lanes (2-1, 3-1), the lane counters (2-5), the member records (4-1), the classes (6-1), the pack records (6-2),
the engine (7-2), the slots (8-1), the arbiter (1-4), the queues of both ports, and all counters 0. What the model keeps of
the end of the last commit is absent (log entry 30). -/
def Obligations.ResetStateHoldsInitialValues : Prop :=
  let s := State.reset
  s.part = .config ∧ s.response = .none ∧ s.events = [] ∧ s.overflow = false ∧ s.attentionMask = 0 ∧ s.attn = false ∧
  s.formerId = 0 ∧ s.holdLimit = 2000 ∧ s.idleLimit = 120000 ∧ s.tapeBlock = 262144 ∧ s.serialNext = 0 ∧
  s.clock = 0 ∧ s.prescaler = 0 ∧ s.lastServed = 15 ∧ s.waitList = [] ∧ s.readyQueue = [] ∧
  s.forwarding = [] ∧ s.inFlight = [] ∧ s.viewReads = [] ∧ s.outstanding = 0 ∧
  s.window = { set := false, base := 0, mask := 0 } ∧ s.directory = { set := false, base := 0 } ∧
  s.arbiter = { share := 8, mode := .steal, run := 0, burst := none } ∧
  s.engine = { queue := [], state := .idle, current := none, nextUnit := 1, unitsInFlight := 0, faults := 0,
               firstFaulted := none, headerAcc := ⟨0, 0⟩, indexAcc := ⟨0, 0⟩, trailerAcc := ⟨0, 0⟩, discards := [] } ∧
  (∀ n ∈ s.counters.all, n = 0) ∧
  (∀ c : ClassIx, s.cls c = { enabled := false, target := 256, cap := 256, ageLimit := 600000, retention := 0 }) ∧
  (∀ k : LaneIx,
    s.lane k = { enabled := false, base := 0, exponent := 25, cursor := 0, parser := .lead, leadBuffer := [],
                 candidate := [], remaining := 0, receiving := none, pendingLead := none, hold := [],
                 holdDeadline := .absent, order := [], counts := (s.lane k).counts } ∧
    (∀ n ∈ (s.lane k).counts.all, n = 0) ∧ s.tail k = 0 ∧ s.used k = 0 ∧ (s.lane k).collected = 0) ∧
  (∀ m : MemberIx,
    s.member m = { state := .free, lane := 0, leadOffset := 0, dataLength := 0, received := 0, cls := 0, dataset := 0,
                   producerSeq := 0, nameDigest := 0, leadDigest := ⟨0, 0⟩, dataDigest := ⟨0, 0⟩,
                   sectionDigest := ⟨0, 0⟩, leadTime := 0, doneTime := 0, packRecord := none, sectionOffset := none }) ∧
  (∀ d : PackIx,
    s.pack d = { state := .free, serial := 0, cls := 0, target := 0, cap := 0, retention := 0, members := [], body := 0,
                 digest := ⟨0, 0⟩, projected := 0, openTime := 0, firstDone := 0, lastDone := 0, sealTime := 0,
                 age := .absent, cause := none, viewSlot := none, returns := 0 }) ∧
  (∀ j : SlotIx, s.slot j = { bound := none, reads := 0, pending := none, idle := .absent })

/-- POWER_ON gives every piece of state its initial value; RESETB_ASSERTION does the same but for the pack clock, its
prescaler and serial_next, which RESETB_RELEASE keeps as well (R170, R95, R158). That the upstream bus is emptied too is the
model's choice (log entry 3). The levels of the two pins, the waiting commands and the record of sent responses come from
outside or are the model's own (log entries 4, 5, 18, 22). -/
def Obligations.ResetEvents : Prop :=
  ∀ s : State,
    exec .powerOn s =
      .next { State.reset with pending := s.pending, resetLow := s.resetLow, quiesceLine := s.quiesceLine } ∧
    exec .resetbAssertion s =
      .next { State.reset with pending := s.pending, resetLow := true, quiesceLine := s.quiesceLine, sent := s.sent,
                               clock := s.clock, prescaler := s.prescaler, serialNext := s.serialNext } ∧
    (s.resetLow = true → exec .resetbRelease s =
      .next { State.reset with pending := s.pending, resetLow := false, quiesceLine := s.quiesceLine, sent := s.sent,
                               clock := s.clock, prescaler := s.prescaler, serialNext := s.serialNext }) ∧
    (s.resetLow = false → exec .resetbRelease s = .next s)

/-- While RESETB is low the part takes no upstream request and no select period, and a change of the QUIESCE line, by
whichever of its three rows, changes its level alone (R170); the pack clock goes on counting. That a request which arrives
meanwhile is gone, and does not wait for the rise of RESETB, is read from R170 (log entry 18). -/
def Obligations.NothingIsTakenWhileResetbLow : Prop :=
  ∀ s : State, s.resetLow = true → s.bus = [] →
    (∀ r : Request, r.wellFormed = true → exec (.upstreamRequest r) s = .next s) ∧
    (∀ (c : Instr) (n : Nat), frameBytes c = some n → exec c s = .next s) ∧
    (∀ (bytes : List Byte) (x : FrameEdges), exec (.commandFrameDiscard bytes x) s = .next s) ∧
    (∀ p : ReadSpan, exec (.responseRead p) s = .next s) ∧
    exec .quiesceOnset s = .next { s with quiesceLine := true } ∧
    exec .quiesceRelease s = .next { s with quiesceLine := false } ∧
    (∀ level : Bool, exec (.quiesceLineIgnored level) s = .next { s with quiesceLine := level }) ∧
    (s.clock ≠ timeMax → ∃ t, exec .packClockTick s = .next t ∧ t.clock = s.clock + 1)

/-- QUIESCE onset in RUN (R166, R54, R122): the part is QUIESCED, every held write is refused lane by lane and every hold
deadline cancelled; an ISSUING engine is SUSPENDED at once with COMMIT_SUSPENDED when no unit is in flight, and SUSPENDING
otherwise; an engine in another state, the lane states, members, packs and slots are kept. An onset that falls together with
the last answer of a commit leaves the engine IDLE, as the end of that commit left it, also when the answer is taken first
and has begun the next commit (R124; that the two fall together within one REFCLK period is the model's choice, log entry
30). That the lanes come in ascending order is the model's choice (log entry 28). Requests waiting on the bus then find room
(`refill`, R2). -/
def Obligations.QuiesceOnsetEffects : Prop :=
  ∀ s : State, s.resetLow = false → s.quiesceLine = false → s.part = .run → s.engine.state ≠ .stopping →
    ∃ u : State, exec .quiesceOnset s = .next u.refill ∧ u.part = .quiesced ∧ u.quiesceLine = true ∧
      (∀ k : LaneIx, u.lane k = { s.lane k with hold := [], holdDeadline := .absent }) ∧
      u.sent = s.sent ++ s.heldRefusals ∧
      (s.engine.state ≠ .issuing → u.engine = s.engine ∧ u.arbiter = s.arbiter ∧ u.events = s.events) ∧
      (∀ l : Leftover, s.engine.state = .issuing → s.engine.afterEnd = some l →
        u.engine = { s.engine with
          state := .idle, current := none, nextUnit := l.nextUnit, unitsInFlight := 0, faults := l.faults,
          firstFaulted := l.firstFaulted, headerAcc := ⟨0, 0⟩, indexAcc := ⟨0, 0⟩, trailerAcc := l.trailerAcc,
          afterEnd := none } ∧
        u.arbiter = { s.arbiter with run := 0, burst := none } ∧ u.events = s.events) ∧
      (s.engine.state = .issuing → s.engine.afterEnd = none → 0 < s.engine.unitsInFlight →
        u.engine = { s.engine with state := .suspending } ∧
        u.arbiter = { s.arbiter with run := 0, burst := none } ∧ u.events = s.events) ∧
      (∀ cur : Current, s.engine.state = .issuing → s.engine.afterEnd = none → s.engine.unitsInFlight = 0 →
        s.engine.current = some cur →
        u.engine = { s.engine with state := .suspended } ∧
        u.arbiter = { s.arbiter with run := 0, burst := none } ∧
        (s.events.length < 32 → u.events =
          s.events ++ [⟨s.clock, .commitSuspended cur.record cur.serial s.engine.nextUnit⟩])) ∧
      u.members = s.members ∧ u.packs = s.packs ∧ u.slots = s.slots ∧ u.readyQueue = s.readyQueue ∧
      u.waitList = s.waitList ∧ u.forwarding = s.forwarding ∧ u.inFlight = s.inFlight ∧ u.viewReads = s.viewReads ∧
      u.clock = s.clock

/-- QUIESCE release (R166, R123): the part is RUN; a SUSPENDED or SUSPENDING engine is ISSUING with all it kept, an IDLE one
begins the head of its queue (R117, with no end of another commit for an onset to fall together with: log entry 30), a
SETTLING one is unchanged. In CONFIG, and while a RESTART is in progress, a change of the QUIESCE line changes its level and
nothing else (R166). -/
def Obligations.QuiesceReleaseAndIgnoredLevels : Prop :=
  (∀ s : State, s.resetLow = false → s.quiesceLine = true → s.part = .quiesced →
     (s.engine.state = .suspended ∨ s.engine.state = .suspending → exec .quiesceRelease s =
       .next (State.refill { s with quiesceLine := false, part := .run, engine := { s.engine with state := .issuing } })) ∧
     (∀ (d : PackIx) (ds : List PackIx), s.engine.state = .idle → s.engine.queue = d :: ds → exec .quiesceRelease s =
       .next (State.refill { s with quiesceLine := false, part := .run, engine := s.begun d s.engine })) ∧
     (s.engine.state = .idle ∧ s.engine.queue = [] ∨ s.engine.state = .settling → exec .quiesceRelease s =
       .next (State.refill { s with quiesceLine := false, part := .run })) ∧
     (s.engine.state = .stopping → exec .quiesceRelease s = .next (State.refill { s with quiesceLine := false }))) ∧
  (∀ (s : State) (level : Bool), s.part = .config ∨ s.engine.state = .stopping →
     exec (.quiesceLineIgnored level) s = .next (State.refill { s with quiesceLine := level }))

/-! ### Upstream requests -/

/-- A request that arrives joins the bus, and the requests of the bus are taken one by one, oldest first, while fewer than 96
are outstanding (R1, R2; the bus as a queue is the model's choice, log entry 3). Outstanding are the held writes, the
forwarded requests waiting or in flight, the view reads waiting for parts and the disposition writes pending; a refused
request is answered within its own event (R2, R3). A request of no byte or of more than 4,096 bytes cannot arrive (section
1.1, log entry 15). -/
def Obligations.RequestsAreTakenInOrderWhileRoom : Prop :=
  (∀ (s : State) (r : Request), s.resetLow = false → r.wellFormed = true →
    exec (.upstreamRequest r) s = .next (State.refill { s with bus := s.bus ++ [r] })) ∧
  (∀ (s : State) (r : Request), r.wellFormed = false → exec (.upstreamRequest r) s = .refused .malformedRequest) ∧
  (∀ s : State, s.bus = [] → s.refill = s) ∧
  (∀ s : State, 96 ≤ s.outstanding → s.refill = s) ∧
  (∀ (s : State) (r : Request) (rs : List Request), s.bus = r :: rs → s.outstanding < 96 →
    s.refill = (State.takeRequest r { s with bus := rs }).refill) ∧
  (∀ s : State, s.outstanding =
    ((List.finRange 16).map (fun k => (s.lane k).hold.length)).sum +
    (s.forwarding ++ s.inFlight).countP (fun r => match r.owner with
      | .upstream _ => true
      | _ => false) +
    s.viewReads.length +
    (List.finRange 4).countP (fun j => match (s.slot j).pending with
      | some (.written _ _) => true
      | some (.returned _ _) => true
      | _ => false))

/-- R8: a request whose address plus length exceeds 2^40 is refused with RANGE and counted, and no further test is made;
another lies within the 40-bit space. -/
def Obligations.RangeRefusal : Prop :=
  ∀ (s : State) (r : Request), r.wellFormed = true →
    (s.takesNow → 2 ^ 40 < r.addr.toNat + r.len →
      exec (.upstreamRequest r) s =
        .next { s with counters := { s.counters with rangeRefusals := satAdd s.counters.rangeRefusals 1 },
                       sent := s.sent ++ [⟨r.tag, .refused⟩] }) ∧
    (r.addr.toNat + r.len ≤ 2 ^ 40 → ∀ a, touches r a → a < 2 ^ 40)

/-- R9: a request whose extent touches two regions is refused with STRADDLE and counted. The exception is a WRITE taken in
RUN that begins in an enabled lane region and runs past its end: its Lane Parser refuses it with EDGE. -/
def Obligations.StraddleRefusal : Prop :=
  ∀ (s : State) (r : Request), s.takesNow → s.regionsSound → s.settingsInRange → r.wellFormed = true →
    r.addr.toNat + r.len ≤ 2 ^ 40 →
    ((∃ a b, touches r a ∧ touches r b ∧ s.regionOf a ≠ s.regionOf b) →
      ¬ (s.part = .run ∧ isWriteRequest r = true ∧ ∃ k, s.regionOf r.addr.toNat = .lane k) →
      exec (.upstreamRequest r) s =
        .next { s with counters := { s.counters with straddleRefusals := satAdd s.counters.straddleRefusals 1 },
                       sent := s.sent ++ [⟨r.tag, .refused⟩] }) ∧
    (∀ k : LaneIx, s.part = .run → isWriteRequest r = true → s.regionOf r.addr.toNat = .lane k →
      (s.lane k).base.toNat + (s.lane k).size < r.addr.toNat + r.len →
      exec (.upstreamRequest r) s =
        .next { s.setLane k { s.lane k with counts :=
                  { (s.lane k).counts with edgeRefusals := satAdd (s.lane k).counts.edgeRefusals 1 } } with
                sent := s.sent ++ [⟨r.tag, .refused⟩] })

/-- R6: with regions as R7 leaves them, an address lies in the enabled lane region, the slot window of the set view window
or the set directory area that covers it, and in other space when none does. Disabled and unset entries take no part. -/
def Obligations.RegionTableClassifiesAddresses : Prop :=
  ∀ s : State, s.regionsSound → ∀ a : Nat,
    (∀ k : LaneIx, s.regionOf a = .lane k ↔
      (s.lane k).enabled = true ∧ (s.lane k).base.toNat ≤ a ∧ a < (s.lane k).base.toNat + 2 ^ (s.lane k).exponent) ∧
    (∀ j : SlotIx, s.regionOf a = .slotWindow j ↔
      s.window.set = true ∧ s.window.base.toNat + j.val * 2 ^ 31 ≤ a ∧ a < s.window.base.toNat + (j.val + 1) * 2 ^ 31) ∧
    (s.regionOf a = .directory ↔
      s.directory.set = true ∧ s.directory.base.toNat ≤ a ∧ a < s.directory.base.toNat + 2 ^ 23)

/-- R10, Table 1-2: a request that lies in one region is forwarded, refused and counted as a placement refusal, handed to
its Lane Parser, or handed to the view path, by region, kind and part state. -/
def Obligations.RoutesOfTable12 : Prop :=
  ∀ (s : State) (r : Request) (g : Region), s.takesNow → s.liesIn r g →
    let forwarded : State := { s with forwarding := s.forwarding ++
      [⟨isWriteRequest r, r.addr, r.len, requestData r, .upstream r.tag⟩] }
    let refused : State :=
      { s with counters := { s.counters with placementRefusals := satAdd s.counters.placementRefusals 1 },
               sent := s.sent ++ [⟨r.tag, .refused⟩] }
    (g = .other → exec (.upstreamRequest r) s = .next forwarded) ∧
    (g = .directory → isWriteRequest r = false ∨ s.part = .config → exec (.upstreamRequest r) s = .next forwarded) ∧
    (g = .directory → isWriteRequest r = true → s.part ≠ .config → exec (.upstreamRequest r) s = .next refused) ∧
    (∀ k : LaneIx, g = .lane k →
      (isWriteRequest r = false ∨ s.part = .config → exec (.upstreamRequest r) s = .next forwarded) ∧
      (isWriteRequest r = true → s.part = .quiesced → exec (.upstreamRequest r) s = .next refused) ∧
      (isWriteRequest r = true → s.part = .run → exec (.upstreamRequest r) s =
        .next (s.takeLaneWrite s.clock k ⟨r.tag, r.addr, requestData r⟩))) ∧
    (∀ j : SlotIx, g = .slotWindow j →
      (s.part = .config → exec (.upstreamRequest r) s = .next refused) ∧
      (s.part ≠ .config → isWriteRequest r = false → exec (.upstreamRequest r) s =
        .next (s.takeRead j ((r.addr.toNat - s.window.base.toNat) % 2 ^ 31) r.len r.tag)) ∧
      (s.part ≠ .config → isWriteRequest r = true → exec (.upstreamRequest r) s =
        .next (s.takeDisposition s.clock j ((r.addr.toNat - s.window.base.toNat) % 2 ^ 31) r.tag (requestData r))))

/-! ### Lane writes -/

/-- R21: a lane write that runs past the end of its lane region is refused with EDGE, counted, and changes nothing else.
A write that ends at the region's last byte is not. R22: a lane write within its lane that does not begin at the
projected cursor is refused with STRAY, counted, and changes nothing else. One that does is not: it is held, accepted, or
refused with HOLD_FULL (`HoldSteps`, `AcceptedWriteIsParsedAndForwarded`). -/
def Obligations.EdgeAndStrayRefusals : Prop :=
  (∀ (s : State) (k : LaneIx) (tag : Nat) (addr : Addr) (data : List Byte), s.reachesLane k tag addr data →
     ((s.lane k).base.toNat + (s.lane k).size < addr.toNat + data.length →
       exec (.upstreamRequest (.write tag addr data)) s =
         .next { s.setLane k { s.lane k with counts :=
                   { (s.lane k).counts with edgeRefusals := satAdd (s.lane k).counts.edgeRefusals 1 } } with
                 sent := s.sent ++ [⟨tag, .refused⟩] }) ∧
     (addr.toNat + data.length ≤ (s.lane k).base.toNat + (s.lane k).size →
       ∃ t, exec (.upstreamRequest (.write tag addr data)) s = .next t ∧
         (t.lane k).counts.edgeRefusals = (s.lane k).counts.edgeRefusals)) ∧
  (∀ (s : State) (k : LaneIx) (tag : Nat) (addr : Addr) (data : List Byte), s.reachesLane k tag addr data →
     addr.toNat + data.length ≤ (s.lane k).base.toNat + (s.lane k).size →
     addr.toNat - (s.lane k).base.toNat ≠
       ((s.lane k).cursor + ((s.lane k).hold.map (fun w => w.data.length)).sum) % (s.lane k).size →
     exec (.upstreamRequest (.write tag addr data)) s =
       .next { s.setLane k { s.lane k with counts :=
                 { (s.lane k).counts with strayRefusals := satAdd (s.lane k).counts.strayRefusals 1 } } with
               sent := s.sent ++ [⟨tag, .refused⟩] }) ∧
  (∀ (s : State) (k : LaneIx) (tag : Nat) (addr : Addr) (data : List Byte), s.inSequence k tag addr data →
     ∃ t, exec (.upstreamRequest (.write tag addr data)) s = .next t ∧
       (t.lane k).counts.strayRefusals = (s.lane k).counts.strayRefusals)

/-- A write in sequence (R43, R44, R47): into an empty hold queue it is held when it fails the acceptance test of R45 (space
or member entries), which arms the hold deadline; behind 1 to 3 held writes it joins the tail and the deadline keeps its
value; behind 4 it is refused with HOLD_FULL and counted. A release pass (R50) visits the sixteen lanes once each, ascending
from the lane after the last served. At a lane with nothing held, or whose head fails the test, nothing happens. A head that
passes leaves the queue, its lane becomes the last served, and it is accepted; with none behind it the deadline is cancelled;
when the new head fails the deadline is armed again for it; when it passes the lane's visit goes on. What the test reads: the
tail is the lead offset of the order list's head, else the pending lead start, else the cursor, and used the distance from it
to the cursor around the ring (R18); the FREE count is that of the FREE entries (R67, table form: log entry 13); the lead
count parses the write from the lane's state and counts each 64th byte of a valid FILE lead or candidate (R35). -/
def Obligations.HoldSteps : Prop :=
  (∀ (s : State) (k : LaneIx) (tag : Nat) (addr : Addr) (data : List Byte), s.inSequence k tag addr data →
    ((s.lane k).hold = [] →
      (s.lane k).size - 64 < s.used k + data.length ∨ s.members.freeCount < (s.lane k).leadCount s.classes data →
      exec (.upstreamRequest (.write tag addr data)) s =
        .next (s.setLane k { s.lane k with hold := [⟨tag, addr, data⟩],
                                           holdDeadline := Deadline.arm s.clock s.holdLimit })) ∧
    (1 ≤ (s.lane k).hold.length → (s.lane k).hold.length ≤ 3 →
      exec (.upstreamRequest (.write tag addr data)) s =
        .next (s.setLane k { s.lane k with hold := (s.lane k).hold ++ [⟨tag, addr, data⟩] })) ∧
    ((s.lane k).hold.length = 4 →
      exec (.upstreamRequest (.write tag addr data)) s =
        .next { s.setLane k { s.lane k with counts :=
                  { (s.lane k).counts with holdFullRefusals := satAdd (s.lane k).counts.holdFullRefusals 1 } } with
                sent := s.sent ++ [⟨tag, .refused⟩] })) ∧
  (∀ (s : State) (t : Time),
    let visit := fun (k : LaneIx) (u : State) => u.serveHeads t k (u.lane k).hold false
    s.releasePass t = allLanes.foldl (fun u i => visit (s.lastServed + 1 + i) u) s ∧
    ∀ k : LaneIx,
      let passes := fun (u : State) (w : HeldWrite) => u.used k + w.data.length ≤ (u.lane k).size - 64 ∧
        (u.lane k).leadCount u.classes w.data ≤ u.members.freeCount
      ((s.lane k).hold = [] → visit k s = s) ∧
      (∀ (w : HeldWrite) (ws : List HeldWrite), (s.lane k).hold = w :: ws →
        (¬ passes s w → visit k s = s) ∧
        (passes s w →
          let u := State.acceptWrite t k w { s.setLane k { s.lane k with hold := ws } with lastServed := k }
          (ws = [] → visit k s = u.setLane k { u.lane k with holdDeadline := .absent }) ∧
          (∀ (v : HeldWrite) (vs : List HeldWrite), ws = v :: vs →
            (¬ passes u v →
              visit k s = u.setLane k { u.lane k with holdDeadline := Deadline.arm u.clock u.holdLimit }) ∧
            (passes u v → visit k s = visit k u))))) ∧
  (∀ (s : State) (k : LaneIx),
    let l := s.lane k
    (∀ (m : MemberIx) (rest : List MemberIx), l.order = m :: rest → s.tail k = (s.member m).leadOffset) ∧
    (∀ p : Nat, l.order = [] → l.pendingLead = some p → s.tail k = p) ∧
    (l.order = [] → l.pendingLead = none → s.tail k = l.cursor) ∧
    (s.tail k < l.size → s.used k < l.size ∧ (s.tail k + s.used k) % l.size = l.cursor % l.size) ∧
    (s.membersCanonical →
      s.members.freeCount = (List.finRange 4096).countP (fun m => decide (s.member m = {})))) ∧
  (∀ (s : State) (t : Time) (k : LaneIx) (b : Byte) (bs : List Byte),
    let l := s.lane k
    let count := fun (u : State) (data : List Byte) => (u.lane k).leadCount u.classes data
    let completes := ∃ f : LeadFields,
      l.parser = .lead ∧ 63 ≤ l.leadBuffer.length ∧ judgeLead s.classes (l.leadBuffer ++ [b]) = .file f ∨
      l.parser = .seek ∧ 63 ≤ l.candidate.length ∧ judgeLead s.classes (l.candidate ++ [b]) = .file f
    count s [] = 0 ∧
    (completes → count s (b :: bs) = 1 + count (s.parseBytes t k [b]) bs) ∧
    (¬ completes → count s (b :: bs) = count (s.parseBytes t k [b]) bs))

/-- A write in sequence that passes the acceptance test of R45 is accepted (R46): the cursor advances by its length, the
bytes-accepted counter increases by it, it joins the tail of the forwarding queue unchanged with its tag, and no other lane,
no slot and nothing at the two ports changes. What else the write does is the parse of its bytes, one by one in lane order
(R23): in LEAD a byte is collected, the first setting the pending lead start (R24); in DATA it joins the member's received
bytes and data digest, and the last completes the member and leaves the lane in LEAD at a 64-aligned cursor and in PAD
otherwise (R29, R30); in PAD it is passed over (R31); in SEEK it is passed over up to a 64-aligned offset and then collected
(R32). The completion of a member (R30, R72) captures its time, forms its section digest, counts it and hands it to the Pack
Assembler (`SectionAndBodyDigests`). The 64th byte of a lead or candidate is `FileLeadTakesLowestFreeEntry`. -/
def Obligations.AcceptedWriteIsParsedAndForwarded : Prop :=
  (∀ (s : State) (k : LaneIx) (tag : Nat) (addr : Addr) (data : List Byte), s.inSequence k tag addr data →
    (s.lane k).hold = [] → s.used k + data.length ≤ (s.lane k).size - 64 →
    (s.lane k).leadCount s.classes data ≤ s.members.freeCount →
    let u := s.parseBytes s.clock k data
    ∃ t, exec (.upstreamRequest (.write tag addr data)) s = .next t ∧
      t = { u.setLane k { u.lane k with counts :=
              { (u.lane k).counts with bytesAccepted := satAdd (u.lane k).counts.bytesAccepted data.length } } with
            forwarding := u.forwarding ++ [⟨true, addr, data.length, data, .upstream tag⟩] } ∧
      (t.lane k).cursor = ((s.lane k).cursor + data.length) % (s.lane k).size ∧
      (t.lane k).counts.bytesAccepted = satAdd (s.lane k).counts.bytesAccepted data.length ∧
      (t.lane k).hold = [] ∧ (t.lane k).holdDeadline = (s.lane k).holdDeadline ∧
      t.forwarding = s.forwarding ++ [⟨true, addr, data.length, data, .upstream tag⟩] ∧
      (∀ j : LaneIx, j ≠ k → t.lane j = s.lane j) ∧ t.slots = s.slots ∧ t.readyQueue = s.readyQueue ∧
      t.inFlight = s.inFlight ∧ t.viewReads = s.viewReads ∧ t.sent = s.sent ∧ t.bus = [] ∧ t.part = .run ∧
      s.sameRegions t ∧ t.clock = s.clock) ∧
  (∀ (s : State) (t : Time) (k : LaneIx) (w : HeldWrite),
    let u := s.parseBytes t k w.data
    s.acceptWrite t k w =
      { u.setLane k { u.lane k with counts :=
          { (u.lane k).counts with bytesAccepted := satAdd (u.lane k).counts.bytesAccepted w.data.length } } with
        forwarding := u.forwarding ++ [⟨true, w.addr, w.data.length, w.data, .upstream w.tag⟩] }) ∧
  (∀ (s : State) (t : Time) (k : LaneIx) (b : Byte) (bs : List Byte),
    let l := s.lane k
    let next := (l.cursor + 1) % l.size
    s.parseBytes t k [] = s ∧ s.parseBytes t k (b :: bs) = (s.parseBytes t k [b]).parseBytes t k bs ∧
    (l.parser = .lead →
      (l.leadBuffer = [] → s.parseBytes t k [b] =
        s.setLane k { l with cursor := next, leadBuffer := [b], pendingLead := some l.cursor }) ∧
      (∀ p : Nat, l.leadBuffer ≠ [] → l.leadBuffer.length < 63 → l.pendingLead = some p → s.parseBytes t k [b] =
        s.setLane k { l with cursor := next, leadBuffer := l.leadBuffer ++ [b] })) ∧
    (∀ m : MemberIx, l.parser = .data → l.receiving = some m →
      let u := s.setMember m { s.member m with
        received := (s.member m).received + 1, dataDigest := (s.member m).dataDigest.byte b }
      (1 < l.remaining → s.parseBytes t k [b] =
        u.setLane k { l with cursor := next, remaining := l.remaining - 1 }) ∧
      (l.remaining = 1 → s.parseBytes t k [b] =
        (u.setLane k { l with cursor := next, remaining := 0,
                              parser := if next % 64 = 0 then .lead else .pad }).completeMember t k m)) ∧
    (l.parser = .pad → s.parseBytes t k [b] =
      s.setLane k { l with cursor := next, parser := if next % 64 = 0 then .lead else .pad }) ∧
    (l.parser = .seek →
      (l.candidate = [] → l.cursor % 64 ≠ 0 → s.parseBytes t k [b] = s.setLane k { l with cursor := next }) ∧
      (l.candidate = [] → l.cursor % 64 = 0 → s.parseBytes t k [b] =
        s.setLane k { l with cursor := next, candidate := [b], pendingLead := some l.cursor }) ∧
      (∀ p : Nat, l.candidate ≠ [] → l.candidate.length < 63 → l.pendingLead = some p → s.parseBytes t k [b] =
        s.setLane k { l with cursor := next, candidate := l.candidate ++ [b] }))) ∧
  (∀ (s : State) (t : Time) (k : LaneIx) (m : MemberIx),
    let r := s.member m
    let pad := roundUp 64 r.dataLength - r.dataLength
    s.completeMember t k m =
      ((s.setMember m { r with
          doneTime := t, sectionDigest := (r.leadDigest.append r.dataDigest r.dataLength).zeros pad }).setLane k
        { s.lane k with
          receiving := none,
          counts := { (s.lane k).counts with
            membersCompleted := satAdd (s.lane k).counts.membersCompleted 1 } }).assemble t m)

/-- The order of the validation tests of Table 2-3 (R20): the first test that fails gives the reason. -/
def Obligations.LeadValidationOrder : Prop :=
  ∀ (classes : Vector PackClass 8) (b : List Byte),
    let disabled := ∀ c : ClassIx, c.val = field b 5 1 → classes[c].enabled = false
    (field b 0 4 ≠ 0x7E1DA5C2 → judgeLead classes b = .bad .mark) ∧
    (field b 0 4 = 0x7E1DA5C2 →
      (wordSum b % 65536 ≠ 0xFFFF → judgeLead classes b = .bad .check) ∧
      (wordSum b % 65536 = 0xFFFF →
        (field b 4 1 ≠ 1 → field b 4 1 ≠ 2 → judgeLead classes b = .bad .kind) ∧
        (field b 4 1 = 1 ∨ field b 4 1 = 2 →
          (disabled → judgeLead classes b = .bad .cls) ∧
          (∀ c : ClassIx, c.val = field b 5 1 → classes[c].enabled = true →
            (16777215 < field b 8 4 → judgeLead classes b = .bad .length) ∧
            (field b 8 4 ≤ 16777215 →
              (field b 4 1 = 2 → field b 8 4 ≠ 0 → judgeLead classes b = .bad .sealLength) ∧
              (field b 4 1 = 2 → field b 8 4 = 0 → judgeLead classes b = .seal c) ∧
              (field b 4 1 = 1 → judgeLead classes b = .file
                { cls := c, dataLength := field b 8 4, dataset := BitVec.ofNat 32 (field b 12 4),
                  producerSeq := BitVec.ofNat 32 (field b 16 4),
                  nameDigest := BitVec.ofNat 128 (field b 20 16) }))))))

/-- A 64-byte write at a lead boundary that is a valid FILE lead with data to come (R25, R59): the lowest FREE member entry
becomes RECEIVING with the lead's fields and joins the lane order list, and the lane goes to DATA. The 64th byte of any lead,
whichever writes brought the first 63 (R24): a FILE lead with data does the same, one of length 0 completes its member at
once and stays in LEAD (R26), a SEAL lead seals the class's OPEN pack with cause LEAD, or changes nothing but the lane when
the class has none (R27, R102; the seal is that of `SectionAndBodyDigests`), and a lead that fails raises LEAD_FAULT, is
counted, and sends the lane to SEEK (R28, R34). The 64th byte of a candidate in SEEK (R33): a valid one raises RESYNC and is
then taken as such a lead; one that fails is dropped and the lane stays in SEEK. -/
def Obligations.FileLeadTakesLowestFreeEntry : Prop :=
  (∀ (s : State) (k : LaneIx) (tag : Nat) (addr : Addr) (lead : List Byte) (f : LeadFields),
    s.inSequence k tag addr lead → s.membersCanonical → (s.lane k).hold = [] →
    s.used k + 64 ≤ (s.lane k).size - 64 → s.members.length < 4096 →
    (s.lane k).parser = .lead → (s.lane k).leadBuffer = [] → lead.length = 64 →
    judgeLead s.classes lead = .file f → f.dataLength ≠ 0 →
    ∃ (t : State) (m : MemberIx), exec (.upstreamRequest (.write tag addr lead)) s = .next t ∧
      s.member m = {} ∧ (∀ i : MemberIx, i < m → s.member i ≠ {}) ∧
      t.member m = { state := .receiving, lane := k, leadOffset := (s.lane k).cursor, dataLength := f.dataLength,
                     received := 0, cls := f.cls, dataset := f.dataset, producerSeq := f.producerSeq,
                     nameDigest := f.nameDigest, leadDigest := Digest.ofBytes lead, dataDigest := {},
                     leadTime := s.clock } ∧
      (∀ i : MemberIx, i ≠ m → t.member i = s.member i) ∧
      (t.lane k).order = (s.lane k).order ++ [m] ∧ (t.lane k).parser = .data ∧ (t.lane k).remaining = f.dataLength ∧
      (t.lane k).receiving = some m ∧ (t.lane k).pendingLead = none ∧ (t.lane k).leadBuffer = [] ∧
      t.packs = s.packs ∧ t.events = s.events) ∧
  (∀ (s : State) (t : Time) (k : LaneIx) (b : Byte) (front : List Byte) (start : Nat),
    let l := s.lane k
    let lead := front ++ [b]
    let cleared := { l with cursor := (l.cursor + 1) % l.size, leadBuffer := [], candidate := [], pendingLead := none }
    let found := fun (u : State) =>
      (∀ (f : LeadFields) (m : MemberIx), judgeLead s.classes lead = .file f → s.membersCanonical → s.member m = {} →
        (∀ i : MemberIx, i < m → s.member i ≠ {}) →
        let taken := u.setMember m
          { state := .receiving, lane := k, leadOffset := start, dataLength := f.dataLength, received := 0, cls := f.cls,
            dataset := f.dataset, producerSeq := f.producerSeq, nameDigest := f.nameDigest,
            leadDigest := Digest.ofBytes lead, dataDigest := {}, leadTime := t }
        (f.dataLength ≠ 0 → s.parseBytes t k [b] = taken.setLane k
          { cleared with parser := .data, remaining := f.dataLength, receiving := some m, order := l.order ++ [m] }) ∧
        (f.dataLength = 0 → s.parseBytes t k [b] =
          (taken.setLane k { cleared with parser := .lead, remaining := 0, order := l.order ++ [m] }).completeMember t k m)) ∧
      (∀ c : ClassIx, judgeLead s.classes lead = .seal c → s.parseBytes t k [b] =
        (u.setLane k { cleared with parser := .lead }).sealClassPack t .lead c) ∧
      (∀ c : ClassIx, judgeLead s.classes lead = .seal c → s.openPackOf c = none →
        s.parseBytes t k [b] = u.setLane k { cleared with parser := .lead })
    front.length = 63 → l.pendingLead = some start →
    (l.parser = .lead → l.leadBuffer = front →
      found s ∧
      (∀ r : LeadReason, judgeLead s.classes lead = .bad r → s.parseBytes t k [b] =
        (s.setLane k { cleared with
          parser := .seek, receiving := none, remaining := 0,
          counts := { l.counts with leadFaults := satAdd l.counts.leadFaults 1 } }).raise t (.leadFault k start r))) ∧
    (l.parser = .seek → l.candidate = front →
      found (s.raise t (.resync k start)) ∧
      (∀ r : LeadReason, judgeLead s.classes lead = .bad r → s.parseBytes t k [b] = s.setLane k cleared)))

/-! ### Digests and layout -/

/-- R84: the digest of a byte sequence by the byte rule, and as the two weighted sums; two bytes exchanged keep A, and B
only when the difference of the B sums is a multiple of 2^32. The append rule (R85): a digest extended by a
segment, from the segment's own digest and length, is the digest of both taken as one; for zeros the extension leaves A
and adds n · A to B; appending is associative. -/
def Obligations.DigestRules : Prop :=
  (Digest.ofBytes [] = ⟨0, 0⟩ ∧
   (∀ (xs : List Byte) (b : Byte), Digest.ofBytes (xs ++ [b]) =
     ⟨(Digest.ofBytes xs).a + b.zeroExtend 32, (Digest.ofBytes xs).b + ((Digest.ofBytes xs).a + b.zeroExtend 32)⟩) ∧
   (∀ xs : List Byte,
     (Digest.ofBytes xs).a.toNat = (xs.map BitVec.toNat).sum % 2 ^ 32 ∧
     (Digest.ofBytes xs).b.toNat = (xs.zipIdx.map (fun x => (xs.length - x.2) * x.1.toNat)).sum % 2 ^ 32) ∧
   (∀ n : Nat, Digest.ofBytes (zeroBytes n) = ⟨0, 0⟩) ∧
   (∀ (xs ys zs : List Byte) (b c : Byte),
     let d := Digest.ofBytes (xs ++ b :: ys ++ c :: zs)
     let e := Digest.ofBytes (xs ++ c :: ys ++ b :: zs)
     d.a = e.a ∧ (d.b = e.b ↔ (2 : Int) ^ 32 ∣ (ys.length + 1) * ((b.toNat : Int) - c.toNat)))) ∧
  ((∀ xs ys : List Byte, (Digest.ofBytes xs).append (Digest.ofBytes ys) ys.length = Digest.ofBytes (xs ++ ys)) ∧
   (∀ (d e : Digest) (n : Nat), d.append e n = ⟨d.a + e.a, d.b + e.b + BitVec.ofNat 32 n * d.a⟩) ∧
   (∀ (d : Digest) (n : Nat), d.zeros n = ⟨d.a, d.b + BitVec.ofNat 32 n * d.a⟩) ∧
   (∀ (d e f : Digest) (m n : Nat), (d.append e m).append f n = d.append (e.append f n) (m + n)))

/-- The section digest formed at completion is the digest of the section as the image serves it (R72, R73), and adding a
member to a pack makes its body digest that of the longer body, its body length and its image length those of the layout
(R80, R86), and its completion times those of its first and last members (R98). A completed member (R97, R98, R99) joins the
wait list behind a member of its class; else the class's OPEN pack takes it when it fits (R81), or is sealed with SIZE. A
member that needs a new pack opens the lowest FREE record, with the serial, snapshots, time and age deadline of R98, or
waits; WAITING is raised by the first to wait. An add makes the member PACKED at its section offset, and seals with SIZE past
the target, else with COUNT at the cap. A disabled class is left without an OPEN pack (R93). A seal request for a class with
no OPEN pack has no effect, whatever its cause (R102). A seal of each of the seven causes does what `SealedIn` says, to the
pack, its members and the commit engine (R101, R116, R117, R63; that a commit then begun leaves no end of another for an
onset to fall together with is log entry 30), and raises the one counter of its cause (Table 6-5), which saturates at 2^32 -
1 (R110). -/
def Obligations.SectionAndBodyDigests : Prop :=
  (∀ (m : Member) (lead data : List Byte), m.leadDigest = Digest.ofBytes lead → m.dataDigest = Digest.ofBytes data →
    data.length = m.dataLength →
    m.formSection = Digest.ofBytes (lead ++ data ++ zeroBytes (roundUp 64 m.dataLength - m.dataLength))) ∧
  (∀ (tb : Nat) (i : MemberIx) (m : Member) (p : Pack) (body sec : List Byte), p.digest = Digest.ofBytes body →
    m.sectionDigest = Digest.ofBytes sec → sec.length = 64 + roundUp 64 m.dataLength →
    (p.withMember tb i m).digest = Digest.ofBytes (body ++ sec) ∧
    (p.withMember tb i m).body = p.body + sec.length ∧
    (p.withMember tb i m).members = p.members ++ [i] ∧
    (p.withMember tb i m).projected = roundUp tb (1024 + (p.body + sec.length) + 64 * (p.members.length + 1))) ∧
  (∀ (tb : Nat) (i : MemberIx) (m : Member) (p : Pack),
    let q := p.withMember tb i m
    q = { p with digest := q.digest, body := q.body, members := q.members, projected := q.projected,
                 firstDone := if p.members = [] then m.doneTime else p.firstDone, lastDone := m.doneTime }) ∧
  (∀ (s : State) (t : Time) (m : MemberIx) (c : ClassIx), c = (s.member m).cls →
    let closed := fun u : State => if (s.cls c).enabled then u else u.sealClassPack t .classClosed c
    let behind := ∃ w ∈ s.waitList, (s.member w).cls = c
    (behind → s.assemble t m = closed (s.joinWaitList t m c)) ∧
    (¬ behind → s.openPackOf c = none → s.assemble t m = closed (s.newPackFor t m c)) ∧
    (∀ d : PackIx, ¬ behind → s.openPackOf c = some d →
      let p := s.pack d
      let fits := roundUp s.tapeBlock (1024 + (p.body + (64 + roundUp 64 (s.member m).dataLength))
        + 64 * (p.members.length + 1)) ≤ p.target * 1048576
      (fits → s.assemble t m = closed (s.addMember t m d)) ∧
      (¬ fits → s.assemble t m = closed ((s.sealPack t .size d).newPackFor t m c)))) ∧
  (∀ (s : State) (t : Time) (m : MemberIx) (c : ClassIx),
    (s.openPackOf c = none ↔ ∀ d : PackIx, ¬ ((s.pack d).state = .opened ∧ (s.pack d).cls = c)) ∧
    (∀ d : PackIx, s.openPackOf c = some d → (s.pack d).state = .opened ∧ (s.pack d).cls = c) ∧
    (∀ x : SealCause, s.openPackOf c = none → s.sealClassPack t x c = s) ∧
    (∀ (d : PackIx) (x : SealCause), s.openPackOf c = some d → s.sealClassPack t x c = s.sealPack t x d) ∧
    ((∀ d : PackIx, (s.pack d).state ≠ .free) → s.newPackFor t m c = s.joinWaitList t m c) ∧
    (∀ d : PackIx,
      s.openPack t d c = { s.setPack d
        { state := .opened, serial := s.serialNext, cls := c, target := (s.cls c).target, cap := (s.cls c).cap,
          retention := (s.cls c).retention, members := [], body := 0, digest := ⟨0, 0⟩, projected := 0, openTime := t,
          firstDone := 0, lastDone := 0, sealTime := 0, age := Deadline.arm s.clock (s.cls c).ageLimit, cause := none,
          viewSlot := none, returns := 0 } with serialNext := s.serialNext + 1 } ∧
      ((s.pack d).state = .free → (∀ e : PackIx, e < d → (s.pack e).state ≠ .free) →
        s.newPackFor t m c = (s.openPack t d c).addMember t m d)) ∧
    (let waiting := { s.setMember m { s.member m with state := .waiting } with waitList := s.waitList ++ [m] }
     (s.waitList ≠ [] → s.joinWaitList t m c = waiting) ∧
     (s.waitList = [] → s.joinWaitList t m c = waiting.raise t (.waiting m c)))) ∧
  (∀ (s : State) (t : Time) (m : MemberIx) (d : PackIx),
    let q := (s.pack d).withMember s.tapeBlock m (s.member m)
    let u := (s.setPack d q).setMember m { s.member m with
      state := .packed, packRecord := some d, sectionOffset := some (512 + (s.pack d).body) }
    (q.target * 1048576 < q.projected → s.addMember t m d = u.sealPack t .size d) ∧
    (q.projected ≤ q.target * 1048576 → q.cap ≤ q.members.length → s.addMember t m d = u.sealPack t .count d) ∧
    (q.projected ≤ q.target * 1048576 → q.members.length < q.cap → s.addMember t m d = u)) ∧
  (∀ (s : State) (t : Time) (d : PackIx) (x : SealCause), s.membersCanonical →
    SealedIn s (s.sealPack t x d) d t x ∧ (s.sealPack t x d).response = s.response ∧ (s.sealPack t x d).msdo = s.msdo) ∧
  (∀ (s : State) (t : Time) (d : PackIx),
    let k := s.counters
    (s.sealPack t .size d).counters = { k with sealedSize := satAdd k.sealedSize 1 } ∧
    (s.sealPack t .count d).counters = { k with sealedCount := satAdd k.sealedCount 1 } ∧
    (s.sealPack t .age d).counters = { k with sealedAge := satAdd k.sealedAge 1 } ∧
    (s.sealPack t .lead d).counters = { k with sealedLead := satAdd k.sealedLead 1 } ∧
    (s.sealPack t .command d).counters = { k with sealedCommand := satAdd k.sealedCommand 1 } ∧
    (s.sealPack t .drain d).counters = { k with sealedDrain := satAdd k.sealedDrain 1 } ∧
    (s.sealPack t .classClosed d).counters = { k with sealedClassClosed := satAdd k.sealedClassClosed 1 } ∧
    (∀ x : SealCause, (s.sealPack t x d).counters = k.bumpSealed x) ∧
    (∀ n : Word32, (satAdd n 1).toNat = min (n.toNat + 1) (2 ^ 32 - 1)))

/-- What the units of a commit write, laid end to end (R114, R115, R119): the header, the index, the trailer, and as the
last 8 bytes the digest of the image's bytes 0 to L - 9 (R88), for a pack whose body digest is that of its body. The header,
an index entry and the trailer hold the fields of Tables 11-3 to 11-5 at their offsets, with the seal cause codes of Table
11-9, and zeros at every byte not named (R176). -/
def Obligations.CommitWritesDigestOfImage : Prop :=
  (∀ (formerId : BitVec 16) (tb : Nat) (members : MemberTable) (p : Pack) (body : List Byte),
    p.digest = Digest.ofBytes body → body.length = p.body →
    let header := headerBytes formerId tb p
    let index := p.members.flatMap (fun m => indexEntry (members.get m))
    let trailer := trailerBytes formerId (Digest.ofBytes index) p
    let pad := zeroBytes (p.projected - (1024 + p.body + 64 * p.members.length))
    let image := header ++ body ++ index ++ pad ++ trailer
    header.length = 512 ∧ index.length = 64 * p.members.length ∧ trailer.length = 504 ∧
    commitBytes formerId tb members p (p.members.length + 16) {} 1 =
      header ++ index ++ trailer ++ le 4 (Digest.ofBytes image).a.toNat ++ le 4 (Digest.ofBytes image).b.toNat) ∧
  (∀ (formerId : BitVec 16) (tb : Nat) (p : Pack),
    let h := headerBytes formerId tb p
    field h 0 4 = 0x6D2B90F4 ∧ field h 4 2 = 1 ∧ field h 6 2 = formerId.toNat ∧ field h 8 4 = p.serial.toNat ∧
    field h 12 1 = p.cls.val ∧ field h 13 1 = p.retention.toNat ∧ field h 14 1 = sealCode p.cause ∧ field h 15 1 = 0 ∧
    field h 16 4 = p.members.length % 2 ^ 32 ∧ field h 20 4 = p.projected % 2 ^ 32 ∧
    field h 24 4 = (512 + p.body) % 2 ^ 32 ∧ field h 28 4 = (p.projected - 512) % 2 ^ 32 ∧ field h 32 4 = tb % 2 ^ 32 ∧
    field h 36 4 = 0 ∧ field h 40 8 = p.openTime.toNat ∧ field h 48 8 = p.firstDone.toNat ∧
    field h 56 8 = p.lastDone.toNat ∧ field h 64 8 = p.sealTime.toNat ∧ h.drop 72 = List.replicate 440 0) ∧
  ([none, some .size, some .count, some .age, some .lead, some .command, some .drain, some .classClosed] :
    List (Option SealCause)).map sealCode = [0, 1, 2, 3, 4, 5, 6, 7] ∧
  (∀ m : Member,
    let e := indexEntry m
    e.length = 64 ∧ field e 0 16 = m.nameDigest.toNat ∧ field e 16 4 = m.dataset.toNat ∧
    field e 20 4 = m.producerSeq.toNat ∧ (∀ o : Nat, m.sectionOffset = some o → field e 24 4 = o % 2 ^ 32) ∧
    field e 28 4 = m.dataLength % 2 ^ 32 ∧ field e 32 4 = m.dataDigest.a.toNat ∧ field e 36 4 = m.dataDigest.b.toNat ∧
    field e 40 8 = m.doneTime.toNat ∧ field e 48 1 = m.lane.val ∧ field e 49 1 = m.cls.val ∧ field e 50 6 = 0 ∧
    field e 56 8 = m.leadTime.toNat) ∧
  (∀ (formerId : BitVec 16) (index : Digest) (p : Pack),
    let t := trailerBytes formerId index p
    field t 0 4 = 0xA4F3172E ∧ field t 4 2 = formerId.toNat ∧ field t 6 2 = 0 ∧ field t 8 4 = p.serial.toNat ∧
    field t 12 4 = p.members.length % 2 ^ 32 ∧ field t 16 4 = p.projected % 2 ^ 32 ∧ field t 20 4 = 0 ∧
    field t 24 4 = p.digest.a.toNat ∧ field t 28 4 = p.digest.b.toNat ∧ field t 32 4 = index.a.toNat ∧
    field t 36 4 = index.b.toNat ∧ t.drop 40 = List.replicate 464 0)

/-! ### The memory port -/

/-- R13: the grant table. A forwarded grant moves the head of the forwarding queue to the in-flight list; a commit grant
sets the run count to 0, issues a commit unit and leaves the forwarding queue (that a BURST grant issues one by itself is read
from R14 and R118, log entry 10). With no candidate, or a burst in progress, there is no grant. -/
def Obligations.GrantTable : Prop :=
  ∀ s : State,
    (s.arbiter.burst ≠ none → exec .grant s = .next s) ∧
    (s.arbiter.burst = none →
      (s.forwarding = [] → s.engine.state ≠ .issuing → exec .grant s = .next s) ∧
      (∀ (r : MemReq) (rs : List MemReq), s.forwarding = r :: rs →
        (s.engine.state ≠ .issuing → exec .grant s =
          .next { s with forwarding := rs, inFlight := s.inFlight ++ [r], arbiter := { s.arbiter with run := 0 } }) ∧
        (s.engine.state = .issuing → s.arbiter.run < s.arbiter.share → exec .grant s =
          .next { s with forwarding := rs, inFlight := s.inFlight ++ [r],
                         arbiter := { s.arbiter with run := s.arbiter.run + 1 } })) ∧
      (∀ cur : Current, s.engine.state = .issuing → s.engine.current = some cur →
        s.forwarding = [] ∨ s.arbiter.share ≤ s.arbiter.run →
        ∃ (t : State) (r : MemReq), exec .grant s = .next t ∧ t.arbiter.run = 0 ∧ t.forwarding = s.forwarding ∧
          t.inFlight = s.inFlight ++ [r] ∧ r.owner = .commitUnit cur.record s.engine.nextUnit))

/-- The issue of a commit unit on a STEAL grant (R118, R114, R115, R119): a WRITE of 64 bytes, those that `buildUnit` builds
for the unit, at the unit's place in the directory slot of the current pack; next unit and units in flight increase by 1, the
accumulators take the bytes in, the run count is 0, and after unit n + 16 the engine is SETTLING without a candidate. What
the model keeps for an onset that falls together with the end of the commit before is gone (its choice, log entry 30).
Nothing else changes. What the units of a whole commit write is `CommitWritesDigestOfImage`. -/
def Obligations.CommitUnitIssue : Prop :=
  ∀ (s : State) (cur : Current), s.arbiter.burst = none → s.arbiter.mode = .steal → s.engine.state = .issuing →
    s.engine.current = some cur → s.forwarding = [] ∨ s.arbiter.share ≤ s.arbiter.run →
    let u := s.engine.nextUnit
    let n := (s.pack cur.record).members.length
    let b := buildUnit s.formerId s.tapeBlock s.members (s.pack cur.record) s.engine u
    let unit : MemReq :=
      ⟨true, BitVec.ofNat 40 (s.directory.base.toNat + cur.record.val * 131072 + 64 * (u - 1)), 64, b.bytes,
        .commitUnit cur.record u⟩
    let e : Engine :=
      { s.engine with nextUnit := u + 1, unitsInFlight := s.engine.unitsInFlight + 1, headerAcc := b.headerAcc,
                      indexAcc := b.indexAcc, trailerAcc := b.trailerAcc, afterEnd := none }
    (u ≤ n + 16 → b.bytes.length = 64) ∧
    (u ≠ n + 16 → exec .grant s = .next { s with
      engine := e, arbiter := { s.arbiter with run := 0 }, inFlight := s.inFlight ++ [unit] }) ∧
    (u = n + 16 → exec .grant s = .next { s with
      engine := { e with state := .settling }, arbiter := { s.arbiter with run := 0, burst := none },
      inFlight := s.inFlight ++ [unit] })

/-- A BURST grant covers the rest of the commit block of the engine's next unit, and each BURST_UNIT_ISSUE issues one unit
more until none is left (R14; that the grant itself issues the first unit is read from the rule, log entry 10). Every unit is
issued as under STEAL (`CommitUnitIssue`): a WRITE of 64 bytes built for it, at its place in the directory slot; next unit
and units in flight increase, the accumulators take the bytes in, and after unit n + 16 the engine is SETTLING, the burst has
ended and the run count is 0. What the model keeps for an onset that falls together with the end of the commit before is gone
(its choice, log entry 30). Nothing else changes. -/
def Obligations.BurstCoversRestOfBlock : Prop :=
  ∀ (s : State) (cur : Current), s.engine.state = .issuing → s.engine.current = some cur →
    let u := s.engine.nextUnit
    let n := (s.pack cur.record).members.length
    let last := min (64 * ((u + 63) / 64)) (n + 16)
    let b := buildUnit s.formerId s.tapeBlock s.members (s.pack cur.record) s.engine u
    let unit : MemReq :=
      ⟨true, BitVec.ofNat 40 (s.directory.base.toNat + cur.record.val * 131072 + 64 * (u - 1)), 64, b.bytes,
        .commitUnit cur.record u⟩
    let e : Engine :=
      { s.engine with nextUnit := u + 1, unitsInFlight := s.engine.unitsInFlight + 1, headerAcc := b.headerAcc,
                      indexAcc := b.indexAcc, trailerAcc := b.trailerAcc, afterEnd := none }
    let goesOn := fun arbiter : Arbiter => { s with engine := e, arbiter := arbiter, inFlight := s.inFlight ++ [unit] }
    let settles : State := { s with
      engine := { e with state := .settling }, arbiter := { s.arbiter with run := 0, burst := none },
      inFlight := s.inFlight ++ [unit] }
    (u ≤ n + 16 → b.bytes.length = 64) ∧
    (s.arbiter.burst = none → s.arbiter.mode = .burst → s.forwarding = [] ∨ s.arbiter.share ≤ s.arbiter.run →
      (u ≠ n + 16 → u < last →
        exec .grant s = .next (goesOn { s.arbiter with run := 0, burst := some (last - u) })) ∧
      (u ≠ n + 16 → last ≤ u → exec .grant s = .next (goesOn { s.arbiter with run := 0, burst := none })) ∧
      (u = n + 16 → exec .grant s = .next settles)) ∧
    (∀ left : Nat, s.arbiter.burst = some left →
      (u ≠ n + 16 → 1 < left →
        exec .burstUnitIssue s = .next (goesOn { s.arbiter with burst := some (left - 1) })) ∧
      (u ≠ n + 16 → left ≤ 1 → exec .burstUnitIssue s = .next (goesOn { s.arbiter with burst := none })) ∧
      (u = n + 16 → exec .burstUnitIssue s = .next settles))

/-- The answer to a forwarded request goes upstream with its tag: DONE with the data of a READ, or FAULT, which is
counted (R4, R5). The answer to a part of a view read fills the first waiting part of the oldest view read (R4, log
entry 9), and the event goes on as VIEW_READ_RESPONSE does (R134, log entry 1). -/
def Obligations.ForwardedAndViewPartAnswers : Prop :=
  (∀ (s : State) (r : MemReq) (rs : List MemReq) (tag : Nat), s.inFlight = r :: rs → r.owner = .upstream tag →
     (∀ d : List Byte, exec (.memoryResponse (.done d)) s =
       .next (State.refill { s with inFlight := rs, sent := s.sent ++ [⟨tag, .done (if r.write then [] else d)⟩] })) ∧
     exec (.memoryResponse .fault) s =
       .next (State.refill { s with
         inFlight := rs, sent := s.sent ++ [⟨tag, .fault⟩],
         counters := { s.counters with memoryFaults := satAdd s.counters.memoryFaults 1 } })) ∧
  (∀ (s : State) (r : MemReq) (rs : List MemReq) (v : ViewRead) (vs : List ViewRead) (before after : List Piece) (n : Nat)
     (a : MemAnswer),
     s.inFlight = r :: rs → r.owner = .viewPart → s.viewReads = v :: vs → v.pieces = before ++ .waiting n :: after →
     before.any Piece.isWaiting = false →
     exec (.memoryResponse a) s = exec .viewReadResponse
       { s with inFlight := rs, viewReads :=
           { v with pieces := before ++ (match a with | .done d => .filled d | .fault => .faulted) :: after } :: vs })

/-- The response of the oldest view read (R134): none while a part waits; FAULT when a part was answered FAULT, else DONE
with the bytes in image order; the slot's reads in flight falls by 1, and at 0 the slot's pending disposition or idle return
is taken in the same event (R137, R142). A read whose binding no longer stands (R147) changes
no slot. That VIEW_READ_RESPONSE is an event of its own, which changes nothing while a part waits, is log entry 1: the row's
effect is otherwise made within the event of the last answer (`ForwardedAndViewPartAnswers`). -/
def Obligations.ViewReadResponseWhenAllAnswered : Prop :=
  ∀ (s : State) (v : ViewRead) (vs : List ViewRead), s.viewReads = v :: vs →
    (v.pieces.any Piece.isWaiting = true → exec .viewReadResponse s = .next s.refill) ∧
    (v.pieces.any Piece.isWaiting = false →
      let body : UpBody := if v.pieces.any Piece.isFaulted then .fault else .done (v.pieces.flatMap Piece.bytes)
      let counters : Counters :=
        if v.pieces.any Piece.isFaulted then { s.counters with readFaults := satAdd s.counters.readFaults 1 }
        else { s.counters with readsServed := satAdd s.counters.readsServed 1 }
      let answered : State := { s with viewReads := vs, sent := s.sent ++ [⟨v.tag, body⟩], counters := counters }
      (v.slot = none → exec .viewReadResponse s = .next answered.refill) ∧
      (∀ j : SlotIx, v.slot = some j →
        let lowered := answered.setSlot j { s.slot j with reads := (s.slot j).reads - 1 }
        ((s.slot j).pending = none ∨ 1 < (s.slot j).reads → exec .viewReadResponse s = .next lowered.refill) ∧
        ((s.slot j).holdsWrite = true → (s.slot j).reads = 1 →
          exec .viewReadResponse s = exec (.pendingDispositionTaken j) lowered) ∧
        ((s.slot j).pending = some .idle → (s.slot j).reads = 1 →
          ∃ t, exec (.pendingIdleReturn j) lowered = .next t ∧ exec .viewReadResponse s = .next t.refill)))

/-- The answer to a commit unit (R120, R125, R126): a unit of the current pack lowers the units in flight, and a FAULT is
counted and remembered; a unit of a record on the discard list lowers that record's count alone; while a RESTART waits, the
answer lowers the count of the record it belongs to and changes no pack, counter or event. The event then goes on as the rows
COMMIT_END and COMMIT_SUSPENDED, DISCARDING_END of the record, or RESTART_COMPLETION do in the lowered state (log entry 1):
so the last answer ends a SETTLING commit, suspends a SUSPENDING one, frees a discarded record, completes a RESTART. -/
def Obligations.CommitUnitAnswer : Prop :=
  ∀ (s : State) (r : MemReq) (rs : List MemReq) (d : PackIx) (u : Nat), s.inFlight = r :: rs → r.owner = .commitUnit d u →
    (s.engine.state = .issuing → s.part = .run → (∀ x ∈ s.engine.discards, x.record ≠ d) →
      (∀ data : List Byte, exec (.memoryResponse (.done data)) s = .next (State.refill { s with
        inFlight := rs, engine := { s.engine with unitsInFlight := s.engine.unitsInFlight - 1 } })) ∧
      exec (.memoryResponse .fault) s = .next (State.refill { s with
        inFlight := rs,
        engine := { s.engine with unitsInFlight := s.engine.unitsInFlight - 1, faults := s.engine.faults + 1,
                                  firstFaulted := some (s.engine.firstFaulted.getD u) },
        counters := { s.counters with unitFaults := satAdd s.counters.unitFaults 1 } })) ∧
    (∀ a : MemAnswer, s.engine.state ≠ .stopping → (∃ x ∈ s.engine.discards, x.record = d) →
      (∀ x ∈ s.engine.discards, x.record = d → 1 < x.units) →
      exec (.memoryResponse a) s = .next (State.refill { s with
        inFlight := rs,
        engine := { s.engine with discards :=
          (s.engine.discards.map (fun x => if x.record = d then { x with units := x.units - 1 } else x)) } })) ∧
    (∀ a : MemAnswer, s.engine.state = .stopping → rs.any MemReq.isCommit = true →
      ∃ e : Engine, exec (.memoryResponse a) s = .next (State.refill { s with inFlight := rs, engine := e }) ∧
        e.state = .stopping ∧ e.queue = s.engine.queue) ∧
    (∀ a : MemAnswer, s.engine.state ≠ .stopping → (∀ x ∈ s.engine.discards, x.record ≠ d) →
      let done : State := { s with
        inFlight := rs, engine := { s.engine with unitsInFlight := s.engine.unitsInFlight - 1 } }
      let lowered : State := match a with
        | .done _ => done
        | .fault => { done with
            engine := { done.engine with faults := s.engine.faults + 1,
                                         firstFaulted := some (s.engine.firstFaulted.getD u) },
            counters := { s.counters with unitFaults := satAdd s.counters.unitFaults 1 } }
      (1 < s.engine.unitsInFlight → exec (.memoryResponse a) s = .next lowered.refill) ∧
      (s.engine.state = .settling → ∃ t : State, exec .commitEnd lowered = .next t ∧
        exec (.memoryResponse a) s = .next t.refill) ∧
      (s.engine.state = .suspending → ∃ t : State, exec .commitSuspended lowered = .next t ∧
        exec (.memoryResponse a) s = .next t.refill) ∧
      (∃ t v : State, exec .commitEnd lowered = .next t ∧ exec .commitSuspended t = .next v ∧
        exec (.memoryResponse a) s = .next v.refill)) ∧
    (∀ a : MemAnswer, (∃ x ∈ s.engine.discards, x.record = d) →
      let lowered : State := { s with
        inFlight := rs,
        engine := { s.engine with discards :=
          (s.engine.discards.map (fun x => if x.record = d then { x with units := x.units - 1 } else x)) } }
      (s.engine.state ≠ .stopping → ∃ t : State, exec (.discardingEnd d) lowered = .next t ∧
        exec (.memoryResponse a) s = .next t.refill) ∧
      (s.engine.state = .stopping → ∃ t : State, exec .restartCompletion lowered = .next t ∧
        exec (.memoryResponse a) s = .next t.refill)) ∧
    (∀ a : MemAnswer, s.engine.state = .stopping → (∀ x ∈ s.engine.discards, x.record ≠ d) →
      ∃ t : State, exec .restartCompletion { s with
          inFlight := rs, engine := { s.engine with unitsInFlight := s.engine.unitsInFlight - 1 } } = .next t ∧
        exec (.memoryResponse a) s = .next t.refill)

/-! ### The end of a commit -/

/-- COMMIT_END (R121, R117): a SETTLING commit with no unit in flight ends. With a fault the pack is FAILED and COMMIT_FAILED
raised; without, and with no slot to bind to, it is READY at the tail of the ready queue and PACK_READY raised; without, and
with one, PACK_READY is raised and the bindings of R131 follow in the same event, the pack to the lowest such slot with
SLOT_BOUND when none was ready before it. The pack leaves the commit queue, the engine has no current pack, and in RUN it
begins the next pack of the queue; in another part state, or with none, it is IDLE, and its next unit, fault count, first
faulted unit and trailer accumulator keep their values (DEDUCED, log entry 27). A QUIESCE onset taken next, with which it
falls together, finds the engine IDLE in either case: no commit has begun, and no COMMIT_SUSPENDED is raised (R124; what
falls together, and the record of it: log entry 30). COMMIT_SUSPENDED (R122): a SUSPENDING engine with no unit in flight is
SUSPENDED, keeps its place in the commit and raises COMMIT_SUSPENDED. That the two rows are events of their own, which change
nothing where their condition does not stand, is the model's (log entries 1 and 22): their effect is otherwise made within
the event of the last answer (`CommitUnitAnswer`). -/
def Obligations.CommitEndAndSuspension : Prop :=
  (∀ s : State,
     (s.engine.state ≠ .settling ∨ s.engine.unitsInFlight ≠ 0 → exec .commitEnd s = .next s) ∧
     (∀ cur : Current, s.engine.state = .settling → s.engine.unitsInFlight = 0 → s.engine.current = some cur →
       ∃ t, exec .commitEnd s = .next t ∧
         (s.engine.queue = [cur.record] → t.engine.state = .idle ∧ t.engine.current = none ∧ t.engine.queue = []) ∧
         (let e : Engine := { s.engine with
            state := .idle, current := none, queue := s.engine.queue.filter (fun x => decide (x ≠ cur.record)),
            headerAcc := ⟨0, 0⟩, indexAcc := ⟨0, 0⟩, afterEnd := none }
          let left : Leftover := ⟨s.engine.nextUnit, s.engine.faults, s.engine.firstFaulted, s.engine.trailerAcc⟩
          (s.part ≠ .run ∨ e.queue = [] → t.engine = e) ∧
          (∀ (d : PackIx) (ds : List PackIx), s.part = .run → e.queue = d :: ds →
            t.engine = { s.begun d e with afterEnd := some left }) ∧
          (s.part = .run → s.resetLow = false → s.quiesceLine = false → ∃ u : State, exec .quiesceOnset t = .next u.refill ∧
            u.part = .quiesced ∧ u.engine = e ∧ u.events = t.events)) ∧
         (0 < s.engine.faults →
           t.pack cur.record = { s.pack cur.record with state := .failed } ∧ t.readyQueue = s.readyQueue ∧
           (∀ e : PackIx, e ≠ cur.record → t.pack e = s.pack e) ∧
           t.counters.commitsFailed = satAdd s.counters.commitsFailed 1 ∧
           (s.events.length < 32 → t.events = s.events ++
             [⟨s.clock, .commitFailed cur.record cur.serial s.engine.faults (s.engine.firstFaulted.getD 0)⟩])) ∧
         (s.engine.faults = 0 →
           t.counters.commitsCompleted = satAdd s.counters.commitsCompleted 1 ∧
           ((∀ j : SlotIx, s.slotEnabled j = true → (s.slot j).bound ≠ none) →
             t.pack cur.record = { s.pack cur.record with state := .ready } ∧
             t.readyQueue = s.readyQueue ++ [cur.record] ∧
             (∀ e : PackIx, e ≠ cur.record → t.pack e = s.pack e) ∧
             (s.events.length < 32 → t.events = s.events ++
               [⟨s.clock, .packReady cur.record cur.serial (s.pack cur.record).projected⟩])) ∧
           (let p := s.pack cur.record
            let ready := State.raise s.clock (.packReady cur.record cur.serial p.projected)
              { s.setPack cur.record { p with state := .ready } with readyQueue := s.readyQueue ++ [cur.record] }
            let bound := State.bindReady s.clock { ready with
              counters := { ready.counters with commitsCompleted := satAdd ready.counters.commitsCompleted 1 } }
            t = { bound with engine := t.engine } ∧
            (∀ j : SlotIx, s.readyQueue = [] → s.slotEnabled j = true → (s.slot j).bound = none →
              (∀ i : SlotIx, i < j → s.slotEnabled i = true → (s.slot i).bound ≠ none) →
              t.slot j = { bound := some ⟨cur.record, p.serial, p.projected⟩, reads := 0, pending := none,
                           idle := Deadline.arm s.clock s.idleLimit } ∧
              t.pack cur.record = { p with state := .bound, viewSlot := some j } ∧ t.readyQueue = [] ∧
              (s.events.length < 31 → t.events = s.events ++
                [⟨s.clock, .packReady cur.record cur.serial p.projected⟩,
                 ⟨s.clock, .slotBound j p.serial p.projected⟩])))))) ∧
  (∀ s : State,
     (s.engine.unitsInFlight ≠ 0 → exec .commitSuspended s = .next s) ∧
     (s.engine.state ≠ .suspending → s.engine.state ≠ .issuing ∨ s.part ≠ .quiesced →
       exec .commitSuspended s = .next s) ∧
     (∀ cur : Current, s.engine.state = .suspending → s.engine.unitsInFlight = 0 → s.engine.current = some cur →
       s.events.length < 32 →
       exec .commitSuspended s = .next { s with
         engine := { s.engine with state := .suspended }, arbiter := { s.arbiter with run := 0, burst := none },
         events := s.events ++ [⟨s.clock, .commitSuspended cur.record cur.serial s.engine.nextUnit⟩] }))

/-- DISCARDING_END (R107, R125): a record of the discard list with no unit in flight leaves the list, becomes FREE and a
drain is made; while a RESTART is in progress nothing happens. RESTART_COMPLETION (R169): with no commit unit in flight every
lane, the Member Table, the pack table, the wait list and the engine (with the model's own field of log entry 30) take their
initial state, the part is in CONFIG and the response is OK; with one in flight nothing happens. That the two rows are events
of their own is log entry 1 (`CommitUnitAnswer`). A drain (R100) goes on while a record is FREE and a member waits: the
lowest FREE record is opened for the class of the head with that member, and each further waiting member of the class, in
list order, is added when it fits, and otherwise seals the pack with SIZE and opens the lowest FREE record; where none is
FREE the drain ends; when all are added a pack of a disabled class is sealed with CLASS_CLOSED. `openPack`, `addMember` and
`sealPack` are those of completion. -/
def Obligations.DiscardingEndAndRestartCompletion : Prop :=
  (∀ s : State,
    (∀ d : PackIx, s.engine.state ≠ .stopping → (∃ x ∈ s.engine.discards, x.record = d ∧ x.units = 0) →
      exec (.discardingEnd d) s = .next (State.drainWaitList s.clock (State.setPack d {} { s with
        engine := { s.engine with discards := s.engine.discards.filter (fun x => decide (x.record ≠ d)) } })) ∧
      (s.waitList = [] → exec (.discardingEnd d) s = .next (State.setPack d {} { s with
        engine := { s.engine with discards := s.engine.discards.filter (fun x => decide (x.record ≠ d)) } }))) ∧
    (∀ d : PackIx, s.engine.state = .stopping → exec (.discardingEnd d) s = .next s) ∧
    (s.engine.state = .stopping → s.inFlight.any MemReq.isCommit = false →
      exec .restartCompletion s = .next { s with
        lanes := s.lanes.map (fun l => { enabled := l.enabled, base := l.base, exponent := l.exponent, counts := l.counts }),
        members := [], packs := Vector.replicate 64 {}, waitList := [], engine := {}, part := .config,
        response := .ready .ok [] }) ∧
    (s.inFlight.any MemReq.isCommit = true → exec .restartCompletion s = .next s)) ∧
  (∀ (s : State) (t : Time),
    (s.waitList = [] ∨ (∀ d : PackIx, (s.pack d).state ≠ .free) → s.drainWaitList t = s) ∧
    (∀ (m : MemberIx) (rest : List MemberIx) (d : PackIx), s.waitList = m :: rest → (s.pack d).state = .free →
      (∀ e : PackIx, e < d → (s.pack e).state ≠ .free) →
      let c := (s.member m).cls
      let r := (s.openWaiting t m c d).drainMembers t c (rest.filter (fun w => decide ((s.member w).cls = c)))
      s.drainWaitList t = State.drainWaitList t (if r.2 = true ∧ (s.cls c).enabled = false then r.1.sealClassPack t .classClosed c
        else r.1))) ∧
  (∀ (s : State) (t : Time) (c : ClassIx) (m : MemberIx) (ms : List MemberIx),
    let left := { s with waitList := s.waitList.filter (fun w => decide (w ≠ m)) }
    s.drainMembers t c [] = (s, true) ∧
    (∀ d : PackIx, s.openWaiting t m c d = (left.openPack t d c).addMember t m d) ∧
    (∀ d : PackIx, s.openPackOf c = some d →
      let p := s.pack d
      let fits := roundUp s.tapeBlock (1024 + (p.body + (64 + roundUp 64 (s.member m).dataLength))
        + 64 * (p.members.length + 1)) ≤ p.target * 1048576
      let u := s.sealPack t .size d
      (fits → s.drainMembers t c (m :: ms) = (left.addMember t m d).drainMembers t c ms) ∧
      (¬ fits → (∀ e : PackIx, (u.pack e).state ≠ .free) → s.drainMembers t c (m :: ms) = (u, false)) ∧
      (∀ e : PackIx, ¬ fits → (u.pack e).state = .free → (∀ i : PackIx, i < e → (u.pack i).state ≠ .free) →
        s.drainMembers t c (m :: ms) = (u.openWaiting t m c e).drainMembers t c ms)) ∧
    (s.openPackOf c = none →
      ((∀ e : PackIx, (s.pack e).state ≠ .free) → s.drainMembers t c (m :: ms) = (s, false)) ∧
      (∀ e : PackIx, (s.pack e).state = .free → (∀ i : PackIx, i < e → (s.pack i).state ≠ .free) →
        s.drainMembers t c (m :: ms) = (s.openWaiting t m c e).drainMembers t c ms)))

/-! ### The pack view -/

/-- R132: a read of a slot window is refused and counted when the slot is FREE, when it ends beyond the image, and while a
disposition or idle return is pending; a read that passes is served from the pack bound. -/
def Obligations.ViewReadTests : Prop :=
  ∀ (s : State) (tag : Nat) (addr : Addr) (len : Nat) (j : SlotIx), s.takesNow → s.part ≠ .config →
    s.liesIn (.read tag addr len) (.slotWindow j) →
    let o := (addr.toNat - s.window.base.toNat) % 2 ^ 31
    let refused : State :=
      { s with counters := { s.counters with readsRefused := satAdd s.counters.readsRefused 1 },
               sent := s.sent ++ [⟨tag, .refused⟩] }
    ((s.slot j).bound = none → exec (.upstreamRequest (.read tag addr len)) s = .next refused) ∧
    (∀ b : Binding, (s.slot j).bound = some b →
      (b.length < o + len ∨ (s.slot j).pending ≠ none →
        exec (.upstreamRequest (.read tag addr len)) s = .next refused) ∧
      (o + len ≤ b.length → (s.slot j).pending = none →
        exec (.upstreamRequest (.read tag addr len)) s = .next (s.serveRead j b o len tag)))

/-- A view read that passes (R133, R134) arms the idle deadline afresh. Of zero parts alone it is answered at once with
zeros; otherwise its memory READs join the forwarding queue together in image order, the slot's reads in flight increases,
and the read waits for them. -/
def Obligations.ViewReadServed : Prop :=
  ∀ (s : State) (j : SlotIx) (b : Binding) (o len tag : Nat),
    let parts := cutSegments (s.imageSegments b.record) o len
    let idle := Deadline.arm s.clock s.idleLimit
    ((∀ g ∈ parts, g.source = none) → s.serveRead j b o len tag =
      { s.setSlot j { s.slot j with idle := idle } with
        counters := { s.counters with readsServed := satAdd s.counters.readsServed 1 },
        sent := s.sent ++ [⟨tag, .done (zeroBytes (parts.map Segment.len).sum)⟩] }) ∧
    ((∃ g ∈ parts, g.source ≠ none) → s.serveRead j b o len tag =
      { s.setSlot j { s.slot j with idle := idle, reads := (s.slot j).reads + 1 } with
        forwarding := s.forwarding ++ parts.filterMap (fun g => g.source.map (fun a =>
          (⟨false, a, g.len, [], .viewPart⟩ : MemReq))),
        viewReads := s.viewReads ++ [⟨tag, some j, parts.map (fun g =>
          if g.source.isSome then .waiting g.len else .zeros g.len)⟩] })

/-- The parts of a read are the bytes of the image it covers, each from its own source (R133, R79): cutting a sequence of
segments gives exactly the sources of the bytes from its offset on, over its length. The segments of a pack's image are those
of Table 8-2: for a pack whose body length is that of its members' sections and whose data lie within their lanes, header,
leads, data around the ring, index and trailer come from the addresses the table gives, member pads and the image pad are
zeros, the bytes are L in all, and the data of a member are cut at the ring end alone. -/
def Obligations.ReadPartsAreTheBytesRead : Prop :=
  (∀ (gs : List Segment) (o len : Nat),
    (cutSegments gs o len).flatMap Segment.places = ((gs.flatMap Segment.places).drop o).take len) ∧
  (∀ (s : State) (d : PackIx),
    let p := s.pack d
    let n := p.members.length
    let sectionOf := fun m : MemberIx => 64 + roundUp 64 (s.member m).dataLength
    let size := fun m : MemberIx => (s.lane (s.member m).lane).size
    let start := fun m : MemberIx => ((s.member m).leadOffset + 64) % size m
    let slot := s.directory.base.toNat + d.val * 131072
    let image := (s.imageSegments d).flatMap Segment.places
    let stored := fun a : Nat => some (some (BitVec.ofNat 40 a : Addr))
    (s.imageSegments d).map Segment.len = [512]
      ++ p.members.flatMap (fun m =>
          let len := (s.member m).dataLength
          let run := min len (size m - start m)
          [64, run, len - run, roundUp 64 len - len])
      ++ [64 * n, p.projected - (1024 + p.body + 64 * n), 512] ∧
    (p.body = (p.members.map sectionOf).sum → 1024 + p.body + 64 * n ≤ p.projected →
      (∀ m ∈ p.members, (s.member m).dataLength ≤ size m) →
      image.length = p.projected ∧
      (∀ x : Nat, x < 512 → image[x]? = stored (slot + x)) ∧
      (∀ (before after : List MemberIx) (m : MemberIx), p.members = before ++ m :: after →
        let o := 512 + (before.map sectionOf).sum
        let base := (s.lane (s.member m).lane).base.toNat
        let lead := (s.member m).leadOffset
        let len := (s.member m).dataLength
        (∀ x : Nat, x < 64 → image[o + x]? = stored (base + lead + x)) ∧
        (∀ j : Nat, j < len → image[o + 64 + j]? = stored (base + (lead + 64 + j) % size m)) ∧
        (∀ j : Nat, len ≤ j → j < roundUp 64 len → image[o + 64 + j]? = some none)) ∧
      (∀ x : Nat, x < 64 * n → image[512 + p.body + x]? = stored (slot + 512 + x)) ∧
      (∀ x : Nat, 512 + p.body + 64 * n ≤ x → x < p.projected - 512 → image[x]? = some none) ∧
      (∀ x : Nat, x < 512 → image[p.projected - 512 + x]? = stored (slot + 512 + 64 * n + x))))

/-- R136: the tests of a disposition write, in order, each with its reason; a refused write raises DISPOSITION_REFUSED and is
counted. A write that passes is taken at once with no read in flight, and otherwise made pending with its tag and tape tag
(R137). -/
def Obligations.DispositionTests : Prop :=
  ∀ (s : State) (tag : Nat) (addr : Addr) (data : List Byte) (j : SlotIx), s.takesNow → s.part ≠ .config →
    s.liesIn (.write tag addr data) (.slotWindow j) →
    let o := (addr.toNat - s.window.base.toNat) % 2 ^ 31
    let wellFormed := o = 0 ∧ data.length = 32 ∧ field data 0 4 = 0x3B94E06D ∧ wordSum data % 65536 = 0xFFFF ∧
      (field data 4 2 = 1 ∨ field data 4 2 = 2) ∧ field data 12 4 = 0
    let refused := fun reason =>
      let u := s.raise s.clock (.dispositionRefused j reason)
      ({ u with counters := { u.counters with dispositionsRefused := satAdd u.counters.dispositionsRefused 1 },
                sent := u.sent ++ [⟨tag, .refused⟩] } : State)
    ((s.slot j).bound = none → exec (.upstreamRequest (.write tag addr data)) s = .next (refused .notBound)) ∧
    (∀ b : Binding, (s.slot j).bound = some b →
      (¬ wellFormed → exec (.upstreamRequest (.write tag addr data)) s = .next (refused .format)) ∧
      (wellFormed → field data 8 4 ≠ (s.pack b.record).serial.toNat →
        exec (.upstreamRequest (.write tag addr data)) s = .next (refused .serial)) ∧
      (wellFormed → field data 8 4 = (s.pack b.record).serial.toNat →
        let tape := BitVec.ofNat 128 (field data 16 16)
        ((s.slot j).pending ≠ none → exec (.upstreamRequest (.write tag addr data)) s = .next (refused .pending)) ∧
        ((s.slot j).pending = none → (s.slot j).reads = 0 →
          (field data 4 2 = 1 →
            exec (.upstreamRequest (.write tag addr data)) s = .next (s.takeWritten s.clock j b tag tape)) ∧
          (field data 4 2 = 2 →
            exec (.upstreamRequest (.write tag addr data)) s = .next (s.takeReturned s.clock j b tag))) ∧
        ((s.slot j).pending = none → (s.slot j).reads ≠ 0 →
          exec (.upstreamRequest (.write tag addr data)) s = .next (s.setSlot j { s.slot j with
            pending := some (if field data 4 2 = 1 then .written tag tape else .returned tag tape), idle := .absent }))))

/-- PENDING_DISPOSITION_TAKEN (R137 to R140): with no read in flight the pending disposition is taken and its write answered
DONE. A WRITTEN releases the pack's members, frees the slot and the record, counts, drains the wait list, raises
PACK_RELEASED, and then binds what is ready; a RETURN puts the pack at the head of the ready queue, before what waits there,
frees the slot, counts the return, raises PACK_RETURNED and makes the bindings of R131. With reads in flight nothing happens
(the row as an event of its own: log entry 1). The release of a pack (R64, R69): its members become RELEASED and refer to no
pack; in each lane that holds one, the tail advances past RELEASED heads of the order list, one by one, each becoming FREE,
up to a head in another state; one release pass follows (R49, R50). -/
def Obligations.PendingDispositionIsTaken : Prop :=
  (∀ (s : State) (j : SlotIx),
    ((s.slot j).reads ≠ 0 → exec (.pendingDispositionTaken j) s = .next s.refill) ∧
    (∀ (b : Binding) (tag : Nat) (tape : BitVec 128), (s.slot j).reads = 0 → (s.slot j).bound = some b →
      (s.slot j).pending = some (.written tag tape) →
      let released := State.releasePack s.clock b.record
        (s.setPack b.record { s.pack b.record with viewSlot := none })
      let freed := (released.setSlot j { bound := none, reads := 0, pending := none, idle := .absent }).setPack b.record {}
      let drained := State.drainWaitList s.clock { freed with
        counters := { freed.counters with packsReleased := satAdd freed.counters.packsReleased 1 } }
      let rebound := (drained.raise s.clock (.packReleased b.serial tape)).bindReady s.clock
      exec (.pendingDispositionTaken j) s =
        .next (State.refill { rebound with sent := rebound.sent ++ [⟨tag, .done []⟩] }) ∧
      ∃ u : State, exec (.pendingDispositionTaken j) s = .next u.refill ∧ u.sent = s.sent ++ [⟨tag, .done []⟩] ∧
        (s.nothingHeld → s.waitList = [] → s.readyQueue = [] →
          u.slot j = {} ∧ u.pack b.record = {} ∧ (∀ e : PackIx, e ≠ b.record → u.pack e = s.pack e) ∧
          u.counters.packsReleased = satAdd s.counters.packsReleased 1 ∧
          (s.events.length < 32 → u.events = s.events ++ [⟨s.clock, .packReleased b.serial tape⟩]) ∧
          (s.membersCanonical → ∀ m ∈ (s.pack b.record).members,
            (u.member m).state = .released ∨ (u.member m).state = .free))) ∧
    (∀ (b : Binding) (tag : Nat) (tape : BitVec 128), (s.slot j).reads = 0 → (s.slot j).bound = some b →
      (s.slot j).pending = some (.returned tag tape) →
      exec (.pendingDispositionTaken j) s = .next (s.takeReturned s.clock j b tag).refill ∧
      ∃ u : State, exec (.pendingDispositionTaken j) s = .next u.refill ∧ u.sent = s.sent ++ [⟨tag, .done []⟩] ∧
        u.counters.packsReturned = satAdd s.counters.packsReturned 1 ∧
        (s.slotEnabled j = true → (∀ i : SlotIx, i < j → s.slotEnabled i = true → (s.slot i).bound ≠ none) →
          s.readyQueue = [] →
          u.slot j = { bound := some ⟨b.record, (s.pack b.record).serial, (s.pack b.record).projected⟩,
                       idle := Deadline.arm s.clock s.idleLimit } ∧
          u.pack b.record = { s.pack b.record with
            state := .bound, viewSlot := some j, returns := satAdd (s.pack b.record).returns 1 } ∧
          u.readyQueue = [] ∧ u.members = s.members ∧
          (s.events.length < 31 → u.events = s.events ++ [⟨s.clock, .packReturned j b.serial .returned⟩,
            ⟨s.clock, .slotBound j (s.pack b.record).serial (s.pack b.record).projected⟩])))) ∧
  (∀ (s : State) (t : Time) (j : SlotIx) (b : Binding) (tag : Nat),
    let p := s.pack b.record
    let ready : State :=
      { s.setPack b.record { p with state := .ready, viewSlot := none, returns := satAdd p.returns 1 } with
        readyQueue := b.record :: s.readyQueue
        counters := { s.counters with packsReturned := satAdd s.counters.packsReturned 1 } }
    let freed := ready.setSlot j { bound := none, reads := 0, pending := none, idle := .absent }
    let rebound := (freed.raise t (.packReturned j b.serial .returned)).bindReady t
    s.takeReturned t j b tag = { rebound with sent := rebound.sent ++ [⟨tag, .done []⟩] }) ∧
  (∀ (s : State) (t : Time) (d : PackIx),
    let ms := (s.pack d).members
    let released := s.releaseMembers ms
    let lanes := allLanes.filter (fun k => ms.any (fun m => decide ((s.member m).lane = k)))
    s.releasePack t d = (lanes.foldl (fun u k => u.advanceTail k) released).releasePass t ∧
    released = { s with members := released.members } ∧
    (s.membersCanonical → ∀ m : MemberIx, released.member m =
      if m ∈ ms then { s.member m with state := .released, packRecord := none, sectionOffset := none } else s.member m)) ∧
  (∀ (s : State) (k : LaneIx),
    ((s.lane k).order = [] → s.advanceTail k = s) ∧
    (∀ (m : MemberIx) (rest : List MemberIx), (s.lane k).order = m :: rest →
      ((s.member m).state ≠ .released → s.advanceTail k = s) ∧
      ((s.member m).state = .released →
        s.advanceTail k = State.advanceTail k ((s.setMember m {}).setLane k { s.lane k with order := rest }))))

/-- PENDING_IDLE_RETURN and IDLE_EXPIRY (R142): a pending idle return with no read in flight, and a due idle deadline of a
slot with none, return the pack with cause IDLE, at the head of the ready queue before what waits there, count the return and
the idle return, and make the bindings of R131; a due deadline of a slot with reads in flight becomes a
pending IDLE with the deadline removed; without a due deadline there is no expiry (R153). An expiry's stamp is the deadline's
value, which is the clock in every state that a run reaches (log entry 11). PENDING_IDLE_RETURN as an event of its own, which
changes nothing with reads in flight, is log entry 1. -/
def Obligations.IdleReturns : Prop :=
  ∀ (s : State) (j : SlotIx),
    ((∀ v, (s.slot j).idle ≠ .due v) → exec (.idleExpiry j) s = .next s) ∧
    (∀ (v : Time) (b : Binding), (s.slot j).idle = .due v → (s.slot j).bound = some b → (s.slot j).pending = none →
      (s.slot j).reads ≠ 0 →
      exec (.idleExpiry j) s = .next (s.setSlot j { s.slot j with idle := .absent, pending := some .idle })) ∧
    ((s.slot j).reads ≠ 0 → exec (.pendingIdleReturn j) s = .next s) ∧
    (∀ (t : State) (stamp : Time) (b : Binding), (s.slot j).reads = 0 → (s.slot j).bound = some b →
      ((s.slot j).pending = some .idle ∧ exec (.pendingIdleReturn j) s = .next t ∧ stamp = s.clock ∨
        (s.slot j).pending = none ∧ (s.slot j).idle = .due stamp ∧ exec (.idleExpiry j) s = .next t) →
      t = s.takeIdle stamp j b ∧
      t.counters.packsReturned = satAdd s.counters.packsReturned 1 ∧
      t.counters.idleReturns = satAdd s.counters.idleReturns 1 ∧ t.sent = s.sent ∧ t.members = s.members ∧
      (s.slotEnabled j = true → (∀ i : SlotIx, i < j → s.slotEnabled i = true → (s.slot i).bound ≠ none) →
        s.readyQueue = [] →
        t.slot j = { bound := some ⟨b.record, (s.pack b.record).serial, (s.pack b.record).projected⟩,
                     idle := Deadline.arm s.clock s.idleLimit } ∧
        t.pack b.record = { s.pack b.record with
          state := .bound, viewSlot := some j, returns := satAdd (s.pack b.record).returns 1 } ∧
        (s.events.length < 31 → t.events = s.events ++ [⟨stamp, .packReturned j b.serial .idle⟩,
          ⟨stamp, .slotBound j (s.pack b.record).serial (s.pack b.record).projected⟩]))) ∧
    (∀ (t : Time) (b : Binding),
      let p := s.pack b.record
      let ready : State :=
        { s.setPack b.record { p with state := .ready, viewSlot := none, returns := satAdd p.returns 1 } with
          readyQueue := b.record :: s.readyQueue
          counters := { s.counters with packsReturned := satAdd s.counters.packsReturned 1 } }
      let freed := ready.setSlot j { bound := none, reads := 0, pending := none, idle := .absent }
      let raised := freed.raise t (.packReturned j b.serial .idle)
      s.takeIdle t j b = State.bindReady t { raised with
        counters := { raised.counters with idleReturns := satAdd raised.counters.idleReturns 1 } }) ∧
    (∃ t, exec (.pendingIdleReturn j) s = .next t) ∧ (∃ t, exec (.idleExpiry j) s = .next t)

/-- The bindings of an event (R131): the head of the ready queue is bound to the lowest enabled FREE slot, and bindings
repeat until the ready queue is empty or no enabled slot is FREE. A binding writes record, serial and image length into the
slot, arms its idle deadline, makes the pack BOUND with its view slot, and raises SLOT_BOUND; the next one follows. -/
def Obligations.BindingFillsLowestFreeSlots : Prop :=
  ∀ (t : Time) (s : State),
    (s.readyQueue = [] ∨ (∀ j : SlotIx, s.slotEnabled j = true → (s.slot j).bound ≠ none) → s.bindReady t = s) ∧
    (∀ (d : PackIx) (ds : List PackIx) (j : SlotIx), s.readyQueue = d :: ds → s.slotEnabled j = true →
      (s.slot j).bound = none → (∀ i : SlotIx, i < j → s.slotEnabled i = true → (s.slot i).bound ≠ none) →
      let p := s.pack d
      let taken : State := { s with readyQueue := ds }
      let slotted := taken.setSlot j
        { bound := some ⟨d, p.serial, p.projected⟩, reads := 0, pending := none, idle := Deadline.arm s.clock s.idleLimit }
      s.bindReady t = State.bindReady t
        ((slotted.setPack d { p with state := .bound, viewSlot := some j }).raise t (.slotBound j p.serial p.projected))) ∧
    ((s.bindReady t).readyQueue = [] ∨
      ∀ j : SlotIx, s.slotEnabled j = true → ((s.bindReady t).slot j).bound ≠ none) ∧
    (∀ (d : PackIx) (ds : List PackIx) (j : SlotIx), s.readyQueue = d :: ds → s.slotEnabled j = true →
      (s.slot j).bound = none → (∀ i : SlotIx, i < j → s.slotEnabled i = true → (s.slot i).bound ≠ none) →
      (s.bindReady t).slot j = { bound := some ⟨d, (s.pack d).serial, (s.pack d).projected⟩, reads := 0,
                                 pending := none, idle := Deadline.arm s.clock s.idleLimit } ∧
      ((s.bindReady t).pack d).state = .bound ∧ (s.bindReady t).sent = s.sent ∧ (s.bindReady t).lanes = s.lanes ∧
      (s.bindReady t).members = s.members)

/-! ### The pack clock and its deadlines -/

/-- A tick (R150, R151, R153): the clock increases by 1, a pending deadline equal to its new value becomes due and every
other deadline keeps its value; on reaching 2^48 - 1 CLOCK_END is raised; a clock at 2^48 - 1 holds. Before the clock moves,
every deadline already due is taken by its owner, lanes, then packs, then slots, each ascending (R156 and R159 have a due
deadline equal to the clock; the order is the model's, log entry 11), so none is due before the rest of the tick. The row
stands for the prescaler's carry at any count (log entry 2), and with it a REFCLK period ends (log entry 30). -/
def Obligations.TickRaisesClockAndMakesDue : Prop :=
  ∀ s : State,
    let owners : List Instr := allLanes.map Instr.holdExpiry ++ allPacks.map Instr.ageExpiry ++ allSlots.map Instr.idleExpiry
    (s.clock = BitVec.allOnes 48 → exec .packClockTick s = .next { s with
      prescaler := 0, engine := { s.engine with afterEnd := none } }) ∧
    (s.clock ≠ BitVec.allOnes 48 →
      let u := owners.foldl State.carriedOut s
      u.nothingDue ∧ u.clock = s.clock ∧ exec .packClockTick s = exec .packClockTick u) ∧
    (s.nothingDue → s.clock ≠ BitVec.allOnes 48 → ∃ t, exec .packClockTick s = .next t ∧
      t.clock = s.clock + 1 ∧ t.prescaler = 0 ∧
      (∀ k : LaneIx, t.lane k = { s.lane k with holdDeadline :=
        (if (s.lane k).holdDeadline = .pending (s.clock + 1) then .due (s.clock + 1) else (s.lane k).holdDeadline) }) ∧
      (∀ d : PackIx, t.pack d = { s.pack d with age :=
        (if (s.pack d).age = .pending (s.clock + 1) then .due (s.clock + 1) else (s.pack d).age) }) ∧
      (∀ j : SlotIx, t.slot j = { s.slot j with idle :=
        (if (s.slot j).idle = .pending (s.clock + 1) then .due (s.clock + 1) else (s.slot j).idle) }) ∧
      (s.clock + 1 ≠ BitVec.allOnes 48 → t.events = s.events ∧ t.counters = s.counters) ∧
      (s.clock + 1 = BitVec.allOnes 48 → s.events.length < 32 → t.events = s.events ++ [⟨s.clock + 1, .clockEnd⟩]) ∧
      t.members = s.members ∧ t.engine = { s.engine with afterEnd := none } ∧ t.part = s.part ∧ t.sent = s.sent ∧
      t.readyQueue = s.readyQueue)

/-- R152: a deadline armed while the clock is below its end is pending, at the clock plus the limit or at 2^48 - 1 if
that is less, and lies ahead of the clock; armed at the clock's end it is dormant. SET_CLOCK (R154, R156): above 2^47 it
is refused; otherwise every deadline is rebased by its condition, the clock is P and the prescaler 0, and nothing else
changes. That holds also of the idle deadline that a rebinding armed in an expiry taken just before (R131, R153), where R143
has SET_CLOCK find none (log entry 29). -/
def Obligations.DeadlinesArmAndRebase : Prop :=
  (∀ (now : Time) (limit : Nat),
     (now = BitVec.allOnes 48 → Deadline.arm now limit = .dormant) ∧
     (now ≠ BitVec.allOnes 48 → ∃ v : Time, Deadline.arm now limit = .pending v ∧
       v.toNat = min (now.toNat + limit) (2 ^ 48 - 1) ∧ (1 ≤ limit → now < v))) ∧
  ((∀ (s : State) (p : Time), s.linkFree →
     (2 ^ 47 < p.toNat → exec (.setClock p) s = .next (s.answered 9 .badArg [])) ∧
     (p.toNat ≤ 2 ^ 47 → ∃ t, exec (.setClock p) s = .next t ∧
       t = { s.answered 9 .ok (le 6 p.toNat) with
             clock := p, prescaler := 0, packs := t.packs, lanes := t.lanes, slots := t.slots } ∧
       (∀ d : PackIx, t.pack d =
         { s.pack d with age := (s.pack d).age.rebase s.clock p (s.cls (s.pack d).cls).ageLimit }) ∧
       (∀ k : LaneIx, t.lane k = { s.lane k with holdDeadline := (s.lane k).holdDeadline.rebase s.clock p s.holdLimit }) ∧
       (∀ j : SlotIx, t.slot j = { s.slot j with idle := (s.slot j).idle.rebase s.clock p s.idleLimit }))) ∧
   (∀ (now p : Time) (limit : Nat),
     Deadline.absent.rebase now p limit = .absent ∧
     (∀ v : Time, (Deadline.due v).rebase now p limit = .due p) ∧
     Deadline.dormant.rebase now p limit = Deadline.arm p limit ∧
     (∀ v : Time, now < v → ∃ w : Time, (Deadline.pending v).rebase now p limit = .pending w ∧
       w.toNat = min (p.toNat + (v.toNat - now.toNat)) (2 ^ 48 - 1))))

/-- HOLD_EXPIRY (R51): a due hold deadline refuses every held write of the lane in queue order, counts one expiry, breaks the
receiving member, and sends the lane to SEEK with its cursor unchanged; with no other write held, HOLD_EXPIRED and then
MEMBER_BROKEN are the events raised; the broken member's entry is FREE (R36). In every state a release pass over all lanes
ends the event (R49 to R51, `HoldSteps`). Without a due deadline there is no expiry (R153). AGE_EXPIRY (R104, R101): the due
age deadline of an OPEN pack seals it with cause AGE, stamped with the deadline's value. Without a due deadline there is no
expiry (R153). The seal is that of `SectionAndBodyDigests` (log entry 30). Events and seal time carry the deadline's value,
which is the clock in every state that a run reaches (log entry 11, `StepKeepsDeadlinesAhead`). -/
def Obligations.HoldAndAgeExpiries : Prop :=
  (∀ (s : State) (k : LaneIx),
     ((∀ v, (s.lane k).holdDeadline ≠ .due v) → exec (.holdExpiry k) s = .next s) ∧
     (∀ v : Time, (s.lane k).holdDeadline = .due v →
       ∃ u : State, exec (.holdExpiry k) s = .next u.refill ∧
         u.sent = s.sent ++ (s.lane k).hold.map (fun w => ⟨w.tag, .refused⟩) ∧
         (u.lane k).hold = [] ∧ (u.lane k).holdDeadline = .absent ∧ (u.lane k).parser = .seek ∧
         (u.lane k).leadBuffer = [] ∧ (u.lane k).candidate = [] ∧ (u.lane k).pendingLead = none ∧
         (u.lane k).receiving = none ∧ (u.lane k).cursor = (s.lane k).cursor ∧
         (u.lane k).counts.holdExpiries = satAdd (s.lane k).counts.holdExpiries 1 ∧
         ((∀ j : LaneIx, j ≠ k → (s.lane j).hold = []) → s.events.length < 31 →
           ((s.lane k).receiving = none → u.members = s.members ∧ u.events = s.events ++
             [⟨v, .holdExpired k (s.lane k).hold.length (s.lane k).cursor⟩]) ∧
           (∀ m : MemberIx, (s.lane k).receiving = some m → s.membersCanonical →
             u.member m = {} ∧ (u.lane k).counts.brokenMembers = satAdd (s.lane k).counts.brokenMembers 1 ∧
             u.events = s.events ++ [⟨v, .holdExpired k (s.lane k).hold.length (s.lane k).cursor⟩,
               ⟨v, .memberBroken k m (s.member m).leadOffset .holdExpired (s.member m).received⟩])))) ∧
  (∀ (s : State) (k : LaneIx) (v : Time), (s.lane k).holdDeadline = .due v →
     let l := s.lane k
     let expired := EventBody.holdExpired k l.hold.length l.cursor
     let counts := { l.counts with holdExpiries := satAdd l.counts.holdExpiries 1 }
     let refused : State := { s with sent := s.sent ++ l.hold.map (fun w => ⟨w.tag, .refused⟩) }
     let seeking := { l with
       parser := .seek, leadBuffer := [], candidate := [], pendingLead := none, receiving := none, remaining := 0,
       hold := [], holdDeadline := .absent, counts := counts }
     (l.receiving = none → exec (.holdExpiry k) s =
       .next (((refused.setLane k seeking).raise v expired).releasePass v).refill) ∧
     (∀ m : MemberIx, l.receiving = some m →
       let broken := { seeking with
         order := l.order.filter (fun i => decide (i ≠ m)),
         counts := { counts with brokenMembers := satAdd counts.brokenMembers 1 } }
       let raised := (((refused.setMember m {}).setLane k broken).raise v expired).raise v
         (.memberBroken k m (s.member m).leadOffset .holdExpired (s.member m).received)
       (s.membersCanonical → raised.member m = {}) ∧
       exec (.holdExpiry k) s = .next (raised.releasePass v).refill)) ∧
  (∀ (s : State) (d : PackIx),
     ((∀ v, (s.pack d).age ≠ .due v) → exec (.ageExpiry d) s = .next s) ∧
     (∀ v : Time, (s.pack d).age = .due v → (s.pack d).state = .opened → s.membersCanonical →
       ∃ t, exec (.ageExpiry d) s = .next t ∧ SealedIn s t d v .age ∧ t.response = s.response ∧ t.msdo = s.msdo))

/-! ### The management link -/

/-- Discarded frames (R160, R174): a select period with an incomplete last byte, a byte count other than 3 plus the payload
length, or a payload length above 64, and every frame whose first byte was received while the response was BUSY, also one
that ends after the response has become READY, changes the frames-discarded counter and nothing else; on MSDO stand zeros
(R161, log entry 4). A frame that ends while the response is BUSY began while it was (log entry 6). -/
def Obligations.DiscardedFrames : Prop :=
  ∀ s : State, s.resetLow = false →
    let discarded := fun n : Nat =>
      ({ s with counters := { s.counters with framesDiscarded := satAdd s.counters.framesDiscarded 1 },
                msdo := zeroBytes n } : State)
    (∀ (bytes : List Byte) (x : FrameEdges), bytes ≠ [] → bytes.head? ≠ some 0xF0 →
      x.extraBits.val ≠ 0 ∨ bytes.length ≠ 3 + field bytes 1 2 ∨ 64 < field bytes 1 2 ∨ x.begunBusy = true ∨
        s.response = .busy →
      exec (.commandFrameDiscard bytes x) s = .next (discarded bytes.length).refill) ∧
    (∀ (c : Instr) (n : Nat), s.response = .busy → frameBytes c = some n →
      ∃ t, exec c s = .next t ∧ (t = discarded n ∨ t = (discarded n).refill))

/-- A frame that is taken whose code names no command, or whose payload length is not the command's, is answered BAD_ARG and
changes nothing else (R162, Table 11-6). -/
def Obligations.UnknownCodeOrWrongLengthIsBadArg : Prop :=
  ∀ (s : State) (code : Byte) (payload : List Byte), s.linkFree → code ≠ 0xF0 → payload.length ≤ 64 →
    payloadLength code.toNat ≠ some payload.length →
    exec (.unknownCommand code payload) s = .next (State.refill (s.answered (3 + payload.length) .badArg []))

/-- RESPONSE_READ (R161, R177): zeros during the code byte, then the state byte and, in READY, status, payload length and
payload, then zeros; a READY response read to its last byte leaves NONE, and any other read leaves the response. A read whose
state byte was shifted out as BUSY finishes as a read in BUSY and leaves the response, also one that has become READY since
(the select period as one event: log entry 6). -/
def Obligations.ResponseReadShiftsOutResponse : Prop :=
  ∀ (s : State) (p : Nat), s.resetLow = false →
    (s.response = .none →
      exec (.responseRead ⟨p, false⟩) s = .next { s with msdo := 0 :: (0 :: zeroBytes (p - 1)).take p }) ∧
    (s.response = .busy →
      exec (.responseRead ⟨p, false⟩) s = .next { s with msdo := 0 :: (1 :: zeroBytes (p - 1)).take p }) ∧
    (∀ (st : Status) (payload : List Byte), s.response = .ready st payload →
      let all := [2, BitVec.ofNat 8 st.code] ++ le 2 payload.length ++ payload
      exec (.responseRead ⟨p, false⟩) s =
        .next { s with msdo := 0 :: (all ++ zeroBytes (p - all.length)).take p,
                       response := if all.length ≤ p then .none else .ready st payload }) ∧
    exec (.responseRead ⟨p, true⟩) s = .next { s with msdo := 0 :: (1 :: zeroBytes (p - 1)).take p }

/-- READ_PART (R163), READ_LANE (R41) and READ_PACK (R111) answer OK with the report and change nothing else, but that
READ_PART clears the overflow flag it reports; a lane above 15 and a record above 63 are answered BAD_ARG. The part record is
every field of R163, from the part state to the counters, in that order without gaps, each of its size and value (its
beginning is stated by place as well); the byte of a slot's state is a free value (log entry 8). The censuses count the
entries and records in each state (R74, R111; table form: log entry 13), in the order of the state codes of Table 11-9 (log
entry 7). The lane report has its fields from the enabled flag to the eight counters (R41), and the pack report those from
the state to the member list (R111), each at its place in that order (widths of Table 11-8; where it is silent, log entry 7).
-/
def Obligations.ReportsAreReturned : Prop :=
  (∀ s : State, s.linkFree →
    exec .readPart s = .next { s.answered 3 .ok s.partRecord with overflow := false } ∧
    (∀ (lane : Byte) (k : LaneIx), k.val = lane.toNat →
      exec (.readLane lane) s = .next (s.answered 4 .ok (s.laneReport k))) ∧
    (∀ lane : Byte, 15 < lane.toNat → exec (.readLane lane) s = .next (s.answered 4 .badArg [])) ∧
    (∀ (record : Byte) (d : PackIx), d.val = record.toNat →
      exec (.readPack record) s = .next (s.answered 4 .ok (s.packReport d))) ∧
    (∀ record : Byte, 63 < record.toNat → exec (.readPack record) s = .next (s.answered 4 .badArg []))) ∧
  (∀ s : State, field s.partRecord 0 1 = s.part.code ∧ s.partRecord[1]? = some (flagByte s.quiesceLine) ∧
    field s.partRecord 2 8 = s.clock.toNat ∧ s.partRecord[10]? = some (flagByte (decide (s.clock = BitVec.allOnes 48))) ∧
    field s.partRecord 11 1 = s.events.length % 256 ∧ s.partRecord[12]? = some (flagByte s.overflow)) ∧
  (∀ s : State,
    let flag := fun b : Bool => ((1, if b then 1 else 0) : Nat × Nat)
    let optional := fun (size : Nat) (x : Option Nat) => match x with
      | none => [(1, 0), (size, 0)]
      | some v => [(1, 1), (size, v)]
    let listed := fun (size : Nat) (l : List Nat) => (2, l.length) :: l.map (fun x => (size, x))
    let deadline := fun d : Deadline => optional 8 (match d with
      | .absent => none
      | .pending v => some v.toNat
      | .due v => some v.toNat
      | .dormant => some (2 ^ 48 - 1))
    let settings : List (Nat × Nat) :=
      [(1, s.part.code), flag s.quiesceLine, (8, s.clock.toNat), flag (decide (s.clock = BitVec.allOnes 48)),
       (1, s.events.length), flag s.overflow, (2, s.attentionMask.toNat), (2, s.formerId.toNat), (4, s.tapeBlock),
       (4, s.serialNext.toNat), (4, s.holdLimit), (4, s.idleLimit), (4, s.arbiter.share), (1, s.arbiter.mode.code),
       (8, s.window.base.toNat), flag s.window.set, (1, s.window.mask.toNat), (8, s.directory.base.toNat),
       flag s.directory.set]
    let classes := (List.finRange 8).flatMap (fun c =>
      let k := s.cls c
      [(1, c.val), flag k.enabled, (2, k.target), (2, k.cap), (4, k.ageLimit), (1, k.retention.toNat)])
    let census := (s.memberCensus ++ s.packCensus).map (fun n => (2, n))
    let waiting := (2, s.waitList.length) :: optional 1 (s.waitList.head?.map (fun m => (s.member m).cls.val))
    let e := s.engine
    let current := match e.current with
      | none => [(1, 0), (1, 0), (4, 0)]
      | some c => [(1, 1), (1, c.record.val), (4, c.serial.toNat)]
    let engine := (1, e.state.code) :: current ++ [(2, e.nextUnit), (2, e.unitsInFlight), (2, e.faults)] ++
      listed 1 (e.queue.map Fin.val) ++
      (2, e.discards.length) :: e.discards.flatMap (fun x => [(1, x.record.val), (2, x.units)])
    let slots := (List.finRange 4).flatMap (fun j =>
      let v := s.slot j
      let binding := match v.bound with
        | none => [(1, 0), (1, 0), (4, 0), (4, 0)]
        | some b => [(1, 1), (1, b.record.val), (4, b.serial.toNat), (4, b.length)]
      [flag (s.slotEnabled j), (1, (Config.slotStateCode v.bound.isSome).toNat)] ++ binding ++
        [(1, v.reads), (1, pendingCode v.pending)] ++ deadline v.idle)
    let n := s.counters
    let counters := [n.rangeRefusals, n.straddleRefusals, n.placementRefusals, n.memoryFaults, n.sealedSize, n.sealedCount,
      n.sealedAge, n.sealedLead, n.sealedCommand, n.sealedDrain, n.sealedClassClosed, n.packsReleased, n.packsReturned,
      n.packsDiscarded, n.openPacksDiscarded, n.commitsCompleted, n.commitsFailed, n.unitFaults, n.readsServed,
      n.readsRefused, n.readFaults, n.dispositionsRefused, n.idleReturns, n.framesDiscarded, n.eventsLost].map
        (fun c => (4, c.toNat))
    s.partRecord = (settings ++ classes ++ census ++ waiting ++ engine ++ listed 1 (s.readyQueue.map Fin.val) ++ slots ++
      counters).flatMap (fun x => le x.1 x.2) ∧
    s.packCensus = [PackState.free, .opened, .sealing, .ready, .bound, .failed, .discarding].map (fun p =>
      (List.finRange 64).countP (fun d => decide ((s.pack d).state = p))) ∧
    (s.membersCanonical → s.memberCensus =
      (List.finRange 4096).countP (fun m => decide (s.member m = {})) ::
      [MemberState.receiving, .waiting, .packed, .filed, .released].map (fun p =>
        (List.finRange 4096).countP (fun m => decide ((s.member m).state = p))))) ∧
  (∀ (s : State) (k : LaneIx), (s.lane k).cursor < 2 ^ 32 → s.tail k < 2 ^ 32 →
    (s.laneReport k)[0]? = some (flagByte (s.lane k).enabled) ∧
    field (s.laneReport k) 1 8 = (s.lane k).base.toNat ∧ field (s.laneReport k) 10 4 = (s.lane k).cursor ∧
    field (s.laneReport k) 14 4 = s.tail k) ∧
  (∀ (s : State) (k : LaneIx),
    let l := s.lane k
    let r := s.laneReport k
    r.length = 82 ∧ field r 9 1 = l.exponent % 256 ∧ field r 18 4 = s.used k % 2 ^ 32 ∧ field r 22 1 = l.parser.code ∧
    field r 23 1 = l.collected % 256 ∧ field r 24 4 = l.remaining % 2 ^ 32 ∧
    (l.receiving = none → field r 28 3 = 0) ∧
    (∀ m : MemberIx, l.receiving = some m → field r 28 1 = 1 ∧ field r 29 2 = m.val) ∧
    (l.pendingLead = none → field r 31 5 = 0) ∧
    (∀ p : Nat, l.pendingLead = some p → field r 31 1 = 1 ∧ field r 32 4 = p % 2 ^ 32) ∧
    field r 36 1 = l.hold.length % 256 ∧ field r 37 4 = l.projected % 2 ^ 32 ∧
    (l.holdDeadline = .absent → field r 41 9 = 0) ∧
    (∀ v : Time, l.holdDeadline = .pending v ∨ l.holdDeadline = .due v → field r 41 1 = 1 ∧ field r 42 8 = v.toNat) ∧
    (l.holdDeadline = .dormant → field r 41 1 = 1 ∧ field r 42 8 = 2 ^ 48 - 1) ∧
    (List.range 8).map (fun i => field r (50 + 4 * i) 4) =
      [l.counts.membersCompleted, l.counts.bytesAccepted, l.counts.strayRefusals, l.counts.edgeRefusals,
        l.counts.holdFullRefusals, l.counts.holdExpiries, l.counts.leadFaults, l.counts.brokenMembers].map BitVec.toNat) ∧
  (∀ (s : State) (d : PackIx),
    let p := s.pack d
    let r := s.packReport d
    r.length = 81 + 2 * p.members.length ∧ field r 0 1 = p.state.code ∧ field r 1 4 = p.serial.toNat ∧
    field r 5 1 = p.cls.val ∧ field r 6 2 = p.target % 2 ^ 16 ∧ field r 8 2 = p.cap % 2 ^ 16 ∧
    field r 10 1 = p.retention.toNat ∧ field r 11 4 = p.members.length % 2 ^ 32 ∧ field r 15 4 = p.body % 2 ^ 32 ∧
    field r 19 4 = p.digest.a.toNat ∧ field r 23 4 = p.digest.b.toNat ∧ field r 27 4 = p.projected % 2 ^ 32 ∧
    field r 31 8 = p.openTime.toNat ∧ field r 39 8 = p.firstDone.toNat ∧ field r 47 8 = p.lastDone.toNat ∧
    field r 55 8 = p.sealTime.toNat ∧
    (p.age = .absent → field r 63 9 = 0) ∧
    (∀ v : Time, p.age = .pending v ∨ p.age = .due v → field r 63 1 = 1 ∧ field r 64 8 = v.toNat) ∧
    (p.age = .dormant → field r 63 1 = 1 ∧ field r 64 8 = 2 ^ 48 - 1) ∧
    field r 72 1 = sealCode p.cause ∧
    (p.viewSlot = none → field r 73 2 = 0) ∧
    (∀ j : SlotIx, p.viewSlot = some j → field r 73 1 = 1 ∧ field r 74 1 = j.val) ∧
    field r 75 4 = p.returns.toNat ∧ field r 79 2 = p.members.length % 2 ^ 16 ∧
    (∀ (i : Nat) (m : MemberIx), p.members[i]? = some m → field r (81 + 2 * i) 2 = m.val)) ∧
  [PackState.free, .opened, .sealing, .ready, .bound, .failed, .discarding].map PackState.code = [0, 1, 2, 3, 4, 5, 6] ∧
  [ParserState.lead, .data, .pad, .seek].map ParserState.code = [0, 1, 2, 3] ∧
  [PartState.config, .run, .quiesced].map PartState.code = [0, 1, 2] ∧
  [EngineState.idle, .issuing, .settling, .suspending, .suspended, .stopping].map EngineState.code = [0, 1, 2, 3, 4, 5] ∧
  [CommitMode.steal, .burst].map CommitMode.code = [0, 1] ∧
  (∀ (tag : Nat) (tape : BitVec 128),
    [none, some (.written tag tape), some (.returned tag tape), some .idle].map pendingCode = [0, 1, 2, 3])

/-- R7: SET_LANE and SET_WINDOWS, step by step: BAD_STATE outside CONFIG; the exponent clamped to 25..30; BAD_ARG for a base
not aligned to its region (and for an operand R177 does not encode); OVERLAP when a region would share an address with
another defined one; otherwise the entries are written and reported. A refused write changes no entry. -/
def Obligations.RegionTableWrites : Prop :=
  ∀ s : State, s.linkFree →
    (∀ (lane enabled exponent : Byte) (base : Addr),
      let c := Instr.setLane lane enabled exponent base
      let e := max 25 (min 30 exponent.toNat)
      (s.part ≠ .config → exec c s = .next (s.answered 11 .badState [])) ∧
      (s.part = .config → 15 < lane.toNat ∨ 1 < enabled.toNat → exec c s = .next (s.answered 11 .badArg [])) ∧
      (∀ (k : LaneIx) (f : Bool), s.part = .config → k.val = lane.toNat → enabled = flagByte f →
        let other := (∃ j : LaneIx, j ≠ k ∧ (s.lane j).enabled = true ∧
            shares base.toNat (2 ^ e) (s.lane j).base.toNat (s.lane j).size) ∨
          (s.window.set = true ∧ shares base.toNat (2 ^ e) s.window.base.toNat (2 ^ 33)) ∨
          (s.directory.set = true ∧ shares base.toNat (2 ^ e) s.directory.base.toNat (2 ^ 23))
        (base.toNat % 2 ^ e ≠ 0 → exec c s = .next (s.answered 11 .badArg [])) ∧
        (base.toNat % 2 ^ e = 0 → f = true → other → exec c s = .next (s.answered 11 .overlap [])) ∧
        (base.toNat % 2 ^ e = 0 → f = false ∨ ¬ other → exec c s =
          .next ((s.setLane k { s.lane k with enabled := f, base := base, exponent := e }).answered 11 .ok
            (le 1 k.val ++ [flagByte f] ++ le 1 e ++ le 5 base.toNat))))) ∧
    (∀ (viewBase : Addr) (mask : Byte) (dirBase : Addr),
      let c := Instr.setWindows viewBase mask dirBase
      let stored : BitVec 4 := mask.extractLsb' 0 4
      let aligned := viewBase.toNat % 2 ^ 33 = 0 ∧ dirBase.toNat % 2 ^ 23 = 0
      let other := shares viewBase.toNat (2 ^ 33) dirBase.toNat (2 ^ 23) ∨
        (∃ j : LaneIx, (s.lane j).enabled = true ∧
          (shares viewBase.toNat (2 ^ 33) (s.lane j).base.toNat (s.lane j).size ∨
            shares dirBase.toNat (2 ^ 23) (s.lane j).base.toNat (s.lane j).size))
      (s.part ≠ .config → exec c s = .next (s.answered 14 .badState [])) ∧
      (s.part = .config → ¬ aligned → exec c s = .next (s.answered 14 .badArg [])) ∧
      (s.part = .config → aligned → other → exec c s = .next (s.answered 14 .overlap [])) ∧
      (s.part = .config → aligned → ¬ other → exec c s =
        .next { s.answered 14 .ok (le 5 viewBase.toNat ++ le 1 stored.toNat ++ le 5 dirBase.toNat) with
          window := { set := true, base := viewBase, mask := stored },
          directory := { set := true, base := dirBase } }))

/-- SET_SERIAL (R164, R95, R76): BAD_STATE outside CONFIG; in CONFIG serial_next and the former id as given and the tape
block size clamped up to one of its five values. SET_LIMITS (R165): BAD_ARG for a mode other than STEAL or BURST, else the
four values, clamped, in every part state; armed deadlines keep their values. Nothing else changes. -/
def Obligations.SerialAndLimitsAreStored : Prop :=
  ∀ s : State, s.linkFree →
    (∀ (serial : Word32) (former : BitVec 16) (tb : Word32),
      (s.part ≠ .config → exec (.setSerial serial former tb) s = .next (s.answered 13 .badState [])) ∧
      (s.part = .config → ∃ stored ∈ [65536, 131072, 262144, 524288, 1048576],
        exec (.setSerial serial former tb) s =
          .next { s.answered 13 .ok (le 4 serial.toNat ++ le 2 former.toNat ++ le 4 stored) with
                  serialNext := serial, formerId := former, tapeBlock := stored } ∧
        (1048576 ≤ tb.toNat → stored = 1048576) ∧
        (tb.toNat ≤ 1048576 → tb.toNat ≤ stored ∧
          ∀ x ∈ [65536, 131072, 262144, 524288, 1048576], tb.toNat ≤ x → stored ≤ x))) ∧
    (∀ (hold idle : Word32) (share mode : Byte),
      (1 < mode.toNat → exec (.setLimits hold idle share mode) s = .next (s.answered 13 .badArg [])) ∧
      (∀ m : CommitMode, m.code = mode.toNat →
        let h := max 1 (min 65535 hold.toNat)
        let i := max 1000 (min 600000 idle.toNat)
        let g := max 1 (min 255 share.toNat)
        exec (.setLimits hold idle share mode) s =
          .next { s.answered 13 .ok (le 4 h ++ le 4 i ++ le 1 g ++ le 1 m.code) with
                  holdLimit := h, idleLimit := i, arbiter := { s.arbiter with share := g, mode := m } }))

/-- SET_CLASS (R92, R93): BAD_ARG for a class above 7 or a flag other than 0 and 1; otherwise the five fields, each clamped
to its range, are written together and reported; a class that goes from enabled to disabled has its OPEN pack sealed with
CLASS_CLOSED, as `SectionAndBodyDigests` says of a seal (log entry 30), and otherwise nothing else changes. -/
def Obligations.SetClassWritesClass : Prop :=
  ∀ (s : State) (cls enabled : Byte) (target cap : BitVec 16) (age : Word32) (tag : Byte), s.linkFree →
    let i := Instr.setClass cls enabled target cap age tag
    (7 < cls.toNat ∨ 1 < enabled.toNat → exec i s = .next (s.answered 14 .badArg [])) ∧
    (∀ (c : ClassIx) (f : Bool), c.val = cls.toNat → enabled = flagByte f →
      let k : PackClass := { enabled := f, target := max 16 (min 2048 target.toNat), cap := max 1 (min 1024 cap.toNat),
                             ageLimit := max 1000 (min 86400000 age.toNat), retention := tag }
      let report := le 1 c.val ++ [enabled] ++ le 2 k.target ++ le 2 k.cap ++ le 4 k.ageLimit ++ [tag]
      ((s.cls c).enabled = false ∨ f = true ∨ s.openPackOf c = none →
        exec i s = .next { s.answered 14 .ok report with classes := s.classes.set c k }) ∧
      (∀ d : PackIx, (s.cls c).enabled = true → f = false → s.openPackOf c = some d → s.membersCanonical →
        ∃ t, exec i s = .next t ∧ t.response = .ready .ok report ∧ t.classes = s.classes.set c k ∧
          SealedIn { s with classes := s.classes.set c k } t d s.clock .classClosed))

/-- SEAL_CLASS (R102) and DRAIN (R103): BAD_STATE in CONFIG, BAD_ARG for a class above 7. SEAL_CLASS seals the class's OPEN
pack with cause COMMAND and reports its serial, or that none was OPEN. DRAIN seals the OPEN pack of every class with cause
DRAIN, makes their members FILED, counts each seal, reports how many, and puts them in the commit queue in ascending class
order. At a seal an IDLE engine in RUN begins the head of its queue, and any other changes in its queue alone (R116, R117;
what a beginning makes of the model's own field is log entry 30). Nothing else changes. -/
def Obligations.SealCommands : Prop :=
  ∀ s : State, s.linkFree →
    (s.part = .config → (∀ cls, exec (.sealClass cls) s = .next (s.answered 4 .badState [])) ∧
      exec .drain s = .next (s.answered 3 .badState [])) ∧
    (s.part ≠ .config →
      (∀ cls : Byte, 7 < cls.toNat → exec (.sealClass cls) s = .next (s.answered 4 .badArg [])) ∧
      (∀ (cls : Byte) (c : ClassIx), c.val = cls.toNat →
        (s.openPackOf c = none → exec (.sealClass cls) s = .next (s.answered 4 .ok (le 1 0 ++ le 4 0))) ∧
        (∀ d : PackIx, s.openPackOf c = some d → s.membersCanonical →
          ∃ t, exec (.sealClass cls) s = .next t ∧ t.response = .ready .ok (le 1 1 ++ le 4 (s.pack d).serial.toNat) ∧
            SealedIn s t d s.clock .command)) ∧
      ∃ t, exec .drain s = .next t ∧
        t.response = .ready .ok (le 1 (allClasses.countP (fun c => (s.openPackOf c).isSome))) ∧
        (let opens := allClasses.filterMap s.openPackOf
         let e : Engine := { s.engine with queue := s.engine.queue ++ opens }
         (opens = [] ∨ s.engine.state ≠ .idle ∨ s.part ≠ .run → t.engine = e) ∧
         (∀ (x : PackIx) (xs : List PackIx), opens ≠ [] → s.engine.state = .idle → s.part = .run → e.queue = x :: xs →
           t.engine = s.begun x e)) ∧
        t = { s with packs := t.packs, members := t.members, engine := t.engine, counters := t.counters,
                     response := t.response, msdo := zeroBytes 3 } ∧
        (∀ (c : ClassIx) (d : PackIx), s.openPackOf c = some d → t.pack d =
          { s.pack d with state := .sealing, age := .absent, sealTime := s.clock, cause := some .drain }) ∧
        (∀ d : PackIx, (∀ c : ClassIx, s.openPackOf c ≠ some d) → t.pack d = s.pack d) ∧
        t.counters = { s.counters with
          sealedDrain := satAdd s.counters.sealedDrain (allClasses.countP (fun c => (s.openPackOf c).isSome)) } ∧
        (s.membersCanonical → ∀ m : MemberIx,
          ((∃ (c : ClassIx) (d : PackIx), s.openPackOf c = some d ∧ m ∈ (s.pack d).members) →
            t.member m = { s.member m with state := .filed }) ∧
          ((∀ (c : ClassIx) (d : PackIx), s.openPackOf c = some d → m ∉ (s.pack d).members) → t.member m = s.member m)))

/-- START (R167): BAD_STATE outside CONFIG; BAD_CONFIG with a byte whose bits 0 to 4 name the conditions that failed, which
changes nothing else; otherwise every enabled lane takes its initial state, the part is RUN or QUIESCED by the QUIESCE line,
the Member Table, packs, wait list, slots, ready queue and engine (with the model's own field of log entry 30) hold their
initial values, the last-served lane is 15, no burst is in progress with a run count of 0 (that START sets what CONFIG
already holds is DEDUCED, log entry 16), and all else is unchanged: region table, classes, settings, clock, prescaler,
counters, events, attention mask, the queues of both ports. -/
def Obligations.StartEntersRunOrQuiesced : Prop :=
  ∀ s : State, s.linkFree →
    (s.part ≠ .config → exec .start s = .next (s.answered 3 .badState [])) ∧
    (s.part = .config →
      let complete := s.window.set = true ∧ s.directory.set = true ∧ (∃ k : LaneIx, (s.lane k).enabled = true) ∧
        (∃ c : ClassIx, (s.cls c).enabled = true) ∧ (∃ j : SlotIx, s.slotEnabled j = true)
      (¬ complete → ∃ b : Byte, exec .start s = .next (s.answered 3 .badConfig [b]) ∧ b.toNat < 32 ∧
        (b.getLsbD 0 = false ↔ s.window.set = true) ∧ (b.getLsbD 1 = false ↔ s.directory.set = true) ∧
        (b.getLsbD 2 = false ↔ ∃ k : LaneIx, (s.lane k).enabled = true) ∧
        (b.getLsbD 3 = false ↔ ∃ c : ClassIx, (s.cls c).enabled = true) ∧
        (b.getLsbD 4 = false ↔ ∃ j : SlotIx, s.slotEnabled j = true)) ∧
      (complete → ∃ t, exec .start s = .next t ∧ t.part = (if s.quiesceLine then .quiesced else .run) ∧
        t.response = .ready .ok (le 1 t.part.code) ∧
        (∀ k : LaneIx, t.lane k = if (s.lane k).enabled then
          { enabled := true, base := (s.lane k).base, exponent := (s.lane k).exponent, counts := (s.lane k).counts }
          else s.lane k) ∧
        (∀ m : MemberIx, t.member m = {}) ∧ (∀ d : PackIx, t.pack d = {}) ∧ (∀ j : SlotIx, t.slot j = {}) ∧
        t = { s with
          part := t.part, response := t.response, msdo := zeroBytes 3, lanes := t.lanes, lastServed := 15,
          members := [], packs := t.packs, waitList := [], readyQueue := [], slots := t.slots, engine := {},
          arbiter := { s.arbiter with run := 0, burst := none } }))

/-- RESTART (R168, R169): BAD_STATE in CONFIG. Otherwise held writes, lane by lane, and then pending disposition writes are
refused (the slots in ascending order: the model's choice, log entry 28), the last-served lane is 15 (R55), and view reads in
flight lose their slot and are still answered (R147, `ViewReadResponseWhenAllAnswered`). With no commit unit in flight it
completes at once: lanes, Member Table, packs, wait list, slots, ready queue and engine take their initial state and the part
is CONFIG. With one in flight the response stays BUSY, the engine is STOPPING with its units in flight and discard list (its
next unit and first faulted unit: DEDUCED, log entry 25; the model's own field: log entry 30), the part QUIESCED, slots FREE,
READY and BOUND packs FAILED, and lanes, but for their held writes, members and wait list are kept. Everything else is
unchanged in both cases: region table, settings, clock, prescaler, events, overflow flag, attention mask, counters and the
queues of both ports (R158, R169). -/
def Obligations.RestartCompletesOrWaits : Prop :=
  ∀ s : State, s.linkFree →
    (s.part = .config → exec .restart s = .next (State.refill (s.answered 3 .badState []))) ∧
    (s.part ≠ .config → ∃ t : State, exec .restart s = .next t.refill ∧
      t.sent = s.sent ++ s.heldRefusals ++ s.pendingRefusals ∧ (∀ j : SlotIx, t.slot j = {}) ∧
      t = { s with
        part := t.part, response := t.response, msdo := zeroBytes 3, sent := t.sent, lanes := t.lanes, lastServed := 15,
        members := t.members, packs := t.packs, waitList := t.waitList, engine := t.engine, slots := t.slots,
        readyQueue := [], arbiter := { s.arbiter with run := 0, burst := none },
        viewReads := s.viewReads.map (fun r => { r with slot := none }) } ∧
      (s.inFlight.any MemReq.isCommit = false →
        t.part = .config ∧ t.response = .ready .ok [] ∧ t.engine = {} ∧ t.members = [] ∧ t.waitList = [] ∧
        (∀ d : PackIx, t.pack d = {}) ∧
        (∀ k : LaneIx,
          let l := s.lane k
          t.lane k = { enabled := l.enabled, base := l.base, exponent := l.exponent, counts := l.counts })) ∧
      (s.inFlight.any MemReq.isCommit = true →
        t.part = .quiesced ∧ t.response = .busy ∧
        t.engine = { state := .stopping, unitsInFlight := s.engine.unitsInFlight, discards := s.engine.discards } ∧
        t.members = s.members ∧ t.waitList = s.waitList ∧
        (∀ k : LaneIx, t.lane k = { s.lane k with hold := [], holdDeadline := .absent }) ∧
        (∀ d : PackIx, (s.pack d).state = .ready ∨ (s.pack d).state = .bound →
          t.pack d = { s.pack d with state := .failed, viewSlot := none }) ∧
        (∀ d : PackIx, (s.pack d).state ≠ .ready → (s.pack d).state ≠ .bound → t.pack d = s.pack d)))

/-- R105: the tests that DISCARD_PACK and RECOMMIT_PACK make, in order. -/
def Obligations.PackCommandTests : Prop :=
  ∀ (s : State) (record : Byte) (serial : Word32), s.linkFree →
    let both := fun st : Status =>
      exec (.discardPack record serial) s = .next (s.answered 8 st []) ∧
      exec (.recommitPack record serial) s = .next (s.answered 8 st [])
    (s.part = .config → both .badState) ∧
    (s.part ≠ .config →
      (63 < record.toNat → both .badArg) ∧
      (∀ d : PackIx, d.val = record.toNat →
        ((s.pack d).state = .free ∨ (s.pack d).serial ≠ serial → both .notFound) ∧
        ((s.pack d).state ≠ .free → (s.pack d).serial = serial →
          ((s.pack d).state = .bound → exec (.discardPack record serial) s = .next (s.answered 8 .bound [])) ∧
          ((s.pack d).state = .discarding → exec (.discardPack record serial) s = .next (s.answered 8 .badState [])) ∧
          ((s.pack d).state ≠ .failed → exec (.recommitPack record serial) s = .next (s.answered 8 .badState [])) ∧
          ((s.pack d).state ≠ .bound → (s.pack d).state ≠ .discarding →
            ∃ t, exec (.discardPack record serial) s = .next t ∧
              t.response = .ready .ok (le 1 (s.pack d).state.code)) ∧
          ((s.pack d).state = .failed → ∃ t, exec (.recommitPack record serial) s = .next t ∧
            t.response = .ready .ok (le 1 PackState.failed.code)))))

/-- DISCARD_PACK (R106, R107, R125). With no lane holding a write and no member waiting: without commit units of the pack in
flight its record is FREE and its members are released; with units in flight the pack is DISCARDING, its record is on the
discard list with their count, and its members are released; other packs and all slots are kept. In every state, for an OPEN,
a READY, a FAILED and a SEALING pack (R106, R107): the pack leaves its structure, an OPEN one leaving its class without an
OPEN pack; then come the release of its members with tail advance and release pass (`PendingDispositionIsTaken`), the
record's freeing, the counter, and the drain. A SEALING pack behind the current one leaves the commit queue and nothing else
of the engine changes; the current pack is dropped (`DroppedIn`): its commit is cleared, the candidate withdrawn, and the
engine begins the next pack of its queue in RUN (R125, R117, R15; the model's own field of the engine: log entry 30); with
units in flight its record is DISCARDING, and not freed. RECOMMIT_PACK of a FAILED pack (R108): it is SEALING at the tail of
the commit queue with all else kept, and an IDLE engine in RUN with nothing queued begins its commit (R117). -/
def Obligations.DiscardAndRecommit : Prop :=
  (∀ (s : State) (d : PackIx), s.linkFree → s.part ≠ .config → s.nothingHeld → s.waitList = [] → s.membersCanonical →
     (s.pack d).state ≠ .free → (s.pack d).state ≠ .bound → (s.pack d).state ≠ .discarding →
     ∃ t, exec (.discardPack (BitVec.ofNat 8 d.val) (s.pack d).serial) s = .next t ∧
       (∀ e : PackIx, e ≠ d → t.pack e = s.pack e) ∧ t.slots = s.slots ∧ t.events = s.events ∧ t.sent = s.sent ∧
       (∀ m ∈ (s.pack d).members, (t.member m).state = .released ∨ (t.member m).state = .free) ∧
       (¬ (0 < s.engine.unitsInFlight ∧ ∃ cur, s.engine.current = some cur ∧ cur.record = d) →
         t.pack d = {} ∧
         ((s.pack d).state = .opened → t.counters.openPacksDiscarded = satAdd s.counters.openPacksDiscarded 1) ∧
         ((s.pack d).state ≠ .opened → t.counters.packsDiscarded = satAdd s.counters.packsDiscarded 1) ∧
         ((s.pack d).state = .ready → t.readyQueue = s.readyQueue.filter (fun x => decide (x ≠ d))) ∧
         ((s.pack d).state ≠ .sealing → t.engine = s.engine ∧ t.arbiter = s.arbiter) ∧
         ((s.pack d).state = .sealing →
           ((∀ cur, s.engine.current = some cur → cur.record ≠ d) →
             t.engine = { s.engine with queue := s.engine.queue.filter (fun x => decide (x ≠ d)) } ∧
             t.arbiter = s.arbiter) ∧
           (∀ cur, s.engine.current = some cur → cur.record = d →
             DroppedIn s t.engine d s.engine.discards ∧ t.arbiter = { s.arbiter with run := 0, burst := none }))) ∧
       (∀ cur, 0 < s.engine.unitsInFlight → s.engine.current = some cur → cur.record = d →
         (t.pack d).state = .discarding ∧ (t.pack d).serial = (s.pack d).serial ∧
         (t.pack d).members = (s.pack d).members ∧
         DroppedIn s t.engine d (s.engine.discards ++ [⟨d, s.engine.unitsInFlight⟩]) ∧
         t.arbiter = { s.arbiter with run := 0, burst := none } ∧
         t.counters.packsDiscarded = satAdd s.counters.packsDiscarded 1)) ∧
  (∀ (s : State) (d : PackIx), s.linkFree → s.part ≠ .config →
     let taken : State := { s with response := .busy, msdo := zeroBytes 8 }
     let command := Instr.discardPack (BitVec.ofNat 8 d.val) (s.pack d).serial
     let freed := fun left : State => (left.releasePack s.clock d).setPack d {}
     let idle := ¬ (0 < s.engine.unitsInFlight ∧ ∃ cur, s.engine.current = some cur ∧ cur.record = d)
     let finished := fun (u : State) (code : Nat) (c : Counters) =>
       Host.Outcome.next { State.drainWaitList s.clock { u with counters := c } with response := .ready .ok (le 1 code) }
     ((s.pack d).state = .opened → idle →
       let u := freed (taken.setPack d { s.pack d with state := .discarding, age := .absent })
       exec command s = finished u 1
         { u.counters with openPacksDiscarded := satAdd u.counters.openPacksDiscarded 1 }) ∧
     ((s.pack d).state = .ready → idle →
       let u := freed { taken with readyQueue := s.readyQueue.filter (fun x => decide (x ≠ d)) }
       exec command s = finished u 3 { u.counters with packsDiscarded := satAdd u.counters.packsDiscarded 1 }) ∧
     ((s.pack d).state = .failed → idle →
       let u := freed taken
       exec command s = finished u 5 { u.counters with packsDiscarded := satAdd u.counters.packsDiscarded 1 }) ∧
     ((s.pack d).state = .sealing → (∀ cur, s.engine.current = some cur → cur.record ≠ d) →
       let u := freed { taken with
         engine := { s.engine with queue := s.engine.queue.filter (fun x => decide (x ≠ d)) } }
       exec command s = finished u 2 { u.counters with packsDiscarded := satAdd u.counters.packsDiscarded 1 }) ∧
     (∀ cur, (s.pack d).state = .sealing → s.engine.current = some cur → cur.record = d → s.engine.unitsInFlight = 0 →
       ∃ e : Engine, DroppedIn s e d s.engine.discards ∧
         let u := freed { taken with engine := e, arbiter := { s.arbiter with run := 0, burst := none } }
         exec command s = finished u 2 { u.counters with packsDiscarded := satAdd u.counters.packsDiscarded 1 }) ∧
     (∀ cur, (s.pack d).state = .sealing → s.engine.current = some cur → cur.record = d → 0 < s.engine.unitsInFlight →
       ∃ e : Engine, DroppedIn s e d (s.engine.discards ++ [⟨d, s.engine.unitsInFlight⟩]) ∧
         let left : State := { taken with engine := e, arbiter := { s.arbiter with run := 0, burst := none } }
         let u := left.releasePack s.clock d
         exec command s = .next { u.setPack d { u.pack d with state := .discarding } with
           counters := { u.counters with packsDiscarded := satAdd u.counters.packsDiscarded 1 }
           response := .ready .ok (le 1 2) })) ∧
  (∀ (s : State) (d : PackIx), s.linkFree → s.part ≠ .config → (s.pack d).state = .failed →
     ∃ t, exec (.recommitPack (BitVec.ofNat 8 d.val) (s.pack d).serial) s = .next t ∧
       t.pack d = { s.pack d with state := .sealing } ∧ (∀ e : PackIx, e ≠ d → t.pack e = s.pack e) ∧
       t.engine.queue = s.engine.queue ++ [d] ∧
       (s.engine.state ≠ .idle ∨ s.part ≠ .run → t.engine = { s.engine with queue := s.engine.queue ++ [d] }) ∧
       (s.engine.state = .idle → s.part = .run → s.engine.queue = [] →
         t.engine = s.begun d { s.engine with queue := [d] }) ∧
       t = { s.answered 8 .ok (le 1 5) with packs := t.packs, engine := t.engine })

/-- LANE_RESTART (R37, R38): BAD_STATE in CONFIG, BAD_ARG above 15, NOT_FOUND for a lane not enabled, each changing nothing
else. Otherwise held writes are refused, the receiving member is broken (R36: its entry FREE and off the order list,
MEMBER_BROKEN with cause RESTART), the buffers are emptied, the cursor is rounded up to 64 and reported, and the parser is in
LEAD. A release pass over all lanes follows when a member was broken or the lane's tail has moved (R49, read as log entry 12
says). -/
def Obligations.LaneRestartAtLeadBoundary : Prop :=
  ∀ (s : State) (lane : Byte), s.linkFree →
    (s.part = .config → exec (.laneRestart lane) s = .next (State.refill (s.answered 4 .badState []))) ∧
    (s.part ≠ .config → 15 < lane.toNat →
      exec (.laneRestart lane) s = .next (State.refill (s.answered 4 .badArg []))) ∧
    (∀ k : LaneIx, s.part ≠ .config → k.val = lane.toNat →
      ((s.lane k).enabled = false →
        exec (.laneRestart lane) s = .next (State.refill (s.answered 4 .notFound []))) ∧
      ((s.lane k).enabled = true →
        let cursor := (((s.lane k).cursor + 63) / 64 * 64) % (s.lane k).size
        ∃ t : State, exec (.laneRestart lane) s = .next t.refill ∧ t.response = .ready .ok (le 4 cursor) ∧
          (t.lane k).cursor = cursor ∧ (t.lane k).parser = .lead ∧ (t.lane k).leadBuffer = [] ∧
          (t.lane k).candidate = [] ∧ (t.lane k).pendingLead = none ∧ (t.lane k).receiving = none ∧
          (t.lane k).remaining = 0 ∧ (t.lane k).hold = [] ∧ (t.lane k).holdDeadline = .absent ∧
          t.sent = s.sent ++ (s.lane k).hold.map (fun w => ⟨w.tag, .refused⟩) ∧
          (∀ m : MemberIx, (s.lane k).receiving = some m →
            (t.lane k).order = (s.lane k).order.filter (fun i => decide (i ≠ m)) ∧
            (t.lane k).counts.brokenMembers = satAdd (s.lane k).counts.brokenMembers 1) ∧
          ((s.lane k).receiving = none → (t.lane k).order = (s.lane k).order) ∧
          t.slots = s.slots ∧ t.readyQueue = s.readyQueue ∧ t.clock = s.clock ∧ s.sameRegions t) ∧
      ((s.lane k).enabled = true →
        let l := s.lane k
        let cursor := ((l.cursor + 63) / 64 * 64) % l.size
        let refused : State := { s with
          response := .busy, msdo := zeroBytes 4, sent := s.sent ++ l.hold.map (fun w => ⟨w.tag, .refused⟩) }
        let fresh := { l with
          cursor := cursor, parser := .lead, leadBuffer := [], candidate := [], pendingLead := none, remaining := 0,
          hold := [], holdDeadline := .absent }
        let finished := fun w : State =>
          Host.Outcome.next (State.refill { w with response := .ready .ok (le 4 cursor) })
        (l.receiving = none →
          let w := refused.setLane k fresh
          (w.tail k = s.tail k → exec (.laneRestart lane) s = finished w) ∧
          (w.tail k ≠ s.tail k → exec (.laneRestart lane) s = finished (w.releasePass s.clock))) ∧
        (∀ m : MemberIx, l.receiving = some m →
          let broken := { fresh with
            receiving := none, order := l.order.filter (fun i => decide (i ≠ m)),
            counts := { l.counts with brokenMembers := satAdd l.counts.brokenMembers 1 } }
          let w := ((refused.setMember m {}).setLane k broken).raise s.clock
            (.memberBroken k m (s.member m).leadOffset .restart (s.member m).received)
          (s.membersCanonical → w.member m = {}) ∧
          exec (.laneRestart lane) s = finished (w.releasePass s.clock))))

/-! ### Events -/

/-- R172: POP_EVENT on an empty queue is answered NOT_FOUND; otherwise the head leaves the queue, and the answer is OK with
the record and the number of records left. The overflow flag is not changed. The record is the 32 bytes of Table 11-7: the
kind code of Table 11-9, a zero, the time, and the kind's arguments from offset 8, with zeros in every byte not named. -/
def Obligations.PopEventTakesHead : Prop :=
  (∀ s : State, s.linkFree →
    (s.events = [] → exec .popEvent s = .next (s.answered 3 .notFound [])) ∧
    (∀ (e : EventRecord) (rest : List EventRecord), s.events = e :: rest →
      exec .popEvent s = .next { s.answered 3 .ok (e.bytes ++ le 1 rest.length) with events := rest })) ∧
  (∀ (time : Time) (body : EventBody),
    let b := EventRecord.bytes ⟨time, body⟩
    b.length = 32 ∧ field b 0 1 = body.kindCode ∧ field b 1 1 = 0 ∧ field b 2 6 = time.toNat) ∧
  (∀ (time : Time) (d : PackIx) (j : SlotIx) (k : LaneIx) (m : MemberIx) (serial : Word32) (tape : BitVec 128)
     (x y : Nat),
    let bytes := fun body : EventBody => EventRecord.bytes ⟨time, body⟩
    let rest := fun (body : EventBody) (o : Nat) => (bytes body).drop o = List.replicate (32 - o) 0
    (let e := EventBody.packReady d serial x; let b := bytes e
     e.kindCode = 1 ∧ field b 8 1 = d.val ∧ field b 9 3 = 0 ∧ field b 12 4 = serial.toNat ∧ field b 16 4 = x % 2 ^ 32 ∧
       rest e 20) ∧
    (let e := EventBody.slotBound j serial x; let b := bytes e
     e.kindCode = 2 ∧ field b 8 1 = j.val ∧ field b 9 3 = 0 ∧ field b 12 4 = serial.toNat ∧ field b 16 4 = x % 2 ^ 32 ∧
       rest e 20) ∧
    (let e := EventBody.packReleased serial tape; let b := bytes e
     e.kindCode = 3 ∧ field b 8 4 = serial.toNat ∧ field b 12 16 = tape.toNat ∧ rest e 28) ∧
    (∀ c : ReturnCause, let e := EventBody.packReturned j serial c; let b := bytes e
     e.kindCode = 4 ∧ field b 8 1 = j.val ∧ field b 9 1 = c.code ∧ field b 10 2 = 0 ∧ field b 12 4 = serial.toNat ∧
       rest e 16) ∧
    (let e := EventBody.commitFailed d serial x y; let b := bytes e
     e.kindCode = 5 ∧ field b 8 1 = d.val ∧ field b 9 1 = 0 ∧ field b 10 2 = y % 2 ^ 16 ∧ field b 12 4 = serial.toNat ∧
       field b 16 2 = x % 2 ^ 16 ∧ rest e 18) ∧
    (let e := EventBody.commitSuspended d serial x; let b := bytes e
     e.kindCode = 6 ∧ field b 8 1 = d.val ∧ field b 9 1 = 0 ∧ field b 10 2 = x % 2 ^ 16 ∧ field b 12 4 = serial.toNat ∧
       rest e 16) ∧
    (∀ r : LeadReason, let e := EventBody.leadFault k x r; let b := bytes e
     e.kindCode = 7 ∧ field b 8 1 = k.val ∧ field b 9 1 = r.code ∧ field b 10 2 = 0 ∧ field b 12 4 = x % 2 ^ 32 ∧
       rest e 16) ∧
    (let e := EventBody.resync k x; let b := bytes e
     e.kindCode = 8 ∧ field b 8 1 = k.val ∧ field b 9 3 = 0 ∧ field b 12 4 = x % 2 ^ 32 ∧ rest e 16) ∧
    (∀ c : BreakCause, let e := EventBody.memberBroken k m x c y; let b := bytes e
     e.kindCode = 9 ∧ field b 8 1 = k.val ∧ field b 9 1 = c.code ∧ field b 10 2 = m.val ∧ field b 12 4 = x % 2 ^ 32 ∧
       field b 16 4 = y % 2 ^ 32 ∧ rest e 20) ∧
    (let e := EventBody.holdExpired k x y; let b := bytes e
     e.kindCode = 10 ∧ field b 8 1 = k.val ∧ field b 9 1 = x % 2 ^ 8 ∧ field b 10 2 = 0 ∧ field b 12 4 = y % 2 ^ 32 ∧
       rest e 16) ∧
    (∀ r : DispositionReason, let e := EventBody.dispositionRefused j r; let b := bytes e
     e.kindCode = 11 ∧ field b 8 1 = j.val ∧ field b 9 1 = r.code ∧ rest e 10) ∧
    (∀ c : ClassIx, let e := EventBody.waiting m c; let b := bytes e
     e.kindCode = 12 ∧ field b 8 2 = m.val ∧ field b 10 1 = c.val ∧ rest e 11) ∧
    EventBody.clockEnd.kindCode = 13 ∧ rest .clockEnd 8) ∧
  [LeadReason.mark, .check, .kind, .cls, .length, .sealLength].map LeadReason.code = [1, 2, 3, 4, 5, 6] ∧
  [DispositionReason.notBound, .format, .serial, .pending].map DispositionReason.code = [1, 2, 3, 4] ∧
  [ReturnCause.returned, .idle].map ReturnCause.code = [1, 2] ∧
  [BreakCause.restart, .holdExpired].map BreakCause.code = [1, 2]

/-- R171: a raised event joins the tail of the event queue with its time; into a queue of 32 it is lost, the overflow
flag is set, and the events-lost counter increases and saturates. SET_ATTENTION_MASK (R173): the mask is replaced by the
thirteen flags that name a kind, and the stored mask is reported; ATTN is asserted exactly while a queued record's kind
is not masked. -/
def Obligations.EventsAreQueuedAndAttentionFollows : Prop :=
  (∀ (s : State) (t : Time) (e : EventBody),
     (s.events.length < 32 → s.raise t e = { s with events := s.events ++ [⟨t, e⟩] }) ∧
     (32 ≤ s.events.length → ∃ c : Counters, s.raise t e = { s with overflow := true, counters := c } ∧
       c = { s.counters with eventsLost := c.eventsLost } ∧
       c.eventsLost.toNat = min (s.counters.eventsLost.toNat + 1) (2 ^ 32 - 1))) ∧
  ((∀ (s : State) (mask : BitVec 16), s.linkFree →
     ∃ stored : BitVec 13, (∀ i : Nat, i < 13 → stored.getLsbD i = mask.getLsbD i) ∧
       exec (.setAttentionMask mask) s =
         .next { s.answered 5 .ok (le 2 stored.toNat) with attentionMask := stored }) ∧
   (∀ s : State, s.attn = true ↔ ∃ e ∈ s.events, s.attentionMask.getLsbD (e.body.kindCode - 1) = false))

/-! ### What every step keeps -/

/-- Every step keeps the bounds of the tables: at most 32 events (R171), at most 4 writes on a lane's hold queue (R42), and
the canonical form of the Member Table (log entry 13). -/
def Obligations.StepKeepsTableBounds : Prop :=
  ∀ s t : State, step s = .next t →
    (s.eventsBounded → t.eventsBounded) ∧ (s.holdsBounded → t.holdsBounded) ∧
    (s.membersCanonical → t.membersCanonical)

/-- Every step keeps the law of R153: every pending deadline is greater than the pack clock, given limits of at least 1 ms
(R152), which it keeps as well. Every step keeps every due deadline equal to the pack clock (R156, R159): a tick has what is
due taken first (log entry 11). -/
def Obligations.StepKeepsDeadlinesAhead : Prop :=
  ∀ s t : State, step s = .next t →
    (s.limitsPositive → s.deadlinesAhead → t.limitsPositive ∧ t.deadlinesAhead) ∧ (s.duesNow → t.duesNow)

/-- Every step keeps: outside ISSUING the run count is 0 and no burst is in progress (R118, R15); the engine has a current
pack exactly while a commit is in progress (R117, R121); and the response is BUSY exactly while a RESTART waits (R162,
R168). -/
def Obligations.StepKeepsEngineLaws : Prop :=
  ∀ s t : State, step s = .next t → s.arbiterQuiet → s.engineCurrent → s.busyIsRestart →
    t.arbiterQuiet ∧ t.engineCurrent ∧ t.busyIsRestart

/-- Every step keeps every setting in its range (R7, R76, R92, R165) and the region table sound: every region aligned to its
size and no two defined regions sharing an address (R7). -/
def Obligations.StepKeepsSettingsAndRegions : Prop :=
  ∀ s t : State, step s = .next t → s.settingsInRange → s.regionsSound → t.settingsInRange ∧ t.regionsSound

/-- The state after power-on meets every law that the steps keep. -/
def Obligations.ResetStateMeetsLaws : Prop :=
  let s := State.reset
  s.eventsBounded ∧ s.holdsBounded ∧ s.membersCanonical ∧ s.limitsPositive ∧ s.deadlinesAhead ∧ s.duesNow ∧ s.arbiterQuiet ∧
  s.engineCurrent ∧ s.busyIsRestart ∧ s.settingsInRange ∧ s.regionsSound

/-- No step lowers a counter of the part or of a lane but POWER_ON and the two events of RESETB (R174). -/
def Obligations.OnlyResetsLowerCounters : Prop :=
  ∀ (s t : State) (c : Instr), exec c s = .next t → c ≠ .powerOn → c ≠ .resetbAssertion → c ≠ .resetbRelease →
    s.countersKept t

/-- The region table changes only by SET_LANE, SET_WINDOWS, POWER_ON and RESETB (R6). A COMMAND_FRAME_DISCARD is taken here
as its row has it, a period that ends in a discard; any other select period is what its bytes spell (log entry 6). -/
def Obligations.OnlyRegionWritesChangeRegions : Prop :=
  ∀ (s t : State) (c : Instr), exec c s = .next t → c.wellFormed = true →
    (∀ l e x b, c ≠ .setLane l e x b) → (∀ v m d, c ≠ .setWindows v m d) →
    c ≠ .powerOn → c ≠ .resetbAssertion → c ≠ .resetbRelease →
    (∀ bytes x, c = .commandFrameDiscard bytes x →
      frameMalformed bytes x.extraBits.val = true ∨ x.begunBusy = true ∨ s.response = .busy) →
    s.sameRegions t
end

