-- ==== Sys2Proof/Laws/State.lean ====
section
/-!
SUPPORT. One lemma per field per update of the state, true by unfolding, and the laws of reading back a table entry.
-/

namespace Sys2Proof.Machine

@[simp] theorem State.setMember_pending (s : State) (m : MemberIx) (r : Member) : (s.setMember m r).pending = s.pending := rfl
@[simp] theorem State.setMember_resetLow (s : State) (m : MemberIx) (r : Member) : (s.setMember m r).resetLow = s.resetLow := rfl
@[simp] theorem State.setMember_quiesceLine (s : State) (m : MemberIx) (r : Member) : (s.setMember m r).quiesceLine = s.quiesceLine := rfl
@[simp] theorem State.setMember_part (s : State) (m : MemberIx) (r : Member) : (s.setMember m r).part = s.part := rfl
@[simp] theorem State.setMember_response (s : State) (m : MemberIx) (r : Member) : (s.setMember m r).response = s.response := rfl
@[simp] theorem State.setMember_msdo (s : State) (m : MemberIx) (r : Member) : (s.setMember m r).msdo = s.msdo := rfl
@[simp] theorem State.setMember_events (s : State) (m : MemberIx) (r : Member) : (s.setMember m r).events = s.events := rfl
@[simp] theorem State.setMember_overflow (s : State) (m : MemberIx) (r : Member) : (s.setMember m r).overflow = s.overflow := rfl
@[simp] theorem State.setMember_attentionMask (s : State) (m : MemberIx) (r : Member) : (s.setMember m r).attentionMask = s.attentionMask := rfl
@[simp] theorem State.setMember_formerId (s : State) (m : MemberIx) (r : Member) : (s.setMember m r).formerId = s.formerId := rfl
@[simp] theorem State.setMember_holdLimit (s : State) (m : MemberIx) (r : Member) : (s.setMember m r).holdLimit = s.holdLimit := rfl
@[simp] theorem State.setMember_idleLimit (s : State) (m : MemberIx) (r : Member) : (s.setMember m r).idleLimit = s.idleLimit := rfl
@[simp] theorem State.setMember_tapeBlock (s : State) (m : MemberIx) (r : Member) : (s.setMember m r).tapeBlock = s.tapeBlock := rfl
@[simp] theorem State.setMember_serialNext (s : State) (m : MemberIx) (r : Member) : (s.setMember m r).serialNext = s.serialNext := rfl
@[simp] theorem State.setMember_classes (s : State) (m : MemberIx) (r : Member) : (s.setMember m r).classes = s.classes := rfl
@[simp] theorem State.setMember_window (s : State) (m : MemberIx) (r : Member) : (s.setMember m r).window = s.window := rfl
@[simp] theorem State.setMember_directory (s : State) (m : MemberIx) (r : Member) : (s.setMember m r).directory = s.directory := rfl
@[simp] theorem State.setMember_lanes (s : State) (m : MemberIx) (r : Member) : (s.setMember m r).lanes = s.lanes := rfl
@[simp] theorem State.setMember_lastServed (s : State) (m : MemberIx) (r : Member) : (s.setMember m r).lastServed = s.lastServed := rfl
@[simp] theorem State.setMember_packs (s : State) (m : MemberIx) (r : Member) : (s.setMember m r).packs = s.packs := rfl
@[simp] theorem State.setMember_waitList (s : State) (m : MemberIx) (r : Member) : (s.setMember m r).waitList = s.waitList := rfl
@[simp] theorem State.setMember_readyQueue (s : State) (m : MemberIx) (r : Member) : (s.setMember m r).readyQueue = s.readyQueue := rfl
@[simp] theorem State.setMember_slots (s : State) (m : MemberIx) (r : Member) : (s.setMember m r).slots = s.slots := rfl
@[simp] theorem State.setMember_engine (s : State) (m : MemberIx) (r : Member) : (s.setMember m r).engine = s.engine := rfl
@[simp] theorem State.setMember_arbiter (s : State) (m : MemberIx) (r : Member) : (s.setMember m r).arbiter = s.arbiter := rfl
@[simp] theorem State.setMember_forwarding (s : State) (m : MemberIx) (r : Member) : (s.setMember m r).forwarding = s.forwarding := rfl
@[simp] theorem State.setMember_inFlight (s : State) (m : MemberIx) (r : Member) : (s.setMember m r).inFlight = s.inFlight := rfl
@[simp] theorem State.setMember_viewReads (s : State) (m : MemberIx) (r : Member) : (s.setMember m r).viewReads = s.viewReads := rfl
@[simp] theorem State.setMember_bus (s : State) (m : MemberIx) (r : Member) : (s.setMember m r).bus = s.bus := rfl
@[simp] theorem State.setMember_sent (s : State) (m : MemberIx) (r : Member) : (s.setMember m r).sent = s.sent := rfl
@[simp] theorem State.setMember_clock (s : State) (m : MemberIx) (r : Member) : (s.setMember m r).clock = s.clock := rfl
@[simp] theorem State.setMember_prescaler (s : State) (m : MemberIx) (r : Member) : (s.setMember m r).prescaler = s.prescaler := rfl
@[simp] theorem State.setMember_counters (s : State) (m : MemberIx) (r : Member) : (s.setMember m r).counters = s.counters := rfl

@[simp] theorem State.setLane_pending (s : State) (k : LaneIx) (l : Lane) : (s.setLane k l).pending = s.pending := rfl
@[simp] theorem State.setLane_resetLow (s : State) (k : LaneIx) (l : Lane) : (s.setLane k l).resetLow = s.resetLow := rfl
@[simp] theorem State.setLane_quiesceLine (s : State) (k : LaneIx) (l : Lane) : (s.setLane k l).quiesceLine = s.quiesceLine := rfl
@[simp] theorem State.setLane_part (s : State) (k : LaneIx) (l : Lane) : (s.setLane k l).part = s.part := rfl
@[simp] theorem State.setLane_response (s : State) (k : LaneIx) (l : Lane) : (s.setLane k l).response = s.response := rfl
@[simp] theorem State.setLane_msdo (s : State) (k : LaneIx) (l : Lane) : (s.setLane k l).msdo = s.msdo := rfl
@[simp] theorem State.setLane_events (s : State) (k : LaneIx) (l : Lane) : (s.setLane k l).events = s.events := rfl
@[simp] theorem State.setLane_overflow (s : State) (k : LaneIx) (l : Lane) : (s.setLane k l).overflow = s.overflow := rfl
@[simp] theorem State.setLane_attentionMask (s : State) (k : LaneIx) (l : Lane) : (s.setLane k l).attentionMask = s.attentionMask := rfl
@[simp] theorem State.setLane_formerId (s : State) (k : LaneIx) (l : Lane) : (s.setLane k l).formerId = s.formerId := rfl
@[simp] theorem State.setLane_holdLimit (s : State) (k : LaneIx) (l : Lane) : (s.setLane k l).holdLimit = s.holdLimit := rfl
@[simp] theorem State.setLane_idleLimit (s : State) (k : LaneIx) (l : Lane) : (s.setLane k l).idleLimit = s.idleLimit := rfl
@[simp] theorem State.setLane_tapeBlock (s : State) (k : LaneIx) (l : Lane) : (s.setLane k l).tapeBlock = s.tapeBlock := rfl
@[simp] theorem State.setLane_serialNext (s : State) (k : LaneIx) (l : Lane) : (s.setLane k l).serialNext = s.serialNext := rfl
@[simp] theorem State.setLane_classes (s : State) (k : LaneIx) (l : Lane) : (s.setLane k l).classes = s.classes := rfl
@[simp] theorem State.setLane_window (s : State) (k : LaneIx) (l : Lane) : (s.setLane k l).window = s.window := rfl
@[simp] theorem State.setLane_directory (s : State) (k : LaneIx) (l : Lane) : (s.setLane k l).directory = s.directory := rfl
@[simp] theorem State.setLane_lastServed (s : State) (k : LaneIx) (l : Lane) : (s.setLane k l).lastServed = s.lastServed := rfl
@[simp] theorem State.setLane_members (s : State) (k : LaneIx) (l : Lane) : (s.setLane k l).members = s.members := rfl
@[simp] theorem State.setLane_packs (s : State) (k : LaneIx) (l : Lane) : (s.setLane k l).packs = s.packs := rfl
@[simp] theorem State.setLane_waitList (s : State) (k : LaneIx) (l : Lane) : (s.setLane k l).waitList = s.waitList := rfl
@[simp] theorem State.setLane_readyQueue (s : State) (k : LaneIx) (l : Lane) : (s.setLane k l).readyQueue = s.readyQueue := rfl
@[simp] theorem State.setLane_slots (s : State) (k : LaneIx) (l : Lane) : (s.setLane k l).slots = s.slots := rfl
@[simp] theorem State.setLane_engine (s : State) (k : LaneIx) (l : Lane) : (s.setLane k l).engine = s.engine := rfl
@[simp] theorem State.setLane_arbiter (s : State) (k : LaneIx) (l : Lane) : (s.setLane k l).arbiter = s.arbiter := rfl
@[simp] theorem State.setLane_forwarding (s : State) (k : LaneIx) (l : Lane) : (s.setLane k l).forwarding = s.forwarding := rfl
@[simp] theorem State.setLane_inFlight (s : State) (k : LaneIx) (l : Lane) : (s.setLane k l).inFlight = s.inFlight := rfl
@[simp] theorem State.setLane_viewReads (s : State) (k : LaneIx) (l : Lane) : (s.setLane k l).viewReads = s.viewReads := rfl
@[simp] theorem State.setLane_bus (s : State) (k : LaneIx) (l : Lane) : (s.setLane k l).bus = s.bus := rfl
@[simp] theorem State.setLane_sent (s : State) (k : LaneIx) (l : Lane) : (s.setLane k l).sent = s.sent := rfl
@[simp] theorem State.setLane_clock (s : State) (k : LaneIx) (l : Lane) : (s.setLane k l).clock = s.clock := rfl
@[simp] theorem State.setLane_prescaler (s : State) (k : LaneIx) (l : Lane) : (s.setLane k l).prescaler = s.prescaler := rfl
@[simp] theorem State.setLane_counters (s : State) (k : LaneIx) (l : Lane) : (s.setLane k l).counters = s.counters := rfl

@[simp] theorem State.setPack_pending (s : State) (d : PackIx) (p : Pack) : (s.setPack d p).pending = s.pending := rfl
@[simp] theorem State.setPack_resetLow (s : State) (d : PackIx) (p : Pack) : (s.setPack d p).resetLow = s.resetLow := rfl
@[simp] theorem State.setPack_quiesceLine (s : State) (d : PackIx) (p : Pack) : (s.setPack d p).quiesceLine = s.quiesceLine := rfl
@[simp] theorem State.setPack_part (s : State) (d : PackIx) (p : Pack) : (s.setPack d p).part = s.part := rfl
@[simp] theorem State.setPack_response (s : State) (d : PackIx) (p : Pack) : (s.setPack d p).response = s.response := rfl
@[simp] theorem State.setPack_msdo (s : State) (d : PackIx) (p : Pack) : (s.setPack d p).msdo = s.msdo := rfl
@[simp] theorem State.setPack_events (s : State) (d : PackIx) (p : Pack) : (s.setPack d p).events = s.events := rfl
@[simp] theorem State.setPack_overflow (s : State) (d : PackIx) (p : Pack) : (s.setPack d p).overflow = s.overflow := rfl
@[simp] theorem State.setPack_attentionMask (s : State) (d : PackIx) (p : Pack) : (s.setPack d p).attentionMask = s.attentionMask := rfl
@[simp] theorem State.setPack_formerId (s : State) (d : PackIx) (p : Pack) : (s.setPack d p).formerId = s.formerId := rfl
@[simp] theorem State.setPack_holdLimit (s : State) (d : PackIx) (p : Pack) : (s.setPack d p).holdLimit = s.holdLimit := rfl
@[simp] theorem State.setPack_idleLimit (s : State) (d : PackIx) (p : Pack) : (s.setPack d p).idleLimit = s.idleLimit := rfl
@[simp] theorem State.setPack_tapeBlock (s : State) (d : PackIx) (p : Pack) : (s.setPack d p).tapeBlock = s.tapeBlock := rfl
@[simp] theorem State.setPack_serialNext (s : State) (d : PackIx) (p : Pack) : (s.setPack d p).serialNext = s.serialNext := rfl
@[simp] theorem State.setPack_classes (s : State) (d : PackIx) (p : Pack) : (s.setPack d p).classes = s.classes := rfl
@[simp] theorem State.setPack_window (s : State) (d : PackIx) (p : Pack) : (s.setPack d p).window = s.window := rfl
@[simp] theorem State.setPack_directory (s : State) (d : PackIx) (p : Pack) : (s.setPack d p).directory = s.directory := rfl
@[simp] theorem State.setPack_lanes (s : State) (d : PackIx) (p : Pack) : (s.setPack d p).lanes = s.lanes := rfl
@[simp] theorem State.setPack_lastServed (s : State) (d : PackIx) (p : Pack) : (s.setPack d p).lastServed = s.lastServed := rfl
@[simp] theorem State.setPack_members (s : State) (d : PackIx) (p : Pack) : (s.setPack d p).members = s.members := rfl
@[simp] theorem State.setPack_waitList (s : State) (d : PackIx) (p : Pack) : (s.setPack d p).waitList = s.waitList := rfl
@[simp] theorem State.setPack_readyQueue (s : State) (d : PackIx) (p : Pack) : (s.setPack d p).readyQueue = s.readyQueue := rfl
@[simp] theorem State.setPack_slots (s : State) (d : PackIx) (p : Pack) : (s.setPack d p).slots = s.slots := rfl
@[simp] theorem State.setPack_engine (s : State) (d : PackIx) (p : Pack) : (s.setPack d p).engine = s.engine := rfl
@[simp] theorem State.setPack_arbiter (s : State) (d : PackIx) (p : Pack) : (s.setPack d p).arbiter = s.arbiter := rfl
@[simp] theorem State.setPack_forwarding (s : State) (d : PackIx) (p : Pack) : (s.setPack d p).forwarding = s.forwarding := rfl
@[simp] theorem State.setPack_inFlight (s : State) (d : PackIx) (p : Pack) : (s.setPack d p).inFlight = s.inFlight := rfl
@[simp] theorem State.setPack_viewReads (s : State) (d : PackIx) (p : Pack) : (s.setPack d p).viewReads = s.viewReads := rfl
@[simp] theorem State.setPack_bus (s : State) (d : PackIx) (p : Pack) : (s.setPack d p).bus = s.bus := rfl
@[simp] theorem State.setPack_sent (s : State) (d : PackIx) (p : Pack) : (s.setPack d p).sent = s.sent := rfl
@[simp] theorem State.setPack_clock (s : State) (d : PackIx) (p : Pack) : (s.setPack d p).clock = s.clock := rfl
@[simp] theorem State.setPack_prescaler (s : State) (d : PackIx) (p : Pack) : (s.setPack d p).prescaler = s.prescaler := rfl
@[simp] theorem State.setPack_counters (s : State) (d : PackIx) (p : Pack) : (s.setPack d p).counters = s.counters := rfl

@[simp] theorem State.setSlot_pending (s : State) (j : SlotIx) (v : Slot) : (s.setSlot j v).pending = s.pending := rfl
@[simp] theorem State.setSlot_resetLow (s : State) (j : SlotIx) (v : Slot) : (s.setSlot j v).resetLow = s.resetLow := rfl
@[simp] theorem State.setSlot_quiesceLine (s : State) (j : SlotIx) (v : Slot) : (s.setSlot j v).quiesceLine = s.quiesceLine := rfl
@[simp] theorem State.setSlot_part (s : State) (j : SlotIx) (v : Slot) : (s.setSlot j v).part = s.part := rfl
@[simp] theorem State.setSlot_response (s : State) (j : SlotIx) (v : Slot) : (s.setSlot j v).response = s.response := rfl
@[simp] theorem State.setSlot_msdo (s : State) (j : SlotIx) (v : Slot) : (s.setSlot j v).msdo = s.msdo := rfl
@[simp] theorem State.setSlot_events (s : State) (j : SlotIx) (v : Slot) : (s.setSlot j v).events = s.events := rfl
@[simp] theorem State.setSlot_overflow (s : State) (j : SlotIx) (v : Slot) : (s.setSlot j v).overflow = s.overflow := rfl
@[simp] theorem State.setSlot_attentionMask (s : State) (j : SlotIx) (v : Slot) : (s.setSlot j v).attentionMask = s.attentionMask := rfl
@[simp] theorem State.setSlot_formerId (s : State) (j : SlotIx) (v : Slot) : (s.setSlot j v).formerId = s.formerId := rfl
@[simp] theorem State.setSlot_holdLimit (s : State) (j : SlotIx) (v : Slot) : (s.setSlot j v).holdLimit = s.holdLimit := rfl
@[simp] theorem State.setSlot_idleLimit (s : State) (j : SlotIx) (v : Slot) : (s.setSlot j v).idleLimit = s.idleLimit := rfl
@[simp] theorem State.setSlot_tapeBlock (s : State) (j : SlotIx) (v : Slot) : (s.setSlot j v).tapeBlock = s.tapeBlock := rfl
@[simp] theorem State.setSlot_serialNext (s : State) (j : SlotIx) (v : Slot) : (s.setSlot j v).serialNext = s.serialNext := rfl
@[simp] theorem State.setSlot_classes (s : State) (j : SlotIx) (v : Slot) : (s.setSlot j v).classes = s.classes := rfl
@[simp] theorem State.setSlot_window (s : State) (j : SlotIx) (v : Slot) : (s.setSlot j v).window = s.window := rfl
@[simp] theorem State.setSlot_directory (s : State) (j : SlotIx) (v : Slot) : (s.setSlot j v).directory = s.directory := rfl
@[simp] theorem State.setSlot_lanes (s : State) (j : SlotIx) (v : Slot) : (s.setSlot j v).lanes = s.lanes := rfl
@[simp] theorem State.setSlot_lastServed (s : State) (j : SlotIx) (v : Slot) : (s.setSlot j v).lastServed = s.lastServed := rfl
@[simp] theorem State.setSlot_members (s : State) (j : SlotIx) (v : Slot) : (s.setSlot j v).members = s.members := rfl
@[simp] theorem State.setSlot_packs (s : State) (j : SlotIx) (v : Slot) : (s.setSlot j v).packs = s.packs := rfl
@[simp] theorem State.setSlot_waitList (s : State) (j : SlotIx) (v : Slot) : (s.setSlot j v).waitList = s.waitList := rfl
@[simp] theorem State.setSlot_readyQueue (s : State) (j : SlotIx) (v : Slot) : (s.setSlot j v).readyQueue = s.readyQueue := rfl
@[simp] theorem State.setSlot_engine (s : State) (j : SlotIx) (v : Slot) : (s.setSlot j v).engine = s.engine := rfl
@[simp] theorem State.setSlot_arbiter (s : State) (j : SlotIx) (v : Slot) : (s.setSlot j v).arbiter = s.arbiter := rfl
@[simp] theorem State.setSlot_forwarding (s : State) (j : SlotIx) (v : Slot) : (s.setSlot j v).forwarding = s.forwarding := rfl
@[simp] theorem State.setSlot_inFlight (s : State) (j : SlotIx) (v : Slot) : (s.setSlot j v).inFlight = s.inFlight := rfl
@[simp] theorem State.setSlot_viewReads (s : State) (j : SlotIx) (v : Slot) : (s.setSlot j v).viewReads = s.viewReads := rfl
@[simp] theorem State.setSlot_bus (s : State) (j : SlotIx) (v : Slot) : (s.setSlot j v).bus = s.bus := rfl
@[simp] theorem State.setSlot_sent (s : State) (j : SlotIx) (v : Slot) : (s.setSlot j v).sent = s.sent := rfl
@[simp] theorem State.setSlot_clock (s : State) (j : SlotIx) (v : Slot) : (s.setSlot j v).clock = s.clock := rfl
@[simp] theorem State.setSlot_prescaler (s : State) (j : SlotIx) (v : Slot) : (s.setSlot j v).prescaler = s.prescaler := rfl
@[simp] theorem State.setSlot_counters (s : State) (j : SlotIx) (v : Slot) : (s.setSlot j v).counters = s.counters := rfl

@[simp] theorem State.count_pending (s : State) (f : Counters → Counters) : (s.count f).pending = s.pending := rfl
@[simp] theorem State.count_resetLow (s : State) (f : Counters → Counters) : (s.count f).resetLow = s.resetLow := rfl
@[simp] theorem State.count_quiesceLine (s : State) (f : Counters → Counters) : (s.count f).quiesceLine = s.quiesceLine := rfl
@[simp] theorem State.count_part (s : State) (f : Counters → Counters) : (s.count f).part = s.part := rfl
@[simp] theorem State.count_response (s : State) (f : Counters → Counters) : (s.count f).response = s.response := rfl
@[simp] theorem State.count_msdo (s : State) (f : Counters → Counters) : (s.count f).msdo = s.msdo := rfl
@[simp] theorem State.count_events (s : State) (f : Counters → Counters) : (s.count f).events = s.events := rfl
@[simp] theorem State.count_overflow (s : State) (f : Counters → Counters) : (s.count f).overflow = s.overflow := rfl
@[simp] theorem State.count_attentionMask (s : State) (f : Counters → Counters) : (s.count f).attentionMask = s.attentionMask := rfl
@[simp] theorem State.count_formerId (s : State) (f : Counters → Counters) : (s.count f).formerId = s.formerId := rfl
@[simp] theorem State.count_holdLimit (s : State) (f : Counters → Counters) : (s.count f).holdLimit = s.holdLimit := rfl
@[simp] theorem State.count_idleLimit (s : State) (f : Counters → Counters) : (s.count f).idleLimit = s.idleLimit := rfl
@[simp] theorem State.count_tapeBlock (s : State) (f : Counters → Counters) : (s.count f).tapeBlock = s.tapeBlock := rfl
@[simp] theorem State.count_serialNext (s : State) (f : Counters → Counters) : (s.count f).serialNext = s.serialNext := rfl
@[simp] theorem State.count_classes (s : State) (f : Counters → Counters) : (s.count f).classes = s.classes := rfl
@[simp] theorem State.count_window (s : State) (f : Counters → Counters) : (s.count f).window = s.window := rfl
@[simp] theorem State.count_directory (s : State) (f : Counters → Counters) : (s.count f).directory = s.directory := rfl
@[simp] theorem State.count_lanes (s : State) (f : Counters → Counters) : (s.count f).lanes = s.lanes := rfl
@[simp] theorem State.count_lastServed (s : State) (f : Counters → Counters) : (s.count f).lastServed = s.lastServed := rfl
@[simp] theorem State.count_members (s : State) (f : Counters → Counters) : (s.count f).members = s.members := rfl
@[simp] theorem State.count_packs (s : State) (f : Counters → Counters) : (s.count f).packs = s.packs := rfl
@[simp] theorem State.count_waitList (s : State) (f : Counters → Counters) : (s.count f).waitList = s.waitList := rfl
@[simp] theorem State.count_readyQueue (s : State) (f : Counters → Counters) : (s.count f).readyQueue = s.readyQueue := rfl
@[simp] theorem State.count_slots (s : State) (f : Counters → Counters) : (s.count f).slots = s.slots := rfl
@[simp] theorem State.count_engine (s : State) (f : Counters → Counters) : (s.count f).engine = s.engine := rfl
@[simp] theorem State.count_arbiter (s : State) (f : Counters → Counters) : (s.count f).arbiter = s.arbiter := rfl
@[simp] theorem State.count_forwarding (s : State) (f : Counters → Counters) : (s.count f).forwarding = s.forwarding := rfl
@[simp] theorem State.count_inFlight (s : State) (f : Counters → Counters) : (s.count f).inFlight = s.inFlight := rfl
@[simp] theorem State.count_viewReads (s : State) (f : Counters → Counters) : (s.count f).viewReads = s.viewReads := rfl
@[simp] theorem State.count_bus (s : State) (f : Counters → Counters) : (s.count f).bus = s.bus := rfl
@[simp] theorem State.count_sent (s : State) (f : Counters → Counters) : (s.count f).sent = s.sent := rfl
@[simp] theorem State.count_clock (s : State) (f : Counters → Counters) : (s.count f).clock = s.clock := rfl
@[simp] theorem State.count_prescaler (s : State) (f : Counters → Counters) : (s.count f).prescaler = s.prescaler := rfl

@[simp] theorem State.send_pending (s : State) (g : Nat) (b : UpBody) : (s.send g b).pending = s.pending := rfl
@[simp] theorem State.send_resetLow (s : State) (g : Nat) (b : UpBody) : (s.send g b).resetLow = s.resetLow := rfl
@[simp] theorem State.send_quiesceLine (s : State) (g : Nat) (b : UpBody) : (s.send g b).quiesceLine = s.quiesceLine := rfl
@[simp] theorem State.send_part (s : State) (g : Nat) (b : UpBody) : (s.send g b).part = s.part := rfl
@[simp] theorem State.send_response (s : State) (g : Nat) (b : UpBody) : (s.send g b).response = s.response := rfl
@[simp] theorem State.send_msdo (s : State) (g : Nat) (b : UpBody) : (s.send g b).msdo = s.msdo := rfl
@[simp] theorem State.send_events (s : State) (g : Nat) (b : UpBody) : (s.send g b).events = s.events := rfl
@[simp] theorem State.send_overflow (s : State) (g : Nat) (b : UpBody) : (s.send g b).overflow = s.overflow := rfl
@[simp] theorem State.send_attentionMask (s : State) (g : Nat) (b : UpBody) : (s.send g b).attentionMask = s.attentionMask := rfl
@[simp] theorem State.send_formerId (s : State) (g : Nat) (b : UpBody) : (s.send g b).formerId = s.formerId := rfl
@[simp] theorem State.send_holdLimit (s : State) (g : Nat) (b : UpBody) : (s.send g b).holdLimit = s.holdLimit := rfl
@[simp] theorem State.send_idleLimit (s : State) (g : Nat) (b : UpBody) : (s.send g b).idleLimit = s.idleLimit := rfl
@[simp] theorem State.send_tapeBlock (s : State) (g : Nat) (b : UpBody) : (s.send g b).tapeBlock = s.tapeBlock := rfl
@[simp] theorem State.send_serialNext (s : State) (g : Nat) (b : UpBody) : (s.send g b).serialNext = s.serialNext := rfl
@[simp] theorem State.send_classes (s : State) (g : Nat) (b : UpBody) : (s.send g b).classes = s.classes := rfl
@[simp] theorem State.send_window (s : State) (g : Nat) (b : UpBody) : (s.send g b).window = s.window := rfl
@[simp] theorem State.send_directory (s : State) (g : Nat) (b : UpBody) : (s.send g b).directory = s.directory := rfl
@[simp] theorem State.send_lanes (s : State) (g : Nat) (b : UpBody) : (s.send g b).lanes = s.lanes := rfl
@[simp] theorem State.send_lastServed (s : State) (g : Nat) (b : UpBody) : (s.send g b).lastServed = s.lastServed := rfl
@[simp] theorem State.send_members (s : State) (g : Nat) (b : UpBody) : (s.send g b).members = s.members := rfl
@[simp] theorem State.send_packs (s : State) (g : Nat) (b : UpBody) : (s.send g b).packs = s.packs := rfl
@[simp] theorem State.send_waitList (s : State) (g : Nat) (b : UpBody) : (s.send g b).waitList = s.waitList := rfl
@[simp] theorem State.send_readyQueue (s : State) (g : Nat) (b : UpBody) : (s.send g b).readyQueue = s.readyQueue := rfl
@[simp] theorem State.send_slots (s : State) (g : Nat) (b : UpBody) : (s.send g b).slots = s.slots := rfl
@[simp] theorem State.send_engine (s : State) (g : Nat) (b : UpBody) : (s.send g b).engine = s.engine := rfl
@[simp] theorem State.send_arbiter (s : State) (g : Nat) (b : UpBody) : (s.send g b).arbiter = s.arbiter := rfl
@[simp] theorem State.send_forwarding (s : State) (g : Nat) (b : UpBody) : (s.send g b).forwarding = s.forwarding := rfl
@[simp] theorem State.send_inFlight (s : State) (g : Nat) (b : UpBody) : (s.send g b).inFlight = s.inFlight := rfl
@[simp] theorem State.send_viewReads (s : State) (g : Nat) (b : UpBody) : (s.send g b).viewReads = s.viewReads := rfl
@[simp] theorem State.send_bus (s : State) (g : Nat) (b : UpBody) : (s.send g b).bus = s.bus := rfl
@[simp] theorem State.send_clock (s : State) (g : Nat) (b : UpBody) : (s.send g b).clock = s.clock := rfl
@[simp] theorem State.send_prescaler (s : State) (g : Nat) (b : UpBody) : (s.send g b).prescaler = s.prescaler := rfl
@[simp] theorem State.send_counters (s : State) (g : Nat) (b : UpBody) : (s.send g b).counters = s.counters := rfl

@[simp] theorem State.withdraw_pending (s : State) : (s.withdraw).pending = s.pending := rfl
@[simp] theorem State.withdraw_resetLow (s : State) : (s.withdraw).resetLow = s.resetLow := rfl
@[simp] theorem State.withdraw_quiesceLine (s : State) : (s.withdraw).quiesceLine = s.quiesceLine := rfl
@[simp] theorem State.withdraw_part (s : State) : (s.withdraw).part = s.part := rfl
@[simp] theorem State.withdraw_response (s : State) : (s.withdraw).response = s.response := rfl
@[simp] theorem State.withdraw_msdo (s : State) : (s.withdraw).msdo = s.msdo := rfl
@[simp] theorem State.withdraw_events (s : State) : (s.withdraw).events = s.events := rfl
@[simp] theorem State.withdraw_overflow (s : State) : (s.withdraw).overflow = s.overflow := rfl
@[simp] theorem State.withdraw_attentionMask (s : State) : (s.withdraw).attentionMask = s.attentionMask := rfl
@[simp] theorem State.withdraw_formerId (s : State) : (s.withdraw).formerId = s.formerId := rfl
@[simp] theorem State.withdraw_holdLimit (s : State) : (s.withdraw).holdLimit = s.holdLimit := rfl
@[simp] theorem State.withdraw_idleLimit (s : State) : (s.withdraw).idleLimit = s.idleLimit := rfl
@[simp] theorem State.withdraw_tapeBlock (s : State) : (s.withdraw).tapeBlock = s.tapeBlock := rfl
@[simp] theorem State.withdraw_serialNext (s : State) : (s.withdraw).serialNext = s.serialNext := rfl
@[simp] theorem State.withdraw_classes (s : State) : (s.withdraw).classes = s.classes := rfl
@[simp] theorem State.withdraw_window (s : State) : (s.withdraw).window = s.window := rfl
@[simp] theorem State.withdraw_directory (s : State) : (s.withdraw).directory = s.directory := rfl
@[simp] theorem State.withdraw_lanes (s : State) : (s.withdraw).lanes = s.lanes := rfl
@[simp] theorem State.withdraw_lastServed (s : State) : (s.withdraw).lastServed = s.lastServed := rfl
@[simp] theorem State.withdraw_members (s : State) : (s.withdraw).members = s.members := rfl
@[simp] theorem State.withdraw_packs (s : State) : (s.withdraw).packs = s.packs := rfl
@[simp] theorem State.withdraw_waitList (s : State) : (s.withdraw).waitList = s.waitList := rfl
@[simp] theorem State.withdraw_readyQueue (s : State) : (s.withdraw).readyQueue = s.readyQueue := rfl
@[simp] theorem State.withdraw_slots (s : State) : (s.withdraw).slots = s.slots := rfl
@[simp] theorem State.withdraw_engine (s : State) : (s.withdraw).engine = s.engine := rfl
@[simp] theorem State.withdraw_forwarding (s : State) : (s.withdraw).forwarding = s.forwarding := rfl
@[simp] theorem State.withdraw_inFlight (s : State) : (s.withdraw).inFlight = s.inFlight := rfl
@[simp] theorem State.withdraw_viewReads (s : State) : (s.withdraw).viewReads = s.viewReads := rfl
@[simp] theorem State.withdraw_bus (s : State) : (s.withdraw).bus = s.bus := rfl
@[simp] theorem State.withdraw_sent (s : State) : (s.withdraw).sent = s.sent := rfl
@[simp] theorem State.withdraw_clock (s : State) : (s.withdraw).clock = s.clock := rfl
@[simp] theorem State.withdraw_prescaler (s : State) : (s.withdraw).prescaler = s.prescaler := rfl
@[simp] theorem State.withdraw_counters (s : State) : (s.withdraw).counters = s.counters := rfl

@[simp] theorem State.raise_pending (s : State) (t : Time) (e : EventBody) : (s.raise t e).pending = s.pending := by
  unfold State.raise; split <;> rfl
@[simp] theorem State.raise_resetLow (s : State) (t : Time) (e : EventBody) : (s.raise t e).resetLow = s.resetLow := by
  unfold State.raise; split <;> rfl
@[simp] theorem State.raise_quiesceLine (s : State) (t : Time) (e : EventBody) : (s.raise t e).quiesceLine = s.quiesceLine := by
  unfold State.raise; split <;> rfl
@[simp] theorem State.raise_part (s : State) (t : Time) (e : EventBody) : (s.raise t e).part = s.part := by
  unfold State.raise; split <;> rfl
@[simp] theorem State.raise_response (s : State) (t : Time) (e : EventBody) : (s.raise t e).response = s.response := by
  unfold State.raise; split <;> rfl
@[simp] theorem State.raise_msdo (s : State) (t : Time) (e : EventBody) : (s.raise t e).msdo = s.msdo := by
  unfold State.raise; split <;> rfl
@[simp] theorem State.raise_attentionMask (s : State) (t : Time) (e : EventBody) : (s.raise t e).attentionMask = s.attentionMask := by
  unfold State.raise; split <;> rfl
@[simp] theorem State.raise_formerId (s : State) (t : Time) (e : EventBody) : (s.raise t e).formerId = s.formerId := by
  unfold State.raise; split <;> rfl
@[simp] theorem State.raise_holdLimit (s : State) (t : Time) (e : EventBody) : (s.raise t e).holdLimit = s.holdLimit := by
  unfold State.raise; split <;> rfl
@[simp] theorem State.raise_idleLimit (s : State) (t : Time) (e : EventBody) : (s.raise t e).idleLimit = s.idleLimit := by
  unfold State.raise; split <;> rfl
@[simp] theorem State.raise_tapeBlock (s : State) (t : Time) (e : EventBody) : (s.raise t e).tapeBlock = s.tapeBlock := by
  unfold State.raise; split <;> rfl
@[simp] theorem State.raise_serialNext (s : State) (t : Time) (e : EventBody) : (s.raise t e).serialNext = s.serialNext := by
  unfold State.raise; split <;> rfl
@[simp] theorem State.raise_classes (s : State) (t : Time) (e : EventBody) : (s.raise t e).classes = s.classes := by
  unfold State.raise; split <;> rfl
@[simp] theorem State.raise_window (s : State) (t : Time) (e : EventBody) : (s.raise t e).window = s.window := by
  unfold State.raise; split <;> rfl
@[simp] theorem State.raise_directory (s : State) (t : Time) (e : EventBody) : (s.raise t e).directory = s.directory := by
  unfold State.raise; split <;> rfl
@[simp] theorem State.raise_lanes (s : State) (t : Time) (e : EventBody) : (s.raise t e).lanes = s.lanes := by
  unfold State.raise; split <;> rfl
@[simp] theorem State.raise_lastServed (s : State) (t : Time) (e : EventBody) : (s.raise t e).lastServed = s.lastServed := by
  unfold State.raise; split <;> rfl
@[simp] theorem State.raise_members (s : State) (t : Time) (e : EventBody) : (s.raise t e).members = s.members := by
  unfold State.raise; split <;> rfl
@[simp] theorem State.raise_packs (s : State) (t : Time) (e : EventBody) : (s.raise t e).packs = s.packs := by
  unfold State.raise; split <;> rfl
@[simp] theorem State.raise_waitList (s : State) (t : Time) (e : EventBody) : (s.raise t e).waitList = s.waitList := by
  unfold State.raise; split <;> rfl
@[simp] theorem State.raise_readyQueue (s : State) (t : Time) (e : EventBody) : (s.raise t e).readyQueue = s.readyQueue := by
  unfold State.raise; split <;> rfl
@[simp] theorem State.raise_slots (s : State) (t : Time) (e : EventBody) : (s.raise t e).slots = s.slots := by
  unfold State.raise; split <;> rfl
@[simp] theorem State.raise_engine (s : State) (t : Time) (e : EventBody) : (s.raise t e).engine = s.engine := by
  unfold State.raise; split <;> rfl
@[simp] theorem State.raise_arbiter (s : State) (t : Time) (e : EventBody) : (s.raise t e).arbiter = s.arbiter := by
  unfold State.raise; split <;> rfl
@[simp] theorem State.raise_forwarding (s : State) (t : Time) (e : EventBody) : (s.raise t e).forwarding = s.forwarding := by
  unfold State.raise; split <;> rfl
@[simp] theorem State.raise_inFlight (s : State) (t : Time) (e : EventBody) : (s.raise t e).inFlight = s.inFlight := by
  unfold State.raise; split <;> rfl
@[simp] theorem State.raise_viewReads (s : State) (t : Time) (e : EventBody) : (s.raise t e).viewReads = s.viewReads := by
  unfold State.raise; split <;> rfl
@[simp] theorem State.raise_bus (s : State) (t : Time) (e : EventBody) : (s.raise t e).bus = s.bus := by
  unfold State.raise; split <;> rfl
@[simp] theorem State.raise_sent (s : State) (t : Time) (e : EventBody) : (s.raise t e).sent = s.sent := by
  unfold State.raise; split <;> rfl
@[simp] theorem State.raise_clock (s : State) (t : Time) (e : EventBody) : (s.raise t e).clock = s.clock := by
  unfold State.raise; split <;> rfl
@[simp] theorem State.raise_prescaler (s : State) (t : Time) (e : EventBody) : (s.raise t e).prescaler = s.prescaler := by
  unfold State.raise; split <;> rfl

/-! ### Tables -/

@[simp] theorem State.lane_setLane_same (s : State) (k : LaneIx) (l : Lane) : (s.setLane k l).lane k = l := by
  simp [State.lane, State.setLane]

theorem State.lane_setLane_other (s : State) {j k : LaneIx} (l : Lane) (h : j ≠ k) : (s.setLane k l).lane j = s.lane j := by
  have : (k : Nat) ≠ j := fun e => h (Fin.ext e.symm)
  simp [State.lane, State.setLane, this]

theorem State.lane_setLane (s : State) (j k : LaneIx) (l : Lane) :
    (s.setLane k l).lane j = if j = k then l else s.lane j := by
  split
  · subst_vars; simp
  · exact s.lane_setLane_other l ‹_›

@[simp] theorem State.pack_setPack_same (s : State) (d : PackIx) (p : Pack) : (s.setPack d p).pack d = p := by
  simp [State.pack, State.setPack]

theorem State.pack_setPack_other (s : State) {c d : PackIx} (p : Pack) (h : c ≠ d) : (s.setPack d p).pack c = s.pack c := by
  have : (d : Nat) ≠ c := fun e => h (Fin.ext e.symm)
  simp [State.pack, State.setPack, this]

theorem State.pack_setPack (s : State) (c d : PackIx) (p : Pack) :
    (s.setPack d p).pack c = if c = d then p else s.pack c := by
  split
  · subst_vars; simp
  · exact s.pack_setPack_other p ‹_›

@[simp] theorem State.slot_setSlot_same (s : State) (j : SlotIx) (v : Slot) : (s.setSlot j v).slot j = v := by
  simp [State.slot, State.setSlot]

theorem State.slot_setSlot_other (s : State) {i j : SlotIx} (v : Slot) (h : i ≠ j) : (s.setSlot j v).slot i = s.slot i := by
  have : (j : Nat) ≠ i := fun e => h (Fin.ext e.symm)
  simp [State.slot, State.setSlot, this]

theorem State.slot_setSlot (s : State) (i j : SlotIx) (v : Slot) :
    (s.setSlot j v).slot i = if i = j then v else s.slot i := by
  split
  · subst_vars; simp
  · exact s.slot_setSlot_other v ‹_›

@[simp] theorem State.count_counters (s : State) (f : Counters → Counters) : (s.count f).counters = f s.counters := rfl

@[simp] theorem State.send_sent (s : State) (g : Nat) (b : UpBody) : (s.send g b).sent = s.sent ++ [⟨g, b⟩] := rfl

@[simp] theorem State.withdraw_arbiter (s : State) :
    s.withdraw.arbiter = { s.arbiter with run := 0, burst := none } := rfl

@[simp] theorem State.setMember_members (s : State) (m : MemberIx) (r : Member) :
    (s.setMember m r).members = s.members.put m r := rfl

end Sys2Proof.Machine
end

