-- ==== Sys2Proof/Laws/Members.lean ====
section
/-!
SUPPORT. The Member Table: reading back what was put, and the canonical form (log entry 13).
-/

namespace Sys2Proof.Machine

theorem MemberTable.wf_cons (i : MemberIx) (m : Member) (t : MemberTable) :
    MemberTable.wf ((i, m) :: t) = true ↔ m ≠ {} ∧ (∀ x ∈ t, i < x.1) ∧ MemberTable.wf t = true := by
  induction t generalizing i m with
  | nil => simp [MemberTable.wf]
  | cons x t ih =>
    obtain ⟨j, y⟩ := x
    simp only [MemberTable.wf, Bool.and_eq_true, decide_eq_true_eq, ih, List.mem_cons, forall_eq_or_imp]
    constructor
    · rintro ⟨⟨hm, hij⟩, hy, hj, ht⟩
      exact ⟨hm, ⟨hij, fun z hz => lt_trans hij (hj z hz)⟩, hy, hj, ht⟩
    · rintro ⟨hm, ⟨hij, -⟩, hy, hj, ht⟩
      exact ⟨⟨hm, hij⟩, hy, hj, ht⟩

theorem MemberTable.mem_put {t : MemberTable} {i : MemberIx} {m : Member} {x : MemberIx × Member}
    (h : x ∈ t.put i m) : x = (i, m) ∨ x ∈ t := by
  induction t with
  | nil => simp only [MemberTable.put] at h; split at h <;> simp_all
  | cons y t ih =>
    obtain ⟨j, y⟩ := y
    simp only [MemberTable.put] at h
    split at h
    · split at h <;> simp_all
    · split at h
      · split at h
        · exact .inr (List.mem_cons_of_mem _ h)
        · rcases List.mem_cons.1 h with h | h
          · exact .inl h
          · exact .inr (List.mem_cons_of_mem _ h)
      · rcases List.mem_cons.1 h with h | h
        · exact .inr (h ▸ List.mem_cons_self)
        · rcases ih h with h | h
          · exact .inl h
          · exact .inr (List.mem_cons_of_mem _ h)

/-- Every put keeps the canonical form. -/
theorem MemberTable.wf_put {t : MemberTable} (h : t.wf = true) (i : MemberIx) (m : Member) : (t.put i m).wf = true := by
  induction t with
  | nil => simp only [MemberTable.put]; split <;> simp_all [MemberTable.wf]
  | cons y t ih =>
    obtain ⟨j, y⟩ := y
    obtain ⟨hy, hj, ht⟩ := (MemberTable.wf_cons j y t).1 h
    simp only [MemberTable.put]
    split
    · rename_i hij
      split
      · exact h
      · rename_i hm
        refine (MemberTable.wf_cons _ _ _).2 ⟨hm, ?_, h⟩
        simp only [List.mem_cons, forall_eq_or_imp]
        exact ⟨hij, fun z hz => lt_trans hij (hj z hz)⟩
    · rename_i hij
      split
      · rename_i e
        subst e
        split
        · exact ht
        · rename_i hm
          exact (MemberTable.wf_cons _ _ _).2 ⟨hm, hj, ht⟩
      · rename_i hne
        refine (MemberTable.wf_cons _ _ _).2 ⟨hy, fun z hz => ?_, ih ht⟩
        rcases MemberTable.mem_put hz with rfl | hz
        · exact lt_of_le_of_ne (not_lt.1 hij) (Ne.symm hne)
        · exact hj z hz

theorem MemberTable.get_of_below {t : MemberTable} {i : MemberIx} (h : ∀ x ∈ t, i < x.1) : t.get i = {} := by
  induction t with
  | nil => rfl
  | cons y t ih =>
    obtain ⟨j, y⟩ := y
    have hj : i < j := h (j, y) List.mem_cons_self
    simp only [MemberTable.get, if_neg (ne_of_gt hj)]
    exact ih fun x hx => h x (List.mem_cons_of_mem _ hx)

/-- Reading a record of a canonical table after a put: the record put, or the record that stood there. -/
theorem MemberTable.get_put {t : MemberTable} (h : t.wf = true) (i j : MemberIx) (m : Member) :
    (t.put i m).get j = if j = i then m else t.get j := by
  induction t with
  | nil =>
    simp only [MemberTable.put]
    split
    · rename_i hm; subst hm; simp [MemberTable.get]
    · by_cases e : j = i
      · simp [MemberTable.get, e]
      · simp only [MemberTable.get, if_neg e, if_neg (fun q => e q.symm : ¬ i = j)]
  | cons y t ih =>
    obtain ⟨k, y⟩ := y
    obtain ⟨hy, hk, ht⟩ := (MemberTable.wf_cons k y t).1 h
    simp only [MemberTable.put]
    split
    · rename_i hik
      have hbelow : MemberTable.get ((k, y) :: t) i = {} := MemberTable.get_of_below (by
        simp only [List.mem_cons, forall_eq_or_imp]
        exact ⟨hik, fun z hz => lt_trans hik (hk z hz)⟩)
      split
      · rename_i hm
        by_cases e : j = i
        · rw [if_pos e, e, hbelow, hm]
        · rw [if_neg e]
      · by_cases e : j = i
        · subst e; simp [MemberTable.get]
        · rw [if_neg e]
          conv_lhs => rw [MemberTable.get, if_neg (fun q => e q.symm)]
    · rename_i hik
      split
      · rename_i e
        subst e
        split
        · rename_i hm
          by_cases e : j = i
          · rw [if_pos e, hm, e]; exact MemberTable.get_of_below hk
          · rw [if_neg e, MemberTable.get, if_neg (fun q => e q.symm)]
        · by_cases e : j = i
          · subst e; simp [MemberTable.get]
          · rw [if_neg e]; simp only [MemberTable.get, if_neg (fun q => e q.symm : ¬ i = j)]
      · rename_i hne
        simp only [MemberTable.get]
        by_cases e : k = j
        · rw [if_pos e, if_pos e, if_neg (fun q => hne (q.symm.trans e.symm))]
        · rw [if_neg e, if_neg e, ih ht]

/-! ### Counts -/

/-- One index more of a list without repetition counts once. -/
theorem countP_with {α : Type} [DecidableEq α] (q : α → Bool) (j : α) (hq : q j = false) (L : List α) (hL : L.Nodup)
    (hj : j ∈ L) : L.countP (fun m => decide (m = j) || q m) = L.countP q + 1 := by
  induction L with
  | nil => simp at hj
  | cons x L ih =>
    obtain ⟨hx, hL⟩ := List.nodup_cons.1 hL
    by_cases e : x = j
    · subst e
      have : L.countP (fun m => decide (m = x) || q m) = L.countP q := List.countP_congr fun m hm => by
        have : m ≠ x := fun h => hx (h ▸ hm)
        simp [this]
      simp [this, hq]
    · have hj : j ∈ L := by simpa [Ne.symm e] using hj
      simp [List.countP_cons, ih hL hj, e]
      omega

/-- A canonical table lists each record other than a FREE one once, so a count over its entries is a count over all records. -/
theorem MemberTable.countP_get {t : MemberTable} (h : t.wf = true) (p : Member → Bool) (p0 : p {} = false) :
    (List.finRange 4096).countP (fun m => p (MemberTable.get t m)) = List.countP (fun x => p x.2) t := by
  induction t with
  | nil =>
    rw [List.countP_nil]
    exact List.countP_eq_zero.2 fun m _ => by rw [MemberTable.get, p0]; exact Bool.false_ne_true
  | cons y t ih =>
    obtain ⟨j, y⟩ := y
    obtain ⟨hy, hj, ht⟩ := (MemberTable.wf_cons j y t).1 h
    have h0 : MemberTable.get t j = {} := MemberTable.get_of_below hj
    rw [List.countP_cons, ← ih ht]
    dsimp only
    by_cases py : p y = true
    · rw [if_pos py, ← countP_with (fun m => p (MemberTable.get t m)) j (by rw [h0, p0]) _ (List.nodup_finRange _)
        (List.mem_finRange j)]
      refine List.countP_congr fun m _ => ?_
      rw [MemberTable.get]
      by_cases q : j = m
      · simp [q, py]
      · simp [q, Ne.symm q]
    · rw [if_neg py, Nat.add_zero]
      refine List.countP_congr fun m _ => ?_
      rw [MemberTable.get]
      by_cases q : j = m
      · subst q; rw [if_pos rfl, h0, p0]; simpa using py
      · rw [if_neg q]

/-- No listed record of a canonical table is FREE. -/
theorem MemberTable.listed_ne {t : MemberTable} (h : t.wf = true) : ∀ x ∈ t, x.2 ≠ {} := by
  induction t with
  | nil => simp
  | cons y t ih =>
    obtain ⟨j, y⟩ := y
    obtain ⟨hy, hj, ht⟩ := (MemberTable.wf_cons j y t).1 h
    simp only [List.mem_cons, forall_eq_or_imp]
    exact ⟨hy, ih ht⟩

/-- The FREE count is the number of FREE records (R67). -/
theorem MemberTable.freeCount_eq {t : MemberTable} (h : t.wf = true) :
    MemberTable.freeCount t = (List.finRange 4096).countP (fun m => decide (MemberTable.get t m = {})) := by
  have h1 := MemberTable.countP_get h (fun m => decide (m ≠ {})) (by simp)
  have h2 : List.countP (fun x : MemberIx × Member => decide (x.2 ≠ {})) t = t.length :=
    List.countP_eq_length.2 fun x hx => decide_eq_true (MemberTable.listed_ne h x hx)
  have h3 := List.length_eq_countP_add_countP (fun m => decide (MemberTable.get t m = {})) (l := List.finRange 4096)
  have h4 : (List.finRange 4096).countP (fun m => decide ¬ (decide (MemberTable.get t m = {})) = true) =
      (List.finRange 4096).countP (fun m => decide (MemberTable.get t m ≠ {})) := List.countP_congr fun m _ => by simp
  rw [List.length_finRange, h4, h1, h2] at h3
  unfold MemberTable.freeCount
  omega

end Sys2Proof.Machine
end

