-- ==== Sys2Proof/Laws/Keeps.lean ====
section
/-!
SUPPORT. `Keeps s s'`: everything that no operation inside an event changes, and the predicates of Safety.lean that it keeps.
One lemma per operation says so; later proofs cite it and never unfold the operation.
-/

namespace Sys2Proof.Machine

/-! ### Counters and deadlines -/

theorem satAdd_toNat (c : Word32) (n : Nat) : (satAdd c n).toNat = min (c.toNat + n) (2 ^ 32 - 1) := by
  simp only [satAdd, BitVec.toNat_ofNat]; omega

theorem le_satAdd (c : Word32) (n : Nat) : c.toNat ≤ (satAdd c n).toNat := by
  have := c.isLt; rw [satAdd_toNat]; omega

theorem Counters.Le.refl (c : Counters) : c.Le c := List.forall₂_same.2 fun _ _ => le_rfl

theorem LaneCounters.Le.refl (c : LaneCounters) : c.Le c := List.forall₂_same.2 fun _ _ => le_rfl

theorem forall₂_le_trans {l m n : List Word32} (h : List.Forall₂ (fun a b : Word32 => a.toNat ≤ b.toNat) l m)
    (g : List.Forall₂ (fun a b : Word32 => a.toNat ≤ b.toNat) m n) :
    List.Forall₂ (fun a b : Word32 => a.toNat ≤ b.toNat) l n := by
  induction h generalizing n with
  | nil => exact g
  | cons h _ ih => cases g with | cons g gs => exact .cons (h.trans g) (ih gs)

/-- A change of the part-wide counters that lowers none. -/
def Raises (f : Counters → Counters) : Prop := ∀ c : Counters, c.Le (f c)

theorem raises_range : Raises Counters.bumpRange := fun c => by simp [Counters.Le, Counters.all, Counters.bumpRange, le_satAdd]
theorem raises_straddle : Raises Counters.bumpStraddle := fun c => by
  simp [Counters.Le, Counters.all, Counters.bumpStraddle, le_satAdd]
theorem raises_placement : Raises Counters.bumpPlacement := fun c => by
  simp [Counters.Le, Counters.all, Counters.bumpPlacement, le_satAdd]
theorem raises_memoryFault : Raises Counters.bumpMemoryFault := fun c => by
  simp [Counters.Le, Counters.all, Counters.bumpMemoryFault, le_satAdd]
theorem raises_sealed (cause : SealCause) : Raises (Counters.bumpSealed cause) := fun c => by
  cases cause <;> simp [Counters.Le, Counters.all, Counters.bumpSealed, le_satAdd]
theorem raises_released : Raises Counters.bumpReleased := fun c => by
  simp [Counters.Le, Counters.all, Counters.bumpReleased, le_satAdd]
theorem raises_returned : Raises Counters.bumpReturned := fun c => by
  simp [Counters.Le, Counters.all, Counters.bumpReturned, le_satAdd]
theorem raises_discarded (wasOpen : Bool) : Raises (Counters.bumpDiscarded wasOpen) := fun c => by
  cases wasOpen <;> simp [Counters.Le, Counters.all, Counters.bumpDiscarded, le_satAdd]
theorem raises_committed : Raises Counters.bumpCommitted := fun c => by
  simp [Counters.Le, Counters.all, Counters.bumpCommitted, le_satAdd]
theorem raises_commitFailed : Raises Counters.bumpCommitFailed := fun c => by
  simp [Counters.Le, Counters.all, Counters.bumpCommitFailed, le_satAdd]
theorem raises_unitFault : Raises Counters.bumpUnitFault := fun c => by
  simp [Counters.Le, Counters.all, Counters.bumpUnitFault, le_satAdd]
theorem raises_served : Raises Counters.bumpServed := fun c => by
  simp [Counters.Le, Counters.all, Counters.bumpServed, le_satAdd]
theorem raises_readRefused : Raises Counters.bumpReadRefused := fun c => by
  simp [Counters.Le, Counters.all, Counters.bumpReadRefused, le_satAdd]
theorem raises_readFault : Raises Counters.bumpReadFault := fun c => by
  simp [Counters.Le, Counters.all, Counters.bumpReadFault, le_satAdd]
theorem raises_dispositionRefused : Raises Counters.bumpDispositionRefused := fun c => by
  simp [Counters.Le, Counters.all, Counters.bumpDispositionRefused, le_satAdd]
theorem raises_idleReturn : Raises Counters.bumpIdleReturn := fun c => by
  simp [Counters.Le, Counters.all, Counters.bumpIdleReturn, le_satAdd]
theorem raises_frameDiscarded : Raises Counters.bumpFrameDiscarded := fun c => by
  simp [Counters.Le, Counters.all, Counters.bumpFrameDiscarded, le_satAdd]
theorem raises_eventLost : Raises Counters.bumpEventLost := fun c => by
  simp [Counters.Le, Counters.all, Counters.bumpEventLost, le_satAdd]

/-- R152: an armed deadline lies ahead of the clock or is dormant. -/
theorem Deadline.ahead_arm (now : Time) {limit : Nat} (h : 1 ≤ limit) : (Deadline.arm now limit).ahead now := by
  unfold Deadline.arm
  split
  · trivial
  · rename_i hm
    have hne : now.toNat ≠ 2 ^ 48 - 1 := fun e => hm (BitVec.eq_of_toNat_eq (by rw [e]; rfl))
    have := now.isLt
    show now.toNat < (clampTime (now.toNat + limit)).toNat
    simp only [clampTime, BitVec.toNat_ofNat]; omega

/-- What a deadline cell may become within an event: still ahead of the clock if it is pending, and due only if it was. -/
structure Deadline.Follows (s : State) (d d' : Deadline) : Prop where
  ahead : s.limitsPositive → d.ahead s.clock → d'.ahead s.clock
  due : ∀ v, d' = .due v → d = .due v

theorem Deadline.Follows.same (s : State) (d : Deadline) : d.Follows s d := ⟨fun _ => id, fun _ => id⟩

theorem Deadline.Follows.absent (s : State) (d : Deadline) : d.Follows s .absent := ⟨fun _ _ => trivial, fun _ h => nomatch h⟩

/-- An arming makes no deadline due (R152). -/
theorem Deadline.Follows.arm {s : State} (d : Deadline) {limit : Nat} (h : s.limitsPositive → 1 ≤ limit) :
    d.Follows s (Deadline.arm s.clock limit) :=
  ⟨fun l _ => Deadline.ahead_arm _ (h l), fun v e => by unfold Deadline.arm at e; split at e <;> cases e⟩

/-- Every deadline that is due after was due before, with the same value. -/
structure State.noNewDue (s s' : State) : Prop where
  ages : ∀ (d : PackIx) (v : Time), (s'.pack d).age = .due v → (s.pack d).age = .due v
  holds : ∀ (k : LaneIx) (v : Time), (s'.lane k).holdDeadline = .due v → (s.lane k).holdDeadline = .due v
  idles : ∀ (j : SlotIx) (v : Time), (s'.slot j).idle = .due v → (s.slot j).idle = .due v

theorem State.noNewDue.refl (s : State) : s.noNewDue s := ⟨fun _ _ => id, fun _ _ => id, fun _ _ => id⟩

theorem State.noNewDue.trans {s t u : State} (h : s.noNewDue t) (g : t.noNewDue u) : s.noNewDue u :=
  ⟨fun d v e => h.ages d v (g.ages d v e), fun k v e => h.holds k v (g.holds k v e), fun j v e => h.idles j v (g.idles j v e)⟩

/-! ### The relation -/

/-- What every operation inside an event keeps. -/
structure Keeps (s s' : State) : Prop where
  pending : s'.pending = s.pending
  resetLow : s'.resetLow = s.resetLow
  quiesceLine : s'.quiesceLine = s.quiesceLine
  part : s'.part = s.part
  response : s'.response = s.response
  msdo : s'.msdo = s.msdo
  attentionMask : s'.attentionMask = s.attentionMask
  formerId : s'.formerId = s.formerId
  holdLimit : s'.holdLimit = s.holdLimit
  idleLimit : s'.idleLimit = s.idleLimit
  tapeBlock : s'.tapeBlock = s.tapeBlock
  classes : s'.classes = s.classes
  clock : s'.clock = s.clock
  prescaler : s'.prescaler = s.prescaler
  share : s'.arbiter.share = s.arbiter.share
  mode : s'.arbiter.mode = s.arbiter.mode
  regions : s.sameRegions s'
  stopping : s'.engine.state = .stopping ↔ s.engine.state = .stopping
  quiet : s.arbiterQuiet → s'.arbiterQuiet
  events : s.eventsBounded → s'.eventsBounded
  holds : s.holdsBounded → s'.holdsBounded
  members : s.membersCanonical → s'.membersCanonical
  deadlines : s.limitsPositive → s.deadlinesAhead → s'.deadlinesAhead
  dues : s.noNewDue s'
  counters : s.countersKept s'

theorem State.sameRegions.refl (s : State) : s.sameRegions s := ⟨rfl, rfl, fun _ => rfl, fun _ => rfl, fun _ => rfl⟩

theorem State.sameRegions.trans {s t u : State} (h : s.sameRegions t) (g : t.sameRegions u) : s.sameRegions u :=
  ⟨g.window.trans h.window, g.directory.trans h.directory, fun k => (g.enabled k).trans (h.enabled k),
    fun k => (g.base k).trans (h.base k), fun k => (g.exponent k).trans (h.exponent k)⟩

theorem State.countersKept.refl (s : State) : s.countersKept s := ⟨.refl _, fun _ => .refl _⟩

theorem State.countersKept.trans {s t u : State} (h : s.countersKept t) (g : t.countersKept u) : s.countersKept u :=
  ⟨forall₂_le_trans h.part g.part, fun k => forall₂_le_trans (h.lanes k) (g.lanes k)⟩

theorem Keeps.refl (s : State) : Keeps s s :=
  ⟨rfl, rfl, rfl, rfl, rfl, rfl, rfl, rfl, rfl, rfl, rfl, rfl, rfl, rfl, rfl, rfl, .refl s, .rfl, id, id, id, id,
    fun _ h => h, .refl s, .refl s⟩

theorem Keeps.limits {s t : State} (h : Keeps s t) (l : s.limitsPositive) : t.limitsPositive :=
  ⟨h.holdLimit ▸ l.hold, h.idleLimit ▸ l.idle, fun c => by
    have := l.age c; simp only [State.cls, h.classes] at this ⊢; exact this⟩

theorem Keeps.trans {s t u : State} (h : Keeps s t) (g : Keeps t u) : Keeps s u :=
  ⟨g.pending.trans h.pending, g.resetLow.trans h.resetLow, g.quiesceLine.trans h.quiesceLine, g.part.trans h.part,
    g.response.trans h.response, g.msdo.trans h.msdo, g.attentionMask.trans h.attentionMask,
    g.formerId.trans h.formerId, g.holdLimit.trans h.holdLimit, g.idleLimit.trans h.idleLimit,
    g.tapeBlock.trans h.tapeBlock, g.classes.trans h.classes, g.clock.trans h.clock, g.prescaler.trans h.prescaler,
    g.share.trans h.share, g.mode.trans h.mode, h.regions.trans g.regions, g.stopping.trans h.stopping,
    g.quiet ∘ h.quiet, g.events ∘ h.events, g.holds ∘ h.holds, g.members ∘ h.members,
    fun l d => g.deadlines (h.limits l) (h.deadlines l d), h.dues.trans g.dues, h.counters.trans g.counters⟩

/-- `trans` with the second operation first, so that chains read from the outside in. -/
theorem Keeps.then {s t u : State} (g : Keeps t u) (h : Keeps s t) : Keeps s u := h.trans g

theorem State.sameRegions.of_eq {s s' : State} (hw : s'.window = s.window) (hd : s'.directory = s.directory)
    (hl : s'.lanes = s.lanes) : s.sameRegions s' :=
  ⟨hw, hd, fun k => by simp only [State.lane, hl], fun k => by simp only [State.lane, hl],
    fun k => by simp only [State.lane, hl]⟩

/-- A change of the fields that `Keeps` says nothing about. -/
theorem Keeps.free (s : State) (o : Bool) (n : Word32) (l : LaneIx) (w : List MemberIx) (q : List PackIx)
    (f i : List MemReq) (v : List ViewRead) (b : List Request) (r : List UpResponse) :
    Keeps s { s with overflow := o, serialNext := n, lastServed := l, waitList := w, readyQueue := q, forwarding := f,
                     inFlight := i, viewReads := v, bus := b, sent := r } :=
  { Keeps.refl s with
    regions := .of_eq rfl rfl rfl, stopping := .rfl, quiet := id, events := id, holds := id, members := id
    counters := ⟨.refl _, fun _ => .refl _⟩
    deadlines := fun _ d => ⟨d.ages, d.holds, d.idles⟩, dues := ⟨fun _ _ => id, fun _ _ => id, fun _ _ => id⟩ }

/-! ### The record operations -/

theorem keeps_count {f : Counters → Counters} (hf : Raises f) (s : State) : Keeps s (s.count f) :=
  { Keeps.refl s with
    counters := ⟨hf _, fun _ => .refl _⟩
    regions := .of_eq rfl rfl rfl, stopping := .rfl, quiet := id, events := id, holds := id, members := id
    deadlines := fun _ d => ⟨d.ages, d.holds, d.idles⟩, dues := ⟨fun _ _ => id, fun _ _ => id, fun _ _ => id⟩ }

theorem keeps_send (g : Nat) (b : UpBody) (s : State) : Keeps s (s.send g b) := Keeps.free s _ _ _ _ _ _ _ _ _ _

theorem keeps_raise (t : Time) (e : EventBody) (s : State) : Keeps s (s.raise t e) := by
  unfold State.raise
  split
  · rename_i h
    exact { Keeps.refl s with
      events := fun _ => by simpa [State.eventsBounded] using h
      counters := ⟨.refl _, fun _ => .refl _⟩, regions := .of_eq rfl rfl rfl, stopping := .rfl, quiet := id, holds := id, members := id
      deadlines := fun _ d => ⟨d.ages, d.holds, d.idles⟩, dues := ⟨fun _ _ => id, fun _ _ => id, fun _ _ => id⟩ }
  · exact (keeps_count raises_eventLost s).trans (Keeps.free _ _ _ _ _ _ _ _ _ _ _)

theorem keeps_setMember (m : MemberIx) (r : Member) (s : State) : Keeps s (s.setMember m r) :=
  { Keeps.refl s with
    members := fun h => MemberTable.wf_put h m r
    counters := ⟨.refl _, fun _ => .refl _⟩, regions := .of_eq rfl rfl rfl, stopping := .rfl, quiet := id, events := id, holds := id
    deadlines := fun _ d => ⟨d.ages, d.holds, d.idles⟩, dues := ⟨fun _ _ => id, fun _ _ => id, fun _ _ => id⟩ }

/-- What a change of one lane may not touch. -/
structure LaneKeeps (s : State) (l l' : Lane) : Prop where
  enabled : l'.enabled = l.enabled
  base : l'.base = l.base
  exponent : l'.exponent = l.exponent
  hold : s.holdsBounded → l.hold.length ≤ Config.holdPlaces → l'.hold.length ≤ Config.holdPlaces
  deadline : l.holdDeadline.Follows s l'.holdDeadline
  counts : l.counts.Le l'.counts

theorem keeps_setLane (k : LaneIx) (l : Lane) (s : State) (h : LaneKeeps s (s.lane k) l) : Keeps s (s.setLane k l) := by
  have hl := fun j => s.lane_setLane j k l
  exact { Keeps.refl s with
    regions := ⟨rfl, rfl, fun j => by rw [hl]; split <;> simp_all [h.enabled],
      fun j => by rw [hl]; split <;> simp_all [h.base], fun j => by rw [hl]; split <;> simp_all [h.exponent]⟩
    stopping := .rfl, quiet := id, events := id, members := id
    holds := fun g j => by
      rw [hl]; split
      · exact h.hold g (g k)
      · exact g j
    deadlines := fun p d => ⟨d.ages, fun j => by
      rw [hl]; split
      · exact h.deadline.ahead p (d.holds k)
      · exact d.holds j, d.idles⟩
    dues := ⟨fun _ _ => id, fun j v => by
      rw [hl]; split
      · subst_vars; exact h.deadline.due v
      · exact id, fun _ _ => id⟩
    counters := ⟨.refl _, fun j => by
      rw [hl]; split
      · subst_vars; exact h.counts
      · exact .refl _⟩ }

theorem keeps_setPack (d : PackIx) (p : Pack) (s : State)
    (h : (s.pack d).age.Follows s p.age) : Keeps s (s.setPack d p) :=
  { Keeps.refl s with
    regions := .of_eq rfl rfl rfl, stopping := .rfl, quiet := id, events := id, members := id, holds := id
    counters := ⟨.refl _, fun _ => .refl _⟩
    deadlines := fun l a => ⟨fun c => by
      rw [s.pack_setPack]; split
      · exact h.ahead l (a.ages d)
      · exact a.ages c, a.holds, a.idles⟩
    dues := ⟨fun c v => by
      rw [s.pack_setPack]; split
      · subst_vars; exact h.due v
      · exact id, fun _ _ => id, fun _ _ => id⟩ }

theorem keeps_setSlot (j : SlotIx) (v : Slot) (s : State)
    (h : (s.slot j).idle.Follows s v.idle) : Keeps s (s.setSlot j v) :=
  { Keeps.refl s with
    regions := .of_eq rfl rfl rfl, stopping := .rfl, quiet := id, events := id, members := id, holds := id
    counters := ⟨.refl _, fun _ => .refl _⟩
    deadlines := fun l a => ⟨a.ages, a.holds, fun i => by
      rw [s.slot_setSlot]; split
      · exact h.ahead l (a.idles j)
      · exact a.idles i⟩
    dues := ⟨fun _ _ => id, fun _ _ => id, fun i w => by
      rw [s.slot_setSlot]; split
      · subst_vars; exact h.due w
      · exact id⟩ }

/-- A change of the engine that neither enters nor leaves STOPPING, and that loses its candidate with a quiet arbiter
alone. -/
theorem keeps_engine (e : Engine) (s : State) (h : e.state = .stopping ↔ s.engine.state = .stopping)
    (q : e.state ≠ .issuing → s.engine.state ≠ .issuing) : Keeps s { s with engine := e } :=
  { Keeps.refl s with
    stopping := h
    quiet := fun g hi => g (q hi)
    regions := .of_eq rfl rfl rfl, events := id, members := id, holds := id
    counters := ⟨.refl _, fun _ => .refl _⟩
    deadlines := fun _ a => ⟨a.ages, a.holds, a.idles⟩, dues := ⟨fun _ _ => id, fun _ _ => id, fun _ _ => id⟩ }

/-- A change of the engine that withdraws its candidate. -/
theorem keeps_engine_withdraw (e : Engine) (s : State) (h : e.state = .stopping ↔ s.engine.state = .stopping) :
    Keeps s (State.withdraw { s with engine := e }) :=
  { Keeps.refl s with
    stopping := h
    quiet := fun _ _ => ⟨rfl, rfl⟩
    regions := .of_eq rfl rfl rfl, events := id, members := id, holds := id
    counters := ⟨.refl _, fun _ => .refl _⟩
    deadlines := fun _ a => ⟨a.ages, a.holds, a.idles⟩, dues := ⟨fun _ _ => id, fun _ _ => id, fun _ _ => id⟩ }

theorem keeps_refuseAll (ws : List HeldWrite) (s : State) : Keeps s (s.refuseAll ws) := by
  induction ws generalizing s with
  | nil => exact .refl s
  | cons w ws ih => exact (keeps_send _ _ s).trans (ih _)

end Sys2Proof.Machine
end

