-- ==== Sys2Proof/Laws/Assembler.lean ====
section
/-!
SUPPORT. What the operations of the Pack Assembler leave alone.
-/

namespace Sys2Proof.Machine

/-- What the operations of the Pack Assembler keep: `Keeps`, the lanes, the slots, the ready queue and every queue of the two
ports. -/
structure Assembles (s s' : State) : Prop extends Keeps s s' where
  lanes : s'.lanes = s.lanes
  slots : s'.slots = s.slots
  readyQueue : s'.readyQueue = s.readyQueue
  viewReads : s'.viewReads = s.viewReads
  forwarding : s'.forwarding = s.forwarding
  inFlight : s'.inFlight = s.inFlight
  bus : s'.bus = s.bus
  sent : s'.sent = s.sent
  lastServed : s'.lastServed = s.lastServed

theorem Assembles.refl (s : State) : Assembles s s := ⟨.refl s, rfl, rfl, rfl, rfl, rfl, rfl, rfl, rfl, rfl⟩

theorem Assembles.trans {s t u : State} (h : Assembles s t) (g : Assembles t u) : Assembles s u :=
  ⟨h.toKeeps.trans g.toKeeps, g.lanes.trans h.lanes, g.slots.trans h.slots, g.readyQueue.trans h.readyQueue,
    g.viewReads.trans h.viewReads, g.forwarding.trans h.forwarding, g.inFlight.trans h.inFlight, g.bus.trans h.bus,
    g.sent.trans h.sent, g.lastServed.trans h.lastServed⟩

theorem Assembles.then {s t u : State} (g : Assembles t u) (h : Assembles s t) : Assembles s u := h.trans g

theorem Assembles.free (s : State) (n : Word32) (w : List MemberIx) :
    Assembles s { s with serialNext := n, waitList := w } :=
  ⟨Keeps.free s _ _ _ _ _ _ _ _ _ _, rfl, rfl, rfl, rfl, rfl, rfl, rfl, rfl, rfl⟩

theorem assembles_count {f : Counters → Counters} (hf : Raises f) (s : State) : Assembles s (s.count f) :=
  ⟨keeps_count hf s, rfl, rfl, rfl, rfl, rfl, rfl, rfl, rfl, rfl⟩

theorem assembles_raise (t : Time) (e : EventBody) (s : State) : Assembles s (s.raise t e) :=
  ⟨keeps_raise t e s, by simp, by simp, by simp, by simp, by simp, by simp, by simp, by simp, by simp⟩

theorem assembles_setMember (m : MemberIx) (r : Member) (s : State) : Assembles s (s.setMember m r) :=
  ⟨keeps_setMember m r s, rfl, rfl, rfl, rfl, rfl, rfl, rfl, rfl, rfl⟩

theorem assembles_setPack (d : PackIx) (p : Pack) (s : State)
    (h : (s.pack d).age.Follows s p.age) : Assembles s (s.setPack d p) :=
  ⟨keeps_setPack d p s h, rfl, rfl, rfl, rfl, rfl, rfl, rfl, rfl, rfl⟩

theorem assembles_engine (e : Engine) (s : State) (h : e.state = .stopping ↔ s.engine.state = .stopping)
    (q : e.state ≠ .issuing → s.engine.state ≠ .issuing) : Assembles s { s with engine := e } :=
  ⟨keeps_engine e s h q, rfl, rfl, rfl, rfl, rfl, rfl, rfl, rfl, rfl⟩

theorem assembles_beginCommit (s : State) : Assembles s s.beginCommit := by
  unfold State.beginCommit
  split
  · rename_i h
    split
    · exact .refl s
    · exact assembles_engine _ s (by simp [h.1]) (fun q => absurd rfl q)
  · exact .refl s

theorem assembles_joinCommitQueue (d : PackIx) (s : State) : Assembles s (s.joinCommitQueue d) := by
  unfold State.joinCommitQueue
  exact (assembles_beginCommit _).then (assembles_engine _ s .rfl id)

theorem assembles_fileMembers (ms : List MemberIx) (s : State) : Assembles s (s.fileMembers ms) := by
  induction ms generalizing s with
  | nil => exact .refl s
  | cons m ms ih => exact (assembles_setMember _ _ s).trans (ih _)

theorem assembles_sealPack (t : Time) (c : SealCause) (d : PackIx) (s : State) : Assembles s (s.sealPack t c d) := by
  unfold State.sealPack
  exact (assembles_joinCommitQueue _ _).then ((assembles_count (raises_sealed c) _).then ((assembles_fileMembers _ _).then
    (assembles_setPack d _ s (.absent _ _))))

theorem assembles_sealClassPack (t : Time) (cause : SealCause) (c : ClassIx) (s : State) :
    Assembles s (s.sealClassPack t cause c) := by
  unfold State.sealClassPack
  split
  · exact assembles_sealPack _ _ _ s
  · exact .refl s

theorem assembles_openPack (t : Time) (d : PackIx) (c : ClassIx) (s : State) : Assembles s (s.openPack t d c) :=
  (assembles_setPack d _ s (.arm _ fun l => l.age c)).trans (Assembles.free _ _ _)

theorem assembles_sealIfFull (t : Time) (d : PackIx) (s : State) : Assembles s (s.sealIfFull t d) := by
  unfold State.sealIfFull
  split
  · exact assembles_sealPack _ _ _ s
  · split
    · exact assembles_sealPack _ _ _ s
    · exact .refl s

theorem assembles_addMember (t : Time) (m : MemberIx) (d : PackIx) (s : State) : Assembles s (s.addMember t m d) := by
  unfold State.addMember
  exact (assembles_sealIfFull _ _ _).then ((assembles_setMember _ _ _).then (assembles_setPack d _ s (.same _ _)))

theorem assembles_joinWaitList (t : Time) (m : MemberIx) (c : ClassIx) (s : State) : Assembles s (s.joinWaitList t m c) := by
  unfold State.joinWaitList
  refine Assembles.trans ?_ (Assembles.free _ _ _)
  dsimp only
  split
  · exact (assembles_setMember _ _ s).trans (assembles_raise _ _ _)
  · exact assembles_setMember _ _ s

theorem assembles_newPackFor (t : Time) (m : MemberIx) (c : ClassIx) (s : State) : Assembles s (s.newPackFor t m c) := by
  unfold State.newPackFor
  split
  · exact (assembles_openPack _ _ _ s).trans (assembles_addMember _ _ _ _)
  · exact assembles_joinWaitList _ _ _ s

theorem assembles_closeIfDisabled (t : Time) (c : ClassIx) (s : State) : Assembles s (s.closeIfDisabled t c) := by
  unfold State.closeIfDisabled
  split
  · exact .refl s
  · exact assembles_sealClassPack _ _ _ s

theorem assembles_assemble (t : Time) (m : MemberIx) (s : State) : Assembles s (s.assemble t m) := by
  unfold State.assemble
  refine Assembles.trans ?_ (assembles_closeIfDisabled _ _ _)
  split
  · exact assembles_joinWaitList _ _ _ s
  · split
    · split
      · exact assembles_addMember _ _ _ s
      · exact (assembles_sealPack _ _ _ s).trans (assembles_newPackFor _ _ _ _)
    · exact assembles_newPackFor _ _ _ s

theorem assembles_unwait (m : MemberIx) (s : State) : Assembles s (s.unwait m) := Assembles.free s _ _

theorem assembles_openWaiting (t : Time) (m : MemberIx) (c : ClassIx) (d : PackIx) (s : State) :
    Assembles s (s.openWaiting t m c d) :=
  ((assembles_unwait m s).trans (assembles_openPack _ _ _ _)).trans (assembles_addMember _ _ _ _)

theorem assembles_drainMembers (t : Time) (c : ClassIx) (ms : List MemberIx) (s : State) :
    Assembles s (s.drainMembers t c ms).1 := by
  induction ms generalizing s with
  | nil => exact .refl s
  | cons m ms ih =>
    rw [State.drainMembers]
    split
    · split
      · exact ((assembles_unwait m s).trans (assembles_addMember _ _ _ _)).trans (ih _)
      · dsimp only
        split
        · exact ((assembles_sealPack _ _ _ s).trans (assembles_openWaiting _ _ _ _ _)).trans (ih _)
        · exact assembles_sealPack _ _ _ s
    · split
      · exact (assembles_openWaiting _ _ _ _ s).trans (ih _)
      · exact .refl s

theorem assembles_drainRound (t : Time) (m : MemberIx) (d : PackIx) (s : State) : Assembles s (s.drainRound t m d) := by
  unfold State.drainRound
  have h : ∀ ms, Assembles s ((s.openWaiting t m (s.member m).cls d).drainMembers t (s.member m).cls ms).1 := fun ms =>
    (assembles_openWaiting _ _ _ _ s).trans (assembles_drainMembers _ _ _ _)
  dsimp only
  split
  · exact (h _).trans (assembles_closeIfDisabled _ _ _)
  · exact h _

theorem assembles_drainRounds (t : Time) (n : Nat) (s : State) : Assembles s (s.drainRounds t n) := by
  induction n generalizing s with
  | zero => exact .refl s
  | succ n ih =>
    rw [State.drainRounds]
    split
    · exact (assembles_drainRound _ _ _ s).trans (ih _)
    · exact .refl s

theorem assembles_drainWaitList (t : Time) (s : State) : Assembles s (s.drainWaitList t) := assembles_drainRounds _ _ s

theorem assembles_freeRecord (d : PackIx) (s : State) : Assembles s (s.freeRecord d) :=
  assembles_setPack d _ s (.absent _ _)

/-! ### The wait list in a drain -/

theorem waitList_beginCommit (s : State) : s.beginCommit.waitList = s.waitList := by
  unfold State.beginCommit; split
  · split <;> rfl
  · rfl

theorem waitList_fileMembers (ms : List MemberIx) (s : State) : (s.fileMembers ms).waitList = s.waitList := by
  induction ms generalizing s with
  | nil => rfl
  | cons m ms ih => rw [State.fileMembers, ih]; rfl

theorem waitList_sealPack (t : Time) (x : SealCause) (d : PackIx) (s : State) : (s.sealPack t x d).waitList = s.waitList := by
  unfold State.sealPack State.joinCommitQueue
  dsimp only
  rw [waitList_beginCommit]
  exact waitList_fileMembers _ _

theorem waitList_sealClassPack (t : Time) (x : SealCause) (c : ClassIx) (s : State) :
    (s.sealClassPack t x c).waitList = s.waitList := by
  unfold State.sealClassPack; split
  · exact waitList_sealPack _ _ _ _
  · rfl

theorem waitList_sealIfFull (t : Time) (d : PackIx) (s : State) : (s.sealIfFull t d).waitList = s.waitList := by
  unfold State.sealIfFull; split
  · exact waitList_sealPack _ _ _ _
  · split
    · exact waitList_sealPack _ _ _ _
    · rfl

/-- An add leaves the wait list. -/
theorem waitList_addMember (t : Time) (m : MemberIx) (d : PackIx) (s : State) : (s.addMember t m d).waitList = s.waitList :=
  waitList_sealIfFull t d _

/-- A waiting member given a new pack leaves the wait list, and no other does (R100). -/
theorem waitList_openWaiting (t : Time) (m : MemberIx) (c : ClassIx) (d : PackIx) (s : State) :
    (s.openWaiting t m c d).waitList = s.waitList.filter (fun w => decide (w ≠ m)) := by
  unfold State.openWaiting
  rw [waitList_addMember]
  rfl

theorem length_waitList_drainMembers (t : Time) (c : ClassIx) (ms : List MemberIx) (s : State) :
    (s.drainMembers t c ms).1.waitList.length ≤ s.waitList.length := by
  induction ms generalizing s with
  | nil => exact Nat.le_refl _
  | cons m ms ih =>
    unfold State.drainMembers
    split
    · split
      · refine (ih _).trans ?_
        rw [waitList_addMember]
        exact List.length_filter_le _ _
      · dsimp only
        split
        · refine (ih _).trans ?_
          rw [waitList_openWaiting, waitList_sealPack]
          exact List.length_filter_le _ _
        · rw [waitList_sealPack]
    · split
      · refine (ih _).trans ?_
        rw [waitList_openWaiting]
        exact List.length_filter_le _ _
      · exact Nat.le_refl _

/-- A round of a drain takes the head of the wait list off it. -/
theorem length_waitList_drainRound (t : Time) {m : MemberIx} {rest : List MemberIx} (d : PackIx) {s : State}
    (h : s.waitList = m :: rest) : (s.drainRound t m d).waitList.length < s.waitList.length := by
  unfold State.drainRound State.closeIfDisabled
  dsimp only
  have all : ∀ ms, ((s.openWaiting t m (s.member m).cls d).drainMembers t (s.member m).cls ms).1.waitList.length
      < s.waitList.length := fun ms => by
    refine Nat.lt_of_le_of_lt (length_waitList_drainMembers _ _ _ _) ?_
    rw [waitList_openWaiting, h]
    simpa using List.length_filter_le _ rest
  split
  · split
    · exact all _
    · rw [waitList_sealClassPack]
      exact all _
  · exact all _

/-- Any number of rounds not below the length of the wait list makes the same drain (R100). -/
theorem drainRounds_enough (t : Time) (n k : Nat) (s : State) (h : s.waitList.length ≤ n) (g : s.waitList.length ≤ k) :
    s.drainRounds t n = s.drainRounds t k := by
  induction n generalizing k s with
  | zero =>
    have e : s.waitList = [] := by simpa using h
    cases k with
    | zero => rfl
    | succ k => simp [State.drainRounds, e]
  | succ n ih =>
    cases k with
    | zero =>
      have e : s.waitList = [] := by simpa using g
      simp [State.drainRounds, e]
    | succ k =>
      unfold State.drainRounds
      split
      · rename_i e _
        have shorter := length_waitList_drainRound t ‹_› e
        exact ih _ _ (by omega) (by omega)
      · rfl

end Sys2Proof.Machine
end

