-- ==== Sys2Proof/Laws/Lanes.lean ====
section
/-!
SUPPORT. What the operations on lanes leave alone: parsing, acceptance, release passes, broken members, releases.
-/

namespace Sys2Proof.Machine

/-- What a byte leaves alone in its lane. -/
structure SameHold (l l' : Lane) : Prop where
  enabled : l'.enabled = l.enabled
  base : l'.base = l.base
  exponent : l'.exponent = l.exponent
  hold : l'.hold = l.hold
  holdDeadline : l'.holdDeadline = l.holdDeadline
  counts : l'.counts = l.counts
  order : l'.order = l.order

theorem sameHold_afterFile (n : Nat) (l : Lane) : SameHold l (l.afterFile n) := by
  unfold Lane.afterFile; split <;> exact ⟨rfl, rfl, rfl, rfl, rfl, rfl, rfl⟩

theorem sameHold_takeLead (c : Vector PackClass 8) (n : Nat) (b : List Byte) (l : Lane) :
    SameHold l (l.takeLead c n b).1 := by
  unfold Lane.takeLead
  split
  · exact sameHold_afterFile _ l
  · exact ⟨rfl, rfl, rfl, rfl, rfl, rfl, rfl⟩
  · exact ⟨rfl, rfl, rfl, rfl, rfl, rfl, rfl⟩

theorem sameHold_takeCandidate (c : Vector PackClass 8) (n : Nat) (b : List Byte) (l : Lane) :
    SameHold l (l.takeCandidate c n b).1 := by
  unfold Lane.takeCandidate
  split
  · exact sameHold_afterFile _ l
  · exact ⟨rfl, rfl, rfl, rfl, rfl, rfl, rfl⟩
  · exact ⟨rfl, rfl, rfl, rfl, rfl, rfl, rfl⟩

theorem sameHold_padOrLead (l : Lane) : SameHold l l.padOrLead := by
  unfold Lane.padOrLead; split <;> exact ⟨rfl, rfl, rfl, rfl, rfl, rfl, rfl⟩

theorem SameHold.trans {l m n : Lane} (h : SameHold l m) (g : SameHold m n) : SameHold l n :=
  ⟨g.enabled.trans h.enabled, g.base.trans h.base, g.exponent.trans h.exponent, g.hold.trans h.hold,
    g.holdDeadline.trans h.holdDeadline, g.counts.trans h.counts, g.order.trans h.order⟩

/-- One byte changes the parse state of its lane and nothing else of it. -/
theorem sameHold_scanByte (c : Vector PackClass 8) (l : Lane) (b : Byte) : SameHold l (l.scanByte c b).1 := by
  have r : ∀ x y : Nat, SameHold l { l with cursor := x, remaining := y } := fun _ _ => ⟨rfl, rfl, rfl, rfl, rfl, rfl, rfl⟩
  have r1 : ∀ x : Nat, SameHold l { l with cursor := x } := fun _ => ⟨rfl, rfl, rfl, rfl, rfl, rfl, rfl⟩
  unfold Lane.scanByte
  dsimp only
  split
  · split
    · exact ⟨rfl, rfl, rfl, rfl, rfl, rfl, rfl⟩
    · exact (r1 _).trans (sameHold_takeLead _ _ _ _)
  · split
    · exact (r _ _).trans (sameHold_padOrLead _)
    · exact ⟨rfl, rfl, rfl, rfl, rfl, rfl, rfl⟩
  · exact (r1 _).trans (sameHold_padOrLead _)
  · split
    · exact ⟨rfl, rfl, rfl, rfl, rfl, rfl, rfl⟩
    · split
      · exact ⟨rfl, rfl, rfl, rfl, rfl, rfl, rfl⟩
      · exact (r1 _).trans (sameHold_takeCandidate _ _ _ _)

/-- What the parse and the acceptance of a write keep: `Keeps`, the hold state of every lane, the slots, the ready queue and
the queues of the two ports but the forwarding queue. -/
structure Parses (s s' : State) : Prop extends Keeps s s' where
  hold : ∀ k : LaneIx, (s'.lane k).hold = (s.lane k).hold
  holdDeadline : ∀ k : LaneIx, (s'.lane k).holdDeadline = (s.lane k).holdDeadline
  slots : s'.slots = s.slots
  readyQueue : s'.readyQueue = s.readyQueue
  viewReads : s'.viewReads = s.viewReads
  inFlight : s'.inFlight = s.inFlight
  bus : s'.bus = s.bus
  sent : s'.sent = s.sent
  lastServed : s'.lastServed = s.lastServed

theorem Parses.trans {s t u : State} (h : Parses s t) (g : Parses t u) : Parses s u :=
  ⟨h.toKeeps.trans g.toKeeps, fun k => (g.hold k).trans (h.hold k), fun k => (g.holdDeadline k).trans (h.holdDeadline k),
    g.slots.trans h.slots, g.readyQueue.trans h.readyQueue, g.viewReads.trans h.viewReads, g.inFlight.trans h.inFlight,
    g.bus.trans h.bus, g.sent.trans h.sent, g.lastServed.trans h.lastServed⟩

theorem Parses.then {s t u : State} (g : Parses t u) (h : Parses s t) : Parses s u := h.trans g

theorem Assembles.parses {s s' : State} (h : Assembles s s') : Parses s s' :=
  ⟨h.toKeeps, fun k => by simp only [State.lane, h.lanes], fun k => by simp only [State.lane, h.lanes], h.slots,
    h.readyQueue, h.viewReads, h.inFlight, h.bus, h.sent, h.lastServed⟩

theorem Parses.refl (s : State) : Parses s s := (Assembles.refl s).parses

/-- A lane changed in its parse state, its order list or, upward, its counters. -/
theorem parses_setLane (k : LaneIx) (l : Lane) (s : State) (h1 : l.enabled = (s.lane k).enabled)
    (h2 : l.base = (s.lane k).base) (h3 : l.exponent = (s.lane k).exponent) (h4 : l.hold = (s.lane k).hold)
    (h5 : l.holdDeadline = (s.lane k).holdDeadline) (h6 : (s.lane k).counts.Le l.counts) : Parses s (s.setLane k l) :=
  ⟨keeps_setLane k l s ⟨h1, h2, h3, by rw [h4]; exact fun _ => id, by rw [h5]; exact .same _ _, h6⟩,
    fun j => by rw [s.lane_setLane]; split <;> simp_all, fun j => by rw [s.lane_setLane]; split <;> simp_all,
    rfl, rfl, rfl, rfl, rfl, rfl, rfl⟩

theorem parses_mapLane (k : LaneIx) (f : Lane → Lane) (s : State) (h1 : (f (s.lane k)).enabled = (s.lane k).enabled)
    (h2 : (f (s.lane k)).base = (s.lane k).base) (h3 : (f (s.lane k)).exponent = (s.lane k).exponent)
    (h4 : (f (s.lane k)).hold = (s.lane k).hold) (h5 : (f (s.lane k)).holdDeadline = (s.lane k).holdDeadline)
    (h6 : (s.lane k).counts.Le (f (s.lane k)).counts) : Parses s (s.mapLane k f) := parses_setLane k _ s h1 h2 h3 h4 h5 h6

theorem SameHold.parses {s : State} {k : LaneIx} {l : Lane} (h : SameHold (s.lane k) l) : Parses s (s.setLane k l) :=
  parses_setLane k l s h.enabled h.base h.exponent h.hold h.holdDeadline (h.counts ▸ .refl _)

theorem parses_completeMember (t : Time) (k : LaneIx) (m : MemberIx) (s : State) :
    Parses s (s.completeMember t k m) := by
  unfold State.completeMember
  exact (assembles_assemble _ _ _).parses.then ((parses_mapLane k _ _ rfl rfl rfl rfl rfl (by
    simp [LaneCounters.Le, LaneCounters.all, le_satAdd])).then (assembles_setMember _ _ s).parses)

theorem parses_resyncIf (t : Time) (k : LaneIx) (n : Nat) (r : Bool) (s : State) : Parses s (s.resyncIf t k n r) := by
  unfold State.resyncIf; split
  · exact (assembles_raise _ _ s).parses
  · exact .refl s

theorem parses_takeFile (t : Time) (k : LaneIx) (n : Nat) (b : List Byte) (f : LeadFields) (s : State) :
    Parses s (s.takeFile t k n b f) := by
  unfold State.takeFile
  split
  · exact .refl s
  · have h : ∀ m, Parses s ((s.setMember m (newMember t k n b f)).mapLane k
        (fun l => { l with order := l.order ++ [m] })) := fun m =>
      (parses_mapLane k _ _ rfl rfl rfl rfl rfl (.refl _)).then (assembles_setMember _ _ s).parses
    dsimp only
    split
    · exact (parses_completeMember _ _ _ _).then (h _)
    · exact (parses_mapLane k _ _ rfl rfl rfl rfl rfl (.refl _)).then (h _)

theorem parses_takeData (t : Time) (k : LaneIx) (b : Byte) (last : Bool) (s : State) :
    Parses s (s.takeData t k b last) := by
  unfold State.takeData
  split
  · exact .refl s
  · dsimp only
    split
    · exact (parses_completeMember _ _ _ _).then (assembles_setMember _ _ s).parses
    · exact (assembles_setMember _ _ s).parses

theorem parses_takeFound (t : Time) (k : LaneIx) (x : Option Found) (s : State) : Parses s (s.takeFound t k x) := by
  unfold State.takeFound
  split
  · exact .refl s
  · exact (parses_takeFile _ _ _ _ _ _).then (parses_resyncIf _ _ _ _ s)
  · exact (assembles_sealClassPack _ _ _ _).parses.then (parses_resyncIf _ _ _ _ s)
  · exact (parses_mapLane k _ _ rfl rfl rfl rfl rfl (by
      simp [Lane.count, LaneCounters.Le, LaneCounters.all, le_satAdd])).then (assembles_raise _ _ s).parses
  · exact parses_takeData _ _ _ _ s

theorem parses_parseBytes (t : Time) (k : LaneIx) (bs : List Byte) (s : State) : Parses s (s.parseBytes t k bs) := by
  induction bs generalizing s with
  | nil => exact .refl s
  | cons b bs ih =>
    rw [State.parseBytes]
    exact (ih _).then ((parses_takeFound _ _ _ _).then (sameHold_scanByte _ _ _).parses)

theorem parses_forward (r : MemReq) (s : State) : Parses s (s.forward r) :=
  ⟨Keeps.free s _ _ _ _ _ _ _ _ _ _, fun _ => rfl, fun _ => rfl, rfl, rfl, rfl, rfl, rfl, rfl, rfl⟩

theorem parses_acceptWrite (t : Time) (k : LaneIx) (w : HeldWrite) (s : State) : Parses s (s.acceptWrite t k w) := by
  unfold State.acceptWrite
  exact (parses_forward _ _).then ((parses_mapLane k _ _ rfl rfl rfl rfl rfl (by
    simp [Lane.count, LaneCounters.Le, LaneCounters.all, le_satAdd])).then (parses_parseBytes _ _ _ s))

/-! ### The lead count -/

/-- The parse state of a lane is the same in both. -/
structure SameParse (l l' : Lane) : Prop where
  exponent : l'.exponent = l.exponent
  cursor : l'.cursor = l.cursor
  parser : l'.parser = l.parser
  leadBuffer : l'.leadBuffer = l.leadBuffer
  candidate : l'.candidate = l.candidate
  pendingLead : l'.pendingLead = l.pendingLead
  remaining : l'.remaining = l.remaining

theorem SameParse.refl (l : Lane) : SameParse l l := ⟨rfl, rfl, rfl, rfl, rfl, rfl, rfl⟩

theorem SameParse.trans {l m n : Lane} (h : SameParse l m) (g : SameParse m n) : SameParse l n :=
  ⟨g.exponent.trans h.exponent, g.cursor.trans h.cursor, g.parser.trans h.parser, g.leadBuffer.trans h.leadBuffer,
    g.candidate.trans h.candidate, g.pendingLead.trans h.pendingLead, g.remaining.trans h.remaining⟩

theorem SameParse.scanByte {l l' : Lane} (h : SameParse l l') (c : Vector PackClass 8) (b : Byte) :
    (l'.scanByte c b).2 = (l.scanByte c b).2 ∧ SameParse (l.scanByte c b).1 (l'.scanByte c b).1 := by
  obtain ⟨h1, h2, h3, h4, h5, h6, h7⟩ := h
  unfold Lane.scanByte Lane.padOrLead Lane.takeLead Lane.takeCandidate Lane.afterFile Lane.size
  rw [h1, h2, h3, h4, h5, h6, h7]
  cases l.parser <;> dsimp only <;> (repeat' split) <;> exact ⟨rfl, rfl, rfl, rfl, rfl, rfl, rfl, rfl⟩

/-- The lead count reads the parse state of the lane alone (R35). -/
theorem SameParse.leadCount {l l' : Lane} (h : SameParse l l') (c : Vector PackClass 8) (bs : List Byte) :
    l'.leadCount c bs = l.leadCount c bs := by
  induction bs generalizing l l' with
  | nil => rfl
  | cons b bs ih =>
    simp only [Lane.leadCount]
    rw [(h.scanByte c b).1, ih (h.scanByte c b).2]

theorem sameParse_of_lanes {s s' : State} (h : s'.lanes = s.lanes) (k : LaneIx) : SameParse (s.lane k) (s'.lane k) := by
  simp only [State.lane, h]; exact .refl _

theorem sameParse_mapLane (k : LaneIx) (f : Lane → Lane) (s : State) (h : SameParse (s.lane k) (f (s.lane k))) :
    SameParse (s.lane k) ((s.mapLane k f).lane k) := by
  rw [State.mapLane, State.lane_setLane, if_pos rfl]; exact h

theorem sameParse_completeMember (t : Time) (k : LaneIx) (m : MemberIx) (s : State) :
    SameParse (s.lane k) ((s.completeMember t k m).lane k) := by
  unfold State.completeMember
  exact (sameParse_mapLane k (fun l => { l with
      receiving := none, counts := { l.counts with membersCompleted := satAdd l.counts.membersCompleted 1 } })
    (s.setMember m _) ⟨rfl, rfl, rfl, rfl, rfl, rfl, rfl⟩).trans
    (sameParse_of_lanes (assembles_assemble _ _ _).lanes k)

theorem sameParse_takeFile (t : Time) (k : LaneIx) (n : Nat) (b : List Byte) (f : LeadFields) (s : State) :
    SameParse (s.lane k) ((s.takeFile t k n b f).lane k) := by
  unfold State.takeFile
  split
  · exact .refl _
  · rename_i m _
    have h : SameParse (s.lane k) (((s.setMember m (newMember t k n b f)).mapLane k
        (fun l => { l with order := l.order ++ [m] })).lane k) :=
      sameParse_mapLane k _ (s.setMember m _) ⟨rfl, rfl, rfl, rfl, rfl, rfl, rfl⟩
    dsimp only
    split
    · exact h.trans (sameParse_completeMember _ _ _ _)
    · exact h.trans (sameParse_mapLane k _ _ ⟨rfl, rfl, rfl, rfl, rfl, rfl, rfl⟩)

/-- What a parse result brings about leaves the parse state of its lane alone (R23). -/
theorem sameParse_takeFound (t : Time) (k : LaneIx) (x : Option Found) (s : State) :
    SameParse (s.lane k) ((s.takeFound t k x).lane k) := by
  have r : ∀ n q, SameParse (s.lane k) ((s.resyncIf t k n q).lane k) := fun n q => by
    unfold State.resyncIf; split
    · exact sameParse_of_lanes (assembles_raise _ _ s).lanes k
    · exact .refl _
  unfold State.takeFound
  split
  · exact .refl _
  · exact (r _ _).trans (sameParse_takeFile _ _ _ _ _ _)
  · exact (r _ _).trans (sameParse_of_lanes (assembles_sealClassPack _ _ _ _).lanes k)
  · exact (sameParse_of_lanes (assembles_raise _ _ s).lanes k).trans
      (sameParse_mapLane k _ _ ⟨rfl, rfl, rfl, rfl, rfl, rfl, rfl⟩)
  · unfold State.takeData
    split
    · exact .refl _
    · dsimp only
      split
      · exact sameParse_completeMember t k _ (s.setMember _ _)
      · exact .refl _

/-- The lead count of a write, byte by byte (R35). -/
theorem leadCount_cons (s : State) (t : Time) (k : LaneIx) (b : Byte) (bs : List Byte) :
    (s.lane k).leadCount s.classes (b :: bs) =
      (if Found.isFile ((s.lane k).scanByte s.classes b).2 then 1 else 0) +
        ((s.parseBytes t k [b]).lane k).leadCount (s.parseBytes t k [b]).classes bs := by
  have hp := (parses_parseBytes t k [b] s).toKeeps.classes
  rw [hp]
  simp only [State.parseBytes, Lane.leadCount]
  congr 1
  have h := sameParse_takeFound t k ((s.lane k).scanByte s.classes b).2 (s.setLane k ((s.lane k).scanByte s.classes b).1)
  rw [State.lane_setLane, if_pos rfl] at h
  exact (h.leadCount _ _).symm

/-- A byte that completes a valid FILE lead or candidate (R25, R33). -/
theorem isFile_scanByte (c : Vector PackClass 8) (l : Lane) (b : Byte) :
    Found.isFile (l.scanByte c b).2 = true ↔ ∃ f : LeadFields,
      l.parser = .lead ∧ 63 ≤ l.leadBuffer.length ∧ judgeLead c (l.leadBuffer ++ [b]) = .file f ∨
      l.parser = .seek ∧ 63 ≤ l.candidate.length ∧ judgeLead c (l.candidate ++ [b]) = .file f := by
  unfold Lane.scanByte Lane.takeLead Lane.takeCandidate
  cases l.parser <;> dsimp only
  · by_cases h : (l.leadBuffer ++ [b]).length < 64
    · simp only [if_pos h, Found.isFile]
      have h' : ¬ 63 ≤ l.leadBuffer.length := by simp at h; omega
      simp [h']
    · simp only [if_neg h]
      have h' : 63 ≤ l.leadBuffer.length := by simp at h; omega
      cases e : judgeLead c (l.leadBuffer ++ [b]) <;> simp [Found.isFile, h']
  · split <;> simp [Found.isFile]
  · simp [Found.isFile]
  · by_cases h0 : l.candidate = [] ∧ l.cursor % 64 ≠ 0
    · simp only [if_pos h0, Found.isFile]; simp [h0.1]
    · rw [if_neg h0]
      by_cases h : (l.candidate ++ [b]).length < 64
      · simp only [if_pos h, Found.isFile]
        have h' : ¬ 63 ≤ l.candidate.length := by simp at h; omega
        simp [h']
      · simp only [if_neg h]
        have h' : 63 ≤ l.candidate.length := by simp at h; omega
        cases e : judgeLead c (l.candidate ++ [b]) <;> simp [Found.isFile, h']

/-! ### Release passes -/

/-- What a release pass keeps: `Keeps`, the slots, the ready queue and the queues of the two ports but the forwarding queue. -/
structure Passes (s s' : State) : Prop extends Keeps s s' where
  slots : s'.slots = s.slots
  readyQueue : s'.readyQueue = s.readyQueue
  viewReads : s'.viewReads = s.viewReads
  inFlight : s'.inFlight = s.inFlight
  bus : s'.bus = s.bus
  sent : s'.sent = s.sent

theorem Passes.trans {s t u : State} (h : Passes s t) (g : Passes t u) : Passes s u :=
  ⟨h.toKeeps.trans g.toKeeps, g.slots.trans h.slots, g.readyQueue.trans h.readyQueue, g.viewReads.trans h.viewReads,
    g.inFlight.trans h.inFlight, g.bus.trans h.bus, g.sent.trans h.sent⟩

theorem Passes.then {s t u : State} (g : Passes t u) (h : Passes s t) : Passes s u := h.trans g

theorem Parses.passes {s s' : State} (h : Parses s s') : Passes s s' :=
  ⟨h.toKeeps, h.slots, h.readyQueue, h.viewReads, h.inFlight, h.bus, h.sent⟩

theorem Passes.refl (s : State) : Passes s s := (Parses.refl s).passes

theorem passes_mapLane (k : LaneIx) (f : Lane → Lane) (s : State) (h : LaneKeeps s (s.lane k) (f (s.lane k))) :
    Passes s (s.mapLane k f) := ⟨keeps_setLane k _ s h, rfl, rfl, rfl, rfl, rfl, rfl⟩

theorem passes_disarm (k : LaneIx) (s : State) : Passes s (s.mapLane k (fun l => { l with holdDeadline := .absent })) :=
  passes_mapLane k _ s ⟨rfl, rfl, rfl, fun _ => id, .absent _ _, .refl _⟩

theorem passes_rearm (k : LaneIx) (s : State) :
    Passes s (s.mapLane k (fun l => { l with holdDeadline := Deadline.arm s.clock s.holdLimit })) :=
  passes_mapLane k _ s ⟨rfl, rfl, rfl, fun _ => id, .arm _ fun l => l.hold, .refl _⟩

/-- R50 at one lane: the heads served are those of its hold queue. -/
theorem passes_serveHeads (t : Time) (k : LaneIx) (ws : List HeldWrite) (a : Bool) (s : State)
    (h : ws.length ≤ (s.lane k).hold.length) : Passes s (s.serveHeads t k ws a) := by
  induction ws generalizing s a with
  | nil =>
    rw [State.serveHeads]; split
    · exact passes_disarm k s
    · exact .refl s
  | cons w ws ih =>
    rw [State.serveHeads]
    split
    · have h0 : ws.length ≤ (s.lane k).hold.length := (Nat.le_succ _).trans h
      have h1 : Passes s (s.mapLane k fun l => { l with hold := ws }) :=
        passes_mapLane k _ s ⟨rfl, rfl, rfl, fun _ g => h0.trans g, .same _ _, .refl _⟩
      have h2 : ∀ u : State, Passes u { u with lastServed := k } := fun u =>
        ⟨Keeps.free u _ _ _ _ _ _ _ _ _ _, rfl, rfl, rfl, rfl, rfl, rfl⟩
      dsimp only
      have h3 := parses_acceptWrite t k w { s.mapLane k fun l => { l with hold := ws } with lastServed := k }
      have h4 : ((s.mapLane k fun l => { l with hold := ws }).lane k).hold = ws := by simp [State.mapLane]
      refine (ih _ _ ?_).then (h3.passes.then ((h2 _).then h1))
      rw [h3.hold]
      exact (congrArg List.length h4).ge
    · split
      · exact passes_rearm k s
      · exact .refl s

theorem passes_serveLanes (t : Time) (ks : List LaneIx) (s : State) : Passes s (s.serveLanes t ks) := by
  induction ks generalizing s with
  | nil => exact .refl s
  | cons k ks ih =>
    rw [State.serveLanes]
    exact (ih _).then (passes_serveHeads _ _ _ _ s le_rfl)

theorem passes_releasePass (t : Time) (s : State) : Passes s (s.releasePass t) := passes_serveLanes _ _ s

theorem passes_breakMember (t : Time) (c : BreakCause) (k : LaneIx) (s : State) : Passes s (s.breakMember t c k) := by
  unfold State.breakMember
  split
  · exact .refl s
  · dsimp only
    exact (assembles_raise _ _ _).parses.passes.then ((parses_mapLane k _ _ rfl rfl rfl rfl rfl (by
      simp [LaneCounters.Le, LaneCounters.all, le_satAdd])).passes.then (assembles_setMember _ _ s).parses.passes)

theorem keeps_refuseHeld (k : LaneIx) (s : State) : Keeps s (s.refuseHeld k) := by
  unfold State.refuseHeld
  refine (keeps_refuseAll _ s).trans (keeps_setLane k _ _ ?_)
  exact ⟨rfl, rfl, rfl, fun _ _ => Nat.zero_le _, .absent _ _, .refl _⟩

theorem keeps_refuseHeldIn (ks : List LaneIx) (s : State) : Keeps s (s.refuseHeldIn ks) := by
  induction ks generalizing s with
  | nil => exact .refl s
  | cons k ks ih =>
    rw [State.refuseHeldIn]
    exact (ih _).then (keeps_refuseHeld k s)

/-! ### Releases -/

theorem assembles_releaseMembers (ms : List MemberIx) (s : State) : Assembles s (s.releaseMembers ms) := by
  induction ms generalizing s with
  | nil => exact .refl s
  | cons m ms ih =>
    rw [State.releaseMembers]
    exact (ih _).then (assembles_setMember _ _ s)

theorem wf_popReleased (ms : List MemberIx) (t : MemberTable) (h : t.wf = true) : (popReleased ms t).2.wf = true := by
  induction ms generalizing t with
  | nil => exact h
  | cons m ms ih =>
    rw [popReleased]; split
    · exact ih _ (MemberTable.wf_put h _ _)
    · exact h

theorem passes_members (t : MemberTable) (s : State) (h : s.membersCanonical → t.wf = true) :
    Passes s { s with members := t } :=
  ⟨{ Keeps.refl s with
      members := h
      counters := ⟨.refl _, fun _ => .refl _⟩, regions := .of_eq rfl rfl rfl, stopping := .rfl, quiet := id, events := id
      holds := id, deadlines := fun _ d => ⟨d.ages, d.holds, d.idles⟩, dues := ⟨fun _ _ => id, fun _ _ => id, fun _ _ => id⟩ }, rfl, rfl, rfl, rfl, rfl, rfl⟩

theorem passes_advanceTail (k : LaneIx) (s : State) : Passes s (s.advanceTail k) := by
  unfold State.advanceTail
  exact (parses_mapLane k _ _ rfl rfl rfl rfl rfl (.refl _)).passes.then (passes_members _ s (wf_popReleased _ _))

theorem passes_advanceTails (ks : List LaneIx) (s : State) : Passes s (s.advanceTails ks) := by
  induction ks generalizing s with
  | nil => exact .refl s
  | cons k ks ih =>
    rw [State.advanceTails]
    exact (ih _).then (passes_advanceTail k s)

/-- The release of a pack changes no slot, no ready queue, no view read and nothing in flight. -/
theorem passes_releasePack (t : Time) (d : PackIx) (s : State) : Passes s (s.releasePack t d) := by
  unfold State.releasePack
  exact (passes_releasePass _ _).then ((passes_advanceTails _ _).then (assembles_releaseMembers _ s).parses.passes)

/-- The lanes of a release pass are visited one after another (R50). -/
theorem serveLanes_eq_foldl (t : Time) (ks : List LaneIx) (s : State) :
    s.serveLanes t ks = ks.foldl (fun u k => u.serveHeads t k (u.lane k).hold false) s := by
  induction ks generalizing s with
  | nil => rfl
  | cons k ks ih => rw [State.serveLanes, ih]; rfl

theorem advanceTails_eq_foldl (ks : List LaneIx) (s : State) :
    s.advanceTails ks = ks.foldl (fun u k => u.advanceTail k) s := by
  induction ks generalizing s with
  | nil => rfl
  | cons k ks ih => rw [State.advanceTails, ih]; rfl

/-- An event raised and a lane replaced are independent. -/
theorem raise_setLane (t : Time) (e : EventBody) (k : LaneIx) (l : Lane) (s : State) :
    (s.setLane k l).raise t e = (s.raise t e).setLane k l := by
  unfold State.raise State.setLane; dsimp only; split <;> rfl

/-- The acceptance test as the two conditions of R45. -/
theorem accepts_iff (s : State) (k : LaneIx) (data : List Byte) : s.accepts k data = true ↔
    s.used k + data.length ≤ (s.lane k).size - 64 ∧ (s.lane k).leadCount s.classes data ≤ s.members.freeCount := by
  simp [State.accepts]

end Sys2Proof.Machine
end

