-- ==== Sys2Proof/Laws/Effects.lean ====
section
/-!
SUPPORT. What the shared operations bring about, said once: little-endian fields, the seal of a pack, the beginning of a
commit, a release pass with nothing held, a drain of an empty wait list, the issue of a commit unit.
-/

namespace Sys2Proof.Machine

/-! ### Bytes -/

@[simp] theorem le_length (n v : Nat) : (le n v).length = n := by
  induction n generalizing v with
  | zero => rfl
  | succ n ih => simp [le, ih]

/-- Reading back the little-endian bytes of a number gives it modulo the field's range. -/
theorem leNat_le (n v : Nat) : leNat (le n v) = v % 256 ^ n := by
  induction n generalizing v with
  | zero => simp [le, leNat, Nat.mod_one]
  | succ n ih =>
    have h : v % (256 * 256 ^ n) = v % 256 + 256 * (v / 256 % 256 ^ n) := Nat.mod_mul
    rw [le, leNat, ih, BitVec.toNat_ofNat, pow_succ' 256 n, h]

@[simp] theorem zeroBytes_length (n : Nat) : (zeroBytes n).length = n := List.length_replicate

/-- A field at the front of a record. -/
theorem field_front (n v : Nat) (rest : List Byte) : field (le n v ++ rest) 0 n = v % 256 ^ n := by
  rw [field, List.drop_zero, List.take_left' (le_length n v), leNat_le]

/-- A field behind bytes of a record. -/
theorem field_behind (front rest : List Byte) (o n : Nat) :
    field (front ++ rest) (front.length + o) n = field rest o n := by
  rw [field, field, List.drop_append, List.drop_of_length_le (by omega), List.nil_append]
  congr 3
  omega

/-! ### The Pack Assembler -/

/-- Beginning a commit changes the engine alone. -/
theorem beginCommit_eq (s : State) : s.beginCommit = { s with engine := s.beginCommit.engine } := by
  unfold State.beginCommit
  split
  · split <;> rfl
  · rfl

/-- The queue is kept when a commit begins (R117). -/
theorem beginCommit_queue (s : State) : s.beginCommit.engine.queue = s.engine.queue := by
  unfold State.beginCommit
  split
  · split <;> rfl
  · rfl

/-- An IDLE engine in RUN begins the head of its queue (R117). -/
theorem beginCommit_begun {s : State} {d : PackIx} {ds : List PackIx} (h : s.engine.state = .idle) (p : s.part = .run)
    (q : s.engine.queue = d :: ds) : s.beginCommit.engine = s.begun d s.engine := by
  unfold State.beginCommit
  rw [if_pos ⟨h, p⟩, q]
  simp [State.begun, q]

/-- Otherwise no commit begins. -/
theorem beginCommit_same {s : State} (h : ¬ (s.engine.state = .idle ∧ s.part = .run)) : s.beginCommit = s := by
  unfold State.beginCommit
  rw [if_neg h]

/-- With nothing queued no commit begins (R117). -/
theorem beginCommit_nil {s : State} (q : s.engine.queue = []) : s.beginCommit = s := by
  unfold State.beginCommit
  split
  · rw [q]
  · rfl

/-- The beginning of a commit reads the engine, the part state and the pack table alone (R117). -/
theorem beginCommit_congr {s u : State} (he : s.engine = u.engine) (hp : s.part = u.part) (hk : s.packs = u.packs) :
    s.beginCommit.engine = u.beginCommit.engine := by
  by_cases h : s.engine.state = .idle ∧ s.part = .run
  · cases q : s.engine.queue with
    | nil => rw [beginCommit_nil q, beginCommit_nil (he ▸ q), he]
    | cons d ds =>
      rw [beginCommit_begun h.1 h.2 q, beginCommit_begun (he ▸ h.1) (hp ▸ h.2) (he ▸ q)]
      simp only [State.begun, State.pack, he, hk]
  · rw [beginCommit_same h, beginCommit_same (he ▸ hp ▸ h), he]

/-- The engine after the end of one commit and the beginning of the next: what `beginCommit` makes of it, and, when a commit has
begun, what the end left (log entry 30). -/
theorem beginAfterEnd_eq (s : State) : s.beginAfterEnd = { s with engine := s.beginAfterEnd.engine } := by
  unfold State.beginAfterEnd
  dsimp only
  split
  · conv_lhs => rw [beginCommit_eq]
  · exact beginCommit_eq s

/-- Filing members changes the Member Table alone. -/
theorem fileMembers_eq (ms : List MemberIx) (s : State) :
    s.fileMembers ms = { s with members := (s.fileMembers ms).members } := by
  induction ms generalizing s with
  | nil => rfl
  | cons m ms ih => rw [State.fileMembers, ih]; rfl

/-- A member on the list is FILED with its other fields kept; another is unchanged (R63). -/
theorem fileMembers_member (ms : List MemberIx) (s : State) (h : s.membersCanonical) (m : MemberIx) :
    (s.fileMembers ms).member m = if m ∈ ms then { s.member m with state := .filed } else s.member m := by
  induction ms generalizing s with
  | nil => simp [State.fileMembers]
  | cons x ms ih =>
    have hc : (s.setMember x { s.member x with state := .filed }).membersCanonical := MemberTable.wf_put h _ _
    have hm : (s.setMember x { s.member x with state := .filed }).member m =
        if m = x then { s.member x with state := .filed } else s.member m := MemberTable.get_put h x m _
    rw [State.fileMembers, ih _ hc, hm]
    by_cases e : m = x
    · subst e; by_cases f : m ∈ ms <;> simp [f]
    · simp [e]

/-- The seal of a pack changes its record, its members, the engine and one counter (R101). -/
theorem sealPack_eq (t : Time) (c : SealCause) (d : PackIx) (s : State) :
    let p : Pack := { s.pack d with state := .sealing, age := .absent, sealTime := t, cause := some c }
    s.sealPack t c d = { s with
      packs := s.packs.set d p, members := ((s.setPack d p).fileMembers (s.pack d).members).members,
      engine := (s.sealPack t c d).engine, counters := s.counters.bumpSealed c } := by
  intro p
  change State.beginCommit _ = { s with
      packs := s.packs.set d p, members := ((s.setPack d p).fileMembers (s.pack d).members).members,
      engine := (State.beginCommit _).engine, counters := s.counters.bumpSealed c }
  rw [beginCommit_eq, State.count, fileMembers_eq]
  rfl

/-- What the seal of a pack makes of the engine: the pack joins its queue, and it begins a commit when it can (R116, R117). -/
theorem sealPack_engine (t : Time) (c : SealCause) (d : PackIx) (s : State) : (s.sealPack t c d).engine =
    (State.beginCommit { s.setPack d { s.pack d with state := .sealing, age := .absent, sealTime := t, cause := some c } with
      engine := { s.engine with queue := s.engine.queue ++ [d] } }).engine := by
  change (State.beginCommit _).engine = _
  rw [State.count, fileMembers_eq]
  exact beginCommit_congr rfl rfl rfl

/-- A seal puts the pack in the queue of an engine that is not IDLE in RUN, and nothing else of the engine changes (R116). -/
theorem sealPack_engine_waits (t : Time) (c : SealCause) (d : PackIx) {s : State}
    (h : s.engine.state ≠ .idle ∨ s.part ≠ .run) :
    (s.sealPack t c d).engine = { s.engine with queue := s.engine.queue ++ [d] } := by
  rw [sealPack_engine, beginCommit_same (by exact fun g => h.elim (absurd g.1) (absurd g.2))]

/-- A seal has an IDLE engine in RUN begin the head of its queue (R117). -/
theorem sealPack_engine_begins (t : Time) (c : SealCause) (d : PackIx) {s : State} (h : s.engine.state = .idle)
    (r : s.part = .run) {x : PackIx} {xs : List PackIx} (q : s.engine.queue ++ [d] = x :: xs) :
    (s.sealPack t c d).engine = s.begun x { s.engine with queue := s.engine.queue ++ [d] } := by
  rw [sealPack_engine, beginCommit_begun (by exact h) (by exact r) (by exact q)]
  let p : Pack := { s.pack d with state := .sealing, age := .absent, sealTime := t, cause := some c }
  have k : ((s.setPack d p).pack x).serial = (s.pack x).serial := by
    by_cases f : x = d
    · subst f; rw [State.pack_setPack_same]
    · rw [State.pack_setPack_other _ _ f]
  exact congrArg (fun n => { State.begun s x { s.engine with queue := s.engine.queue ++ [d] } with
    current := some ⟨x, n⟩ }) k

/-- A seal raises the counter of its cause and no other (R101, R110). -/
theorem sealPack_counters (t : Time) (c : SealCause) (d : PackIx) (s : State) :
    (s.sealPack t c d).counters = s.counters.bumpSealed c := by
  rw [sealPack_eq]

/-- A seal request for a class with no OPEN pack has no effect (R102). -/
theorem sealClassPack_none (t : Time) (x : SealCause) {c : ClassIx} {s : State} (h : s.openPackOf c = none) :
    s.sealClassPack t x c = s := by
  rw [State.sealClassPack, h]

/-- The seal of a pack does what R101 says. -/
theorem sealPack_sealedIn (t : Time) (c : SealCause) (d : PackIx) (s : State) (h : s.membersCanonical) :
    SealedIn s (s.sealPack t c d) d t c ∧ (s.sealPack t c d).response = s.response ∧ (s.sealPack t c d).msdo = s.msdo := by
  let p : Pack := { s.pack d with state := .sealing, age := .absent, sealTime := t, cause := some c }
  have e := sealPack_eq t c d s
  have hp : ∀ x, (s.sealPack t c d).pack x = (s.setPack d p).pack x := fun x => by rw [e]; rfl
  have hm : ∀ m, (s.sealPack t c d).member m = ((s.setPack d p).fileMembers (s.pack d).members).member m := fun m => by
    rw [e]; rfl
  have hf := fun m => (hm m).trans (fileMembers_member (s.pack d).members (s.setPack d p) h m)
  have q := sealPack_engine t c d s
  refine ⟨⟨?_, fun x hx => ?_, fun m hx => ?_, fun m hx => ?_, ?_, fun h1 h2 x xs hx => ?_, fun h1 => ?_, ?_, ?_⟩, ?_, ?_⟩
  · rw [hp, State.pack_setPack_same]
  · rw [hp, State.pack_setPack_other _ _ hx]
  · rw [hf, if_pos hx]; rfl
  · rw [hf, if_neg hx]; rfl
  · rw [q, beginCommit_queue]
  · exact sealPack_engine_begins t c d h1 h2 hx
  · exact sealPack_engine_waits t c d h1
  · rw [e]
  · rw [e]
  · rw [e]
  · rw [e]

/-- A drain of an empty wait list changes nothing (R100). -/
theorem drainWaitList_nil (t : Time) {s : State} (h : s.waitList = []) : s.drainWaitList t = s := by
  rw [State.drainWaitList, h]; rfl

/-! ### Lanes -/

/-- A release pass over lanes that hold no write changes nothing (R50). -/
theorem serveLanes_nothingHeld (t : Time) (ks : List LaneIx) {s : State} (h : s.nothingHeld) : s.serveLanes t ks = s := by
  induction ks with
  | nil => rfl
  | cons k ks ih =>
    rw [State.serveLanes, h k]
    exact ih

theorem releasePass_nothingHeld (t : Time) {s : State} (h : s.nothingHeld) : s.releasePass t = s :=
  serveLanes_nothingHeld t _ h

/-! ### Commit units -/

/-- The issue of a unit that is not the last of its pack (R118). -/
theorem issueUnit_more {s : State} {cur : Current} (h : s.engine.current = some cur)
    (u : s.engine.nextUnit ≠ (s.pack cur.record).members.length + 16) :
    s.issueUnit =
      let b := buildUnit s.formerId s.tapeBlock s.members (s.pack cur.record) s.engine s.engine.nextUnit
      { s with engine := s.engine.issued b, inFlight := s.inFlight ++ [s.unitRequest cur.record s.engine.nextUnit b.bytes] } := by
  rw [State.issueUnit, h]
  exact if_neg u

/-- The issue of the last unit of a pack: the engine is SETTLING and its candidate is withdrawn (R118, R15). -/
theorem issueUnit_last {s : State} {cur : Current} (h : s.engine.current = some cur)
    (u : s.engine.nextUnit = (s.pack cur.record).members.length + 16) :
    s.issueUnit =
      let b := buildUnit s.formerId s.tapeBlock s.members (s.pack cur.record) s.engine s.engine.nextUnit
      { s with engine := { s.engine.issued b with state := .settling },
               inFlight := s.inFlight ++ [s.unitRequest cur.record s.engine.nextUnit b.bytes],
               arbiter := { s.arbiter with run := 0, burst := none } } := by
  rw [State.issueUnit, h]
  exact if_pos u

end Sys2Proof.Machine
end

