-- ==== Sys2Proof/Laws/View.lean ====
section
/-!
SUPPORT. What the operations of the View Translator keep.
-/

namespace Sys2Proof.Machine

theorem keeps_bindSlot (t : Time) (j : SlotIx) (d : PackIx) (s : State) : Keeps s (s.bindSlot t j d) := by
  unfold State.bindSlot
  exact (keeps_raise _ _ _).then ((keeps_setPack d _ _ (by exact .same _ _)).then
    (keeps_setSlot j _ s (by exact .arm _ fun l => l.idle)))

theorem keeps_bindSlots (t : Time) (n : Nat) (s : State) : Keeps s (s.bindSlots t n) := by
  induction n generalizing s with
  | zero => exact .refl s
  | succ n ih =>
    rw [State.bindSlots]
    split
    · exact (ih _).then ((keeps_bindSlot _ _ _ _).then (Keeps.free s _ _ _ _ _ _ _ _ _ _))
    · exact .refl s

theorem keeps_bindReady (t : Time) (s : State) : Keeps s (s.bindReady t) := keeps_bindSlots t 4 s

theorem keeps_takeWritten (t : Time) (j : SlotIx) (b : Binding) (tag : Nat) (tape : BitVec 128) (s : State) :
    Keeps s (s.takeWritten t j b tag tape) := by
  unfold State.takeWritten
  exact (keeps_send _ _ _).then ((keeps_bindReady _ _).then ((keeps_raise _ _ _).then
    ((assembles_drainWaitList _ _).toKeeps.then ((keeps_count raises_released _).then
    ((assembles_freeRecord _ _).toKeeps.then ((keeps_setSlot j _ _ (by exact .absent _ _)).then
    ((passes_releasePack _ _ _).toKeeps.then (keeps_setPack _ _ s (by exact .same _ _)))))))))

theorem keeps_unbind (t : Time) (j : SlotIx) (b : Binding) (c : ReturnCause) (s : State) : Keeps s (s.unbind t j b c) := by
  unfold State.unbind
  exact (keeps_raise _ _ _).then ((keeps_count raises_returned _).then ((keeps_setSlot j _ _ (by exact .absent _ _)).then
    ((Keeps.free _ _ _ _ _ _ _ _ _ _ _).then (keeps_setPack _ _ s (by exact .same _ _)))))

theorem keeps_takeReturned (t : Time) (j : SlotIx) (b : Binding) (tag : Nat) (s : State) :
    Keeps s (s.takeReturned t j b tag) := by
  unfold State.takeReturned
  exact (keeps_send _ _ _).then ((keeps_bindReady _ _).then (keeps_unbind _ _ _ _ s))

theorem keeps_takeIdle (t : Time) (j : SlotIx) (b : Binding) (s : State) : Keeps s (s.takeIdle t j b) := by
  unfold State.takeIdle
  exact (keeps_bindReady _ _).then ((keeps_count raises_idleReturn _).then (keeps_unbind _ _ _ _ s))

theorem keeps_takePendingDisposition (t : Time) (j : SlotIx) (s : State) : Keeps s (s.takePendingDisposition t j) := by
  unfold State.takePendingDisposition
  split
  · split
    · exact keeps_takeWritten _ _ _ _ _ s
    · exact keeps_takeReturned _ _ _ _ s
    · exact .refl s
  · exact .refl s

theorem keeps_takePendingIdle (t : Time) (j : SlotIx) (s : State) : Keeps s (s.takePendingIdle t j) := by
  unfold State.takePendingIdle
  split
  · split
    · exact keeps_takeIdle _ _ _ s
    · exact .refl s
  · exact .refl s

theorem keeps_refuseDisposition (t : Time) (j : SlotIx) (r : DispositionReason) (tag : Nat) (s : State) :
    Keeps s (((s.raise t (.dispositionRefused j r)).count Counters.bumpDispositionRefused).send tag .refused) :=
  (keeps_send _ _ _).then ((keeps_count raises_dispositionRefused _).then (keeps_raise _ _ s))

theorem keeps_takeDisposition (t : Time) (j : SlotIx) (o tag : Nat) (bytes : List Byte) (s : State) :
    Keeps s (s.takeDisposition t j o tag bytes) := by
  unfold State.takeDisposition
  dsimp only
  split
  · exact keeps_refuseDisposition _ _ _ _ s
  · split
    · exact keeps_refuseDisposition _ _ _ _ s
    · split
      · exact keeps_refuseDisposition _ _ _ _ s
      · split
        · exact keeps_refuseDisposition _ _ _ _ s
        · split
          · split
            · exact keeps_takeWritten _ _ _ _ _ s
            · exact keeps_takeReturned _ _ _ _ s
          · exact keeps_setSlot j _ s (by exact .absent _ _)

theorem keeps_refuseRead (tag : Nat) (s : State) : Keeps s (s.refuseRead tag) := by
  unfold State.refuseRead
  exact (keeps_send _ _ _).then (keeps_count raises_readRefused s)

theorem keeps_serveRead (j : SlotIx) (b : Binding) (o n tag : Nat) (s : State) : Keeps s (s.serveRead j b o n tag) := by
  unfold State.serveRead
  have h := keeps_setSlot j { s.slot j with idle := Deadline.arm s.clock s.idleLimit } s
    (.arm _ fun l => l.idle)
  dsimp only
  split
  · exact (keeps_send _ _ _).then ((keeps_count raises_served _).then h)
  · exact (Keeps.free _ _ _ _ _ _ _ _ _ _ _).then ((keeps_setSlot j _ _ (by exact .same _ _)).then h)

theorem keeps_takeRead (j : SlotIx) (o n tag : Nat) (s : State) : Keeps s (s.takeRead j o n tag) := by
  unfold State.takeRead
  split
  · exact keeps_refuseRead _ s
  · split
    · exact keeps_refuseRead _ s
    · split
      · exact keeps_refuseRead _ s
      · exact keeps_serveRead _ _ _ _ _ s

theorem keeps_endRead (t : Time) (j : Option SlotIx) (s : State) : Keeps s (s.endRead t j) := by
  unfold State.endRead
  split
  · exact .refl s
  · exact (keeps_takePendingIdle _ _ _).then ((keeps_takePendingDisposition _ _ _).then
      (keeps_setSlot _ _ s (by exact .same _ _)))

theorem keeps_respondRead (t : Time) (s : State) : Keeps s (s.respondRead t) := by
  unfold State.respondRead
  split
  · exact .refl s
  · split
    · exact .refl s
    · dsimp only
      refine (keeps_endRead _ _ _).then ?_
      split
      · exact (keeps_send _ _ _).then ((keeps_count raises_readFault _).then (Keeps.free s _ _ _ _ _ _ _ _ _ _))
      · exact (keeps_send _ _ _).then ((keeps_count raises_served _).then (Keeps.free s _ _ _ _ _ _ _ _ _ _))

theorem keeps_answerPart (t : Time) (a : MemAnswer) (s : State) : Keeps s (s.answerPart t a) := by
  unfold State.answerPart
  split
  · exact .refl s
  · exact (keeps_respondRead _ _).then (Keeps.free s _ _ _ _ _ _ _ _ _ _)

/-! ### Bindings -/

theorem slot_bindSlot_other (t : Time) (j i : SlotIx) (d : PackIx) (s : State) (h : i ≠ j) :
    (s.bindSlot t j d).slot i = s.slot i := by
  unfold State.bindSlot State.raise State.slot State.setSlot State.setPack
  dsimp only; split <;> simp [Ne.symm h, Fin.val_ne_of_ne]

theorem slot_bindSlot_self (t : Time) (j : SlotIx) (d : PackIx) (s : State) :
    ((s.bindSlot t j d).slot j).bound ≠ none := by
  unfold State.bindSlot State.raise State.slot State.setSlot State.setPack
  dsimp only; split <;> simp

theorem window_bindSlot (t : Time) (j : SlotIx) (d : PackIx) (s : State) : (s.bindSlot t j d).window = s.window := by
  unfold State.bindSlot State.raise; dsimp only; split <;> rfl

/-- The enabled FREE slots. -/
def State.freeSlots (s : State) : List SlotIx := allSlots.filter (fun j => s.slotEnabled j && (s.slot j).bound.isNone)

theorem freeSlot_eq (s : State) : s.freeSlot = s.freeSlots.head? := by
  unfold State.freeSlot State.freeSlots; rw [List.head?_filter]

theorem freeSlots_bindSlot (t : Time) (j : SlotIx) (d : PackIx) (s : State) :
    (s.bindSlot t j d).freeSlots = s.freeSlots.filter (fun i => decide (i ≠ j)) := by
  unfold State.freeSlots
  rw [List.filter_filter]
  refine List.filter_congr fun i _ => ?_
  have w : (s.bindSlot t j d).slotEnabled i = s.slotEnabled i := by unfold State.slotEnabled; rw [window_bindSlot]
  rw [w]
  by_cases e : i = j
  · subst e
    have := slot_bindSlot_self t i d s
    cases h : ((s.bindSlot t i d).slot i).bound <;> simp_all
  · rw [slot_bindSlot_other t j i d s e]; simp [e]

/-- More rounds than enabled FREE slots change nothing. -/
theorem bindSlots_enough (t : Time) (n m : Nat) (s : State) (h : s.freeSlots.length ≤ n) (hm : n ≤ m) :
    s.bindSlots t m = s.bindSlots t n := by
  induction m generalizing s n with
  | zero => rw [Nat.le_zero.1 hm]
  | succ m ih =>
    cases hq : s.readyQueue with
    | nil =>
      cases n with
      | zero => rw [State.bindSlots, State.bindSlots, hq]
      | succ n => rw [State.bindSlots, State.bindSlots, hq]
    | cons d ds =>
      cases hf : s.freeSlot with
      | none =>
        cases n with
        | zero => rw [State.bindSlots, State.bindSlots, hq, hf]
        | succ n => rw [State.bindSlots, State.bindSlots, hq, hf]
      | some j =>
        have hj : s.freeSlots.head? = some j := freeSlot_eq s ▸ hf
        obtain ⟨js, hjs⟩ : ∃ js, s.freeSlots = j :: js := by
          cases e : s.freeSlots with
          | nil => simp [e] at hj
          | cons a as => simp [e] at hj; exact ⟨as, by rw [hj]⟩
        cases n with
        | zero => simp [hjs] at h
        | succ n =>
          rw [State.bindSlots, State.bindSlots, hq, hf]
          refine ih n _ ?_ (by omega)
          rw [freeSlots_bindSlot]
          have : State.freeSlots { s with readyQueue := ds } = j :: js := hjs
          rw [this, List.filter_cons_of_neg (by simp)]
          have h2 := List.length_filter_le (fun i => decide (i ≠ j)) js
          rw [hjs] at h; simp at h; omega

/-- The bindings of an event when a pack is ready and a slot is FREE: the first binding, and then the rest (R131). -/
theorem bindReady_cons (t : Time) {s : State} {d : PackIx} {ds : List PackIx} {j : SlotIx} (hq : s.readyQueue = d :: ds)
    (hf : s.freeSlot = some j) :
    s.bindReady t = State.bindReady t (State.bindSlot t j d { s with readyQueue := ds }) := by
  have h : (State.freeSlots (State.bindSlot t j d { s with readyQueue := ds })).length ≤ 3 := by
    rw [freeSlots_bindSlot]
    have hl : s.freeSlots.length ≤ 4 := List.length_filter_le _ _
    have hj : s.freeSlots.head? = some j := freeSlot_eq s ▸ hf
    have : State.freeSlots { s with readyQueue := ds } = s.freeSlots := rfl
    rw [this]
    cases e : s.freeSlots with
    | nil => simp [e] at hj
    | cons a as =>
      simp [e] at hj; subst hj
      rw [List.filter_cons_of_neg (by simp)]
      have h2 := List.length_filter_le (fun i => decide (i ≠ a)) as
      rw [e] at hl; simp at hl; omega
  unfold State.bindReady
  rw [bindSlots_enough t 3 4 _ h (by omega)]
  conv_lhs => rw [State.bindSlots, hq, hf]

/-- With nothing ready, or no enabled FREE slot, there is no binding (R131). -/
theorem bindReady_same (t : Time) {s : State} (h : s.readyQueue = [] ∨ s.freeSlot = none) : s.bindReady t = s := by
  unfold State.bindReady; rw [State.bindSlots]
  rcases h with h | h
  · rw [h]
  · rw [h]; cases s.readyQueue <;> rfl

/-- The slot of a binding is the lowest enabled FREE one (R131). -/
theorem freeSlot_some {s : State} {j : SlotIx} (he : s.slotEnabled j = true) (hb : (s.slot j).bound = none)
    (hl : ∀ i : SlotIx, i < j → s.slotEnabled i = true → (s.slot i).bound ≠ none) : s.freeSlot = some j := by
  unfold State.freeSlot allSlots
  have n : ∀ i : SlotIx, i < j → (s.slotEnabled i && (s.slot i).bound.isNone) = false := fun i hi => by
    cases e : s.slotEnabled i with
    | false => rfl
    | true =>
      cases e2 : (s.slot i).bound with
      | none => exact absurd e2 (hl i hi e)
      | some b => rfl
  have y : (s.slotEnabled j && (s.slot j).bound.isNone) = true := by rw [he, hb]; rfl
  obtain rfl | rfl | rfl | rfl : j = 0 ∨ j = 1 ∨ j = 2 ∨ j = 3 := by clear * -; revert j; decide
  · exact List.find?_cons_of_pos y
  · rw [List.find?_cons_of_neg (by rw [n 0 (by decide)]; decide)]
    exact List.find?_cons_of_pos y
  · rw [List.find?_cons_of_neg (by rw [n 0 (by decide)]; decide), List.find?_cons_of_neg (by rw [n 1 (by decide)]; decide)]
    exact List.find?_cons_of_pos y
  · rw [List.find?_cons_of_neg (by rw [n 0 (by decide)]; decide), List.find?_cons_of_neg (by rw [n 1 (by decide)]; decide),
      List.find?_cons_of_neg (by rw [n 2 (by decide)]; decide)]
    exact List.find?_cons_of_pos y

theorem freeSlot_none {s : State} (h : ∀ j : SlotIx, s.slotEnabled j = true → (s.slot j).bound ≠ none) :
    s.freeSlot = none := by
  unfold State.freeSlot
  rw [List.find?_eq_none]
  intro j _
  cases e : s.slotEnabled j with
  | false => simp
  | true =>
    cases e2 : (s.slot j).bound with
    | none => exact absurd e2 (h j e)
    | some b => simp

theorem raise_engine (t : Time) (b : EventBody) (e : Engine) (s : State) :
    State.raise t b { s with engine := e } = { s.raise t b with engine := e } := by
  unfold State.raise; dsimp only; split <;> rfl

/-- Bindings leave the engine alone, whatever it is (R131). -/
theorem bindSlots_engine (t : Time) (n : Nat) (e : Engine) (s : State) :
    State.bindSlots t n { s with engine := e } = { s.bindSlots t n with engine := e } := by
  induction n generalizing s with
  | zero => rfl
  | succ n ih =>
    have hf : State.freeSlot { s with engine := e } = s.freeSlot := rfl
    rw [State.bindSlots, State.bindSlots, hf]
    dsimp only
    split
    · rename_i d ds j _ _
      rw [← ih]
      congr 1
      unfold State.bindSlot
      rw [← raise_engine]; rfl
    · rfl

theorem bindReady_engine (t : Time) (e : Engine) (s : State) :
    State.bindReady t { s with engine := e } = { s.bindReady t with engine := e } := bindSlots_engine t 4 e s

end Sys2Proof.Machine
end

