-- ==== Sys2Proof/Laws/Commit.lean ====
section
/-!
SUPPORT. What the operations of the Directory Commit Engine and the Port Arbiter keep.
-/

namespace Sys2Proof.Machine

/-- A change of the run count and the burst of an ISSUING engine. -/
theorem keeps_arbiter (run : Nat) (burst : Option Nat) (s : State)
    (h : s.engine.state ≠ .issuing → s.arbiterQuiet → run = 0 ∧ burst = none) :
    Keeps s { s with arbiter := { s.arbiter with run := run, burst := burst } } :=
  { Keeps.refl s with
    quiet := fun g i => h i g
    regions := .of_eq rfl rfl rfl, stopping := .rfl, events := id, members := id, holds := id
    counters := ⟨.refl _, fun _ => .refl _⟩
    deadlines := fun _ a => ⟨a.ages, a.holds, a.idles⟩, dues := ⟨fun _ _ => id, fun _ _ => id, fun _ _ => id⟩ }

/-- R118: an issued unit. -/
theorem keeps_issueUnit (s : State) (h : s.engine.state = .issuing) : Keeps s s.issueUnit := by
  unfold State.issueUnit
  split
  · exact .refl s
  · rename_i c hc
    have h1 : ∀ b l, Keeps s { s with engine := s.engine.issued b, inFlight := l } := fun b l =>
      (Keeps.free _ _ _ _ _ _ _ _ _ _ _).then (keeps_engine (s.engine.issued b) s (by exact .rfl) (by exact id))
    dsimp only
    generalize buildUnit s.formerId s.tapeBlock s.members (s.pack c.record) s.engine s.engine.nextUnit = b
    split
    · refine Keeps.trans (h1 b _) (keeps_engine_withdraw _ _ ?_)
      simp [Engine.issued, h]
    · exact h1 b _

theorem keeps_forwardGrant (c : Nat) (s : State) (h : s.engine.state ≠ .issuing → c = 0) :
    Keeps s (s.forwardGrant c) := by
  unfold State.forwardGrant
  split
  · exact .refl s
  · exact (Keeps.free _ _ _ _ _ _ _ _ _ _ _).then (keeps_arbiter c s.arbiter.burst s fun i g => ⟨h i, (g i).2⟩)

theorem keeps_commitGrant (s : State) (h : s.engine.state = .issuing) : Keeps s s.commitGrant := by
  unfold State.commitGrant
  split
  · exact (keeps_issueUnit _ (by exact h)).then (keeps_arbiter 0 _ s fun i _ => absurd h i)
  · exact (keeps_issueUnit _ (by exact h)).then (keeps_arbiter 0 _ s fun i _ => absurd h i)

theorem State.hasCandidate_iff (s : State) : s.hasCandidate = true ↔ s.engine.state = .issuing := by
  simp [State.hasCandidate]

theorem keeps_grant (s : State) : Keeps s s.grant := by
  unfold State.grant
  split
  · exact .refl s
  · split
    · split
      · exact keeps_commitGrant s (s.hasCandidate_iff.1 ‹_›)
      · exact .refl s
    · split
      · exact keeps_forwardGrant 0 s fun _ => rfl
      · rename_i h
        have h : s.engine.state = .issuing := s.hasCandidate_iff.1 (by simpa using h)
        split
        · exact keeps_forwardGrant _ s fun i => absurd h i
        · exact keeps_commitGrant s h

theorem keeps_issueBurstUnit (s : State) : Keeps s s.issueBurstUnit := by
  unfold State.issueBurstUnit
  split
  · exact .refl s
  · split
    · have h := s.hasCandidate_iff.1 ‹_›
      exact (keeps_issueUnit _ (by exact h)).then (keeps_arbiter s.arbiter.run _ s fun i _ => absurd h i)
    · exact .refl s

theorem keeps_commitReady (t : Time) (c : Current) (s : State) (h : s.engine.state = .settling) :
    Keeps s (s.commitReady t c) := by
  unfold State.commitReady
  refine (keeps_bindReady _ _).then ((keeps_count raises_committed _).then ((keeps_raise _ _ _).then ?_))
  let s1 := s.setPack c.record { s.pack c.record with state := .ready }
  have h1 : Keeps s s1 := keeps_setPack c.record _ s (.same _ _)
  have h2 := keeps_engine (s1.engine.ended c.record) s1 (by simp [s1, Engine.ended, h]) (by simp [s1, h])
  exact (h1.trans h2).trans (Keeps.free _ _ _ _ _ (s1.readyQueue ++ [c.record]) _ _ _ _ _)

theorem keeps_commitFailed (t : Time) (c : Current) (s : State) (h : s.engine.state = .settling) :
    Keeps s (s.commitFailed t c) := by
  unfold State.commitFailed
  refine (keeps_count raises_commitFailed _).then ((keeps_raise _ _ _).then ?_)
  let s1 := s.setPack c.record { s.pack c.record with state := .failed }
  have h1 : Keeps s s1 := keeps_setPack c.record _ s (.same _ _)
  exact h1.trans (keeps_engine (s1.engine.ended c.record) s1 (by simp [s1, Engine.ended, h]) (by simp [s1, h]))

theorem keeps_beginAfterEnd (s : State) : Keeps s s.beginAfterEnd := by
  unfold State.beginAfterEnd
  dsimp only
  split
  · exact (keeps_engine _ _ (by exact .rfl) (by exact id)).then (assembles_beginCommit s).toKeeps
  · exact (assembles_beginCommit s).toKeeps

theorem keeps_endCommit (t : Time) (s : State) : Keeps s (s.endCommit t) := by
  unfold State.endCommit
  split
  · rename_i h
    split
    · exact .refl s
    · refine (keeps_beginAfterEnd _).then ?_
      split
      · exact keeps_commitReady _ _ s h.1
      · exact keeps_commitFailed _ _ s h.1
  · exact .refl s

theorem keeps_suspend (t : Time) (s : State) (h : s.engine.state ≠ .stopping) : Keeps s (s.suspend t) := by
  unfold State.suspend
  split
  · exact .refl s
  · exact (keeps_raise _ _ _).then (keeps_engine_withdraw _ s (by simp [h]))

theorem keeps_endSuspending (t : Time) (s : State) : Keeps s (s.endSuspending t) := by
  unfold State.endSuspending
  split
  · rename_i h
    refine keeps_suspend t s fun e => ?_
    simp [State.suspendDue, e] at h
  · exact .refl s

theorem keeps_engineOnset (t : Time) (s : State) : Keeps s (s.engineOnset t) := by
  unfold State.engineOnset
  split
  · rename_i h
    split
    · exact keeps_engine_withdraw _ s (by simp [h, Engine.unbegun])
    · split
      · exact keeps_suspend t s (by simp [h])
      · exact keeps_engine_withdraw _ s (by simp [h])
  · exact .refl s

theorem keeps_engineRelease (s : State) : Keeps s s.engineRelease := by
  unfold State.engineRelease
  split
  · rename_i h; exact keeps_engine _ s (by simp [h]) (fun q => absurd rfl q)
  · rename_i h; exact keeps_engine _ s (by simp [h]) (fun q => absurd rfl q)
  · exact (assembles_beginCommit s).toKeeps
  · exact .refl s

theorem keeps_endDiscarding (t : Time) (d : PackIx) (s : State) : Keeps s (s.endDiscarding t d) := by
  unfold State.endDiscarding
  split
  · exact (assembles_drainWaitList _ _).toKeeps.then ((assembles_freeRecord _ _).toKeeps.then
      (keeps_engine _ s (by exact .rfl) (by exact id)))
  · exact .refl s

theorem keeps_unitFaulted (u : Nat) (s : State) : Keeps s (s.unitFaulted u) := by
  unfold State.unitFaulted
  exact (keeps_count raises_unitFault _).then (keeps_engine _ s (by exact .rfl) (by exact id))

theorem keeps_answerForwarded (tag : Nat) (w : Bool) (a : MemAnswer) (s : State) : Keeps s (s.answerForwarded tag w a) := by
  unfold State.answerForwarded
  split
  · exact keeps_send _ _ s
  · exact (keeps_send _ _ _).then (keeps_count raises_memoryFault s)

/-- RESTART completes or nothing happens (R169). -/
theorem endRestart_cases (s : State) : s.endRestart = s ∨ s.restartDue = true ∧ s.endRestart = s.finishRestart := by
  unfold State.endRestart; split
  · exact .inr ⟨‹_›, rfl⟩
  · exact .inl rfl

theorem restartDue_stopping {s : State} (h : s.restartDue = true) : s.engine.state = .stopping := by
  simp only [State.restartDue, Bool.and_eq_true, decide_eq_true_eq] at h; exact h.1

/-- An answer to a commit unit, while no RESTART waits. -/
theorem keeps_answerUnit (t : Time) (d : PackIx) (u : Nat) (a : MemAnswer) (s : State) (h : s.engine.state ≠ .stopping) :
    Keeps s (s.answerUnit t d u a) := by
  unfold State.answerUnit
  rw [if_neg h]
  split
  · exact (keeps_endDiscarding _ _ _).then (keeps_engine _ s (by exact .rfl) (by exact id))
  · dsimp only
    refine (keeps_endSuspending _ _).then ((keeps_endCommit _ _).then ?_)
    have h1 := keeps_engine s.engine.lowerInFlight s .rfl id
    split
    · exact h1
    · exact (keeps_unitFaulted _ _).then h1

/-- A memory answer, while no RESTART waits. -/
theorem keeps_takeAnswer (t : Time) (a : MemAnswer) (s : State) (h : s.engine.state ≠ .stopping) :
    Keeps s (s.takeAnswer t a) := by
  unfold State.takeAnswer
  split
  · exact .refl s
  · have h1 : ∀ l, Keeps s { s with inFlight := l } := fun l => Keeps.free s _ _ _ _ _ _ _ _ _ _
    dsimp only
    split
    · exact (keeps_answerForwarded _ _ _ _).then (h1 _)
    · exact (keeps_answerPart _ _ _).then (h1 _)
    · exact (keeps_answerUnit _ _ _ _ _ (by exact h)).then (h1 _)

end Sys2Proof.Machine
end

