-- ==== Sys2Proof/Laws/Upstream.lean ====
section
/-!
SUPPORT. What the upstream port, the clock's expiries and the parts of management commands keep.
-/

namespace Sys2Proof.Machine

/-! ### The upstream port -/

theorem keeps_countLane (k : LaneIx) (f : LaneCounters → LaneCounters) (s : State)
    (h : ∀ c, LaneCounters.Le c (f c)) : Keeps s (s.mapLane k (fun l => l.count f)) :=
  (parses_mapLane k _ s rfl rfl rfl rfl rfl (h _)).toKeeps

theorem keeps_refuseEdge (k : LaneIx) (tag : Nat) (s : State) : Keeps s (s.refuseEdge k tag) := by
  unfold State.refuseEdge
  exact (keeps_send _ _ _).then (keeps_countLane k _ s fun c => by simp [LaneCounters.Le, LaneCounters.all, le_satAdd])

theorem keeps_refuseStray (k : LaneIx) (tag : Nat) (s : State) : Keeps s (s.refuseStray k tag) := by
  unfold State.refuseStray
  exact (keeps_send _ _ _).then (keeps_countLane k _ s fun c => by simp [LaneCounters.Le, LaneCounters.all, le_satAdd])

theorem keeps_refuseHoldFull (k : LaneIx) (tag : Nat) (s : State) : Keeps s (s.refuseHoldFull k tag) := by
  unfold State.refuseHoldFull
  exact (keeps_send _ _ _).then (keeps_countLane k _ s fun c => by simp [LaneCounters.Le, LaneCounters.all, le_satAdd])

theorem keeps_holdFirst (k : LaneIx) (w : HeldWrite) (s : State) : Keeps s (s.holdFirst k w) :=
  keeps_setLane k _ s ⟨rfl, rfl, rfl, fun _ _ => by simp [Config.holdPlaces], .arm _ fun l => l.hold,
    .refl _⟩

/-- A queue that holds fewer than 4 writes takes one more (R44). -/
theorem keeps_holdBehind (k : LaneIx) (w : HeldWrite) (s : State) (h : (s.lane k).hold.length < Config.holdPlaces) :
    Keeps s (s.holdBehind k w) :=
  keeps_setLane k _ s ⟨rfl, rfl, rfl, fun _ _ => by simpa using h, .same _ _, .refl _⟩

theorem keeps_takeLaneWrite (t : Time) (k : LaneIx) (w : HeldWrite) (s : State) : Keeps s (s.takeLaneWrite t k w) := by
  unfold State.takeLaneWrite
  dsimp only
  split
  · exact keeps_refuseEdge _ _ s
  · split
    · exact keeps_refuseStray _ _ s
    · split
      · split
        · exact (parses_acceptWrite _ _ _ s).toKeeps
        · exact keeps_holdFirst _ _ s
      · split
        · exact keeps_holdBehind _ _ s ‹_›
        · exact keeps_refuseHoldFull _ _ s

theorem keeps_takeRequest (r : Request) (s : State) : Keeps s (s.takeRequest r) := by
  unfold State.takeRequest
  split
  · exact (keeps_send _ _ _).then (keeps_count raises_range s)
  · exact (keeps_send _ _ _).then (keeps_count raises_straddle s)
  · exact (keeps_send _ _ _).then (keeps_count raises_placement s)
  · exact (parses_forward _ s).toKeeps
  · exact keeps_takeLaneWrite _ _ _ s
  · exact keeps_takeRead _ _ _ _ s
  · exact keeps_takeDisposition _ _ _ _ _ s

theorem keeps_serveBus (rs : List Request) (s : State) : Keeps s (s.serveBus rs) := by
  induction rs generalizing s with
  | nil => exact .refl s
  | cons r rs ih =>
    rw [State.serveBus]
    split
    · exact (ih _).then ((keeps_takeRequest _ _).then (Keeps.free s _ _ _ _ _ _ _ _ _ _))
    · exact .refl s

theorem keeps_refill (s : State) : Keeps s s.refill := keeps_serveBus s.bus s

theorem keeps_arrive (r : Request) (s : State) : Keeps s (s.arrive r) :=
  (keeps_refill _).then (Keeps.free s _ _ _ _ _ _ _ _ _ _)

/-! ### Expiries -/

theorem sameHold_enterSeek (l : Lane) : SameHold l l.enterSeek := ⟨rfl, rfl, rfl, rfl, rfl, rfl, rfl⟩

theorem keeps_enterSeek (k : LaneIx) (s : State) : Keeps s (s.mapLane k Lane.enterSeek) :=
  (sameHold_enterSeek (s.lane k)).parses.toKeeps

theorem keeps_expireHold (v : Time) (k : LaneIx) (s : State) : Keeps s (s.expireHold v k) := by
  unfold State.expireHold
  dsimp only
  refine Keeps.trans ?_ (passes_releasePass v _).toKeeps
  refine Keeps.trans ?_ (keeps_enterSeek k _)
  refine Keeps.trans ?_ (passes_breakMember v .holdExpired k _).toKeeps
  refine Keeps.trans ((keeps_refuseHeld k s).trans (keeps_raise _ _ _)) (keeps_countLane k _ _ fun c => ?_)
  simp [LaneCounters.Le, LaneCounters.all, le_satAdd]

theorem keeps_expireIdle (v : Time) (j : SlotIx) (b : Binding) (s : State) : Keeps s (s.expireIdle v j b) := by
  unfold State.expireIdle
  have h := keeps_setSlot j { s.slot j with idle := .absent } s (.absent _ _)
  dsimp only
  split
  · exact (keeps_takeIdle _ _ _ _).then h
  · exact (keeps_setSlot j _ _ (by exact .same _ _)).then h

theorem keeps_takeHoldExpiry (k : LaneIx) (s : State) : Keeps s (s.takeHoldExpiry k) := by
  unfold State.takeHoldExpiry
  split
  · exact (keeps_refill _).then (keeps_expireHold _ _ s)
  · exact .refl s

theorem keeps_takeAgeExpiry (d : PackIx) (s : State) : Keeps s (s.takeAgeExpiry d) := by
  unfold State.takeAgeExpiry
  split
  · split
    · exact (assembles_sealPack _ _ _ s).toKeeps
    · exact keeps_setPack d _ s (.absent _ _)
  · exact .refl s

theorem keeps_takeIdleExpiry (j : SlotIx) (s : State) : Keeps s (s.takeIdleExpiry j) := by
  unfold State.takeIdleExpiry
  split
  · split
    · exact keeps_expireIdle _ _ _ s
    · exact keeps_setSlot j _ s (.absent _ _)
  · exact .refl s

/-- A chain of operations that each keep. -/
theorem keeps_foldl {α : Type} (f : State → α → State) (h : ∀ u x, Keeps u (f u x)) (l : List α) (s : State) :
    Keeps s (l.foldl f s) := by
  induction l generalizing s with
  | nil => exact .refl s
  | cons x l ih => exact (h s x).trans (ih _)

theorem keeps_takeDue (s : State) : Keeps s s.takeDue := by
  unfold State.takeDue
  exact (keeps_foldl _ (fun u j => keeps_takeIdleExpiry j u) _ _).then ((keeps_foldl _ (fun u d => keeps_takeAgeExpiry d u) _ _).then
    (keeps_foldl _ (fun u k => keeps_takeHoldExpiry k u) _ s))

/-! ### Parts of management commands -/

theorem keeps_drainClasses (t : Time) (cs : List ClassIx) (s : State) : Keeps s (s.drainClasses t cs) := by
  induction cs generalizing s with
  | nil => exact .refl s
  | cons c cs ih =>
    rw [State.drainClasses]
    exact (ih _).then (assembles_sealClassPack _ _ _ s).toKeeps

theorem State.isCurrent_state {s : State} {d : PackIx} (h : s.isCurrent d = true) : ∃ c, s.engine.current = some c := by
  unfold State.isCurrent at h; split at h
  · exact ⟨_, ‹_›⟩
  · simp at h

/-- A pack leaves the commit queue (R106, R125). A STOPPING engine has no current pack to drop. -/
theorem keeps_leaveCommit (d : PackIx) (s : State) (h : s.isCurrent d = true → s.engine.state ≠ .stopping) :
    Keeps s (s.leaveCommit d) := by
  unfold State.leaveCommit
  dsimp only
  split
  · rename_i hc
    exact (assembles_beginCommit _).toKeeps.then (keeps_engine_withdraw _ s (by
      simp only [Engine.dropped]; simp [h hc]))
  · exact keeps_engine _ s .rfl id

theorem keeps_leaveStructure (d : PackIx) (s : State) (h : s.isCurrent d = true → s.engine.state ≠ .stopping) :
    Keeps s (s.leaveStructure d) := by
  unfold State.leaveStructure
  split
  · exact Keeps.free s _ _ _ _ _ _ _ _ _ _
  · exact keeps_leaveCommit _ s h
  · exact keeps_setPack d _ s (.absent _ _)
  · exact .refl s

theorem keeps_discardWhole (t : Time) (d : PackIx) (s : State) (h : s.isCurrent d = true → s.engine.state ≠ .stopping) :
    Keeps s (s.discardWhole t d) := by
  unfold State.discardWhole
  exact (assembles_drainWaitList _ _).toKeeps.then ((keeps_count (raises_discarded _) _).then
    ((assembles_freeRecord _ _).toKeeps.then ((passes_releasePack _ _ _).toKeeps.then (keeps_leaveStructure _ s h))))

theorem keeps_discardInFlight (t : Time) (d : PackIx) (s : State) (h : s.isCurrent d = true → s.engine.state ≠ .stopping) :
    Keeps s (s.discardInFlight t d) := by
  unfold State.discardInFlight
  dsimp only
  generalize hd : ({ s.engine with discards := s.engine.discards ++ [⟨d, s.engine.unitsInFlight⟩] } : Engine) = e
  have h1 : Keeps s { s with engine := e } := keeps_engine e s (by rw [← hd]) (by rw [← hd]; exact id)
  have h2 : Keeps s (State.leaveCommit d { s with engine := e }) :=
    h1.trans (keeps_leaveCommit d _ (by simp only [State.isCurrent, ← hd]; exact h))
  have h3 := h2.trans (passes_releasePack t d _).toKeeps
  generalize State.releasePack t d (State.leaveCommit d { s with engine := e }) = u at h3 ⊢
  exact (h3.trans (keeps_setPack d { u.pack d with state := .discarding } u (.same _ _))).trans (keeps_count (raises_discarded false) _)

theorem sameHold_restarted (l : Lane) : SameHold l l.restarted := ⟨rfl, rfl, rfl, rfl, rfl, rfl, rfl⟩

theorem keeps_mapRestarted (k : LaneIx) (s : State) : Keeps s (s.mapLane k Lane.restarted) :=
  (sameHold_restarted (s.lane k)).parses.toKeeps

theorem keeps_restartLane (t : Time) (k : LaneIx) (s : State) : Keeps s (s.restartLane t k) := by
  unfold State.restartLane
  have h : Keeps s (((s.refuseHeld k).breakMember t .restart k).mapLane k Lane.restarted) :=
    (keeps_mapRestarted k _).then ((passes_breakMember _ _ _ _).toKeeps.then (keeps_refuseHeld k s))
  dsimp only
  split
  · exact (passes_releasePass _ _).toKeeps.then h
  · exact h

theorem keeps_refusePending (js : List SlotIx) (s : State) : Keeps s (s.refusePending js) := by
  induction js generalizing s with
  | nil => exact .refl s
  | cons j js ih =>
    rw [State.refusePending]
    refine (ih _).then ?_
    split
    · exact keeps_send _ _ s
    · exact keeps_send _ _ s
    · exact .refl s

/-- R147: the View Translator at RESTART. -/
theorem keeps_clearView (s : State) : Keeps s s.clearView := by
  unfold State.clearView
  refine Keeps.trans (keeps_refusePending allSlots s) ?_
  dsimp only
  generalize s.refusePending allSlots = u
  have h : Keeps u { u with slots := Vector.replicate 4 {}, packs := u.packs.map Pack.failedByRestart } :=
    { Keeps.refl u with
      regions := .of_eq rfl rfl rfl, stopping := .rfl, quiet := id, events := id, members := id, holds := id
      counters := ⟨.refl _, fun _ => .refl _⟩
      deadlines := fun _ a => ⟨fun d => by
        have h := a.ages d
        simp only [State.pack, Fin.getElem_fin, Vector.getElem_map, Pack.failedByRestart] at h ⊢
        split <;> exact h, a.holds, fun j => by
        simp only [State.slot, Fin.getElem_fin, Vector.getElem_replicate]; trivial⟩
      dues := ⟨fun d v => by
        simp only [State.pack, Fin.getElem_fin, Vector.getElem_map, Pack.failedByRestart]
        split <;> exact id, fun _ _ => id, fun j v e => by
        simp [State.slot] at e⟩ }
  exact h.trans (Keeps.free _ _ _ _ _ _ _ _ _ _ _)

end Sys2Proof.Machine
end

