-- ==== Sys2Proof/Laws/Clock.lean ====
section
/-!
SUPPORT. What a tick does: with nothing due it moves the clock, and it has what is due taken first (log entry 11).
-/

namespace Sys2Proof.Machine

/-- An armed deadline is not due (R152). -/
theorem Deadline.arm_ne_due (now : Time) (limit : Nat) (v : Time) : Deadline.arm now limit ≠ .due v := by
  unfold Deadline.arm; split <;> exact fun h => nomatch h

/-- A lane that has taken its expiry has no due deadline. -/
theorem takeHoldExpiry_notDue (k : LaneIx) (s : State) (v : Time) : ((s.takeHoldExpiry k).lane k).holdDeadline ≠ .due v := by
  unfold State.takeHoldExpiry
  split
  · rename_i w _
    intro e
    have h0 : ((s.refuseHeld k).lane k).holdDeadline = .absent := by simp [State.refuseHeld, State.mapLane]
    have h1 := (keeps_refill _).dues.holds k v e
    unfold State.expireHold at h1
    dsimp only at h1
    have h2 := (passes_releasePass w _).dues.holds k v h1
    have h3 := (keeps_enterSeek k _).dues.holds k v h2
    have h4 := (passes_breakMember w _ k _).dues.holds k v h3
    have h4' : ((State.raise w (.holdExpired k (s.lane k).hold.length (s.lane k).cursor)
        (s.refuseHeld k)).lane k).holdDeadline = .due v := by
      simpa [State.mapLane, Lane.count] using h4
    have h5 := (keeps_raise w _ (s.refuseHeld k)).dues.holds k v h4'
    rw [h0] at h5
    cases h5
  · rename_i h
    exact h v

/-- A pack record whose expiry has been taken has no due deadline. -/
theorem takeAgeExpiry_notDue (d : PackIx) (s : State) (v : Time) : ((s.takeAgeExpiry d).pack d).age ≠ .due v := by
  unfold State.takeAgeExpiry
  split
  · rename_i w _
    split
    · have e := sealPack_eq w .age d s
      intro h
      rw [e] at h
      simp [State.pack] at h
    · simp
  · rename_i h
    exact h v

/-- The expiry of an idle deadline leaves no due deadline. -/
theorem expireIdle_notDue (v : Time) (j : SlotIx) (b : Binding) (s : State) (w : Time) :
    ((s.expireIdle v j b).slot j).idle ≠ .due w := by
  intro h
  unfold State.expireIdle at h
  dsimp only at h
  split at h
  · have h1 := (keeps_takeIdle v j b _).dues.idles j w h
    simp at h1
  · simp at h

/-- A slot that has taken its expiry has no due deadline. -/
theorem takeIdleExpiry_notDue (j : SlotIx) (s : State) (v : Time) : ((s.takeIdleExpiry j).slot j).idle ≠ .due v := by
  unfold State.takeIdleExpiry
  split
  · split
    · exact expireIdle_notDue _ j _ s v
    · simp
  · exact fun e => (‹∀ v, (s.slot j).idle = .due v → False› v e).elim

/-- Along a chain of operations none of which makes a deadline due, a deadline taken once is not due at the end. -/
theorem foldl_notDue {α : Type} (f : State → α → State) (keeps : ∀ u x, Keeps u (f u x)) (notDue : State → Prop)
    (kept : ∀ u w, Keeps u w → notDue u → notDue w) (l : List α) (x : α) (hx : x ∈ l) (taken : ∀ u, notDue (f u x))
    (s : State) : notDue (l.foldl f s) := by
  induction l generalizing s with
  | nil => cases hx
  | cons y l ih =>
    rw [List.foldl_cons]
    rcases List.mem_cons.1 hx with h | h
    · subst h
      exact kept _ _ (keeps_foldl f keeps l _) (taken s)
    · exact ih h _

theorem mem_allLanes (k : LaneIx) : k ∈ allLanes := by revert k; decide
theorem mem_allPacks (d : PackIx) : d ∈ allPacks := List.mem_finRange d
theorem mem_allSlots (j : SlotIx) : j ∈ allSlots := by revert j; decide

/-- After every expiry has been taken, nothing is due. -/
theorem nothingDue_takeDue (s : State) : s.takeDue.nothingDue := by
  have k1 := fun u : State => keeps_foldl _ (fun u k => keeps_takeHoldExpiry k u) allLanes u
  have k2 := fun u : State => keeps_foldl _ (fun u d => keeps_takeAgeExpiry d u) allPacks u
  have k3 := fun u : State => keeps_foldl _ (fun u j => keeps_takeIdleExpiry j u) allSlots u
  unfold State.takeDue
  refine ⟨fun d v h => ?_, fun k v h => ?_, fun j v => ?_⟩
  · refine foldl_notDue (fun u d => u.takeAgeExpiry d) (fun u d => keeps_takeAgeExpiry d u)
      (fun u => (u.pack d).age ≠ .due v) (fun u w g n e => n (g.dues.ages d v e)) allPacks d (mem_allPacks d)
      (fun u => takeAgeExpiry_notDue d u v) _ ((k3 _).dues.ages d v h)
  · exact foldl_notDue (fun u k => u.takeHoldExpiry k) (fun u k => keeps_takeHoldExpiry k u)
      (fun u => (u.lane k).holdDeadline ≠ .due v) (fun u w g n e => n (g.dues.holds k v e)) allLanes k (mem_allLanes k)
      (fun u => takeHoldExpiry_notDue k u v) _ ((k2 _).dues.holds k v ((k3 _).dues.holds k v h))
  · exact foldl_notDue (fun u j => u.takeIdleExpiry j) (fun u j => keeps_takeIdleExpiry j u)
      (fun u => (u.slot j).idle ≠ .due v) (fun u w g n e => n (g.dues.idles j v e)) allSlots j (mem_allSlots j)
      (fun u => takeIdleExpiry_notDue j u v) _

theorem takeHoldExpiry_of {k : LaneIx} {s : State} (h : ∀ v, (s.lane k).holdDeadline ≠ .due v) :
    s.takeHoldExpiry k = s := by
  unfold State.takeHoldExpiry; split
  · exact absurd ‹_› (h _)
  · rfl

theorem takeAgeExpiry_of {d : PackIx} {s : State} (h : ∀ v, (s.pack d).age ≠ .due v) : s.takeAgeExpiry d = s := by
  unfold State.takeAgeExpiry; split
  · exact absurd ‹_› (h _)
  · rfl

theorem takeIdleExpiry_of {j : SlotIx} {s : State} (h : ∀ v, (s.slot j).idle ≠ .due v) : s.takeIdleExpiry j = s := by
  unfold State.takeIdleExpiry; split
  · exact absurd ‹_› (h _)
  · rfl

theorem foldl_same {α : Type} (f : State → α → State) (l : List α) {s : State} (h : ∀ x, f s x = s) : l.foldl f s = s := by
  induction l with
  | nil => rfl
  | cons x l ih => rw [List.foldl_cons, h x, ih]

/-- With nothing due, nothing is taken. -/
theorem takeDue_of_nothingDue {s : State} (h : s.nothingDue) : s.takeDue = s := by
  unfold State.takeDue
  rw [foldl_same _ allLanes fun k => takeHoldExpiry_of (h.holds k)]
  dsimp only
  rw [foldl_same _ allPacks fun d => takeAgeExpiry_of (h.ages d)]
  rw [foldl_same _ allSlots fun j => takeIdleExpiry_of (h.idles j)]

/-- A tick below the end of the clock: what is due is taken, and the clock moves (R150, log entry 11). -/
theorem tick_eq {s : State} (h : s.clock ≠ timeMax) : s.tick = s.takeDue.advanceClock := if_neg h

/-- Every expiry command in order is the taking of all that is due. -/
theorem foldl_carriedOut_expiries (s : State) :
    (allLanes.map Instr.holdExpiry ++ allPacks.map Instr.ageExpiry ++ allSlots.map Instr.idleExpiry).foldl State.carriedOut s
      = s.takeDue := by
  rw [List.foldl_append, List.foldl_append, List.foldl_map, List.foldl_map, List.foldl_map]
  rfl

/-- R153, R156, R159: a tick makes due only what equals the new clock. -/
theorem duesNow_advanceClock {s : State} (h : s.nothingDue) : s.advanceClock.duesNow := by
  have on : ∀ (d : Deadline) (v : Time), (∀ w, d ≠ .due w) → d.onTick (s.clock + 1) = .due v → v = s.clock + 1 := by
    intro d v hd e
    cases d with
    | pending w => simp only [Deadline.onTick] at e; split at e <;> simp_all
    | due w => exact absurd rfl (hd w)
    | absent => cases e
    | dormant => cases e
  have hc : s.advanceClock.clock = s.clock + 1 := by unfold State.advanceClock; dsimp only; split <;> simp
  refine ⟨fun d v e => ?_, fun k v e => ?_, fun j v e => ?_⟩
  · rw [hc]
    refine on _ v (h.ages d) ?_
    unfold State.advanceClock at e; dsimp only at e
    split at e <;> simpa [State.pack] using e
  · rw [hc]
    refine on _ v (h.holds k) ?_
    unfold State.advanceClock at e; dsimp only at e
    split at e <;> simpa [State.lane] using e
  · rw [hc]
    refine on _ v (h.idles j) ?_
    unfold State.advanceClock at e; dsimp only at e
    split at e <;> simpa [State.slot] using e

end Sys2Proof.Machine
end

