-- ==== Sys2Proof/Laws/Engine.lean ====
section
/-!
SUPPORT. What a DRAIN, a discard and a RESTART make of the commit engine and of what it shares with them.
-/

namespace Sys2Proof.Machine

/-! ### DRAIN -/

/-- The seal of pack `d`, OPEN in class `c`, leaves the OPEN packs of the other classes as they were (R97, R101). -/
theorem openPackOf_sealPack_other (t : Time) (x : SealCause) {d : PackIx} {c c' : ClassIx} {s : State}
    (h : s.openPackOf c = some d) (n : c' ≠ c) : (s.sealPack t x d).openPackOf c' = s.openPackOf c' := by
  have hc : (s.pack d).cls = c := by
    have := List.find?_some h
    simpa using (Bool.and_eq_true_iff.1 this).2
  let p : Pack := { s.pack d with state := .sealing, age := .absent, sealTime := t, cause := some x }
  have hp : ∀ e, (s.sealPack t x d).pack e = (s.setPack d p).pack e := fun e => by rw [sealPack_eq]; rfl
  unfold State.openPackOf
  congr 1
  funext e
  rw [hp]
  by_cases f : e = d
  · subst f
    rw [State.pack_setPack_same]
    simp [p, hc, n.symm]
  · rw [State.pack_setPack_other _ _ f]

/-- A DRAIN makes of the engine what R116 and R117 say: the OPEN packs join its queue in the order of their classes, and the
first of them has an IDLE engine in RUN begin the head of the queue. -/
theorem drainClasses_engine (t : Time) (cs : List ClassIx) (hn : cs.Nodup) (s : State) :
    let opens := cs.filterMap s.openPackOf
    let e : Engine := { s.engine with queue := s.engine.queue ++ opens }
    (opens = [] ∨ s.engine.state ≠ .idle ∨ s.part ≠ .run → (s.drainClasses t cs).engine = e) ∧
    (∀ (x : PackIx) (xs : List PackIx), opens ≠ [] → s.engine.state = .idle → s.part = .run → e.queue = x :: xs →
      (s.drainClasses t cs).engine = s.begun x e) := by
  induction cs generalizing s with
  | nil => refine ⟨fun _ => ?_, fun x xs h => absurd rfl h⟩; simp [State.drainClasses]
  | cons c cs ih =>
    obtain ⟨hc, hn⟩ := List.nodup_cons.1 hn
    dsimp only
    rw [State.drainClasses]
    cases hd : s.openPackOf c with
    | none =>
      have e : s.sealClassPack t .drain c = s := by rw [State.sealClassPack, hd]
      rw [e, List.filterMap_cons_none hd]
      exact ih hn s
    | some d =>
      have e : s.sealClassPack t .drain c = s.sealPack t .drain d := by rw [State.sealClassPack, hd]
      have o : cs.filterMap (s.sealPack t .drain d).openPackOf = cs.filterMap s.openPackOf :=
        List.filterMap_congr fun c' m => openPackOf_sealPack_other t .drain hd (fun q => hc (q ▸ m))
      obtain ⟨i1, i2⟩ := ih hn (s.sealPack t .drain d)
      rw [o] at i1 i2
      have hp : (s.sealPack t .drain d).part = s.part := by rw [sealPack_eq]
      rw [e, List.filterMap_cons_some hd]
      refine ⟨fun h => ?_, fun x xs _ h1 h2 q => ?_⟩
      · have w := sealPack_engine_waits t .drain d (h.resolve_left (List.cons_ne_nil _ _))
        rw [i1 (Or.inr (by rw [w, hp]; exact h.resolve_left (List.cons_ne_nil _ _))), w]
        simp
      · obtain ⟨y, ys, hy⟩ : ∃ y ys, s.engine.queue ++ [d] = y :: ys := by cases s.engine.queue <;> simp
        have hx : (s.engine.queue ++ [d]) ++ cs.filterMap s.openPackOf = x :: xs := by simpa using q
        rw [hy, List.cons_append] at hx
        obtain rfl : y = x := (List.cons.inj hx).1
        have w := sealPack_engine_begins t .drain d h1 h2 hy
        rw [i1 (Or.inr (Or.inl (by rw [w]; simp [State.begun]))), w]
        simp [State.begun]

/-! ### DISCARD_PACK -/

/-- A pack behind the current one leaves the commit queue, and nothing else of the engine changes (R125). -/
theorem leaveCommit_behind {s : State} {d : PackIx} (h : ∀ cur, s.engine.current = some cur → cur.record ≠ d) :
    s.leaveCommit d = { s with
      engine := { s.engine with queue := s.engine.queue.filter (fun x => decide (x ≠ d)) } } := by
  have hc : s.isCurrent d = false := by
    unfold State.isCurrent
    split
    · exact decide_eq_false (h _ ‹_›)
    · rfl
  unfold State.leaveCommit
  dsimp only
  rw [hc]
  rfl

/-- The current pack that leaves the commit queue is dropped, and the candidate withdrawn (R125, R15). -/
theorem leaveCommit_current {s : State} {cur : Current} (h : s.engine.current = some cur) :
    ∃ e : Engine, DroppedIn s e cur.record s.engine.discards ∧
      s.leaveCommit cur.record = { s with engine := e, arbiter := { s.arbiter with run := 0, burst := none } } := by
  have hc : s.isCurrent cur.record = true := by unfold State.isCurrent; rw [h]; exact decide_eq_true rfl
  let dropped : Engine :=
    { queue := s.engine.queue.filter (fun x => decide (x ≠ cur.record)), discards := s.engine.discards }
  let u : State := { s with engine := dropped, arbiter := { s.arbiter with run := 0, burst := none } }
  have e : s.leaveCommit cur.record = u.beginCommit := by unfold State.leaveCommit; dsimp only; rw [hc]; rfl
  refine ⟨u.beginCommit.engine, ⟨fun w => ?_, fun x xs r q => ?_⟩, ?_⟩
  · rcases w with w | w
    · rw [beginCommit_same (by exact fun g => w g.2)]
    · rw [beginCommit_nil (by exact w)]
  · rw [beginCommit_begun rfl (by exact r) (by exact q)]
    simp only [State.begun, u, dropped, q]
    rfl
  · rw [e, beginCommit_eq]

/-! ### RESTART -/

/-- The refusal of pending disposition writes sends responses and changes nothing else (R147). -/
theorem refusePending_eq (js : List SlotIx) (s : State) : s.refusePending js =
    let refusals := js.flatMap (fun j => match (s.slot j).pending with
      | some (.written tag _) => [(⟨tag, .refused⟩ : UpResponse)]
      | some (.returned tag _) => [⟨tag, .refused⟩]
      | _ => [])
    { s with sent := s.sent ++ refusals } := by
  induction js generalizing s with
  | nil => simp [State.refusePending]
  | cons j js ih =>
    rw [State.refusePending, ih, List.flatMap_cons]
    split <;> simp_all [State.send, State.slot]

end Sys2Proof.Machine
end

