-- ==== Sys2Proof/Laws/PerInstr.lean ====
section
/-!
SUPPORT. What holds of every command as syntax: the length of its frame on the management link, and that no table word
spells it.
-/

namespace Sys2Proof.Laws.Operands

/-- A well-formed management command is a frame of 3 to 67 bytes (R160), and no word of the opcode table spells the command,
since no row has bits. -/
def Statement (i : Instr) : Prop :=
  (i.wellFormed = true → ∀ n, Machine.frameBytes i = some n → 3 ≤ n ∧ n ≤ 67) ∧
  ∀ nbits w, decodeTableWord nbits w ≠ some i

/-- A command with no frame on the management link. -/
theorem statement_of_noFrame {i : Instr} (h : Machine.frameBytes i = none) : Statement i :=
  ⟨fun _ _ hn => (nomatch h.symm.trans hn), fun _ _ h => nomatch h⟩

/-- A command with a frame of `n` bytes. -/
theorem statement_of_frame {i : Instr} {n : Nat} (h : Machine.frameBytes i = some n) (hn : 3 ≤ n ∧ n ≤ 67) : Statement i :=
  ⟨fun _ m hm => by rw [h] at hm; cases hm; exact hn, fun _ _ h => nomatch h⟩

theorem powerOn : Statement .powerOn := statement_of_noFrame rfl

theorem resetbAssertion : Statement .resetbAssertion := statement_of_noFrame rfl

theorem resetbRelease : Statement .resetbRelease := statement_of_noFrame rfl

theorem quiesceOnset : Statement .quiesceOnset := statement_of_noFrame rfl

theorem quiesceRelease : Statement .quiesceRelease := statement_of_noFrame rfl

theorem upstreamRequest (r : Request) : Statement (.upstreamRequest r) := statement_of_noFrame rfl

theorem grant : Statement .grant := statement_of_noFrame rfl

theorem burstUnitIssue : Statement .burstUnitIssue := statement_of_noFrame rfl

theorem memoryResponse (a : MemAnswer) : Statement (.memoryResponse a) := statement_of_noFrame rfl

theorem viewReadResponse : Statement .viewReadResponse := statement_of_noFrame rfl

theorem commitEnd : Statement .commitEnd := statement_of_noFrame rfl

theorem commitSuspended : Statement .commitSuspended := statement_of_noFrame rfl

theorem discardingEnd (record : PackIx) : Statement (.discardingEnd record) := statement_of_noFrame rfl

theorem pendingDispositionTaken (slot : SlotIx) : Statement (.pendingDispositionTaken slot) := statement_of_noFrame rfl

theorem pendingIdleReturn (slot : SlotIx) : Statement (.pendingIdleReturn slot) := statement_of_noFrame rfl

theorem restartCompletion : Statement .restartCompletion := statement_of_noFrame rfl

theorem packClockTick : Statement .packClockTick := statement_of_noFrame rfl

theorem holdExpiry (lane : LaneIx) : Statement (.holdExpiry lane) := statement_of_noFrame rfl

theorem ageExpiry (record : PackIx) : Statement (.ageExpiry record) := statement_of_noFrame rfl

theorem idleExpiry (slot : SlotIx) : Statement (.idleExpiry slot) := statement_of_noFrame rfl

theorem commandFrameDiscard (bytes : List Byte) (edges : FrameEdges) : Statement (.commandFrameDiscard bytes edges) :=
  statement_of_noFrame rfl

theorem unknownCommand (code : Byte) (payload : List Byte) : Statement (.unknownCommand code payload) := by
  refine ⟨fun h n hn => ?_, fun _ _ h => nomatch h⟩
  have hp : payload.length ≤ 64 := by
    simp only [Instr.wellFormed, Config.commandBuffer, Bool.and_eq_true] at h
    exact of_decide_eq_true h.2
  simp only [Machine.frameBytes] at hn
  split at hn
  · cases hn
  · cases hn; omega

theorem responseRead (span : ReadSpan) : Statement (.responseRead span) := statement_of_noFrame rfl

theorem readPart : Statement .readPart := statement_of_frame rfl (by decide)

theorem readLane (lane : Byte) : Statement (.readLane lane) := statement_of_frame rfl (by decide)

theorem readPack (record : Byte) : Statement (.readPack record) := statement_of_frame rfl (by decide)

theorem setLane (lane enabled exponent : Byte) (base : Addr) : Statement (.setLane lane enabled exponent base) :=
  statement_of_frame rfl (by decide)

theorem setWindows (viewBase : Addr) (mask : Byte) (dirBase : Addr) : Statement (.setWindows viewBase mask dirBase) :=
  statement_of_frame rfl (by decide)

theorem setSerial (serial : Word32) (former : BitVec 16) (tb : Word32) : Statement (.setSerial serial former tb) :=
  statement_of_frame rfl (by decide)

theorem setClass (cls enabled : Byte) (target cap : BitVec 16) (age : Word32) (tag : Byte) :
    Statement (.setClass cls enabled target cap age tag) :=
  statement_of_frame rfl (by decide)

theorem setLimits (hold idle : Word32) (share mode : Byte) : Statement (.setLimits hold idle share mode) :=
  statement_of_frame rfl (by decide)

theorem setClock (p : Time) : Statement (.setClock p) := statement_of_frame rfl (by decide)

theorem start : Statement .start := statement_of_frame rfl (by decide)

theorem restart : Statement .restart := statement_of_frame rfl (by decide)

theorem sealClass (cls : Byte) : Statement (.sealClass cls) := statement_of_frame rfl (by decide)

theorem drain : Statement .drain := statement_of_frame rfl (by decide)

theorem discardPack (record : Byte) (serial : Word32) : Statement (.discardPack record serial) :=
  statement_of_frame rfl (by decide)

theorem recommitPack (record : Byte) (serial : Word32) : Statement (.recommitPack record serial) :=
  statement_of_frame rfl (by decide)

theorem laneRestart (lane : Byte) : Statement (.laneRestart lane) := statement_of_frame rfl (by decide)

theorem popEvent : Statement .popEvent := statement_of_frame rfl (by decide)

theorem setAttentionMask (mask : BitVec 16) : Statement (.setAttentionMask mask) := statement_of_frame rfl (by decide)

theorem quiesceLineIgnored (level : Bool) : Statement (.quiesceLineIgnored level) := statement_of_noFrame rfl

end Sys2Proof.Laws.Operands
end

