-- ==== Sys2Proof/Laws/Reports.lean ====
section
/-!
SUPPORT. The part record as a sequence of fields, each a size and a value (R163), and the censuses as counts over all
records.
-/

namespace Sys2Proof.Machine

/-- The bytes of a sequence of fields, each a size and a value, without gaps. -/
def fieldBytes (l : List (Nat × Nat)) : List Byte := l.flatMap (fun x => le x.1 x.2)

theorem fieldBytes_nil : fieldBytes [] = [] := rfl

theorem fieldBytes_cons (n v : Nat) (l : List (Nat × Nat)) : fieldBytes ((n, v) :: l) = le n v ++ fieldBytes l := rfl

theorem fieldBytes_append (l m : List (Nat × Nat)) : fieldBytes (l ++ m) = fieldBytes l ++ fieldBytes m :=
  List.flatMap_append

theorem fieldBytes_flatMap {α : Type} (l : List α) (f : α → List (Nat × Nat)) :
    fieldBytes (l.flatMap f) = l.flatMap (fun x => fieldBytes (f x)) := List.flatMap_assoc

theorem fieldBytes_map {α : Type} (l : List α) (f : α → Nat × Nat) :
    fieldBytes (l.map f) = l.flatMap (fun x => le (f x).1 (f x).2) := by
  rw [fieldBytes, List.flatMap_map]

theorem zeroBytes_eq (n : Nat) : zeroBytes n = le n 0 := by
  induction n with
  | zero => rfl
  | succ n ih => rw [le, ← ih]; rfl

theorem le_byte (b : Byte) : le 1 b.toNat = [b] := by simp [le]

theorem le_flag (b : Bool) : le 1 (if b then 1 else 0) = [flagByte b] := by cases b <;> rfl

theorem optionBytes_none (n : Nat) : optionBytes n none = fieldBytes [(1, 0), (n, 0)] := by
  simp [optionBytes, fieldBytes, zeroBytes_eq]

theorem optionBytes_some (n v : Nat) : optionBytes n (some v) = fieldBytes [(1, 1), (n, v)] := by
  simp [optionBytes, fieldBytes]

theorem listBytes_eq (n : Nat) (l : List Nat) :
    listBytes n l = fieldBytes ((2, l.length) :: l.map (fun x => (n, x))) := by
  rw [fieldBytes_cons, fieldBytes_map]; rfl

/-- What the engine works on, in the part record. -/
theorem currentBytes_eq (c : Option Current) : currentBytes c = fieldBytes (match c with
    | none => [(1, 0), (1, 0), (4, 0)]
    | some c => [(1, 1), (1, c.record.val), (4, c.serial.toNat)]) := by cases c <;> rfl

/-- What a slot is bound to, in the part record. -/
theorem bindingBytes_eq (b : Option Binding) : bindingBytes b = fieldBytes (match b with
    | none => [(1, 0), (1, 0), (4, 0), (4, 0)]
    | some b => [(1, 1), (1, b.record.val), (4, b.serial.toNat), (4, b.length)]) := by cases b <;> rfl

/-- A class in the part record (Table 11-6). -/
theorem classBytes_eq (c : ClassIx) (k : PackClass) : classBytes c k = fieldBytes
    [(1, c.val), (1, if k.enabled then 1 else 0), (2, k.target), (2, k.cap), (4, k.ageLimit), (1, k.retention.toNat)] := by
  simp only [classBytes, fieldBytes_cons, fieldBytes_nil, le_flag, le_byte, List.append_nil, List.append_assoc]

/-- The commit engine in the part record (R116). -/
theorem report_eq (e : Engine) : e.report = fieldBytes ((1, e.state.code) :: (match e.current with
    | none => [(1, 0), (1, 0), (4, 0)]
    | some c => [(1, 1), (1, c.record.val), (4, c.serial.toNat)]) ++
    [(2, e.nextUnit), (2, e.unitsInFlight), (2, e.faults)] ++
    ((2, (e.queue.map Fin.val).length) :: (e.queue.map Fin.val).map (fun x => (1, x))) ++
    (2, e.discards.length) :: e.discards.flatMap (fun x => [(1, x.record.val), (2, x.units)])) := by
  rw [List.cons_append, List.cons_append, List.cons_append, fieldBytes_cons, fieldBytes_append, fieldBytes_append,
    fieldBytes_append, ← currentBytes_eq, ← listBytes_eq, fieldBytes_cons 2 e.discards.length, fieldBytes_flatMap]
  simp only [Engine.report, fieldBytes_cons, fieldBytes_nil, List.append_nil, List.append_assoc]

/-- The settings at the beginning of the part record (R163). -/
def State.settingFields (s : State) : List (Nat × Nat) :=
  [(1, s.part.code), (1, if s.quiesceLine then 1 else 0), (8, s.clock.toNat),
   (1, if decide (s.clock = timeMax) then 1 else 0), (1, s.events.length), (1, if s.overflow then 1 else 0),
   (2, s.attentionMask.toNat), (2, s.formerId.toNat), (4, s.tapeBlock), (4, s.serialNext.toNat), (4, s.holdLimit),
   (4, s.idleLimit), (4, s.arbiter.share), (1, s.arbiter.mode.code), (8, s.window.base.toNat),
   (1, if s.window.set then 1 else 0), (1, s.window.mask.toNat), (8, s.directory.base.toNat),
   (1, if s.directory.set then 1 else 0)]

/-- The first half of the part record is the settings and the classes (R163). -/
theorem partSettings_eq (s : State) : s.partSettings =
    fieldBytes s.settingFields ++ (List.finRange 8).flatMap (fun c => classBytes c (s.cls c)) := by
  have h : List.finRange 8 = allClasses := by decide
  rw [h]
  unfold State.partSettings State.settingFields
  rw [← le_flag s.quiesceLine, ← le_flag (decide (s.clock = timeMax)), ← le_flag s.overflow, ← le_flag s.window.set,
    ← le_flag s.directory.set]
  simp only [fieldBytes_cons, fieldBytes_nil, List.append_nil, List.append_assoc]

/-- The second half of the part record is its parts one after another (R163). -/
theorem partTables_eq (s : State) : s.partTables =
    fieldBytes ((s.memberCensus ++ s.packCensus).map (fun n => (2, n))) ++
    (le 2 s.waitList.length ++ optionBytes 1 (s.waitList.head?.map (fun m => (s.member m).cls.val))) ++
    s.engine.report ++ listBytes 1 (s.readyQueue.map Fin.val) ++
    (List.finRange 4).flatMap (fun j => s.slotReport j) ++
    fieldBytes (s.counters.all.map (fun c => (4, c.toNat))) := by
  have h : List.finRange 4 = allSlots := by decide
  rw [fieldBytes_map, fieldBytes_map, List.flatMap_append, h]
  simp only [State.partTables, State.headClass, counterBytes, List.append_assoc]

/-- A slot in the part record (R146); its idle deadline follows the fields. -/
theorem slotReport_eq (s : State) (j : SlotIx) : s.slotReport j = fieldBytes (
    [(1, if s.slotEnabled j then 1 else 0), (1, (Config.slotStateCode (s.slot j).bound.isSome).toNat)] ++
    (match (s.slot j).bound with
      | none => [(1, 0), (1, 0), (4, 0), (4, 0)]
      | some b => [(1, 1), (1, b.record.val), (4, b.serial.toNat), (4, b.length)]) ++
    [(1, (s.slot j).reads), (1, pendingCode (s.slot j).pending)]) ++ (s.slot j).idle.bytes := by
  rw [fieldBytes_append, fieldBytes_append, ← bindingBytes_eq]
  simp only [State.slotReport, fieldBytes_cons, fieldBytes_nil, le_flag, le_byte, List.append_nil, List.append_assoc,
    List.cons_append, List.nil_append]

/-- The Member Table census counts the records in each state (R74). -/
theorem memberCensus_eq {s : State} (h : s.membersCanonical) : s.memberCensus =
    (List.finRange 4096).countP (fun m => decide (s.member m = {})) ::
    [MemberState.receiving, .waiting, .packed, .filed, .released].map (fun p =>
      (List.finRange 4096).countP (fun m => decide ((s.member m).state = p))) := by
  have c : ∀ x : MemberState, x ≠ .free →
      MemberTable.countIn s.members x = (List.finRange 4096).countP (fun m => decide ((s.member m).state = x)) := fun x hx =>
    (MemberTable.countP_get h (fun m => decide (m.state = x)) (decide_eq_false (Ne.symm hx))).symm
  have f : MemberTable.freeCount s.members = (List.finRange 4096).countP (fun m => decide (s.member m = {})) :=
    MemberTable.freeCount_eq h
  rw [State.memberCensus, f, c _ (by decide), c _ (by decide), c _ (by decide), c _ (by decide), c _ (by decide)]
  rfl

end Sys2Proof.Machine
end

