-- ==== Sys2Proof/Laws/Requests.lean ====
section
/-!
SUPPORT. What the upstream port and the Lane Parsers do with a request: taking, regions, refusals of held writes, the effect
of an accepted write on its lane.
-/

namespace Sys2Proof.Machine

/-- A well-formed request has 1 to 4,096 bytes. -/
theorem wellFormed_len {r : Request} (h : r.wellFormed = true) : 1 ≤ r.len ∧ r.len ≤ 4096 := by
  simpa [Request.wellFormed, Bool.and_eq_true, decide_eq_true_eq] using h

/-- A request that arrives at a port with room, and no other waiting, is taken at once (R2). -/
theorem exec_upstreamRequest_takesNow {s : State} {r : Request} (h : s.takesNow) (w : r.wellFormed = true) :
    exec (.upstreamRequest r) s = .next (s.takeRequest r) := by
  have hl := wellFormed_len w
  have hn : ¬ (r.len = 0 ∨ 4096 < r.len) := by omega
  have hb : ({ s with bus := [] } : State) = s := by cases s; simpa using h.free.symm
  have ha : s.arrive r = s.takeRequest r := by
    simp only [State.arrive, h.free, List.nil_append, State.refill, State.serveBus]
    rw [if_pos (by exact h.room)]
    rw [hb]
  simp only [exec, execUpstreamRequest, if_neg hn, h.high, ha]
  rfl

/-- An address in a lane region: the lane is enabled and covers it (R6). -/
theorem regionOf_lane {s : State} {a : Nat} {k : LaneIx} (h : s.regionOf a = .lane k) :
    (s.lane k).enabled = true ∧ (s.lane k).base.toNat ≤ a ∧ a < (s.lane k).base.toNat + (s.lane k).size := by
  unfold State.regionOf at h
  split at h
  · rename_i j hj
    cases h
    simpa [covers, and_assoc] using List.find?_some hj
  · split at h
    · cases h
    · split at h <;> cases h

/-- Within one aligned block of 8 MiB every address lies in the same region, since every region is a union of such blocks
(Table 1-1). -/
theorem regionOf_block {s : State} (hr : s.regionsSound) (hs : s.settingsInRange) {a b : Nat} (h : a / 2 ^ 23 = b / 2 ^ 23) :
    s.regionOf a = s.regionOf b := by
  have cov : ∀ (base : Addr) (size : Nat), base.toNat % 2 ^ 23 = 0 → size % 2 ^ 23 = 0 →
      covers base size a = covers base size b := by
    intro base size h1 h2
    have e1 : base.toNat ≤ a ↔ base.toNat ≤ b := by omega
    have e2 : a < base.toNat + size ↔ b < base.toNat + size := by omega
    simp [covers, e1, e2]
  have hl : ∀ k, covers (s.lane k).base (s.lane k).size a = covers (s.lane k).base (s.lane k).size b := by
    intro k
    have hd : 2 ^ 23 ∣ (s.lane k).size := Nat.pow_dvd_pow 2 (by have := (hs.exponents k).1; omega)
    exact cov _ _ (Nat.mod_eq_zero_of_dvd (hd.trans (Nat.dvd_of_mod_eq_zero (hr.laneAligned k))))
      (Nat.mod_eq_zero_of_dvd hd)
  have hw : covers s.window.base Config.viewWindowSize a = covers s.window.base Config.viewWindowSize b := by
    have := hr.windowAligned
    exact cov _ _ (by unfold Config.viewWindowSize at this; omega) (by decide)
  have hd : covers s.directory.base Config.directorySize a = covers s.directory.base Config.directorySize b :=
    cov _ _ hr.directoryAligned (by decide)
  have hj : (a - s.window.base.toNat) / 2 ^ 31 = (b - s.window.base.toNat) / 2 ^ 31 := by
    have := hr.windowAligned
    unfold Config.viewWindowSize at this; omega
  unfold State.regionOf
  simp only [hl, hw, hd, Config.slotWindowSize, hj]

/-- A lane write in RUN that reaches its Lane Parser is taken by it (R9, R10). -/
theorem exec_reachesLane {s : State} {k : LaneIx} {tag : Nat} {addr : Addr} {data : List Byte}
    (h : s.reachesLane k tag addr data) :
    exec (.upstreamRequest (.write tag addr data)) s = .next (s.takeLaneWrite s.clock k ⟨tag, addr, data⟩) := by
  rw [exec_upstreamRequest_takesNow h.now h.formed]
  have : s.route (.write tag addr data) = .lane k := by
    unfold State.route
    rw [if_neg (by have := h.space; simp only [Request.addr, Request.len]; omega)]
    have hf : s.regionOf (Request.write tag addr data).addr.toNat = .lane k := h.first
    simp [hf, laneWriteInRun, isWriteRequest, h.run, routeIn]
  simp only [State.takeRequest, this]
  rfl

/-! ### Refusals of held writes -/

/-- Refusing held writes sends their responses and changes nothing else. -/
theorem refuseAll_eq (ws : List HeldWrite) (s : State) :
    s.refuseAll ws = { s with sent := s.sent ++ ws.map (fun w => ⟨w.tag, .refused⟩) } := by
  induction ws generalizing s with
  | nil => simp [State.refuseAll]
  | cons w ws ih => rw [State.refuseAll, ih]; simp [State.send]

theorem lane_refuseHeld (j k : LaneIx) (s : State) :
    (s.refuseHeld k).lane j = if j = k then { s.lane k with hold := [], holdDeadline := .absent } else s.lane j := by
  unfold State.refuseHeld State.mapLane
  rw [State.lane_setLane, refuseAll_eq]
  rfl

/-- Refusing the held writes of lanes empties their hold queues, cancels their deadlines and sends the responses, lane by
lane; nothing else changes. -/
theorem refuseHeldIn_spec (ks : List LaneIx) (s : State) (hn : ks.Nodup) :
    s.refuseHeldIn ks = { s with
      lanes := (s.refuseHeldIn ks).lanes,
      sent := s.sent ++ ks.flatMap (fun k => (s.lane k).hold.map (fun w => ⟨w.tag, .refused⟩)) } ∧
    ∀ k, (s.refuseHeldIn ks).lane k =
      if k ∈ ks then { s.lane k with hold := [], holdDeadline := .absent } else s.lane k := by
  induction ks generalizing s with
  | nil => simp [State.refuseHeldIn]
  | cons j ks ih =>
    rw [State.refuseHeldIn]
    have hj : j ∉ ks := (List.nodup_cons.1 hn).1
    obtain ⟨h1, h2⟩ := ih (s.refuseHeld j) (List.nodup_cons.1 hn).2
    constructor
    · rw [h1]
      have : ∀ k ∈ ks, ((s.refuseHeld j).lane k).hold.map (fun w => (⟨w.tag, .refused⟩ : UpResponse))
          = (s.lane k).hold.map (fun w => ⟨w.tag, .refused⟩) := by
        intro k hk
        have : k ≠ j := fun e => hj (e ▸ hk)
        simp [lane_refuseHeld, this]
      rw [List.flatMap_congr this]
      simp [State.refuseHeld, State.mapLane, State.setLane, refuseAll_eq, List.append_assoc]
    · intro k
      rw [h2, lane_refuseHeld]
      by_cases e : k = j
      · subst e; simp [hj]
      · simp [e]

/-! ### An accepted write and its lane -/

/-- What a result of the parse of lane `k` leaves alone: the lane's cursor, exponent and the counters that no parse moves,
every other lane, and the forwarding queue. -/
structure KeepsLane (k : LaneIx) (s t : State) : Prop where
  edge : (t.lane k).counts.edgeRefusals = (s.lane k).counts.edgeRefusals
  stray : (t.lane k).counts.strayRefusals = (s.lane k).counts.strayRefusals
  bytes : (t.lane k).counts.bytesAccepted = (s.lane k).counts.bytesAccepted
  cursor : (t.lane k).cursor = (s.lane k).cursor
  exponent : (t.lane k).exponent = (s.lane k).exponent
  others : ∀ j, j ≠ k → t.lane j = s.lane j
  forwarding : t.forwarding = s.forwarding

theorem KeepsLane.trans {k : LaneIx} {s t u : State} (h : KeepsLane k s t) (g : KeepsLane k t u) : KeepsLane k s u :=
  ⟨g.edge.trans h.edge, g.stray.trans h.stray, g.bytes.trans h.bytes, g.cursor.trans h.cursor, g.exponent.trans h.exponent,
    fun j hj => (g.others j hj).trans (h.others j hj), g.forwarding.trans h.forwarding⟩

theorem Assembles.keepsLane {s t : State} (k : LaneIx) (h : Assembles s t) : KeepsLane k s t := by
  have hl : ∀ j, t.lane j = s.lane j := fun j => by simp only [State.lane, h.lanes]
  exact ⟨by rw [hl], by rw [hl], by rw [hl], by rw [hl], by rw [hl], fun j _ => hl j, h.forwarding⟩

theorem keepsLane_mapLane {k : LaneIx} {s : State} (f : Lane → Lane)
    (h1 : (f (s.lane k)).counts.edgeRefusals = (s.lane k).counts.edgeRefusals)
    (h5 : (f (s.lane k)).counts.strayRefusals = (s.lane k).counts.strayRefusals)
    (h2 : (f (s.lane k)).counts.bytesAccepted = (s.lane k).counts.bytesAccepted)
    (h3 : (f (s.lane k)).cursor = (s.lane k).cursor) (h4 : (f (s.lane k)).exponent = (s.lane k).exponent) :
    KeepsLane k s (s.mapLane k f) := by
  have h : (s.mapLane k f).lane k = f (s.lane k) := by simp [State.mapLane]
  exact ⟨by rw [h, h1], by rw [h, h5], by rw [h, h2], by rw [h, h3], by rw [h, h4],
    fun j hj => by rw [State.mapLane, State.lane_setLane, if_neg hj], rfl⟩

theorem keepsLane_completeMember (t : Time) (k : LaneIx) (m : MemberIx) (s : State) :
    KeepsLane k s (s.completeMember t k m) :=
  (((assembles_setMember _ _ s).keepsLane k).trans (keepsLane_mapLane _ rfl rfl rfl rfl rfl)).trans
    ((assembles_assemble _ _ _).keepsLane k)

theorem keepsLane_resyncIf (t : Time) (k : LaneIx) (n : Nat) (r : Bool) (s : State) : KeepsLane k s (s.resyncIf t k n r) := by
  unfold State.resyncIf; split
  · exact (assembles_raise _ _ s).keepsLane k
  · exact (Assembles.refl s).keepsLane k

theorem keepsLane_takeFile (t : Time) (k : LaneIx) (n : Nat) (b : List Byte) (f : LeadFields) (s : State) :
    KeepsLane k s (s.takeFile t k n b f) := by
  unfold State.takeFile
  split
  · exact (Assembles.refl s).keepsLane k
  · have h : ∀ m, KeepsLane k s ((s.setMember m (newMember t k n b f)).mapLane k
        (fun l => { l with order := l.order ++ [m] })) := fun m =>
      ((assembles_setMember _ _ s).keepsLane k).trans (keepsLane_mapLane _ rfl rfl rfl rfl rfl)
    dsimp only
    split
    · exact (h _).trans (keepsLane_completeMember _ _ _ _)
    · exact (h _).trans (keepsLane_mapLane _ rfl rfl rfl rfl rfl)

theorem keepsLane_takeFound (t : Time) (k : LaneIx) (x : Option Found) (s : State) :
    KeepsLane k s (s.takeFound t k x) := by
  unfold State.takeFound
  split
  · exact (Assembles.refl s).keepsLane k
  · exact (keepsLane_resyncIf _ _ _ _ s).trans (keepsLane_takeFile _ _ _ _ _ _)
  · exact (keepsLane_resyncIf _ _ _ _ s).trans ((assembles_sealClassPack _ _ _ _).keepsLane k)
  · exact ((assembles_raise _ _ s).keepsLane k).trans (keepsLane_mapLane _ rfl rfl rfl rfl rfl)
  · unfold State.takeData
    split
    · exact (Assembles.refl s).keepsLane k
    · dsimp only
      split
      · exact ((assembles_setMember _ _ s).keepsLane k).trans (keepsLane_completeMember _ _ _ _)
      · exact (assembles_setMember _ _ s).keepsLane k

/-- R17, R23: one byte moves the cursor one position around the ring. -/
theorem cursor_scanByte (c : Vector PackClass 8) (l : Lane) (b : Byte) :
    (l.scanByte c b).1.cursor = (l.cursor + 1) % l.size := by
  unfold Lane.scanByte Lane.takeLead Lane.takeCandidate Lane.padOrLead Lane.afterFile Lane.enterSeek Lane.clearLead
  dsimp only
  repeat' split
  all_goals rfl

/-- A parse moves the cursor by the number of bytes, and leaves other lanes, the forwarding queue and the counters that no
parse moves. -/
theorem parseBytes_lane (t : Time) (k : LaneIx) (bs : List Byte) (s : State) :
    ((s.parseBytes t k bs).lane k).counts.edgeRefusals = (s.lane k).counts.edgeRefusals ∧
    ((s.parseBytes t k bs).lane k).counts.strayRefusals = (s.lane k).counts.strayRefusals ∧
    ((s.parseBytes t k bs).lane k).counts.bytesAccepted = (s.lane k).counts.bytesAccepted ∧
    ((s.parseBytes t k bs).lane k).exponent = (s.lane k).exponent ∧
    (∀ j, j ≠ k → (s.parseBytes t k bs).lane j = s.lane j) ∧ (s.parseBytes t k bs).forwarding = s.forwarding ∧
    ((s.parseBytes t k bs).lane k).cursor =
      if bs = [] then (s.lane k).cursor else ((s.lane k).cursor + bs.length) % (s.lane k).size := by
  induction bs generalizing s with
  | nil => simp [State.parseBytes]
  | cons b bs ih =>
    rw [State.parseBytes]
    have h1 := keepsLane_takeFound t k ((s.lane k).scanByte s.classes b).2 (s.setLane k ((s.lane k).scanByte s.classes b).1)
    have h0 := sameHold_scanByte s.classes (s.lane k) b
    have hk : (s.setLane k ((s.lane k).scanByte s.classes b).1).lane k = ((s.lane k).scanByte s.classes b).1 := by simp
    obtain ⟨i1, i0, i2, i3, i4, i5, i6⟩ :=
      ih ((s.setLane k ((s.lane k).scanByte s.classes b).1).takeFound t k ((s.lane k).scanByte s.classes b).2)
    refine ⟨?_, ?_, ?_, ?_, ?_, ?_, ?_⟩
    · rw [i1, h1.edge, hk, h0.counts]
    · rw [i0, h1.stray, hk, h0.counts]
    · rw [i2, h1.bytes, hk, h0.counts]
    · rw [i3, h1.exponent, hk, h0.exponent]
    · intro j hj; rw [i4 j hj, h1.others j hj, State.lane_setLane, if_neg hj]
    · rw [i5, h1.forwarding]; rfl
    · rw [i6, Lane.size, h1.exponent, h1.cursor, hk, cursor_scanByte, h0.exponent, ← Lane.size]
      by_cases e : bs = []
      · simp [e]
      · simp only [e, if_false, List.length_cons, reduceCtorEq]
        rw [Nat.mod_add_mod]; congr 1; omega

/-- R46: an accepted write moves its lane's cursor by its length, is counted by it, joins the forwarding queue, and leaves
every other lane. -/
theorem acceptWrite_lane (t : Time) (k : LaneIx) (w : HeldWrite) (s : State) (h : w.data ≠ []) :
    ((s.acceptWrite t k w).lane k).counts.edgeRefusals = (s.lane k).counts.edgeRefusals ∧
    ((s.acceptWrite t k w).lane k).counts.strayRefusals = (s.lane k).counts.strayRefusals ∧
    ((s.acceptWrite t k w).lane k).counts.bytesAccepted = satAdd (s.lane k).counts.bytesAccepted w.data.length ∧
    (∀ j, j ≠ k → (s.acceptWrite t k w).lane j = s.lane j) ∧
    (s.acceptWrite t k w).forwarding = s.forwarding ++ [⟨true, w.addr, w.data.length, w.data, .upstream w.tag⟩] ∧
    ((s.acceptWrite t k w).lane k).cursor = ((s.lane k).cursor + w.data.length) % (s.lane k).size := by
  obtain ⟨i1, i0, i2, _, i4, i5, i6⟩ := parseBytes_lane t k w.data s
  have hl : ∀ j, (s.acceptWrite t k w).lane j = if j = k then ((s.parseBytes t k w.data).lane k).count
      (fun c => { c with bytesAccepted := satAdd c.bytesAccepted w.data.length }) else (s.parseBytes t k w.data).lane j :=
    fun j => (s.parseBytes t k w.data).lane_setLane j k _
  refine ⟨?_, ?_, ?_, fun j hj => ?_, ?_, ?_⟩
  · rw [hl, if_pos rfl]; exact i1
  · rw [hl, if_pos rfl]; exact i0
  · rw [hl, if_pos rfl, ← i2]; rfl
  · rw [hl, if_neg hj, i4 j hj]
  · exact congrArg (· ++ _) i5
  · rw [hl, if_pos rfl]; exact i6.trans (by rw [if_neg h])

end Sys2Proof.Machine
end

