-- ==== Sys2Proof/Tests/Slice0.lean ====
section
/-!
SUPPORT. Tests: ill-formed commands, the spec's worked examples, one step of each family on a small state, and for every
statement a state and operands that meet its hypotheses.
-/

namespace Sys2Proof.Tests

open Sys2Proof.Machine

/-! ### Helpers -/

/-- The next state of an outcome, if it has one. -/
def after : Host.Outcome State Fault Refusal → Option State
  | .next s => some s
  | _ => none

/-- What a command makes of a part of the state. -/
def shows {α : Type} (c : Instr) (s : State) (f : State → α) : Option α := (after (exec c s)).map f

/-- A part in RUN: lane 0 at address 0 (32 MiB), view window at 8 GiB with four slots, directory area at 16 GiB, class 0
enabled. -/
def run : State :=
  { part := .run
    window := { set := true, base := 0x200000000, mask := 15 }
    directory := { set := true, base := 0x400000000 }
    classes := State.reset.classes.set 0 { enabled := true }
    lanes := State.reset.lanes.set 0 { enabled := true } }

/-- The same part in CONFIG. -/
def config : State := { run with part := .config }

/-- The same part in QUIESCED with the line asserted. -/
def quiesced : State := { run with part := .quiesced, quiesceLine := true }

/-- The same part with lane 0 replaced. -/
def runLane (l : Lane) : State := run.setLane 0 l

/-- The same part with so many one-byte writes held on lane 0. -/
def held (n : Nat) : State :=
  runLane { run.lane 0 with hold := List.replicate n ⟨1, 0, [0]⟩, holdDeadline := .pending 2000 }

/-- The same part with the commit engine as given and pack 3 of serial 9 in a state. -/
def engaged (p : PackState) (e : Engine) : State := { run.setPack 3 { state := p, serial := 9 } with engine := e }

/-- An engine with the commit of pack 3 in progress. -/
def committing (st : EngineState) (inFlight : Nat) : Engine :=
  { queue := [3], state := st, current := some ⟨3, 9⟩, nextUnit := 2, unitsInFlight := inFlight }

/-- The same part with pack 3 of serial 9 bound to slot 0, with so many reads in flight and a pending return. -/
def bound (reads : Nat) (pending : Option PendingReturn) : State :=
  (run.setPack 3 { state := .bound, serial := 9, projected := 262144, viewSlot := some 0 }).setSlot 0
    { bound := some ⟨3, 9, 262144⟩, reads := reads, pending := pending }

/-- The same part with pack 3 of class 0 OPEN. -/
def opened (age : Deadline) : State := run.setPack 3 { state := .opened, serial := 9, age := age }

/-- A record with its check of R175. -/
def withCheck (front back : List Byte) : List Byte :=
  front ++ le 2 ((131071 - wordSum (front ++ [0, 0] ++ back) % 65536) % 65536) ++ back

/-- A lead of a kind, a class and a data length (Table 2-2). -/
def lead (kind cls : Byte) (length : Nat) : List Byte :=
  withCheck (le 4 Config.leadMark ++ [kind, cls]) (le 4 length ++ zeroBytes 52)

/-- A disposition record of a kind for a serial (Table 8-3). -/
def disposition (kind serial : Nat) : List Byte :=
  withCheck (le 4 Config.dispositionMark ++ le 2 kind) (le 4 serial ++ zeroBytes 4 ++ le 16 5)

/-- A commit unit and an upstream request in flight. -/
def unit3 : MemReq := ⟨true, 0, 64, zeroBytes 64, .commitUnit 3 1⟩
def upstream7 : MemReq := ⟨false, 0, 2, [], .upstream 7⟩

theorem run_regionsSound : run.regionsSound :=
  ⟨by decide, by decide, by decide, by unfold apart; decide, by unfold apart; decide, by unfold apart; decide,
    by unfold apart; decide⟩

/-- The regions of `run` in any state. -/
theorem regionsSound_of {s : State} (hl : s.lanes = run.lanes) (hw : s.window = run.window)
    (hd : s.directory = run.directory) : s.regionsSound := by
  have e : ∀ k, s.lane k = run.lane k := fun k => by simp only [State.lane, hl]
  have h := run_regionsSound
  constructor
  · simpa only [e] using h.laneAligned
  · simpa only [hw] using h.windowAligned
  · simpa only [hd] using h.directoryAligned
  · simpa only [e] using h.lanesApart
  · simpa only [e, hw] using h.windowApart
  · simpa only [e, hd] using h.directoryApart
  · simpa only [hw, hd] using h.bothApart

theorem inRange_run (c : ClassIx) : (run.cls c).inRange :=
  ⟨by revert c; decide, by revert c; decide, by revert c; decide⟩

theorem run_settingsInRange : run.settingsInRange :=
  ⟨by decide, by decide, by decide, by decide, inRange_run, by decide⟩

theorem bound_settingsInRange (n : Nat) (p : Option PendingReturn) : (bound n p).settingsInRange :=
  ⟨run_settingsInRange.hold, run_settingsInRange.idle, run_settingsInRange.share, run_settingsInRange.tapeBlock, inRange_run,
    run_settingsInRange.exponents⟩

/-- A request of one byte lies in the region of its address. -/
theorem liesIn_byte {s : State} {r : Request} {g : Region} (h : r.len = 1) (h1 : r.addr.toNat + r.len ≤ 2 ^ 40)
    (h2 : s.regionOf r.addr.toNat = g) : s.liesIn r g := by
  refine ⟨by simp [Request.wellFormed, h], h1, fun a ha => ?_⟩
  have : a = r.addr.toNat := by unfold touches at ha; omega
  rw [this, h2]

/-- A request within one aligned block of 8 MiB lies in the region of its address. -/
theorem liesIn_block {s : State} {r : Request} {g : Region} (hr : s.regionsSound) (hs : s.settingsInRange)
    (hw : r.wellFormed = true) (h1 : r.addr.toNat + r.len ≤ 2 ^ 40)
    (hb : r.addr.toNat / 2 ^ 23 = (r.addr.toNat + r.len - 1) / 2 ^ 23) (h2 : s.regionOf r.addr.toNat = g) :
    s.liesIn r g := by
  refine ⟨hw, h1, fun a ha => ?_⟩
  unfold touches at ha
  have : a / 2 ^ 23 = r.addr.toNat / 2 ^ 23 := by omega
  rw [regionOf_block hr hs this, h2]

/-! ### Ill-formed commands -/

theorem test_ill_formed_request_no_byte : (Instr.upstreamRequest (.read 1 0 0)).wellFormed = false := by decide
theorem test_ill_formed_write_no_byte : (Instr.upstreamRequest (.write 1 0 [])).wellFormed = false := by decide
theorem test_ill_formed_request_long : (Instr.upstreamRequest (.read 1 0 4097)).wellFormed = false := by decide
theorem test_ill_formed_answer_long : (Instr.memoryResponse (.done (zeroBytes 4097))).wellFormed = false := by
  decide +kernel
theorem test_ill_formed_discard_empty : (Instr.commandFrameDiscard [] ⟨0, false⟩).wellFormed = false := by decide
theorem test_ill_formed_discard_read : (Instr.commandFrameDiscard [0xF0, 0] ⟨0, false⟩).wellFormed = false := by decide
theorem test_ill_formed_response_read : (Instr.responseRead ⟨0, true⟩).wellFormed = false := by decide
theorem test_ill_formed_unknown_known : (Instr.unknownCommand 18 []).wellFormed = false := by decide
theorem test_ill_formed_unknown_read : (Instr.unknownCommand 0xF0 []).wellFormed = false := by decide
theorem test_ill_formed_unknown_long : (Instr.unknownCommand 19 (zeroBytes 65)).wellFormed = false := by decide
theorem test_well_formed_unknown : (Instr.unknownCommand 19 (zeroBytes 64)).wellFormed = true := by decide
theorem test_no_word_spells_a_command : decodeTableWord 8 0 = none ∧ run.withFetchWord 8 0 = run := ⟨rfl, rfl⟩

/-! ### Witnesses: the step, reset, the lines -/

theorem test_witness_StepRunsFrontCommand :
    ({ run with pending := [.grant, .drain] } : State).pending = .grant :: [.drain] := rfl

theorem test_witness_EmptyQueueStepIsRefclkPeriod :
    run.pending = [] ∧ ({ run with prescaler := 49998 } : State).prescaler + 1 < 50000 ∧
    50000 ≤ ({ run with prescaler := 49999 } : State).prescaler + 1 := by decide

theorem test_witness_ResetEvents : run.resetLow = false ∧ ({ run with resetLow := true } : State).resetLow = true := by
  decide

theorem test_witness_NothingIsTakenWhileResetbLow :
    let s : State := { run with resetLow := true }
    s.resetLow = true ∧ s.bus = [] ∧ (Request.read 1 0 1).wellFormed = true ∧ (Request.read 1 0 4096).wellFormed = true ∧
    frameBytes .readPart = some 3 ∧ s.clock ≠ timeMax := by decide

theorem test_witness_QuiesceOnsetEffects :
    let premise := fun s : State =>
      s.resetLow = false ∧ s.quiesceLine = false ∧ s.part = .run ∧ s.engine.state ≠ .stopping ∧ s.events.length < 32
    premise run ∧ run.engine.state ≠ .issuing ∧
    premise (engaged .sealing (committing .issuing 1)) ∧ premise (engaged .sealing (committing .issuing 0)) ∧
    (committing .issuing 1).afterEnd = none ∧ (committing .issuing 0).afterEnd = none ∧
    (committing .issuing 0).current = some ⟨3, 9⟩ ∧
    (let begun : Engine := { committing .issuing 0 with afterEnd := some ⟨18, 0, none, {}⟩ }
     premise (engaged .sealing begun) ∧ begun.state = .issuing ∧ begun.afterEnd = some ⟨18, 0, none, {}⟩) := by decide

theorem test_witness_QuiesceReleaseAndIgnoredLevels :
    let premise := fun s : State => s.resetLow = false ∧ s.quiesceLine = true ∧ s.part = .quiesced
    let on := fun e : Engine => ({ quiesced with engine := e } : State)
    premise (on (committing .suspended 0)) ∧ premise (on (committing .suspending 1)) ∧
    premise (on (committing .settling 1)) ∧ premise (on { state := .idle, queue := [3] }) ∧ premise (on {}) ∧
    premise (on { state := .stopping }) ∧ config.part = .config := by decide

/-! ### Witnesses: upstream requests -/

theorem takesNow_run : run.takesNow := ⟨rfl, rfl, by decide⟩
theorem takesNow_config : config.takesNow := ⟨rfl, rfl, by decide⟩
theorem takesNow_quiesced : quiesced.takesNow := ⟨rfl, rfl, by decide⟩
theorem takesNow_bound : (bound 0 none).takesNow := ⟨rfl, rfl, by decide⟩
theorem takesNow_bound_idle : (bound 0 (some .idle)).takesNow := ⟨rfl, rfl, by decide⟩

theorem test_witness_RequestsAreTakenInOrderWhileRoom :
    let full := fun n : Nat => ({ run with forwarding := List.replicate n upstream7, bus := [.read 1 0 1] } : State)
    (Request.read 1 0 1).wellFormed = true ∧ (Request.read 1 0 4096).wellFormed = true ∧
    (Request.read 1 0 0).wellFormed = false ∧ (Request.read 1 0 4097).wellFormed = false ∧ run.bus = [] ∧
    96 ≤ (full 96).outstanding ∧ (full 95).outstanding < 96 ∧ (full 95).bus = [.read 1 0 1] := by decide +kernel

theorem test_witness_RangeRefusal :
    run.takesNow ∧ (Request.read 1 0xFFFFFFFFFF 2).wellFormed = true ∧ 2 ^ 40 < (0xFFFFFFFFFF : Addr).toNat + 2 ∧
    (0xFFFFFFFFFF : Addr).toNat + 1 ≤ 2 ^ 40 := ⟨takesNow_run, by decide⟩

theorem test_witness_StraddleRefusal :
    run.takesNow ∧ run.regionsSound ∧ run.settingsInRange ∧ (Request.read 1 0x1FFFFFF 2).wellFormed = true ∧
    (touches (.read 1 0x1FFFFFF 2) 0x1FFFFFF ∧ touches (.read 1 0x1FFFFFF 2) 0x2000000 ∧
      run.regionOf 0x1FFFFFF ≠ run.regionOf 0x2000000) ∧ isWriteRequest (.read 1 0x1FFFFFF 2) = false ∧
    run.part = .run ∧ run.regionOf 0x1FFFFFF = .lane 0 ∧
    (run.lane 0).base.toNat + (run.lane 0).size < 0x1FFFFFF + 2 :=
  ⟨takesNow_run, run_regionsSound, run_settingsInRange, by unfold touches; decide⟩

theorem test_witness_RegionTableClassifiesAddresses :
    run.regionsSound ∧ run.regionOf 0 = .lane 0 ∧ run.regionOf 0x1FFFFFF = .lane 0 ∧ run.regionOf 0x2000000 = .other ∧
    run.regionOf 0x1FFFFFFFF = .other ∧ run.regionOf 0x200000000 = .slotWindow 0 ∧ run.regionOf 0x3FFFFFFFF = .slotWindow 3 ∧
    run.regionOf 0x400000000 = .directory ∧ run.regionOf 0x4007FFFFF = .directory ∧ run.regionOf 0x400800000 = .other :=
  ⟨run_regionsSound, by decide⟩

theorem test_witness_RoutesOfTable12 :
    run.takesNow ∧ config.takesNow ∧ quiesced.takesNow ∧ run.liesIn (.read 1 0x2000000 1) .other ∧
    run.liesIn (.read 1 0x400000000 1) .directory ∧ config.liesIn (.write 1 0x400000000 [0]) .directory ∧
    run.liesIn (.write 1 0x400000000 [0]) .directory ∧
    run.liesIn (.read 1 0 1) (.lane 0) ∧ config.liesIn (.write 1 0 [0]) (.lane 0) ∧
    quiesced.liesIn (.write 1 0 [0]) (.lane 0) ∧ run.liesIn (.write 1 0x1FFFFFF [0]) (.lane 0) ∧
    config.liesIn (.read 1 0x200000000 1) (.slotWindow 0) ∧ run.liesIn (.read 1 0x3FFFFFFFF 1) (.slotWindow 3) ∧
    run.liesIn (.write 1 0x200000000 [0]) (.slotWindow 0) := by
  refine ⟨takesNow_run, takesNow_config, takesNow_quiesced, ?_, ?_, ?_, ?_, ?_, ?_, ?_, ?_, ?_, ?_, ?_⟩ <;>
    exact liesIn_byte (by decide) (by decide) (by decide)

/-! ### Witnesses: lane writes -/

/-- A one-byte write of lane 0 that reaches its Lane Parser. -/
theorem reaches {s : State} (h : s.takesNow) (hp : s.part = .run) (a : Addr) (d : List Byte) (hd : 1 ≤ d.length ∧ d.length ≤ 4096)
    (ha : a.toNat + d.length ≤ 2 ^ 40) (hr : s.regionOf a.toNat = .lane 0) : s.reachesLane 0 7 a d :=
  ⟨h, by simp [Request.wellFormed, Request.len, hd], ha, hp, hr⟩

theorem test_witness_EdgeAndStrayRefusals :
    run.reachesLane 0 7 0x1FFFFFF [0, 0] ∧ (run.lane 0).base.toNat + (run.lane 0).size < 0x1FFFFFF + 2 ∧
    run.reachesLane 0 7 0x1FFFFFF [0] ∧ 0x1FFFFFF + 1 ≤ (run.lane 0).base.toNat + (run.lane 0).size ∧
    run.reachesLane 0 7 1 [0] ∧ run.inSequence 0 7 0 [0] ∧
    1 - (run.lane 0).base.toNat ≠ ((run.lane 0).cursor + ((run.lane 0).hold.map (fun w => w.data.length)).sum) % (run.lane 0).size := by
  refine ⟨?_, by decide, ?_, by decide, ?_, ⟨?_, by decide, by decide⟩, by decide⟩ <;>
    exact reaches takesNow_run rfl _ _ (by decide) (by decide) (by decide)

/-- Lane 0 with so many bytes used, all behind a pending lead at offset 0. -/
def usedLane (n : Nat) : State := runLane { run.lane 0 with cursor := n, parser := .seek, pendingLead := some 0 }

/-- A part with every member entry taken by a lead at offset 0 of lane 1. -/
def noEntries : State := { run with members := (List.finRange 4096).map (fun i => (i, { state := .receiving, lane := 1 })) }

theorem test_witness_HoldSteps :
    (usedLane 0x1FFFFBF).inSequence 0 7 0x1FFFFBF [0, 0] ∧ ((usedLane 0x1FFFFBF).lane 0).hold = [] ∧
    ((usedLane 0x1FFFFBF).lane 0).size - 64 < (usedLane 0x1FFFFBF).used 0 + 2 ∧
    noEntries.inSequence 0 7 0 (lead 1 0 100) ∧ (noEntries.lane 0).hold = [] ∧
    noEntries.members.freeCount < (noEntries.lane 0).leadCount noEntries.classes (lead 1 0 100) ∧
    (held 1).inSequence 0 7 1 [0] ∧ ((held 1).lane 0).hold.length = 1 ∧
    (held 3).inSequence 0 7 3 [0] ∧ ((held 3).lane 0).hold.length = 3 ∧
    (held 4).inSequence 0 7 4 [0] ∧ ((held 4).lane 0).hold.length = 4 := by
  refine ⟨⟨reaches ⟨rfl, rfl, by decide⟩ rfl _ _ (by decide) (by decide) (by decide), by decide, by decide⟩, rfl, by decide,
    ⟨reaches ⟨rfl, rfl, by decide⟩ rfl _ _ (by decide) (by decide) (by decide), by decide, by decide⟩, rfl, by decide +kernel,
    ⟨reaches ⟨rfl, rfl, by decide⟩ rfl _ _ (by decide) (by decide) (by decide), by decide, by decide⟩, rfl,
    ⟨reaches ⟨rfl, rfl, by decide⟩ rfl _ _ (by decide) (by decide) (by decide), by decide, by decide⟩, rfl,
    ⟨reaches ⟨rfl, rfl, by decide⟩ rfl _ _ (by decide) (by decide) (by decide), by decide, by decide⟩, rfl⟩

/-- Heads of a release pass that fail and pass, with none behind, a failing head behind and a passing one. -/
theorem test_witness_HoldSteps_release_pass :
    let passes := fun (u : State) (w : HeldWrite) => u.used 0 + w.data.length ≤ (u.lane 0).size - 64 ∧
      (u.lane 0).leadCount u.classes w.data ≤ u.members.freeCount
    let tight := (usedLane 0x1FFFFBF).setLane 0 { (usedLane 0x1FFFFBF).lane 0 with hold := [⟨1, 0, [0]⟩, ⟨2, 0, [0]⟩] }
    let served := fun (s : State) (w : HeldWrite) (ws : List HeldWrite) =>
      State.acceptWrite 0 0 w { s.setLane 0 { s.lane 0 with hold := ws } with lastServed := 0 }
    (run.lane 0).hold = [] ∧ ¬ passes (usedLane 0x1FFFFC0) ⟨1, 0, [0]⟩ ∧
    ((held 1).lane 0).hold = [⟨1, 0, [0]⟩] ∧ passes (held 1) ⟨1, 0, [0]⟩ ∧
    ((held 2).lane 0).hold = [⟨1, 0, [0]⟩, ⟨1, 0, [0]⟩] ∧ passes (held 2) ⟨1, 0, [0]⟩ ∧
    passes (served (held 2) ⟨1, 0, [0]⟩ [⟨1, 0, [0]⟩]) ⟨1, 0, [0]⟩ ∧
    passes tight ⟨1, 0, [0]⟩ ∧ ¬ passes (served tight ⟨1, 0, [0]⟩ [⟨2, 0, [0]⟩]) ⟨2, 0, [0]⟩ := by decide +kernel

/-- The head of a lane order list, a pending lead and neither, and bytes that complete a FILE lead, a candidate and nothing. -/
theorem test_witness_HoldSteps_tail_and_lead_count :
    let ordered : State := { runLane { run.lane 0 with order := [1, 2] } with members := [(1, { leadOffset := 64 })] }
    let front := (lead 1 0 100).take 63
    let f : LeadFields := ⟨0, 100, 0, 0, 0⟩
    ((ordered.lane 0).order = 1 :: [2] ∧ ordered.tail 0 < (ordered.lane 0).size ∧ ordered.membersCanonical) ∧
    (((usedLane 5).lane 0).order = [] ∧ ((usedLane 5).lane 0).pendingLead = some 0) ∧
    ((run.lane 0).order = [] ∧ (run.lane 0).pendingLead = none) ∧
    (((run.lane 0).parser = .lead ∧ ¬ 63 ≤ (run.lane 0).leadBuffer.length) ∧ front.length = 63 ∧
      judgeLead run.classes (front ++ [0]) = .file f) ∧
    (({ run.lane 0 with leadBuffer := front } : Lane).parser = .lead ∧
      ({ run.lane 0 with parser := .seek, candidate := front } : Lane).parser = .seek) :=
  ⟨⟨rfl, by decide, rfl⟩, by decide +kernel⟩

theorem test_witness_AcceptedWriteIsParsedAndForwarded :
    (usedLane 0x1FFFFBF).inSequence 0 7 0x1FFFFBF [0] ∧ ((usedLane 0x1FFFFBF).lane 0).hold = [] ∧
    (usedLane 0x1FFFFBF).used 0 + 1 ≤ ((usedLane 0x1FFFFBF).lane 0).size - 64 ∧
    ((usedLane 0x1FFFFBF).lane 0).leadCount run.classes [0] ≤ run.members.freeCount :=
  ⟨⟨reaches ⟨rfl, rfl, by decide⟩ rfl _ _ (by decide) (by decide) (by decide), by decide, by decide⟩, rfl, by decide, by decide⟩

/-- A lane in each parser state, at the boundaries of its byte clauses. -/
theorem test_witness_AcceptedWriteIsParsedAndForwarded_bytes :
    let l := run.lane 0
    let collecting : Lane := { l with leadBuffer := zeroBytes 62, pendingLead := some 0, cursor := 62 }
    let data : Lane := { l with parser := .data, receiving := some 0, remaining := 2 }
    let seeking : Lane := { l with parser := .seek, candidate := [0], pendingLead := some 64, cursor := 65 }
    (l.parser = .lead ∧ l.leadBuffer = []) ∧
    (collecting.leadBuffer ≠ [] ∧ collecting.leadBuffer.length < 63 ∧ collecting.pendingLead = some 0) ∧
    (data.receiving = some 0 ∧ 1 < data.remaining) ∧ ({ data with remaining := 1 } : Lane).remaining = 1 ∧
    ({ l with parser := .pad } : Lane).parser = .pad ∧
    (seeking.parser = .seek ∧ seeking.candidate ≠ [] ∧ seeking.candidate.length < 63 ∧ seeking.pendingLead = some 64) ∧
    ({ seeking with candidate := [] } : Lane).cursor % 64 ≠ 0 ∧
    ({ seeking with candidate := [], cursor := 64 } : Lane).cursor % 64 = 0 := by decide

/-- Each test of Table 2-3 has a lead that fails it first, and both kinds one that passes (R20). -/
theorem test_witness_LeadValidationOrder :
    let j := judgeLead run.classes
    j (zeroBytes 64) = .bad .mark ∧ j (le 4 Config.leadMark ++ zeroBytes 60) = .bad .check ∧
    j (lead 3 0 0) = .bad .kind ∧ j (lead 1 1 0) = .bad .cls ∧ j (lead 1 8 0) = .bad .cls ∧
    j (lead 1 0 16777216) = .bad .length ∧ j (lead 2 0 1) = .bad .sealLength ∧ j (lead 2 0 0) = .seal 0 ∧
    j (lead 1 0 16777215) = .file ⟨0, 16777215, 0, 0, 0⟩ := by decide +kernel

theorem test_witness_FileLeadTakesLowestFreeEntry :
    run.inSequence 0 7 0 (lead 1 0 100) ∧ run.membersCanonical ∧ (run.lane 0).hold = [] ∧
    run.used 0 + 64 ≤ (run.lane 0).size - 64 ∧ run.members.length < 4096 ∧ (run.lane 0).parser = .lead ∧
    (run.lane 0).leadBuffer = [] ∧ (lead 1 0 100).length = 64 ∧
    judgeLead run.classes (lead 1 0 100) = .file ⟨0, 100, 0, 0, 0⟩ ∧ (100 : Nat) ≠ 0 :=
  ⟨⟨reaches takesNow_run rfl _ _ (by decide) (by decide) (by decide), by decide, by decide⟩, rfl, rfl, by decide, by decide,
    rfl, rfl, by decide, by decide +kernel, by decide⟩

/-- The 64th byte of a lead and of a candidate of each kind. -/
theorem test_witness_FileLeadTakesLowestFreeEntry_64th_byte :
    let ends := fun (x : List Byte) (v : Verdict) =>
      (x.take 63).length = 63 ∧ judgeLead run.classes (x.take 63 ++ [x.getD 63 0]) = v
    let l : Lane := { run.lane 0 with cursor := 63, leadBuffer := (lead 1 0 100).take 63, pendingLead := some 0 }
    let sought : Lane := { l with parser := .seek, leadBuffer := [], candidate := (lead 1 0 100).take 63 }
    ends (lead 1 0 100) (.file ⟨0, 100, 0, 0, 0⟩) ∧ ends (lead 1 0 0) (.file ⟨0, 0, 0, 0, 0⟩) ∧
    ends (lead 2 0 0) (.seal 0) ∧ (runLane l).openPackOf 0 = none ∧ ends (zeroBytes 64) (.bad .mark) ∧
    (l.parser = .lead ∧ l.leadBuffer = (lead 1 0 100).take 63 ∧ l.pendingLead = some 0) ∧
    (sought.parser = .seek ∧ sought.candidate = (lead 1 0 100).take 63 ∧ sought.pendingLead = some 0) ∧
    (runLane l).members.wf = true ∧ (runLane l).member 0 = {} ∧ (runLane sought).member 0 = {} := by decide +kernel

/-! ### Witnesses: digests and images -/

theorem test_witness_SectionAndBodyDigests :
    let m : Member := { leadDigest := Digest.ofBytes [1], dataDigest := Digest.ofBytes [2, 3], dataLength := 2,
                        sectionDigest := Digest.ofBytes (zeroBytes 128) }
    m.leadDigest = Digest.ofBytes [1] ∧ m.dataDigest = Digest.ofBytes [2, 3] ∧ [2, 3].length = m.dataLength ∧
    m.sectionDigest = Digest.ofBytes (zeroBytes 128) ∧ (zeroBytes 128).length = 64 + roundUp 64 m.dataLength ∧
    ({} : Pack).digest = Digest.ofBytes [] :=
  ⟨rfl, rfl, rfl, rfl, by decide +kernel, rfl⟩

/-- A class with and without waiting members, an OPEN pack that a member fits and does not, and FREE records. -/
theorem test_witness_SectionAndBodyDigests_assembly :
    let m : MemberIx := 1
    let waits : State := { run with waitList := [0] }
    let p := fun x : Nat => ({ state := .opened, target := 16, cap := 2, body := x } : Pack)
    let fits := fun x : Nat => roundUp 262144 (1024 + (x + (64 + roundUp 64 0)) + 64 * 1) ≤ 16 * 1048576
    let full : State := { run with packs := Vector.replicate 64 (p 0) }
    let q := fun x cap => Pack.withMember 262144 m {} { p x with cap := cap }
    (∃ w ∈ waits.waitList, (waits.member w).cls = 0) ∧ (run.waitList = [] ∧ run.openPackOf 0 = none) ∧
    (run.setPack 3 (p 0)).openPackOf 0 = some 3 ∧ fits 0 ∧ ¬ fits 16777216 ∧
    (∀ d : PackIx, (full.pack d).state ≠ .free) ∧
    ((full.setPack 5 {}).pack 5).state = .free ∧ (∀ e : PackIx, e < 5 → ((full.setPack 5 {}).pack e).state ≠ .free) ∧
    waits.waitList ≠ [] ∧ (q 16777216 2).target * 1048576 < (q 16777216 2).projected ∧
    (q 0 1).projected ≤ (q 0 1).target * 1048576 ∧ (q 0 1).cap ≤ (q 0 1).members.length ∧
    (q 0 2).members.length < (q 0 2).cap := by
  refine ⟨⟨0, by decide, rfl⟩, ?_, ?_, ?_, ?_, ?_, ?_, ?_, ?_, ?_, ?_, ?_, ?_⟩ <;> decide +kernel

/-- A seal of each cause on a state with members in their canonical form, and a class with no OPEN pack. -/
theorem test_witness_SectionAndBodyDigests_seal :
    (opened .absent).membersCanonical ∧ run.membersCanonical ∧ run.openPackOf 7 = none := by
  unfold State.membersCanonical; decide +kernel

theorem test_witness_CommitWritesDigestOfImage :
    ({ sectionOffset := some 512 } : Member).sectionOffset = some 512 ∧
    let p : Pack := { digest := Digest.ofBytes [1, 2], body := 2, members := [0] }
    p.digest = Digest.ofBytes [1, 2] ∧ [(1 : Byte), 2].length = p.body := by decide

/-! ### Witnesses: the memory port -/

theorem test_witness_GrantTable :
    let s := fun st (run' : Nat) (b : Option Nat) (f : List MemReq) =>
      ({ engaged .sealing (committing st 0) with arbiter := { run := run', burst := b }, forwarding := f } : State)
    (s .issuing 0 (some 1) []).arbiter.burst ≠ none ∧
    ((s .idle 0 none []).forwarding = [] ∧ (s .idle 0 none []).engine.state ≠ .issuing) ∧
    (s .idle 0 none [upstream7]).engine.state ≠ .issuing ∧
    (s .issuing 7 none [upstream7]).arbiter.run < (s .issuing 7 none [upstream7]).arbiter.share ∧
    (s .issuing 8 none [upstream7]).arbiter.share ≤ (s .issuing 8 none [upstream7]).arbiter.run ∧
    (s .issuing 0 none []).engine.current = some ⟨3, 9⟩ := by decide

theorem test_witness_CommitUnitIssue :
    let s := engaged .sealing (committing .issuing 0)
    s.arbiter.burst = none ∧ s.arbiter.mode = .steal ∧ s.engine.state = .issuing ∧ s.engine.current = some ⟨3, 9⟩ ∧
    s.forwarding = [] ∧ s.engine.nextUnit ≤ (s.pack 3).members.length + 16 ∧
    ({ committing .issuing 0 with nextUnit := 16 } : Engine).nextUnit = (s.pack 3).members.length + 16 := by decide

/-- A unit within its block, at its block's end and the last of the commit, as a grant's and within a burst. -/
theorem test_witness_BurstCoversRestOfBlock :
    let s : State := { engaged .sealing (committing .issuing 0) with arbiter := { mode := .burst } }
    let last := fun u n : Nat => min (64 * ((u + 63) / 64)) (n + 16)
    s.engine.state = .issuing ∧ s.engine.current = some ⟨3, 9⟩ ∧ s.arbiter.burst = none ∧ s.arbiter.mode = .burst ∧
    s.forwarding = [] ∧ (s.pack 3).members.length = 0 ∧ (2 ≠ 0 + 16 ∧ 2 < last 2 0) ∧ (64 ≠ 50 + 16 ∧ last 64 50 ≤ 64) ∧
    ({ committing .issuing 0 with nextUnit := 16 } : Engine).nextUnit = (s.pack 3).members.length + 16 ∧
    ({ s.arbiter with burst := some 2 } : Arbiter).burst = some 2 ∧ ({ s.arbiter with burst := some 1 } : Arbiter).burst = some 1 := by
  decide

theorem test_witness_ForwardedAndViewPartAnswers :
    ({ run with inFlight := [upstream7] } : State).inFlight = [upstream7] ∧ upstream7.owner = .upstream 7 ∧
    (⟨false, 0, 2, [], .viewPart⟩ : MemReq).owner = .viewPart ∧
    (⟨7, some 0, [.zeros 1, .waiting 2, .waiting 3]⟩ : ViewRead).pieces = [.zeros 1] ++ .waiting 2 :: [.waiting 3] ∧
    [Piece.zeros 1].any Piece.isWaiting = false := by decide

theorem test_witness_ViewReadResponseWhenAllAnswered :
    [Piece.waiting 1].any Piece.isWaiting = true ∧ [Piece.filled [1], .faulted, .zeros 2].any Piece.isWaiting = false ∧
    (⟨7, none, [.filled [1]]⟩ : ViewRead).slot = none ∧ (⟨7, some 0, [.filled [1]]⟩ : ViewRead).slot = some 0 ∧
    ((bound 1 none).slot 0).pending = none ∧ 1 < ((bound 2 (some .idle)).slot 0).reads ∧
    (((bound 1 (some (.returned 5 6))).slot 0).holdsWrite = true ∧ ((bound 1 (some (.returned 5 6))).slot 0).reads = 1) ∧
    (((bound 1 (some .idle)).slot 0).pending = some .idle ∧ ((bound 1 (some .idle)).slot 0).reads = 1) := by decide

theorem test_witness_CommitUnitAnswer :
    ({ engaged .sealing (committing .issuing 1) with inFlight := [unit3] } : State).inFlight = [unit3] ∧
    unit3.owner = .commitUnit 3 1 ∧ (∀ x ∈ (committing .issuing 1).discards, x.record ≠ 3) ∧
    (let e : Engine := { discards := [⟨3, 2⟩] }
     e.state ≠ .stopping ∧ (∃ x ∈ e.discards, x.record = 3) ∧ ∀ x ∈ e.discards, x.record = 3 → 1 < x.units) ∧
    [unit3].any MemReq.isCommit = true ∧
    (let e := committing .settling 1
     e.state = .settling ∧ e.state ≠ .stopping ∧ ∀ x ∈ e.discards, x.record ≠ 3) ∧ 1 < (committing .settling 2).unitsInFlight ∧
    (committing .suspending 1).state = .suspending ∧
    (let e : Engine := { state := .stopping, discards := [⟨3, 1⟩] }
     e.state = .stopping ∧ ∃ x ∈ e.discards, x.record = 3) ∧
    (let e : Engine := { state := .stopping, unitsInFlight := 1 }
     e.state = .stopping ∧ ∀ x ∈ e.discards, x.record ≠ 3) := by decide

theorem test_witness_CommitEndAndSuspension :
    let s : State := { engaged .sealing (committing .settling 0) with window := { set := true, mask := 1 } }
    let full : State := s.setSlot 0 { bound := some ⟨4, 8, 262144⟩ }
    (s.engine.state = .settling ∧ s.engine.unitsInFlight = 0 ∧ s.engine.current = some ⟨3, 9⟩ ∧ s.engine.queue = [3] ∧
      s.engine.faults = 0 ∧ s.events.length < 32) ∧
    (∀ j : SlotIx, full.slotEnabled j = true → (full.slot j).bound ≠ none) ∧
    (committing .settling 1).unitsInFlight ≠ 0 ∧ 0 < ({ committing .settling 0 with faults := 1 } : Engine).faults ∧
    (committing .suspending 0).state = .suspending ∧
    (let e : Engine := { committing .settling 0 with queue := [3, 5] }
     e.queue.filter (fun x => decide (x ≠ 3)) = [5] ∧ s.part = .run) ∧ quiesced.part ≠ .run ∧
    s.engine.queue.filter (fun x => decide (x ≠ 3)) = [] ∧ s.resetLow = false ∧ s.quiesceLine = false ∧
    (let last : State := { s with window := { set := true, mask := 8 } }
     last.readyQueue = [] ∧ last.slotEnabled 3 = true ∧ (last.slot 3).bound = none ∧
     (∀ i : SlotIx, i < 3 → last.slotEnabled i = true → (last.slot i).bound ≠ none) ∧ last.events.length < 31) ∧
    ((committing .idle 0).state ≠ .suspending ∧ (committing .idle 0).state ≠ .issuing) := by decide

theorem test_witness_DiscardingEndAndRestartCompletion :
    let e : Engine := { discards := [⟨3, 0⟩] }
    e.state ≠ .stopping ∧ (∃ x ∈ e.discards, x.record = 3 ∧ x.units = 0) ∧ run.waitList = [] ∧
    run.inFlight.any MemReq.isCommit = false ∧ [unit3].any MemReq.isCommit = true := by decide

/-- A wait list with and without a FREE record, and further members that fit, that do not, and with no record left. -/
theorem test_witness_DiscardingEndAndRestartCompletion_drain :
    let waits : State := { run with waitList := [0, 1] }
    let full : State := { waits with packs := Vector.replicate 64 { state := .ready } }
    let openIn := fun (s : State) (body : Nat) => s.setPack 3 { state := .opened, target := 16, cap := 2, body := body }
    let sealed := fun s => State.sealPack 0 .size 3 (openIn s 16777216)
    waits.waitList = 0 :: [1] ∧ (waits.pack 0).state = .free ∧ (∀ e : PackIx, e < 0 → (waits.pack e).state ≠ .free) ∧
    (∀ d : PackIx, (full.pack d).state ≠ .free) ∧ (openIn waits 0).openPackOf 0 = some 3 ∧
    roundUp 262144 (1024 + (0 + (64 + roundUp 64 0)) + 64 * 1) ≤ 16 * 1048576 ∧
    ¬ roundUp 262144 (1024 + (16777216 + (64 + roundUp 64 0)) + 64 * 1) ≤ 16 * 1048576 ∧
    (∀ e : PackIx, ((sealed full).pack e).state ≠ .free) ∧ ((sealed waits).pack 0).state = .free ∧
    waits.openPackOf 0 = none ∧ full.openPackOf 0 = none := by decide +kernel

/-! ### Witnesses: the pack view -/

theorem test_witness_ViewReadTests :
    run.takesNow ∧ (bound 0 none).takesNow ∧ (bound 0 (some .idle)).takesNow ∧ run.part ≠ .config ∧
    run.liesIn (.read 7 0x200000000 1) (.slotWindow 0) ∧ (run.slot 0).bound = none ∧
    (bound 0 none).liesIn (.read 7 0x200040000 1) (.slotWindow 0) ∧
    (bound 0 none).liesIn (.read 7 0x20003FFFF 1) (.slotWindow 0) ∧
    ((bound 0 none).slot 0).bound = some ⟨3, 9, 262144⟩ ∧
    262144 < (0x200040000 - 0x200000000) % 2 ^ 31 + 1 ∧ (0x20003FFFF - 0x200000000) % 2 ^ 31 + 1 ≤ 262144 ∧
    ((bound 0 (some .idle)).slot 0).pending ≠ none := by
  refine ⟨takesNow_run, takesNow_bound, takesNow_bound_idle, by decide, ?_, rfl, ?_, ?_, rfl, by decide, by decide, by decide⟩ <;>
    exact liesIn_byte (by decide) (by decide) (by decide)

theorem test_witness_ViewReadServed :
    let parts := cutSegments ((bound 0 none).imageSegments 3)
    (∀ g ∈ parts 512 4096, g.source = none) ∧ (∃ g ∈ parts 511 2, g.source ≠ none) := by decide

theorem test_witness_DispositionTests :
    run.takesNow ∧ (bound 0 none).takesNow ∧ run.part ≠ .config ∧
    run.liesIn (.write 7 0x200000000 (disposition 1 9)) (.slotWindow 0) ∧
    (bound 0 none).liesIn (.write 7 0x200000000 (disposition 1 9)) (.slotWindow 0) ∧
    dispositionOf 0 (disposition 1 9) = some ⟨true, 9, 5⟩ ∧ dispositionOf 0 (disposition 2 9) = some ⟨false, 9, 5⟩ ∧
    dispositionOf 0 (disposition 3 9) = none ∧ dispositionOf 1 (disposition 1 9) = none ∧
    field (disposition 1 9) 8 4 = ((bound 0 none).pack 3).serial.toNat ∧
    field (disposition 1 8) 8 4 ≠ ((bound 0 none).pack 3).serial.toNat ∧
    ((bound 0 (some .idle)).slot 0).pending ≠ none ∧ ((bound 0 none).slot 0).reads = 0 ∧ ((bound 1 none).slot 0).reads ≠ 0 :=
  ⟨takesNow_run, takesNow_bound, by decide,
    liesIn_block run_regionsSound run_settingsInRange (by decide) (by decide) (by decide) (by decide),
    liesIn_block (regionsSound_of rfl rfl rfl) (bound_settingsInRange 0 none) (by decide) (by decide) (by decide) (by decide),
    by decide +kernel⟩

theorem test_witness_PendingDispositionIsTaken :
    let w := bound 0 (some (.written 7 5))
    ((bound 1 none).slot 0).reads ≠ 0 ∧ (w.slot 0).reads = 0 ∧ (w.slot 0).bound = some ⟨3, 9, 262144⟩ ∧
    (w.slot 0).pending = some (.written 7 5) ∧ (∀ k : LaneIx, (w.lane k).hold = []) ∧ w.waitList = [] ∧ w.readyQueue = [] ∧
    w.events.length < 32 ∧ w.members.wf = true ∧
    ((bound 0 (some (.returned 7 6))).slot 0).pending = some (.returned 7 6) ∧ w.slotEnabled 0 = true ∧
    (∀ i : SlotIx, i < 0 → w.slotEnabled i = true → (w.slot i).bound ≠ none) := by decide

/-- An empty lane order list, and heads in state RELEASED and in another. -/
theorem test_witness_PendingDispositionIsTaken_tail :
    let s : State := { runLane { run.lane 0 with order := [1, 2] } with members := [(1, { state := .released }), (2, { state := .packed })] }
    (run.lane 0).order = [] ∧ (s.lane 0).order = 1 :: [2] ∧ (s.member 1).state = .released ∧ (s.member 2).state ≠ .released ∧
    s.members.wf = true := by decide

theorem test_witness_IdleReturns :
    let due := fun n => (bound n none).setSlot 0 { (bound n none).slot 0 with idle := .due 5 }
    (∀ v, (run.slot 0).idle ≠ .due v) ∧ ((due 1).slot 0).idle = .due 5 ∧ ((due 1).slot 0).reads ≠ 0 ∧
    ((due 0).slot 0).idle = .due 5 ∧ ((due 0).slot 0).reads = 0 ∧ ((due 0).slot 0).pending = none ∧
    ((bound 0 (some .idle)).slot 0).pending = some .idle ∧ (due 0).slotEnabled 0 = true ∧ (due 0).readyQueue = [] := by
  refine ⟨fun v h => ?_, by decide⟩
  cases h

theorem test_witness_BindingFillsLowestFreeSlots :
    let s : State := { run.setPack 3 { state := .ready, serial := 9, projected := 262144 } with readyQueue := [3] }
    let full : State := { s.setSlot 0 { bound := some ⟨4, 8, 262144⟩ } with window := { set := true, mask := 1 } }
    s.readyQueue = 3 :: [] ∧ s.slotEnabled 0 = true ∧ (s.slot 0).bound = none ∧
    (∀ i : SlotIx, i < 0 → s.slotEnabled i = true → (s.slot i).bound ≠ none) ∧ run.readyQueue = [] ∧
    (∀ j : SlotIx, full.slotEnabled j = true → (full.slot j).bound ≠ none) := by decide

/-! ### Witnesses: the pack clock -/

/-- No deadline is due in `run`. -/
theorem nothingDue_run : run.nothingDue := by
  refine ⟨fun d v h => ?_, fun k v h => ?_, fun j v h => ?_⟩
  · rw [show (run.pack d).age = .absent by clear h; revert d; decide +kernel] at h; cases h
  · rw [show (run.lane k).holdDeadline = .absent by clear h; revert k; decide] at h; cases h
  · rw [show (run.slot j).idle = .absent by clear h; revert j; decide] at h; cases h

theorem test_witness_TickRaisesClockAndMakesDue :
    run.nothingDue ∧ (((opened (.due 5)).pack 3).age = .due 5 ∧ (opened (.due 5)).clock ≠ BitVec.allOnes 48) ∧
    (BitVec.allOnes 48 : Time) - 1 + 1 = BitVec.allOnes 48 ∧ run.clock ≠ BitVec.allOnes 48 ∧
    run.clock + 1 ≠ BitVec.allOnes 48 ∧ run.events.length < 32 ∧
    (({ held 1 with clock := 1999 } : State).lane 0).holdDeadline = .pending (1999 + 1) := ⟨nothingDue_run, by decide⟩

theorem test_witness_DeadlinesArmAndRebase :
    (0 : Time) ≠ BitVec.allOnes 48 ∧ run.resetLow = false ∧ run.response ≠ .busy ∧
    (0x800000000000 : Time).toNat ≤ 2 ^ 47 ∧ 2 ^ 47 < (0x800000000001 : Time).toNat ∧ (4 : Time) < 5 := by decide

theorem test_witness_HoldAndAgeExpiries :
    let s := runLane { run.lane 0 with hold := [⟨1, 0, [0]⟩], holdDeadline := .due 5, receiving := some 0 }
    (∀ v, (run.lane 0).holdDeadline ≠ .due v) ∧ (s.lane 0).holdDeadline = .due 5 ∧
    (∀ j : LaneIx, j ≠ 0 → (s.lane j).hold = []) ∧ s.events.length < 31 ∧ (s.lane 0).receiving = some 0 ∧
    s.members.wf = true ∧ (run.lane 0).receiving = none ∧ (∀ v, (run.pack 3).age ≠ .due v) ∧
    ((opened (.due 5)).pack 3).age = .due 5 ∧ ((opened (.due 5)).pack 3).state = .opened ∧
    (opened (.due 5)).members.wf = true ∧
    (let l : Lane := { run.lane 0 with hold := [⟨1, 0, [0]⟩], holdDeadline := .due 5 }
     l.holdDeadline = .due 5 ∧ l.receiving = none) := by
  refine ⟨fun v h => ?_, by decide, by decide, by decide, by decide, by decide, by decide, fun v h => ?_, by decide⟩ <;>
    cases h

/-! ### Witnesses: the management link -/

theorem linkFree_run : run.linkFree := ⟨rfl, by decide⟩
theorem linkFree_config : config.linkFree := ⟨rfl, by decide⟩

theorem test_witness_DiscardedFrames :
    run.resetLow = false ∧ (Fin.val (1 : Fin 8)) ≠ 0 ∧ [(1 : Byte), 0].length ≠ 3 + field [1, 0] 1 2 ∧
    64 < field (18 :: le 2 65 ++ zeroBytes 65) 1 2 ∧ [(1 : Byte), 0, 0].head? ≠ some 0xF0 ∧
    ({ run with response := .busy } : State).response = .busy ∧ frameBytes .readPart = some 3 ∧
    (⟨0, true⟩ : FrameEdges).begunBusy = true := by decide

theorem test_witness_UnknownCodeOrWrongLengthIsBadArg :
    run.linkFree ∧ (19 : Byte) ≠ 0xF0 ∧ (zeroBytes 64).length ≤ 64 ∧ payloadLength (19 : Byte).toNat ≠ some 64 ∧
    payloadLength (18 : Byte).toNat ≠ some 1 ∧ payloadLength (1 : Byte).toNat ≠ some 1 := ⟨linkFree_run, by decide⟩

theorem test_witness_ResponseReadShiftsOutResponse :
    run.resetLow = false ∧ run.response = .none ∧ ({ run with response := .busy } : State).response = .busy ∧
    ({ run with response := .ready .ok [5] } : State).response = .ready .ok [5] := by decide

theorem test_witness_ReportsAreReturned :
    run.linkFree ∧ (15 : LaneIx).val = (15 : Byte).toNat ∧ 15 < (16 : Byte).toNat ∧ (63 : PackIx).val = (63 : Byte).toNat ∧
    63 < (64 : Byte).toNat ∧ (run.lane 0).cursor < 2 ^ 32 ∧ run.tail 0 < 2 ^ 32 ∧ run.members.wf = true :=
  ⟨linkFree_run, by decide⟩

/-- A lane and a pack for each of their optional fields, absent and present. -/
theorem test_witness_ReportsAreReturned_fields :
    let l : Lane := { run.lane 0 with receiving := some 5, pendingLead := some 64 }
    let p := (bound 0 none).pack 3
    ((run.lane 0).receiving = none ∧ (run.lane 0).pendingLead = none ∧ (run.lane 0).holdDeadline = .absent) ∧
    (l.receiving = some 5 ∧ l.pendingLead = some 64) ∧ ((held 1).lane 0).holdDeadline = .pending 2000 ∧
    Deadline.arm timeMax 1 = .dormant ∧ p.age = .absent ∧ ((opened (.due 5)).pack 3).age = .due 5 ∧ p.viewSlot = some 0 ∧
    (run.pack 3).viewSlot = none ∧ ({ p with members := [7] } : Pack).members[0]? = some 7 := by decide

theorem test_witness_RegionTableWrites :
    run.linkFree ∧ config.linkFree ∧ run.part ≠ .config ∧ config.part = .config ∧ 15 < (16 : Byte).toNat ∧
    1 < (2 : Byte).toNat ∧ (15 : LaneIx).val = (15 : Byte).toNat ∧ (1 : Byte) = flagByte true ∧
    (1 : Nat) % 2 ^ 25 ≠ 0 ∧ ((config.lane 0).enabled = true ∧ shares 0 (2 ^ 25) (config.lane 0).base.toNat (config.lane 0).size) ∧
    (config.window.set = true ∧ shares (2 ^ 33) (2 ^ 25) config.window.base.toNat (2 ^ 33)) ∧
    shares (2 ^ 34) (2 ^ 25) config.directory.base.toNat (2 ^ 23) ∧
    ¬ shares (2 ^ 25) (2 ^ 25) (config.lane 0).base.toNat (config.lane 0).size ∧
    (2 ^ 33 % 2 ^ 33 = 0 ∧ (2 ^ 23 + 1) % 2 ^ 23 ≠ 0) ∧ shares (2 ^ 33) (2 ^ 33) (2 ^ 33) (2 ^ 23) ∧
    ¬ shares (2 ^ 33) (2 ^ 33) (2 ^ 34) (2 ^ 23) := by
  refine ⟨linkFree_run, linkFree_config, by decide, rfl, by decide, by decide, rfl, rfl, by decide,
    ⟨rfl, 0, by decide⟩, ⟨rfl, 2 ^ 33, by decide⟩, ⟨2 ^ 34, by decide⟩, ?_, by decide, ⟨2 ^ 33, by decide⟩, ?_⟩
  · rintro ⟨a, h1, h2, h3, h4⟩
    have : (config.lane 0).base.toNat + (config.lane 0).size = 2 ^ 25 := by decide
    omega
  · rintro ⟨a, h1, h2, h3, h4⟩
    omega

theorem test_witness_SerialAndLimitsAreStored :
    run.linkFree ∧ config.linkFree ∧ run.part ≠ .config ∧ config.part = .config ∧ 1048576 ≤ (1048576 : Word32).toNat ∧
    (65537 : Word32).toNat ≤ 1048576 ∧ 1 < (2 : Byte).toNat ∧ CommitMode.burst.code = (1 : Byte).toNat :=
  ⟨linkFree_run, linkFree_config, by decide⟩

theorem test_witness_SetClassWritesClass :
    run.linkFree ∧ 7 < (8 : Byte).toNat ∧ 1 < (2 : Byte).toNat ∧ (7 : ClassIx).val = (7 : Byte).toNat ∧
    (0 : Byte) = flagByte false ∧ run.openPackOf 0 = none ∧ (opened .absent).linkFree ∧
    ((opened .absent).cls 0).enabled = true ∧ (opened .absent).openPackOf 0 = some 3 ∧ (opened .absent).members.wf = true :=
  ⟨linkFree_run, by decide, by decide, rfl, rfl, by decide +kernel, ⟨rfl, by decide⟩, by decide, by decide +kernel, rfl⟩

theorem test_witness_SealCommands :
    run.linkFree ∧ config.linkFree ∧ config.part = .config ∧ run.part ≠ .config ∧ 7 < (8 : Byte).toNat ∧
    (7 : ClassIx).val = (7 : Byte).toNat ∧ run.openPackOf 7 = none ∧ (opened .absent).openPackOf 0 = some 3 ∧
    (opened .absent).members.wf = true ∧ (∀ c : ClassIx, (opened .absent).openPackOf c ≠ some 4) ∧
    (let s := run.setPack 3 { state := .opened, members := [7] }
     s.openPackOf 0 = some 3 ∧ (7 : MemberIx) ∈ (s.pack 3).members ∧
     ∀ (c : ClassIx) (d : PackIx), s.openPackOf c = some d → (8 : MemberIx) ∉ (s.pack d).members) :=
  ⟨linkFree_run, linkFree_config, rfl, by decide, by decide, rfl, by decide +kernel, by decide +kernel, rfl, by decide +kernel,
    by decide +kernel⟩

theorem test_witness_SealCommands_engine :
    let waits := fun (q : List PackIx) (e : Engine) => ({ opened .absent with engine := { e with queue := q } } : State)
    (allClasses.filterMap (opened .absent).openPackOf = [3] ∧ (opened .absent).engine.state = .idle ∧
      (opened .absent).part = .run ∧ (opened .absent).engine.queue ++ [3] = 3 :: []) ∧
    (waits [5] {}).engine.queue ++ [3] = 5 :: [3] ∧ allClasses.filterMap run.openPackOf = [] ∧
    (waits [5] (committing .issuing 1)).engine.state ≠ .idle ∧ quiesced.part ≠ .run := by decide +kernel

theorem test_witness_StartEntersRunOrQuiesced :
    run.linkFree ∧ config.linkFree ∧ State.reset.linkFree ∧ run.part ≠ .config ∧ config.part = .config ∧
    State.reset.window.set = false ∧ config.window.set = true ∧ config.directory.set = true ∧
    (∃ k : LaneIx, (config.lane k).enabled = true) ∧ (∃ c : ClassIx, (config.cls c).enabled = true) ∧
    (∃ j : SlotIx, config.slotEnabled j = true) := ⟨linkFree_run, linkFree_config, ⟨rfl, by decide⟩, by decide⟩

theorem test_witness_RestartCompletesOrWaits :
    run.linkFree ∧ config.linkFree ∧ config.part = .config ∧ run.part ≠ .config ∧ run.inFlight.any MemReq.isCommit = false ∧
    ({ run with inFlight := [unit3] } : State).inFlight.any MemReq.isCommit = true ∧ ((bound 0 none).pack 3).state = .bound ∧
    ((bound 0 none).pack 4).state ≠ .ready ∧ ((bound 0 none).pack 4).state ≠ .bound :=
  ⟨linkFree_run, linkFree_config, rfl, by decide⟩

theorem test_witness_PackCommandTests :
    run.linkFree ∧ config.linkFree ∧ config.part = .config ∧ run.part ≠ .config ∧ 63 < (64 : Byte).toNat ∧
    (63 : PackIx).val = (63 : Byte).toNat ∧ (run.pack 63).state = .free ∧ (opened .absent).linkFree ∧
    ((opened .absent).pack 3).state = .opened ∧ ((opened .absent).pack 3).serial ≠ 8 ∧ ((opened .absent).pack 3).serial = 9 ∧
    ((bound 0 none).pack 3).state = .bound ∧ ((engaged .discarding {}).pack 3).state = .discarding ∧
    ((engaged .failed {}).pack 3).state = .failed :=
  ⟨linkFree_run, linkFree_config, rfl, by decide, by decide, rfl, by decide, ⟨rfl, by decide⟩, by decide⟩

theorem test_witness_DiscardAndRecommit :
    (opened .absent).linkFree ∧ (opened .absent).nothingHeld ∧ (opened .absent).waitList = [] ∧
    (opened .absent).membersCanonical ∧ ((opened .absent).pack 3).state = .opened ∧ (opened .absent).engine.unitsInFlight = 0 ∧
    ((engaged .ready {}).pack 3).state = .ready ∧ ((engaged .sealing {}).pack 3).state = .sealing ∧
    (engaged .sealing (committing .issuing 1)).nothingHeld ∧ 0 < (committing .issuing 1).unitsInFlight ∧
    (committing .issuing 1).current = some ⟨3, 9⟩ ∧ ((engaged .failed {}).pack 3).state = .failed ∧
    (engaged .failed {}).linkFree ∧ (engaged .failed {}).engine.queue = [] ∧
    (opened .absent).part ≠ .config ∧ ¬ 0 < (engaged .ready {}).engine.unitsInFlight :=
  ⟨⟨rfl, by decide⟩, by unfold State.nothingHeld; decide, rfl, rfl, by decide, rfl, by decide, by decide,
    by unfold State.nothingHeld; decide, by decide, rfl, by decide, ⟨rfl, by decide⟩, rfl, by decide, by decide⟩

/-- A SEALING pack behind the current one and as the current one, with and without units in flight, with and without a pack
queued behind it, in RUN and in QUIESCED. -/
theorem test_witness_DiscardAndRecommit_sealing :
    let premise := fun s : State => s.linkFree ∧ s.part ≠ .config ∧ (s.pack 3).state = .sealing
    let behind := engaged .sealing { committing .issuing 1 with queue := [5, 3], current := some ⟨5, 8⟩ }
    let current := fun n => engaged .sealing { committing .issuing n with queue := [3, 5] }
    let off := fun s : State => s.engine.queue.filter (fun x => decide (x ≠ 3))
    (premise behind ∧ behind.engine.current = some ⟨5, 8⟩ ∧ (5 : PackIx) ≠ 3) ∧
    (premise (current 0) ∧ (current 0).engine.current = some ⟨3, 9⟩ ∧ (current 0).engine.unitsInFlight = 0) ∧
    (premise (current 1) ∧ (current 1).engine.current = some ⟨3, 9⟩ ∧ 0 < (current 1).engine.unitsInFlight) ∧
    (off (current 0) = [5] ∧ (current 0).part = .run ∧ off (engaged .sealing (committing .issuing 0)) = []) ∧
    premise { current 0 with part := .quiesced } :=
  ⟨⟨⟨⟨rfl, by decide⟩, by decide⟩, rfl, by decide⟩, ⟨⟨⟨rfl, by decide⟩, by decide⟩, rfl, rfl⟩,
    ⟨⟨⟨rfl, by decide⟩, by decide⟩, rfl, by decide⟩, by decide, ⟨rfl, by decide⟩, by decide⟩

theorem test_witness_LaneRestartAtLeadBoundary :
    run.linkFree ∧ config.linkFree ∧ config.part = .config ∧ run.part ≠ .config ∧ 15 < (16 : Byte).toNat ∧
    (15 : LaneIx).val = (15 : Byte).toNat ∧ (run.lane 15).enabled = false ∧ (run.lane 0).enabled = true ∧
    (run.lane 0).receiving = none ∧ ((runLane { run.lane 0 with receiving := some 0 }).lane 0).receiving = some 0 ∧
    (let restarted := fun l : Lane => runLane { l with cursor := (l.cursor + 63) / 64 * 64 % l.size, pendingLead := none }
     (restarted (run.lane 0)).tail 0 = run.tail 0 ∧ (restarted ((usedLane 5).lane 0)).tail 0 ≠ (usedLane 5).tail 0) ∧
    run.members.wf = true :=
  ⟨linkFree_run, linkFree_config, rfl, by decide⟩

theorem test_witness_PopEventTakesHead :
    run.linkFree ∧ run.events = [] ∧ (run.raise 5 .clockEnd).events = ⟨5, .clockEnd⟩ :: [] ∧
    (run.raise 5 .clockEnd).linkFree := ⟨linkFree_run, rfl, rfl, ⟨rfl, by decide⟩⟩

theorem test_witness_EventsAreQueuedAndAttentionFollows :
    (List.replicate 31 (⟨5, .clockEnd⟩ : EventRecord)).length < 32 ∧
    32 ≤ (List.replicate 32 (⟨5, .clockEnd⟩ : EventRecord)).length ∧ run.linkFree := ⟨by decide, by decide, linkFree_run⟩

/-! ### Witnesses: what every step keeps -/

theorem test_witness_StepKeepsTableBounds :
    step (held 4) = .next (held 4).refclkPeriod ∧ (held 4).eventsBounded ∧ (held 4).holdsBounded ∧ (held 4).membersCanonical :=
  ⟨rfl, by unfold State.eventsBounded; decide, by unfold State.holdsBounded; decide, rfl⟩

theorem test_witness_StepKeepsDeadlinesAhead :
    step run = .next run.refclkPeriod ∧ run.duesNow ∧ run.limitsPositive ∧ run.deadlinesAhead := by
  refine ⟨rfl, ⟨fun d v h => (nothingDue_run.ages d v h).elim, fun k v h => (nothingDue_run.holds k v h).elim,
    fun j v h => (nothingDue_run.idles j v h).elim⟩, ⟨by decide, by decide, by decide⟩, ⟨fun d => ?_, fun k => ?_, fun j => ?_⟩⟩
  · rw [show (run.pack d).age = .absent by revert d; decide +kernel]; trivial
  · rw [show (run.lane k).holdDeadline = .absent by revert k; decide]; trivial
  · rw [show (run.slot j).idle = .absent by revert j; decide]; trivial

theorem test_witness_StepKeepsEngineLaws :
    let s := engaged .sealing (committing .suspended 0)
    step s = .next s.refclkPeriod ∧ s.arbiterQuiet ∧ s.engineCurrent ∧ s.busyIsRestart :=
  ⟨rfl, fun _ => ⟨rfl, rfl⟩, by unfold State.engineCurrent; decide, by unfold State.busyIsRestart; decide⟩

theorem test_witness_StepKeepsSettingsAndRegions :
    step run = .next run.refclkPeriod ∧ run.settingsInRange ∧ run.regionsSound := ⟨rfl, run_settingsInRange, run_regionsSound⟩

theorem test_witness_OnlyResetsLowerCounters :
    exec .grant run = .next run ∧ Instr.grant ≠ .powerOn ∧ Instr.grant ≠ .resetbAssertion ∧ Instr.grant ≠ .resetbRelease :=
  ⟨rfl, by decide⟩

theorem test_witness_OnlyRegionWritesChangeRegions :
    exec (.commandFrameDiscard [1, 0] ⟨0, false⟩) run = .next (run.selectPeriod [1, 0] ⟨0, false⟩).refill ∧
    (Instr.commandFrameDiscard [1, 0] ⟨0, false⟩).wellFormed = true ∧ frameMalformed [1, 0] 0 = true ∧
    (⟨0, true⟩ : FrameEdges).begunBusy = true := ⟨rfl, by decide⟩

/-! ### The worked cases of spec/05 to spec/12 -/

theorem test_digest_of_1_2_3 : Digest.ofBytes [1, 2, 3] = ⟨6, 10⟩ ∧ (Digest.mk 6 10).append ⟨9, 13⟩ 2 = ⟨15, 35⟩ ∧
    (Digest.mk 6 10).zeros 3 = ⟨6, 28⟩ := by decide
theorem test_section_digest :
    ({ leadDigest := ⟨4321, 150000⟩, dataDigest := ⟨6, 10⟩, dataLength := 3 } : Member).formSection = ⟨4327, 426920⟩ := by decide
theorem test_pack_digest_wraps :
    packDigest { members := [0, 1], body := 192, projected := 1048576, digest := ⟨8227, 843848⟩ } ⟨20000, 5000000⟩
      ⟨9000, 300000⟩ ⟨6000, 1100000⟩ = ⟨43227, 364059312⟩ := by decide +kernel
theorem test_three_member_layout :
    [1000, 0, 70000].map sectionLength = [1088, 64, 70080] ∧ rawLength 71232 3 = 72448 ∧ imageLength 65536 71232 3 = 131072 := by
  decide
theorem test_admission_at_the_target :
    let p := fun body n => ({ target := 16, body := body, members := List.replicate n 0 } : Pack)
    (p 71232 3).fits 65536 16700000 = true ∧ (p (71232 + 16700096) 4).fits 65536 1 = true ∧
    (p (71232 + 16700096 + 128) 5).fits 65536 5000 = false := by decide +kernel

/-- The image of section 8.8: two members, the first of which crosses the ring end of lane 5. -/
def ringEnd : State :=
  let s : State := { run with members := [(21, { lane := 5, leadOffset := 33554304, dataLength := 200 }),
                                          (22, { lane := 9, leadOffset := 4160 })] }
  s.setPack 12 { state := .bound, serial := 3001, members := [21, 22], body := 384, projected := 65536 }

theorem test_read_across_the_ring_end :
    (cutSegments (ringEnd.imageSegments 12) 0 1100).map (fun g => (g.len, g.source.isSome)) =
      [(512, true), (64, true), (64, true), (136, true), (56, false), (64, true), (128, true), (76, false)] := by decide +kernel

theorem test_witness_ReadPartsAreTheBytesRead :
    let p := ringEnd.pack 12
    p.members = [] ++ 21 :: [22] ∧ p.body = (p.members.map (fun m => 64 + roundUp 64 (ringEnd.member m).dataLength)).sum ∧
    1024 + p.body + 64 * p.members.length ≤ p.projected ∧
    (∀ m ∈ p.members, (ringEnd.member m).dataLength ≤ (ringEnd.lane (ringEnd.member m).lane).size) :=
  ⟨rfl, rfl, by decide, fun m hm => by
    rcases List.mem_cons.1 hm with h | h
    · subst h; decide +kernel
    · rw [List.mem_singleton.1 h]; decide +kernel⟩

/-! ### Commands -/

theorem test_powerOn_clears_clock : shows .powerOn { run with clock := 5, bus := [.read 1 0 1] } (fun t => (t.clock, t.part)) =
    some (0, .config) := by decide
theorem test_resetb_keeps_clock_and_serial :
    shows .resetbAssertion { run with clock := 5, serialNext := 7 } (fun t => (t.clock, t.serialNext, t.part)) =
      some (5, 7, .config) ∧
    shows .resetbRelease { run with resetLow := true, clock := 5 } (fun t => (t.clock, t.resetLow)) = some (5, false) := by decide
theorem test_quiesce_onset_refuses_held :
    shows .quiesceOnset (held 2) (fun t => (t.part, t.sent, (t.lane 0).holdDeadline)) =
      some (.quiesced, [⟨1, .refused⟩, ⟨1, .refused⟩], .absent) := by decide +kernel
theorem test_quiesce_release : shows .quiesceRelease quiesced State.part = some .run := by decide
theorem test_quiesce_line_in_config : shows (.quiesceLineIgnored true) config (fun t => (t.part, t.quiesceLine)) =
    some (.config, true) := by decide
theorem test_zero_length_member_opens_pack :
    shows (.upstreamRequest (.write 7 0 (lead 1 0 0))) run (fun t =>
      ((t.member 0).state, (t.pack 0).state, (t.pack 0).members, (t.lane 0).cursor, t.forwarding.length, t.serialNext)) =
      some (.packed, .opened, [0], 64, 1, 1) := by decide +kernel
theorem test_member_with_data_reaches_pad :
    shows (.upstreamRequest (.write 7 0 (lead 1 0 3 ++ [1, 2, 3]))) run (fun t =>
      ((t.member 0).dataDigest, (t.lane 0).parser, (t.lane 0).receiving, (t.pack 0).body)) =
      some (⟨6, 10⟩, .pad, none, 128) := by decide +kernel
theorem test_grant_at_share :
    let s := fun c => ({ engaged .sealing (committing .issuing 0) with
                         arbiter := { share := 2, run := c }, forwarding := [upstream7] } : State)
    shows .grant (s 1) (fun t => (t.arbiter.run, t.inFlight.map MemReq.owner)) = some (2, [.upstream 7]) ∧
    shows .grant (s 2) (fun t => (t.arbiter.run, t.inFlight.map MemReq.owner)) = some (0, [.commitUnit 3 2]) := by decide +kernel
theorem test_burst_unit_issue :
    shows .burstUnitIssue { engaged .sealing (committing .issuing 0) with arbiter := { mode := .burst, burst := some 2 } }
      (fun t => (t.arbiter.burst, t.engine.nextUnit, t.engine.unitsInFlight)) = some (some 1, 3, 1) := by decide +kernel
theorem test_memory_fault_goes_upstream :
    shows (.memoryResponse .fault) { run with inFlight := [upstream7] } (fun t => (t.sent, t.counters.memoryFaults)) =
      some ([⟨7, .fault⟩], 1) := by decide
theorem test_view_read_response :
    shows .viewReadResponse { bound 1 none with viewReads := [⟨7, some 0, [.filled [5], .zeros 2]⟩] }
      (fun t => (t.sent, (t.slot 0).reads)) = some ([⟨7, .done [5, 0, 0]⟩], 0) := by decide
theorem test_commit_end_binds :
    shows .commitEnd (engaged .sealing (committing .settling 0)) (fun t =>
      ((t.pack 3).state, (t.slot 0).bound.map Binding.record, t.engine.state, t.events.map (fun e => e.body.kindCode))) =
      some (.bound, some 3, .idle, [1, 2]) := by decide +kernel
/-- R124: an onset that falls together with the last answer of a commit leaves the engine IDLE in either order, another pack
queued; once a REFCLK period has passed, it suspends the commit begun at the end. -/
theorem test_onset_with_the_last_answer :
    let last : State := { engaged .sealing { committing .settling 1 with queue := [3, 5] } with inFlight := [unit3] }
    let kinds := fun s : State => (s.engine.state, s.engine.queue, s.events.map (fun e => e.body.kindCode))
    let answer := Instr.memoryResponse (.done [])
    kinds ((last.carriedOut answer).carriedOut .quiesceOnset) = (.idle, [5], [1, 2]) ∧
    kinds ((last.carriedOut .quiesceOnset).carriedOut answer) = (.idle, [5], [1, 2]) ∧
    kinds (((last.carriedOut answer).carriedOut .packClockTick).carriedOut .quiesceOnset) = (.suspended, [5], [1, 2, 6]) := by
  decide +kernel
theorem test_commit_suspended :
    shows .commitSuspended (engaged .sealing (committing .suspending 0)) (fun t => (t.engine.state, t.events.length)) =
      some (.suspended, 1) := by decide
theorem test_discarding_end : shows (.discardingEnd 3) (engaged .discarding { discards := [⟨3, 0⟩] })
    (fun t => ((t.pack 3).state, t.engine.discards)) = some (.free, []) := by decide
theorem test_pending_disposition_taken :
    shows (.pendingDispositionTaken 0) (bound 0 (some (.written 7 5))) (fun t =>
      ((t.pack 3).state, (t.slot 0).bound, t.sent, t.events)) =
      some (.free, none, [⟨7, .done []⟩], [⟨0, .packReleased 9 5⟩]) := by decide +kernel
theorem test_pending_return_keeps_its_tape_tag :
    shows (.upstreamRequest (.write 7 0x200000000 (disposition 2 9))) (bound 1 none) (fun t => (t.slot 0).pending) =
    some (some (.returned 7 5)) := by decide +kernel
theorem test_returned_pack_is_bound_before_a_waiting_one :
    let s : State := { bound 0 (some (.returned 7 6)) with window := { run.window with mask := 1 }, readyQueue := [4] }
    shows (.pendingDispositionTaken 0) s (fun t => ((t.slot 0).bound.map Binding.record, t.readyQueue)) =
    some (some 3, [4]) := by decide +kernel
theorem test_pending_idle_return :
    shows (.pendingIdleReturn 0) (bound 0 (some .idle)) (fun t => ((t.pack 3).state, (t.pack 3).returns, t.events.length)) =
      some (.bound, 1, 2) := by decide +kernel
theorem test_restart_completion : shows .restartCompletion (engaged .sealing { state := .stopping })
    (fun t => (t.part, t.engine.state, t.response)) = some (.config, .idle, .ready .ok []) := by decide
theorem test_pack_clock_tick : shows .packClockTick { held 1 with clock := 1999 }
    (fun t => (t.clock, (t.lane 0).holdDeadline)) = some (2000, .due 2000) := by decide +kernel
theorem test_tick_takes_due_first : shows .packClockTick { opened (.due 5) with clock := 5 }
    (fun t => (t.clock, (t.pack 3).state, (t.pack 3).sealTime)) = some (6, .sealing, 5) := by decide +kernel
theorem test_hold_expiry :
    shows (.holdExpiry 0) (runLane { run.lane 0 with hold := [⟨7, 0, [0]⟩], holdDeadline := .due 5 }) (fun t =>
      (t.sent, (t.lane 0).parser, t.events)) = some ([⟨7, .refused⟩], .seek, [⟨5, .holdExpired 0 1 0⟩]) := by decide +kernel
theorem test_age_expiry : shows (.ageExpiry 3) (opened (.due 5)) (fun t => ((t.pack 3).state, (t.pack 3).cause, t.engine.state)) =
    some (.sealing, some .age, .issuing) := by decide +kernel
theorem test_idle_expiry_with_reads :
    shows (.idleExpiry 0) ((bound 1 none).setSlot 0 { (bound 1 none).slot 0 with idle := .due 5 })
      (fun t => ((t.slot 0).pending, (t.slot 0).idle)) = some (some .idle, .absent) := by decide
theorem test_command_frame_discard : shows (.commandFrameDiscard [1, 0] ⟨0, false⟩) run (fun t => t.counters.framesDiscarded) = some 1 := by
  decide
theorem test_frame_begun_busy : shows (.commandFrameDiscard [17, 0, 0] ⟨0, true⟩) { run with response := .ready .ok [] }
    (fun t => (t.counters.framesDiscarded, t.response)) = some (1, .ready .ok []) := by decide
theorem test_unknown_command : shows (.unknownCommand 19 []) run State.response = some (.ready .badArg []) := by decide
theorem test_response_read : shows (.responseRead ⟨6, false⟩) { run with response := .ready .ok [5] }
    (fun t => (t.msdo, t.response)) = some ([0, 2, 0, 1, 0, 5, 0], .none) := by decide
theorem test_response_read_begun_busy : shows (.responseRead ⟨3, true⟩) { run with response := .ready .ok [5] }
    (fun t => (t.msdo, t.response)) = some ([0, 1, 0, 0], .ready .ok [5]) := by decide
theorem test_read_part_clears_overflow : shows .readPart { run with overflow := true } State.overflow = some false := by rfl
theorem test_set_lane_clamps : shows (.setLane 1 1 0 0x2000000) config (fun t => ((t.lane 1).exponent, (t.lane 1).enabled)) =
    some (25, true) := by decide +kernel
theorem test_set_windows : shows (.setWindows 0x200000000 0xF1 0x400000000) State.reset (fun t => (t.window.mask, t.directory.set)) =
    some (1, true) := by decide +kernel
theorem test_set_serial : shows (.setSerial 100 3 65537) config (fun t => (t.serialNext, t.formerId, t.tapeBlock)) =
    some (100, 3, 131072) := by decide
theorem test_set_class : shows (.setClass 7 1 0 0 0 9) run (fun t => t.cls 7) = some ⟨true, 16, 1, 1000, 9⟩ := by decide
theorem test_set_limits : shows (.setLimits 0 0 0 1) run (fun t => (t.holdLimit, t.idleLimit, t.arbiter.share, t.arbiter.mode)) =
    some (1, 1000, 1, .burst) := by decide
theorem test_set_clock_rebases :
    shows (.setClock 5000000000) (runLane { run.lane 0 with holdDeadline := .pending 1200 }) (fun t =>
      (t.clock, (t.lane 0).holdDeadline)) = some (5000000000, .pending 5000001200) := by decide +kernel
theorem test_start : shows .start config State.part = some .run ∧
    shows .start State.reset State.response = some (.ready .badConfig [31]) := by decide +kernel
theorem test_restart : shows .restart (bound 0 (some (.returned 7 6))) (fun t => (t.part, t.sent, (t.slot 0).bound)) =
    some (.config, [⟨7, .refused⟩], none) := by decide +kernel
theorem test_seal_class : shows (.sealClass 0) (opened .absent) (fun t => ((t.pack 3).state, t.response)) =
    some (.sealing, .ready .ok [1, 9, 0, 0, 0]) := by decide +kernel
/-- Each cause raises its own counter of Table 6-5, the fifth to the eleventh of the part record. -/
theorem test_each_seal_cause_has_its_counter :
    [SealCause.size, .count, .age, .lead, .command, .drain, .classClosed].map (fun x =>
      ((opened .absent).sealPack 5 x 3).counters.all) =
      (List.range 7).map (fun i => List.replicate (4 + i) 0 ++ [1] ++ List.replicate (20 - i) 0) := by decide +kernel
theorem test_seal_lead_without_open_pack : (run.sealClassPack 5 .lead 0) = run := by decide +kernel
theorem test_quiesce_onset_while_reset : shows .quiesceOnset { run with resetLow := true } (fun t => (t.part, t.quiesceLine)) =
    some (.run, true) := by decide
theorem test_drain : shows .drain (opened .absent) (fun t => ((t.pack 3).cause, t.response)) =
    some (some .drain, .ready .ok [1]) := by decide +kernel
theorem test_discard_pack : shows (.discardPack 3 9) (engaged .ready {}) (fun t => ((t.pack 3).state, t.counters.packsDiscarded)) =
    some (.free, 1) := by decide +kernel
theorem test_discard_of_open_pack_is_not_sealed :
    shows (.discardPack 3 9) ((opened .absent).setLane 0 { run.lane 0 with hold := [⟨7, 0, lead 2 0 0⟩] }) (fun t =>
      ((t.pack 3).state, t.engine.queue, t.counters.sealedLead, t.counters.openPacksDiscarded, (t.lane 0).cursor)) =
      some (.free, [], 0, 1, 64) := by decide +kernel
theorem test_discard_of_open_pack_leaves_class_open :
    shows (.discardPack 3 9) ((opened .absent).setLane 0 { run.lane 0 with hold := [⟨7, 0, lead 1 0 0⟩] }) (fun t =>
      ((t.pack 3).state, (t.pack 0).state, (t.pack 0).members)) = some (.free, .opened, [0]) := by decide +kernel
theorem test_discard_of_current_pack_begins_the_next :
    shows (.discardPack 3 9) (engaged .sealing { committing .issuing 2 with queue := [3, 5] }) (fun t =>
      ((t.pack 3).state, t.engine.state, t.engine.current.map Current.record, t.engine.nextUnit, t.engine.discards)) =
      some (.discarding, .issuing, some 5, 1, [⟨3, 2⟩]) := by decide +kernel
theorem test_recommit_pack : shows (.recommitPack 3 9) (engaged .failed {}) (fun t => ((t.pack 3).state, t.engine.state)) =
    some (.sealing, .issuing) := by decide +kernel
theorem test_lane_restart : shows (.laneRestart 0) (runLane { run.lane 0 with cursor := 42122, parser := .seek }) (fun t =>
    ((t.lane 0).cursor, (t.lane 0).parser)) = some (42176, .lead) := by decide +kernel
theorem test_pop_event : shows .popEvent { run with events := [⟨2, .clockEnd⟩] } (fun t => (t.events, t.response)) =
    some ([], .ready .ok ([13, 0, 2, 0, 0, 0, 0, 0] ++ zeroBytes 24 ++ [0])) := by decide
theorem test_set_attention_mask : shows (.setAttentionMask 0xFFFF) run (fun t => (t.attentionMask, t.response)) =
    some (0x1FFF, .ready .ok [0xFF, 0x1F]) := by decide
theorem test_read_lane : (shows (.readLane 0) run State.response).isSome = true ∧ (run.laneReport 0).length = 82 := by decide
theorem test_read_pack_above_63 : shows (.readPack 64) run State.response = some (.ready .badArg []) := by decide
theorem test_step_takes_the_front : step { run with pending := [.grant, .drain] } = exec .grant { run with pending := [.drain] } :=
  rfl

end Sys2Proof.Tests
end

/-! ## The Region Classifier's refusals (R8, R9) -/

section
namespace Sys2Proof.Machine

/-! ### The extent of a request -/

/-- The extent lies in the 40-bit space when address plus length does not exceed 2^40 (R8). -/
theorem touches_lt_space {r : Request} {a : Nat} (hr : r.addr.toNat + r.len ≤ 2 ^ 40) (ha : touches r a) : a < 2 ^ 40 :=
  lt_of_lt_of_le ha.2 hr

/-- A well-formed extent is shorter than an 8 MiB block, so each of its addresses shares a block with its first or its last
byte, and with the block the region (log entry 21). -/
theorem regionOf_touched {s : State} {r : Request} {a : Nat} (hr : s.regionsSound) (hs : s.settingsInRange)
    (hw : r.wellFormed = true) (ha : touches r a) :
    s.regionOf a = s.regionOf r.addr.toNat ∨ s.regionOf a = s.regionOf (r.addr.toNat + r.len - 1) := by
  obtain ⟨hfirst, hend⟩ := ha
  have hlen := wellFormed_len hw
  have hblock : a / 2 ^ 23 = r.addr.toNat / 2 ^ 23 ∨ a / 2 ^ 23 = (r.addr.toNat + r.len - 1) / 2 ^ 23 := by omega
  exact hblock.imp (regionOf_block hr hs) (regionOf_block hr hs)

/-- An extent that touches two regions has its first and its last byte in different ones (log entry 21). -/
theorem regionOf_first_ne_last {s : State} {r : Request} {a b : Nat} (hr : s.regionsSound) (hs : s.settingsInRange)
    (hw : r.wellFormed = true) (ha : touches r a) (hb : touches r b) (hab : s.regionOf a ≠ s.regionOf b) :
    s.regionOf r.addr.toNat ≠ s.regionOf (r.addr.toNat + r.len - 1) := by
  intro hends
  have inFirst : ∀ c, touches r c → s.regionOf c = s.regionOf r.addr.toNat := fun c hc =>
    (regionOf_touched hr hs hw hc).elim id (fun h => h.trans hends.symm)
  exact hab ((inFirst a ha).trans (inFirst b hb).symm)

/-! ### Routes -/

/-- The exception of R9: a WRITE in RUN whose first byte lies in a lane region. -/
theorem laneWriteInRun_iff (part : PartState) (write : Bool) (g : Region) :
    laneWriteInRun part write g = true ↔ part = .run ∧ write = true ∧ ∃ k, g = .lane k := by
  cases g with
  | lane k => simp [laneWriteInRun, and_comm]
  | other | slotWindow j | directory => simp [laneWriteInRun]

theorem route_range {s : State} {r : Request} (h : 2 ^ 40 < r.addr.toNat + r.len) : s.route r = .range := if_pos h

theorem route_straddle {s : State} {r : Request} (hspace : r.addr.toNat + r.len ≤ 2 ^ 40)
    (hends : s.regionOf r.addr.toNat ≠ s.regionOf (r.addr.toNat + r.len - 1))
    (hlane : laneWriteInRun s.part (isWriteRequest r) (s.regionOf r.addr.toNat) = false) : s.route r = .straddle := by
  rw [State.route, if_neg (Nat.not_lt.2 hspace)]
  exact if_pos ⟨hends, hlane⟩

/-! ### Refusals -/

theorem takeRequest_range {s : State} {r : Request} (h : s.route r = .range) :
    s.takeRequest r = (s.count Counters.bumpRange).send r.tag .refused := by simp only [State.takeRequest, h]

theorem takeRequest_straddle {s : State} {r : Request} (h : s.route r = .straddle) :
    s.takeRequest r = (s.count Counters.bumpStraddle).send r.tag .refused := by simp only [State.takeRequest, h]

/-- R21: the Lane Parser refuses a write that begins in its lane and runs past the region's end with EDGE, before any other
test. -/
theorem takeLaneWrite_edge {s : State} {k : LaneIx} {w : HeldWrite} (t : Time)
    (hbase : (s.lane k).base.toNat ≤ w.addr.toNat)
    (hend : (s.lane k).base.toNat + (s.lane k).size < w.addr.toNat + w.data.length) :
    s.takeLaneWrite t k w = s.refuseEdge k w.tag := by
  have hpast : (s.lane k).size < offsetIn (s.lane k).base w.addr + w.data.length := by
    unfold offsetIn
    omega
  exact if_pos hpast

/-- A lane write in RUN that runs past the end of its lane region is refused with EDGE (R9, R21). -/
theorem exec_laneWrite_edge {s : State} {k : LaneIx} {tag : Nat} {addr : Addr} {data : List Byte}
    (h : s.reachesLane k tag addr data) (hend : (s.lane k).base.toNat + (s.lane k).size < addr.toNat + data.length) :
    exec (.upstreamRequest (.write tag addr data)) s = .next (s.refuseEdge k tag) := by
  obtain ⟨-, hbase, -⟩ := regionOf_lane h.first
  rw [exec_reachesLane h, takeLaneWrite_edge _ hbase hend]

/-- A request that touches two regions, and is no lane write in RUN, is refused with STRADDLE (R9). -/
theorem exec_straddle {s : State} {r : Request} {a b : Nat} (hnow : s.takesNow) (hr : s.regionsSound)
    (hs : s.settingsInRange) (hw : r.wellFormed = true) (hspace : r.addr.toNat + r.len ≤ 2 ^ 40)
    (ha : touches r a) (hb : touches r b) (hab : s.regionOf a ≠ s.regionOf b)
    (hlane : ¬ (s.part = .run ∧ isWriteRequest r = true ∧ ∃ k, s.regionOf r.addr.toNat = .lane k)) :
    exec (.upstreamRequest r) s = .next ((s.count Counters.bumpStraddle).send r.tag .refused) := by
  have hroute : s.route r = .straddle :=
    route_straddle hspace (regionOf_first_ne_last hr hs hw ha hb hab)
      (Bool.eq_false_iff.2 (mt (laneWriteInRun_iff _ _ _).1 hlane))
  rw [exec_upstreamRequest_takesNow hnow hw, takeRequest_straddle hroute]

end Sys2Proof.Machine

open Sys2Proof Sys2Proof.Machine

/-- Settles O9: RANGE is the classifier's first test, so no other is made. -/
theorem rangeRefusal : Obligations.RangeRefusal := by
  intro s r hw
  refine ⟨fun hnow hpast => ?_, fun hspace a ha => touches_lt_space hspace ha⟩
  rw [exec_upstreamRequest_takesNow hnow hw, takeRequest_range (route_range hpast)]
  rfl

/-- Settles O10: every region is a union of 8 MiB blocks and a request is shorter than one, so the classifier's test of the
first and the last byte finds every straddle; the lane write that it lets through is the Lane Parser's to refuse. -/
theorem straddleRefusal : Obligations.StraddleRefusal := by
  intro s r hnow hr hs hw hspace
  constructor
  · rintro ⟨a, b, ha, hb, hab⟩ hlane
    rw [exec_straddle hnow hr hs hw hspace ha hb hab hlane]
    rfl
  · intro k hrun hwrite hfirst hend
    cases r with
    | read tag addr len => simp [isWriteRequest] at hwrite
    | write tag addr data =>
      rw [exec_laneWrite_edge ⟨hnow, hw, hspace, hrun, hfirst⟩ hend]
      rfl

end

/-! ## The Lane Parser's tests of a write (R21, R22) -/

section
namespace Sys2Proof.Machine

/-! ### The tests -/

/-- A write that begins at or behind its lane's base and ends in the lane passes the test of R21. -/
theorem offset_within {base addr : Addr} {len size : Nat} (hbase : base.toNat ≤ addr.toNat)
    (hend : addr.toNat + len ≤ base.toNat + size) : ¬ size < offsetIn base addr + len := by
  unfold offsetIn
  omega

/-- R22: within its lane, a write off the projected cursor is refused with STRAY, before the hold queue is looked at. -/
theorem takeLaneWrite_stray {s : State} {k : LaneIx} (t : Time) (w : HeldWrite)
    (hbase : (s.lane k).base.toNat ≤ w.addr.toNat)
    (hend : w.addr.toNat + w.data.length ≤ (s.lane k).base.toNat + (s.lane k).size)
    (hoff : offsetIn (s.lane k).base w.addr ≠ (s.lane k).projected) : s.takeLaneWrite t k w = s.refuseStray k w.tag :=
  (if_neg (offset_within hbase hend)).trans (if_pos hoff)

/-- A write that passes R21 and R22 is accepted or held first when nothing is held, and is held behind or refused with
HOLD_FULL when something is (R43, R44). -/
theorem takeLaneWrite_atCursor {s : State} {k : LaneIx} {w : HeldWrite} (t : Time)
    (hbase : (s.lane k).base.toNat ≤ w.addr.toNat)
    (hend : w.addr.toNat + w.data.length ≤ (s.lane k).base.toNat + (s.lane k).size)
    (hoff : offsetIn (s.lane k).base w.addr = (s.lane k).projected) :
    s.takeLaneWrite t k w =
      if (s.lane k).hold = [] then if s.accepts k w.data then s.acceptWrite t k w else s.holdFirst k w
      else if (s.lane k).hold.length < Config.holdPlaces then s.holdBehind k w
      else s.refuseHoldFull k w.tag :=
  (if_neg (offset_within hbase hend)).trans (if_neg (not_not_intro hoff))

/-! ### The two refusal counters -/

/-- Lane `k` has counted no EDGE and no STRAY refusal from `s` to `t`. -/
structure SameRefusals (k : LaneIx) (s t : State) : Prop where
  edge : (t.lane k).counts.edgeRefusals = (s.lane k).counts.edgeRefusals
  stray : (t.lane k).counts.strayRefusals = (s.lane k).counts.strayRefusals

theorem KeepsLane.sameRefusals {k : LaneIx} {s t : State} (h : KeepsLane k s t) : SameRefusals k s t := ⟨h.edge, h.stray⟩

theorem sameRefusals_acceptWrite (t : Time) (k : LaneIx) {w : HeldWrite} (s : State) (hw : w.data ≠ []) :
    SameRefusals k s (s.acceptWrite t k w) := by
  obtain ⟨hedge, hstray, -⟩ := acceptWrite_lane t k w s hw
  exact ⟨hedge, hstray⟩

theorem sameRefusals_holdFirst (k : LaneIx) (w : HeldWrite) (s : State) : SameRefusals k s (s.holdFirst k w) :=
  (keepsLane_mapLane _ rfl rfl rfl rfl rfl).sameRefusals

theorem sameRefusals_holdBehind (k : LaneIx) (w : HeldWrite) (s : State) : SameRefusals k s (s.holdBehind k w) :=
  (keepsLane_mapLane _ rfl rfl rfl rfl rfl).sameRefusals

theorem sameRefusals_refuseHoldFull (k : LaneIx) (tag : Nat) (s : State) : SameRefusals k s (s.refuseHoldFull k tag) := by
  have h : KeepsLane k s (s.mapLane k fun l =>
      l.count fun c => { c with holdFullRefusals := satAdd c.holdFullRefusals 1 }) := keepsLane_mapLane _ rfl rfl rfl rfl rfl
  exact ⟨h.edge, h.stray⟩

/-- A STRAY refusal counts no EDGE refusal. -/
theorem refuseStray_edge (k : LaneIx) (tag : Nat) (s : State) :
    ((s.refuseStray k tag).lane k).counts.edgeRefusals = (s.lane k).counts.edgeRefusals := by
  have h : (s.refuseStray k tag).lane k =
      (s.lane k).count fun c => { c with strayRefusals := satAdd c.strayRefusals 1 } := s.lane_setLane_same k _
  rw [h]
  rfl

/-- Whatever becomes of a write that passes R21 and R22, it counts for neither. -/
theorem sameRefusals_takeLaneWrite {s : State} {k : LaneIx} (t : Time) (w : HeldWrite) (hw : w.data ≠ [])
    (hbase : (s.lane k).base.toNat ≤ w.addr.toNat)
    (hend : w.addr.toNat + w.data.length ≤ (s.lane k).base.toNat + (s.lane k).size)
    (hoff : offsetIn (s.lane k).base w.addr = (s.lane k).projected) : SameRefusals k s (s.takeLaneWrite t k w) := by
  rw [takeLaneWrite_atCursor t hbase hend hoff]
  split
  · split
    · exact sameRefusals_acceptWrite t k s hw
    · exact sameRefusals_holdFirst k w s
  · split
    · exact sameRefusals_holdBehind k w s
    · exact sameRefusals_refuseHoldFull k w.tag s

/-- A write within its lane counts no EDGE refusal, wherever in the lane it begins. -/
theorem takeLaneWrite_within_edge {s : State} {k : LaneIx} (t : Time) (w : HeldWrite) (hw : w.data ≠ [])
    (hbase : (s.lane k).base.toNat ≤ w.addr.toNat)
    (hend : w.addr.toNat + w.data.length ≤ (s.lane k).base.toNat + (s.lane k).size) :
    ((s.takeLaneWrite t k w).lane k).counts.edgeRefusals = (s.lane k).counts.edgeRefusals := by
  by_cases hoff : offsetIn (s.lane k).base w.addr = (s.lane k).projected
  · exact (sameRefusals_takeLaneWrite t w hw hbase hend hoff).edge
  · rw [takeLaneWrite_stray t w hbase hend hoff]
    exact refuseStray_edge k w.tag s

/-! ### A write that reaches its Lane Parser -/

theorem State.reachesLane.base_le {s : State} {k : LaneIx} {tag : Nat} {addr : Addr} {data : List Byte}
    (h : s.reachesLane k tag addr data) : (s.lane k).base.toNat ≤ addr.toNat := by
  obtain ⟨-, hbase, -⟩ := regionOf_lane h.first
  exact hbase

theorem State.reachesLane.data_ne_nil {s : State} {k : LaneIx} {tag : Nat} {addr : Addr} {data : List Byte}
    (h : s.reachesLane k tag addr data) : data ≠ [] :=
  List.length_pos_iff.1 (wellFormed_len h.formed).1

/-- A lane write in RUN that lies within its lane, off the projected cursor, is refused with STRAY (R22). -/
theorem exec_laneWrite_stray {s : State} {k : LaneIx} {tag : Nat} {addr : Addr} {data : List Byte}
    (h : s.reachesLane k tag addr data) (hend : addr.toNat + data.length ≤ (s.lane k).base.toNat + (s.lane k).size)
    (hoff : offsetIn (s.lane k).base addr ≠ (s.lane k).projected) :
    exec (.upstreamRequest (.write tag addr data)) s = .next (s.refuseStray k tag) := by
  rw [exec_reachesLane h, takeLaneWrite_stray s.clock ⟨tag, addr, data⟩ h.base_le hend hoff]

end Sys2Proof.Machine

open Sys2Proof Sys2Proof.Machine

/-- Settles O13: the Lane Parser tests EDGE, then STRAY, and only then looks at the hold queue, from where on no operation
moves either counter. -/
theorem edgeAndStrayRefusals : Obligations.EdgeAndStrayRefusals := by
  refine ⟨fun s k tag addr data h => ⟨fun hpast => ?edge, fun hend => ?notEdge⟩,
    fun s k tag addr data h hend hoff => ?stray, fun s k tag addr data h => ?notStray⟩
  case edge =>
    rw [exec_laneWrite_edge h hpast]
    rfl
  case notEdge =>
    have hkept := takeLaneWrite_within_edge s.clock ⟨tag, addr, data⟩ h.data_ne_nil h.base_le hend
    exact ⟨_, exec_reachesLane h, hkept⟩
  case stray =>
    rw [exec_laneWrite_stray h hend hoff]
    rfl
  case notStray =>
    have hr := h.toreachesLane
    have hkept := sameRefusals_takeLaneWrite s.clock ⟨tag, addr, data⟩ hr.data_ne_nil hr.base_le h.inside h.atCursor
    exact ⟨_, exec_reachesLane hr, hkept.stray⟩

end

/-! ## Digest arithmetic (R84, R85) -/

section
namespace Sys2Proof.Machine

/-! ### The two sums of a byte sequence -/

/-- The sum that A holds modulo 2^32 (R84). -/
def byteSum (bytes : List Byte) : Nat := (bytes.map BitVec.toNat).sum

/-- The sum that B holds modulo 2^32 (R84): each byte weighs its distance from the end of the sequence. -/
def weightedSum (bytes : List Byte) : Nat := (bytes.zipIdx.map fun x => (bytes.length - x.2) * x.1.toNat).sum

@[simp] theorem byteSum_nil : byteSum [] = 0 := rfl

@[simp] theorem byteSum_cons (b : Byte) (bytes : List Byte) : byteSum (b :: bytes) = b.toNat + byteSum bytes := rfl

@[simp] theorem byteSum_append (xs ys : List Byte) : byteSum (xs ++ ys) = byteSum xs + byteSum ys := by
  simp [byteSum]

@[simp] theorem weightedSum_nil : weightedSum [] = 0 := rfl

/-- A byte put in front moves no other byte's distance from the end. -/
@[simp] theorem weightedSum_cons (b : Byte) (bytes : List Byte) :
    weightedSum (b :: bytes) = (bytes.length + 1) * b.toNat + weightedSum bytes := by
  simp [weightedSum, List.zipIdx_succ, Function.comp_def]

/-- Each byte of the first segment stands the length of the second farther from the end. -/
@[simp] theorem weightedSum_append (xs ys : List Byte) :
    weightedSum (xs ++ ys) = weightedSum xs + ys.length * byteSum xs + weightedSum ys := by
  induction xs with
  | nil => simp
  | cons b xs ih =>
    simp only [List.cons_append, weightedSum_cons, byteSum_cons, List.length_append, ih]
    ring

theorem byteSum_exchange (xs ys zs : List Byte) (b c : Byte) :
    byteSum (xs ++ b :: ys ++ c :: zs) = byteSum (xs ++ c :: ys ++ b :: zs) := by
  simp only [byteSum_append, byteSum_cons]
  ring

/-- Of two bytes exchanged, each moves past the bytes between them. -/
theorem weightedSum_exchange (xs ys zs : List Byte) (b c : Byte) :
    (weightedSum (xs ++ b :: ys ++ c :: zs) : Int) - weightedSum (xs ++ c :: ys ++ b :: zs) =
      (ys.length + 1) * ((b.toNat : Int) - c.toNat) := by
  simp only [weightedSum_append, weightedSum_cons, byteSum_append, byteSum_cons, List.length_cons]
  push_cast
  ring

/-! ### The digest of a byte sequence -/

/-- The byte rule at the end of a sequence (R84). -/
theorem Digest.ofBytes_concat (bytes : List Byte) (b : Byte) :
    Digest.ofBytes (bytes ++ [b]) = (Digest.ofBytes bytes).byte b := List.foldl_concat ..

/-- The two sums keep the byte rule, so the digest holds them modulo 2^32 (R84). -/
theorem Digest.ofBytes_eq_sums (bytes : List Byte) :
    Digest.ofBytes bytes = ⟨BitVec.ofNat 32 (byteSum bytes), BitVec.ofNat 32 (weightedSum bytes)⟩ := by
  induction bytes using List.reverseRecOn with
  | nil => rfl
  | append_singleton bytes b ih =>
    rw [Digest.ofBytes_concat, ih, Digest.byte]
    simp [BitVec.ofNat_add, BitVec.add_assoc]

theorem Digest.ofBytes_a (bytes : List Byte) : (Digest.ofBytes bytes).a = BitVec.ofNat 32 (byteSum bytes) := by
  rw [Digest.ofBytes_eq_sums]

theorem Digest.ofBytes_b (bytes : List Byte) : (Digest.ofBytes bytes).b = BitVec.ofNat 32 (weightedSum bytes) := by
  rw [Digest.ofBytes_eq_sums]

/-- A zero byte leaves the digest of no byte as it is. -/
theorem Digest.ofBytes_zeroBytes (n : Nat) : Digest.ofBytes (zeroBytes n) = ⟨0, 0⟩ := by
  induction n with
  | zero => rfl
  | succ n ih => exact ih

/-- Two numbers agree modulo 2^32 when it divides their difference. -/
theorem ofNat32_eq_iff_dvd_sub (m n : Nat) : BitVec.ofNat 32 m = BitVec.ofNat 32 n ↔ (2 : Int) ^ 32 ∣ (m : Int) - n := by
  rw [← BitVec.toNat_inj, BitVec.toNat_ofNat, BitVec.toNat_ofNat, eq_comm]
  exact Nat.modEq_iff_dvd

/-- Bytes exchanged keep A (R84). -/
theorem Digest.ofBytes_exchange_a (xs ys zs : List Byte) (b c : Byte) :
    (Digest.ofBytes (xs ++ b :: ys ++ c :: zs)).a = (Digest.ofBytes (xs ++ c :: ys ++ b :: zs)).a := by
  rw [Digest.ofBytes_a, Digest.ofBytes_a, byteSum_exchange]

/-- Bytes exchanged keep B just when 2^32 divides the difference of the weighted sums (R84). -/
theorem Digest.ofBytes_exchange_b_iff (xs ys zs : List Byte) (b c : Byte) :
    (Digest.ofBytes (xs ++ b :: ys ++ c :: zs)).b = (Digest.ofBytes (xs ++ c :: ys ++ b :: zs)).b ↔
      (2 : Int) ^ 32 ∣ (ys.length + 1) * ((b.toNat : Int) - c.toNat) := by
  rw [Digest.ofBytes_b, Digest.ofBytes_b, ofNat32_eq_iff_dvd_sub, weightedSum_exchange]

/-! ### The append rule -/

/-- Extending a digest by a segment's digest gives the digest of both taken as one (R85). -/
theorem Digest.ofBytes_append (xs ys : List Byte) :
    (Digest.ofBytes xs).append (Digest.ofBytes ys) ys.length = Digest.ofBytes (xs ++ ys) := by
  simp only [Digest.ofBytes_eq_sums, Digest.append, byteSum_append, weightedSum_append, BitVec.ofNat_add, BitVec.ofNat_mul]
  congr 1
  ring

/-- Zeros add nothing of their own; B takes A once for each (R85). -/
theorem Digest.zeros_eq (d : Digest) (n : Nat) : d.zeros n = ⟨d.a, d.b + BitVec.ofNat 32 n * d.a⟩ := by
  simp [Digest.zeros, Digest.append]

/-- Segments may be joined in either order of the two joins (R85). -/
theorem Digest.append_assoc (d e f : Digest) (m n : Nat) :
    (d.append e m).append f n = d.append (e.append f n) (m + n) := by
  simp only [Digest.append, BitVec.ofNat_add]
  congr 1 <;> ring

end Sys2Proof.Machine

open Sys2Proof Sys2Proof.Machine

/-- Settles O18: the digest is the two sums modulo 2^32, and what an append or an exchange does to them is arithmetic of
the sums. -/
theorem digestRules : Obligations.DigestRules := by
  refine ⟨⟨rfl, Digest.ofBytes_concat, fun xs => ?sums, Digest.ofBytes_zeroBytes, fun xs ys zs b c =>
    ⟨Digest.ofBytes_exchange_a xs ys zs b c, Digest.ofBytes_exchange_b_iff xs ys zs b c⟩⟩,
    Digest.ofBytes_append, fun _ _ _ => rfl, Digest.zeros_eq, Digest.append_assoc⟩
  case sums =>
    rw [Digest.ofBytes_a, Digest.ofBytes_b, BitVec.toNat_ofNat, BitVec.toNat_ofNat]
    exact ⟨rfl, rfl⟩

end

/-! ## The tests of DISCARD_PACK and RECOMMIT_PACK (R105) -/

section
namespace Sys2Proof.Machine

/-! ### A frame that is taken -/

/-- A whole frame of `n` bytes has been taken: the response is BUSY until the command completes (R160, R162). -/
def State.taken (n : Nat) (s : State) : State := { s with response := .busy, msdo := zeroBytes n }

/-- A link that is free carries out the command of a whole frame (R160). -/
theorem takeFrame_linkFree {s : State} (h : s.linkFree) (n : Nat) (body : State → State) :
    s.takeFrame n body = body (s.taken n) := by
  rw [State.takeFrame, if_neg (ne_true_of_eq_false h.high), if_neg h.idle]
  rfl

@[simp] theorem State.taken_pack (n : Nat) (s : State) (d : PackIx) : (s.taken n).pack d = s.pack d := rfl

/-- A refusal of the command changes nothing but the answer (R162). -/
theorem State.taken_refuse (n : Nat) (st : Status) (s : State) : (s.taken n).refuse st = s.answered n st [] := rfl

@[simp] theorem State.respond_response (st : Status) (payload : List Byte) (s : State) :
    (s.respond st payload).response = .ready st payload := rfl

theorem exec_discardPack_linkFree {s : State} (h : s.linkFree) (record : Byte) (serial : Word32) :
    exec (.discardPack record serial) s = .next ((s.taken 8).carryOutDiscardPack record serial) :=
  congrArg Host.Outcome.next (takeFrame_linkFree h 8 _)

theorem exec_recommitPack_linkFree {s : State} (h : s.linkFree) (record : Byte) (serial : Word32) :
    exec (.recommitPack record serial) s = .next ((s.taken 8).carryOutRecommitPack record serial) :=
  congrArg Host.Outcome.next (takeFrame_linkFree h 8 _)

/-! ### The tests that both commands make first -/

theorem packOf_of_val {b : Byte} {d : PackIx} (h : d.val = b.toNat) : packOf b = some d :=
  (dif_pos (h ▸ d.isLt)).trans (congrArg some (Fin.ext h.symm))

theorem packOf_of_gt {b : Byte} (h : 63 < b.toNat) : packOf b = none := dif_neg (Nat.not_lt.2 h)

theorem namedPack_config {s : State} (record : Byte) (serial : Word32) (h : s.part = .config) :
    s.namedPack record serial = .inl .badState := if_pos h

theorem namedPack_badArg {s : State} {record : Byte} (serial : Word32) (hp : s.part ≠ .config)
    (hr : 63 < record.toNat) : s.namedPack record serial = .inl .badArg := by
  rw [State.namedPack, if_neg hp, packOf_of_gt hr]

theorem namedPack_record {s : State} {record : Byte} {d : PackIx} (serial : Word32) (hp : s.part ≠ .config)
    (hd : d.val = record.toNat) : s.namedPack record serial =
      if (s.pack d).state = .free ∨ (s.pack d).serial ≠ serial then .inl .notFound else .inr d := by
  rw [State.namedPack, if_neg hp, packOf_of_val hd]

/-- The part is out of CONFIG, and the record is below 64, not FREE, and holds the serial: the tests that both commands make
pass (R105). -/
theorem namedPack_passes {s : State} {record : Byte} {serial : Word32} {d : PackIx} (hp : s.part ≠ .config)
    (hd : d.val = record.toNat) (hfree : (s.pack d).state ≠ .free) (hserial : (s.pack d).serial = serial) :
    s.namedPack record serial = .inr d := by
  rw [namedPack_record serial hp hd, if_neg (not_or.2 ⟨hfree, not_not_intro hserial⟩)]

@[simp] theorem namedPack_taken (n : Nat) (s : State) (record : Byte) (serial : Word32) :
    (s.taken n).namedPack record serial = s.namedPack record serial := rfl

theorem exec_packCommands_refused {s : State} {record : Byte} {serial : Word32} {st : Status} (h : s.linkFree)
    (hn : s.namedPack record serial = .inl st) :
    exec (.discardPack record serial) s = .next (s.answered 8 st []) ∧
    exec (.recommitPack record serial) s = .next (s.answered 8 st []) := by
  rw [exec_discardPack_linkFree h, exec_recommitPack_linkFree h, State.carryOutDiscardPack, State.carryOutRecommitPack,
    namedPack_taken, hn]
  exact ⟨rfl, rfl⟩

/-! ### The test of the pack's state -/

section
variable {s : State} {record : Byte} {serial : Word32} {d : PackIx}

/-- A BOUND pack is refused with BOUND and a DISCARDING one with BAD_STATE (R105). -/
theorem exec_discardPack_refused (h : s.linkFree) (hn : s.namedPack record serial = .inr d) :
    ((s.pack d).state = .bound → exec (.discardPack record serial) s = .next (s.answered 8 .bound [])) ∧
    ((s.pack d).state = .discarding → exec (.discardPack record serial) s = .next (s.answered 8 .badState [])) := by
  rw [exec_discardPack_linkFree h, State.carryOutDiscardPack, namedPack_taken, hn]
  dsimp only
  rw [State.taken_pack]
  constructor
  · intro hs
    rw [hs, ← State.taken_refuse]
  · intro hs
    rw [hs, ← State.taken_refuse]

/-- A pack neither BOUND nor DISCARDING is discarded, and the response reports the state it was in (R105). -/
theorem exec_discardPack_passes (h : s.linkFree) (hn : s.namedPack record serial = .inr d)
    (hbound : (s.pack d).state ≠ .bound) (hdiscarding : (s.pack d).state ≠ .discarding) :
    exec (.discardPack record serial) s = .next (State.respond .ok (le 1 (s.pack d).state.code)
      (if s.unitsOut d then (s.taken 8).discardInFlight s.clock d else (s.taken 8).discardWhole s.clock d)) := by
  rw [exec_discardPack_linkFree h, State.carryOutDiscardPack, namedPack_taken, hn]
  dsimp only
  rw [State.taken_pack]
  split
  next hs => exact absurd hs hbound
  next hs => exact absurd hs hdiscarding
  next => rfl

theorem exec_recommitPack_badState (h : s.linkFree) (hn : s.namedPack record serial = .inr d)
    (hs : (s.pack d).state ≠ .failed) :
    exec (.recommitPack record serial) s = .next (s.answered 8 .badState []) := by
  simp only [exec_recommitPack_linkFree h, State.carryOutRecommitPack, namedPack_taken, hn, State.taken_pack, hs, if_false,
    State.taken_refuse]

/-- A FAILED pack is SEALING again, and the response reports that it was FAILED (R105, R108). -/
theorem exec_recommitPack_passes (h : s.linkFree) (hn : s.namedPack record serial = .inr d)
    (hs : (s.pack d).state = .failed) :
    exec (.recommitPack record serial) s = .next (State.respond .ok (le 1 PackState.failed.code)
      (((s.taken 8).setPack d { s.pack d with state := .sealing }).joinCommitQueue d)) := by
  simp only [exec_recommitPack_linkFree h, State.carryOutRecommitPack, namedPack_taken, hn, State.taken_pack, hs, if_true]

end

end Sys2Proof.Machine

open Sys2Proof Sys2Proof.Machine

/-- Settles O49: both commands name their pack by the same tests, in the order CONFIG, record, FREE or other serial; each
then looks at the pack's state. -/
theorem packCommandTests : Obligations.PackCommandTests := by
  intro s record serial h
  refine ⟨fun hp => exec_packCommands_refused h (namedPack_config record serial hp), fun hp =>
    ⟨fun hr => exec_packCommands_refused h (namedPack_badArg serial hp hr), fun d hd => ⟨fun hmiss => ?other,
      fun hfree hserial => ?named⟩⟩⟩
  case other =>
    exact exec_packCommands_refused h ((namedPack_record serial hp hd).trans (if_pos hmiss))
  case named =>
    have hn := namedPack_passes hp hd hfree hserial
    obtain ⟨hbound, hdiscarding⟩ := exec_discardPack_refused h hn
    exact ⟨hbound, hdiscarding, exec_recommitPack_badState h hn,
      fun hb hg => ⟨_, exec_discardPack_passes h hn hb hg, State.respond_response ..⟩,
      fun hf => ⟨_, exec_recommitPack_passes h hn hf, State.respond_response ..⟩⟩

end

/-! ## The tests of the pack view (R132, R136) -/

section
namespace Sys2Proof.Machine

/-! ### Requests in a slot window -/

/-- A request that lies in one region is routed by Table 1-2: it makes neither RANGE nor STRADDLE (R8, R9). -/
theorem route_liesIn {s : State} {r : Request} {g : Region} (h : s.liesIn r g) :
    s.route r = routeIn s.part (isWriteRequest r) g := by
  obtain ⟨hlen, -⟩ := wellFormed_len h.formed
  have hspace := h.space
  have hfirst : s.regionOf r.addr.toNat = g := h.region _ ⟨le_rfl, by omega⟩
  have hlast : s.regionOf (r.addr.toNat + r.len - 1) = g := h.region _ ⟨by omega, by omega⟩
  rw [State.route, if_neg (Nat.not_lt.2 hspace)]
  simp [hfirst, hlast]

/-- A read of a slot window goes to the view path, with its offset in the window (R10, R132). -/
theorem exec_viewRead {s : State} {tag len : Nat} {addr : Addr} {j : SlotIx} (hnow : s.takesNow) (hpart : s.part ≠ .config)
    (h : s.liesIn (.read tag addr len) (.slotWindow j)) :
    exec (.upstreamRequest (.read tag addr len)) s =
      .next (s.takeRead j ((addr.toNat - s.window.base.toNat) % 2 ^ 31) len tag) := by
  have hroute : s.route (.read tag addr len) = .viewRead j := (route_liesIn h).trans (if_neg hpart)
  rw [exec_upstreamRequest_takesNow hnow h.formed, State.takeRequest, hroute]
  rfl

/-- A write of a slot window is a disposition write of its slot (R10, R136). -/
theorem exec_dispositionWrite {s : State} {tag : Nat} {addr : Addr} {data : List Byte} {j : SlotIx} (hnow : s.takesNow)
    (hpart : s.part ≠ .config) (h : s.liesIn (.write tag addr data) (.slotWindow j)) :
    exec (.upstreamRequest (.write tag addr data)) s =
      .next (s.takeDisposition s.clock j ((addr.toNat - s.window.base.toNat) % 2 ^ 31) tag data) := by
  have hroute : s.route (.write tag addr data) = .disposition j := (route_liesIn h).trans (if_neg hpart)
  rw [exec_upstreamRequest_takesNow hnow h.formed, State.takeRequest, hroute]
  rfl

/-! ### The tests of a view read -/

theorem takeRead_free {s : State} {j : SlotIx} (o len tag : Nat) (hfree : (s.slot j).bound = none) :
    s.takeRead j o len tag = s.refuseRead tag := by
  rw [State.takeRead, hfree]

/-- The tests of a read of a slot that is bound: its extent, then a pending return (R132). -/
theorem takeRead_bound {s : State} {j : SlotIx} {b : Binding} (o len tag : Nat) (hb : (s.slot j).bound = some b) :
    s.takeRead j o len tag = if b.length < o + len then s.refuseRead tag
      else if (s.slot j).pending.isSome then s.refuseRead tag else s.serveRead j b o len tag := by
  rw [State.takeRead, hb]

theorem takeRead_refused {s : State} {j : SlotIx} {b : Binding} {o len : Nat} (tag : Nat) (hb : (s.slot j).bound = some b)
    (h : b.length < o + len ∨ (s.slot j).pending ≠ none) : s.takeRead j o len tag = s.refuseRead tag := by
  rw [takeRead_bound o len tag hb]
  rcases h with hpast | hpending
  · exact if_pos hpast
  · rw [if_pos (Option.isSome_iff_ne_none.2 hpending), ite_self]

theorem takeRead_served {s : State} {j : SlotIx} {b : Binding} {o len : Nat} (tag : Nat) (hb : (s.slot j).bound = some b)
    (hend : o + len ≤ b.length) (hpending : (s.slot j).pending = none) :
    s.takeRead j o len tag = s.serveRead j b o len tag := by
  simp [takeRead_bound o len tag hb, Nat.not_lt.2 hend, hpending]

/-! ### The fields of a disposition record -/

theorem leNat_lt (bytes : List Byte) : leNat bytes < 256 ^ bytes.length := by
  induction bytes with
  | nil => exact Nat.one_pos
  | cons b bs ih =>
    have hb := b.isLt
    rw [leNat, List.length_cons, Nat.pow_succ]
    omega

/-- A field of `n` bytes is a number below `256 ^ n`, also where the record ends within it. -/
theorem field_lt (bytes : List Byte) (o n : Nat) : field bytes o n < 256 ^ n :=
  (leNat_lt _).trans_le (Nat.pow_le_pow_right (by decide) (List.length_take_le ..))

/-- A 4-byte field is compared with a 32-bit word as a number, since it holds no more than the word does. -/
theorem ofNat_field_eq_iff (bytes : List Byte) (o : Nat) (w : Word32) :
    BitVec.ofNat 32 (field bytes o 4) = w ↔ field bytes o 4 = w.toNat := by
  have hlt : field bytes o 4 < 2 ^ 32 := field_lt bytes o 4
  rw [← BitVec.toNat_inj, BitVec.toNat_ofNat, Nat.mod_eq_of_lt hlt]

/-- The FORMAT test of R136 on a write at a slot offset, in the words of Table 11-2. -/
def FormatPasses (o : Nat) (data : List Byte) : Prop :=
  o = 0 ∧ data.length = 32 ∧ field data 0 4 = 0x3B94E06D ∧ wordSum data % 65536 = 0xFFFF ∧
    (field data 4 2 = 1 ∨ field data 4 2 = 2) ∧ field data 12 4 = 0

/-- A write that fails FORMAT has no fields. -/
theorem dispositionOf_malformed {o : Nat} {data : List Byte} (h : ¬ FormatPasses o data) : dispositionOf o data = none :=
  if_neg fun ⟨ho, hlen, hmark, hcheck, hkind, hzero⟩ => h ⟨ho, hlen, hmark, beq_iff_eq.1 hcheck, hkind, hzero⟩

/-- The fields of a write that passes FORMAT. -/
theorem dispositionOf_wellFormed {o : Nat} {data : List Byte} (h : FormatPasses o data) :
    dispositionOf o data = some { written := decide (field data 4 2 = 1), serial := BitVec.ofNat 32 (field data 8 4),
                                  tapeTag := BitVec.ofNat 128 (field data 16 16) } := by
  obtain ⟨ho, hlen, hmark, hcheck, hkind, hzero⟩ := h
  exact if_pos ⟨ho, hlen, hmark, beq_iff_eq.2 hcheck, hkind, hzero⟩

/-! ### The tests of a disposition write -/

/-- A disposition write refused for a reason (R136): DISPOSITION_REFUSED is raised, the refusal counted, REFUSED sent. -/
def State.refuseDisposition (t : Time) (j : SlotIx) (tag : Nat) (s : State) (reason : DispositionReason) : State :=
  ((s.raise t (.dispositionRefused j reason)).count Counters.bumpDispositionRefused).send tag .refused

/-- What becomes of a disposition write that passes all tests (R136, R137). -/
def State.passDisposition (t : Time) (j : SlotIx) (b : Binding) (tag : Nat) (written : Bool) (tape : BitVec 128)
    (s : State) : State :=
  if (s.slot j).reads = 0 then if written then s.takeWritten t j b tag tape else s.takeReturned t j b tag
  else s.setSlot j { s.slot j with
    pending := some (if written then .written tag tape else .returned tag tape), idle := .absent }

section
variable {s : State} {j : SlotIx} {b : Binding} {o : Nat} {data : List Byte} (t : Time) (tag : Nat)

theorem takeDisposition_notBound (hfree : (s.slot j).bound = none) :
    s.takeDisposition t j o tag data = s.refuseDisposition t j tag .notBound := by
  simp only [State.takeDisposition, hfree]
  rfl

theorem takeDisposition_format (hb : (s.slot j).bound = some b) (hform : ¬ FormatPasses o data) :
    s.takeDisposition t j o tag data = s.refuseDisposition t j tag .format := by
  simp only [State.takeDisposition, hb, dispositionOf_malformed hform]
  rfl

/-- The tests behind FORMAT (R136): SERIAL, then PENDING. -/
theorem takeDisposition_wellFormed (hb : (s.slot j).bound = some b) (hform : FormatPasses o data) :
    s.takeDisposition t j o tag data =
      if field data 8 4 ≠ (s.pack b.record).serial.toNat then s.refuseDisposition t j tag .serial
      else if (s.slot j).pending.isSome then s.refuseDisposition t j tag .pending
      else s.passDisposition t j b tag (decide (field data 4 2 = 1)) (BitVec.ofNat 128 (field data 16 16)) := by
  simp only [State.takeDisposition, State.refuseDisposition, State.passDisposition, hb, dispositionOf_wellFormed hform,
    ne_eq, ofNat_field_eq_iff]

theorem takeDisposition_serial (hb : (s.slot j).bound = some b) (hform : FormatPasses o data)
    (hserial : field data 8 4 ≠ (s.pack b.record).serial.toNat) :
    s.takeDisposition t j o tag data = s.refuseDisposition t j tag .serial :=
  (takeDisposition_wellFormed t tag hb hform).trans (if_pos hserial)

theorem takeDisposition_pending (hb : (s.slot j).bound = some b) (hform : FormatPasses o data)
    (hserial : field data 8 4 = (s.pack b.record).serial.toNat) (hpending : (s.slot j).pending ≠ none) :
    s.takeDisposition t j o tag data = s.refuseDisposition t j tag .pending :=
  (takeDisposition_wellFormed t tag hb hform).trans
    ((if_neg (not_not_intro hserial)).trans (if_pos (Option.isSome_iff_ne_none.2 hpending)))

theorem takeDisposition_passes (hb : (s.slot j).bound = some b) (hform : FormatPasses o data)
    (hserial : field data 8 4 = (s.pack b.record).serial.toNat) (hpending : (s.slot j).pending = none) :
    s.takeDisposition t j o tag data =
      s.passDisposition t j b tag (decide (field data 4 2 = 1)) (BitVec.ofNat 128 (field data 16 16)) := by
  simp [takeDisposition_wellFormed t tag hb hform, hserial, hpending]

/-- With no read in flight a disposition that passes is taken at once, by its kind. -/
theorem passDisposition_now (tape : BitVec 128) (hreads : (s.slot j).reads = 0) :
    s.passDisposition t j b tag true tape = s.takeWritten t j b tag tape ∧
    s.passDisposition t j b tag false tape = s.takeReturned t j b tag :=
  ⟨if_pos hreads, if_pos hreads⟩

/-- With a read in flight a disposition that passes is made pending, and its slot has no idle deadline (R137). -/
theorem passDisposition_later (written : Bool) (tape : BitVec 128) (hreads : (s.slot j).reads ≠ 0) :
    s.passDisposition t j b tag written tape = s.setSlot j { s.slot j with
      pending := some (if written then .written tag tape else .returned tag tape), idle := .absent } := if_neg hreads

end

end Sys2Proof.Machine

open Sys2Proof Sys2Proof.Machine

/-- Settles O29: a read of a slot window reaches the view path, which tests the binding, the extent and a pending return in
this order. -/
theorem viewReadTests : Obligations.ViewReadTests := by
  intro s tag addr len j hnow hpart hlies
  dsimp only
  rw [exec_viewRead hnow hpart hlies]
  refine ⟨fun hfree => ?free, fun b hb => ⟨fun hfails => ?refused, fun hend hpending => ?served⟩⟩
  case free =>
    rw [takeRead_free _ _ _ hfree]
    rfl
  case refused =>
    rw [takeRead_refused tag hb hfails]
    rfl
  case served =>
    exact congrArg _ (takeRead_served tag hb hend hpending)

/-- Settles O32: a write of a slot window reaches the tests of R136, each of which is made when those before it pass; what
passes them all goes by its kind and by the reads in flight. -/
theorem dispositionTests : Obligations.DispositionTests := by
  intro s tag addr data j hnow hpart hlies
  dsimp only
  rw [exec_dispositionWrite hnow hpart hlies]
  refine ⟨fun hfree => congrArg _ (takeDisposition_notBound _ tag hfree), fun b hb =>
    ⟨fun hform => congrArg _ (takeDisposition_format _ tag hb hform), fun hform hserial =>
      congrArg _ (takeDisposition_serial _ tag hb hform hserial), fun hform hserial =>
      ⟨fun hpending => congrArg _ (takeDisposition_pending _ tag hb hform hserial hpending),
        fun hpending hreads => ?now, fun hpending hreads => ?later⟩⟩⟩
  case now =>
    obtain ⟨hwritten, hreturned⟩ :=
      passDisposition_now (b := b) s.clock tag (BitVec.ofNat 128 (field data 16 16)) hreads
    rw [takeDisposition_passes _ tag hb hform hserial hpending]
    constructor
    · intro hkind
      rw [decide_eq_true hkind, hwritten]
    · intro hkind
      have hne : field data 4 2 ≠ 1 := by omega
      rw [decide_eq_false hne, hreturned]
  case later =>
    rw [takeDisposition_passes _ tag hb hform hserial hpending, passDisposition_later _ _ _ _ hreads]
    simp only [decide_eq_true_eq]

end

/-! ## POP_EVENT and the event record (R172, Table 11-7) -/

section
namespace Sys2Proof.Machine

/-! ### POP_EVENT -/

theorem exec_popEvent_linkFree {s : State} (h : s.linkFree) : exec .popEvent s = .next (s.taken 3).carryOutPopEvent :=
  congrArg _ (takeFrame_linkFree h 3 _)

theorem exec_popEvent_empty {s : State} (h : s.linkFree) (hempty : s.events = []) :
    exec .popEvent s = .next (s.answered 3 .notFound []) := by
  have htaken : (s.taken 3).events = [] := hempty
  rw [exec_popEvent_linkFree h, State.carryOutPopEvent, htaken, State.taken_refuse]

theorem exec_popEvent_head {s : State} {e : EventRecord} {rest : List EventRecord} (h : s.linkFree)
    (hhead : s.events = e :: rest) :
    exec .popEvent s = .next { s.answered 3 .ok (e.bytes ++ le 1 rest.length) with events := rest } := by
  have htaken : (s.taken 3).events = e :: rest := hhead
  rw [exec_popEvent_linkFree h, State.carryOutPopEvent, htaken]
  rfl

/-! ### A record of 32 bytes as a sequence of fields -/

/-- From offset `o` on, a record of 32 bytes is a sequence of fields, each a size and a value, and then zeros. -/
def LaidOut (bytes : List Byte) : Nat → List (Nat × Nat) → Prop
  | o, [] => bytes.drop o = List.replicate (32 - o) 0
  | o, (n, v) :: l => field bytes o n = v ∧ LaidOut bytes (o + n) l

/-- Every value of a sequence of fields is within the range of its field. -/
def FieldsFit (l : List (Nat × Nat)) : Prop := ∀ x ∈ l, x.2 < 256 ^ x.1

/-- Bytes written field by field, with zeros behind them, read back as those fields. -/
theorem laidOut_of_drop_eq {bytes : List Byte} {l : List (Nat × Nat)} {o : Nat} (hfit : FieldsFit l)
    (h : bytes.drop o = fieldBytes l ++ zeroBytes (32 - (o + (fieldBytes l).length))) : LaidOut bytes o l := by
  induction l generalizing o with
  | nil => exact h
  | cons x l ih =>
    obtain ⟨n, v⟩ := x
    have hv : v < 256 ^ n := hfit _ List.mem_cons_self
    rw [fieldBytes_cons, List.append_assoc] at h
    have hfield : field bytes o n = v := by
      calc field bytes o n = field (bytes.drop o) 0 n := rfl
        _ = v % 256 ^ n := by rw [h, field_front]
        _ = v := Nat.mod_eq_of_lt hv
    refine ⟨hfield, ih (fun y hy => hfit y (List.mem_cons_of_mem _ hy)) ?_⟩
    rw [← List.drop_drop, h, List.drop_left' (le_length n v), List.length_append, le_length, Nat.add_assoc]

/-- A number beyond its field's range is written modulo that range: `le` takes its low bytes only. -/
theorem le_mod (n v : Nat) : le n (v % 256 ^ n) = le n v := by
  induction n generalizing v with
  | zero => rfl
  | succ n ih =>
    have hhigh : v % 256 ^ (n + 1) / 256 = v / 256 % 256 ^ n := by rw [pow_succ', Nat.mod_mul_right_div_self]
    have hlow : BitVec.ofNat 8 (v % 256 ^ (n + 1)) = BitVec.ofNat 8 v := BitVec.eq_of_toNat_eq (by simp)
    rw [le, le, hlow, hhigh, ih]

/-! ### The event record -/

/-- The argument fields of an event, in the order of Table 11-7; a value without a bound of its own is taken modulo its
field's range. -/
def EventBody.fields : EventBody → List (Nat × Nat)
  | .packReady d s l => [(1, d.val), (3, 0), (4, s.toNat), (4, l % 256 ^ 4)]
  | .slotBound j s l => [(1, j.val), (3, 0), (4, s.toNat), (4, l % 256 ^ 4)]
  | .packReleased s tag => [(4, s.toNat), (16, tag.toNat)]
  | .packReturned j s c => [(1, j.val), (1, c.code), (2, 0), (4, s.toNat)]
  | .commitFailed d s f u => [(1, d.val), (1, 0), (2, u % 256 ^ 2), (4, s.toNat), (2, f % 256 ^ 2)]
  | .commitSuspended d s u => [(1, d.val), (1, 0), (2, u % 256 ^ 2), (4, s.toNat)]
  | .leadFault k o r => [(1, k.val), (1, r.code), (2, 0), (4, o % 256 ^ 4)]
  | .resync k o => [(1, k.val), (3, 0), (4, o % 256 ^ 4)]
  | .memberBroken k m o c r => [(1, k.val), (1, c.code), (2, m.val), (4, o % 256 ^ 4), (4, r % 256 ^ 4)]
  | .holdExpired k n c => [(1, k.val), (1, n % 256 ^ 1), (2, 0), (4, c % 256 ^ 4)]
  | .dispositionRefused j r => [(1, j.val), (1, r.code)]
  | .waiting m c => [(2, m.val), (1, c.val)]
  | .clockEnd => []

theorem EventBody.arguments_eq (e : EventBody) : e.arguments = fieldBytes e.fields := by
  cases e <;>
    simp only [EventBody.arguments, EventBody.fields, fieldBytes_cons, fieldBytes_nil, zeroBytes_eq, le_mod, List.append_nil,
      List.append_assoc]

theorem EventBody.length_arguments_le (e : EventBody) : e.arguments.length ≤ 24 := by
  cases e <;> simp [EventBody.arguments]

theorem EventBody.kindCode_lt (e : EventBody) : e.kindCode < 256 ^ 1 := by
  cases e <;> simp [EventBody.kindCode]

theorem LeadReason.code_lt (r : LeadReason) : r.code < 256 := by cases r <;> decide
theorem DispositionReason.code_lt (r : DispositionReason) : r.code < 256 := by cases r <;> decide
theorem ReturnCause.code_lt (c : ReturnCause) : c.code < 256 := by cases c <;> decide
theorem BreakCause.code_lt (c : BreakCause) : c.code < 256 := by cases c <;> decide

/-- An index, a word and a code are below the range of their field; every other value is taken modulo it. -/
theorem EventBody.fields_fit (e : EventBody) : FieldsFit e.fields := by
  cases e <;> simp [FieldsFit, EventBody.fields, LeadReason.code_lt, DispositionReason.code_lt, ReturnCause.code_lt,
    BreakCause.code_lt] <;> omega

/-- The fields of an event record from its first byte on (Table 11-7). -/
def EventRecord.fields (e : EventRecord) : List (Nat × Nat) :=
  (1, e.body.kindCode) :: (1, 0) :: (6, e.time.toNat) :: e.body.fields

theorem EventRecord.bytes_eq (e : EventRecord) :
    e.bytes = fieldBytes e.fields ++ zeroBytes (24 - e.body.arguments.length) := by
  simp only [EventRecord.bytes, EventRecord.fields, EventBody.arguments_eq, fieldBytes_cons, zeroBytes_eq 1,
    List.append_assoc]

theorem EventRecord.bytes_length (e : EventRecord) : e.bytes.length = 32 := by
  have h := e.body.length_arguments_le
  simp only [EventRecord.bytes, List.length_append, le_length, zeroBytes_length]
  omega

theorem EventRecord.fields_fit (e : EventRecord) : FieldsFit e.fields :=
  List.forall_mem_cons.2 ⟨e.body.kindCode_lt, List.forall_mem_cons.2 ⟨by decide,
    List.forall_mem_cons.2 ⟨e.time.isLt, e.body.fields_fit⟩⟩⟩

/-- The layout of an event record (Table 11-7): its fields, then zeros. -/
theorem EventRecord.bytes_laidOut (e : EventRecord) : LaidOut e.bytes 0 e.fields := by
  refine laidOut_of_drop_eq e.fields_fit ?_
  have hzeros : 32 - (0 + (fieldBytes e.fields).length) = 24 - e.body.arguments.length := by
    simp only [EventRecord.fields, fieldBytes_cons, List.length_append, le_length, ← EventBody.arguments_eq]
    omega
  rw [hzeros]
  exact e.bytes_eq

/-- The arguments of an event stand from offset 8 on. -/
theorem EventRecord.bytes_arguments (time : Time) (body : EventBody) :
    LaidOut (EventRecord.bytes ⟨time, body⟩) 8 body.fields := by
  obtain ⟨-, -, -, harguments⟩ := EventRecord.bytes_laidOut ⟨time, body⟩
  exact harguments

end Sys2Proof.Machine

open Sys2Proof Sys2Proof.Machine

/-- Settles O52: POP_EVENT goes by the queue being empty or not; the record it returns is laid out as the fields of its
event, which are those of Table 11-7. -/
theorem popEventTakesHead : Obligations.PopEventTakesHead := by
  refine ⟨fun s h => ⟨exec_popEvent_empty h, fun e rest => exec_popEvent_head h⟩, fun time body => ?header,
    fun time d j k m serial tape x y => ?arguments, rfl, rfl, rfl, rfl⟩
  case header =>
    obtain ⟨hkind, hzero, htime, -⟩ := EventRecord.bytes_laidOut ⟨time, body⟩
    exact ⟨EventRecord.bytes_length _, hkind, hzero, htime⟩
  case arguments =>
    have layout := EventRecord.bytes_arguments time
    exact ⟨⟨rfl, layout (.packReady d serial x)⟩, ⟨rfl, layout (.slotBound j serial x)⟩,
      ⟨rfl, layout (.packReleased serial tape)⟩, fun c => ⟨rfl, layout (.packReturned j serial c)⟩,
      ⟨rfl, layout (.commitFailed d serial x y)⟩, ⟨rfl, layout (.commitSuspended d serial x)⟩,
      fun r => ⟨rfl, layout (.leadFault k x r)⟩, ⟨rfl, layout (.resync k x)⟩,
      fun c => ⟨rfl, layout (.memberBroken k m x c y)⟩, ⟨rfl, layout (.holdExpired k x y)⟩,
      fun r => ⟨rfl, layout (.dispositionRefused j r)⟩, fun c => ⟨rfl, layout (.waiting m c)⟩,
      ⟨rfl, layout .clockEnd⟩⟩

end

/-! ## The current pack of the commit engine, operation by operation (R117, R121) -/

section
namespace Sys2Proof.Machine

/-- An operation keeps the law that the engine has a current pack exactly while a commit is in progress. -/
def KeepsCurrent (s t : State) : Prop := s.engineCurrent → t.engineCurrent

theorem KeepsCurrent.refl (s : State) : KeepsCurrent s s := id

theorem KeepsCurrent.trans {s t u : State} (h : KeepsCurrent s t) (g : KeepsCurrent t u) : KeepsCurrent s u := g ∘ h

/-- `trans` with the second operation first, so that chains read from the outside in. -/
theorem KeepsCurrent.then {s t u : State} (g : KeepsCurrent t u) (h : KeepsCurrent s t) : KeepsCurrent s u := h.trans g

/-- The law reads the engine's state and its current pack alone. -/
theorem KeepsCurrent.of_eq {s t : State} (hs : t.engine.state = s.engine.state) (hc : t.engine.current = s.engine.current) :
    KeepsCurrent s t := by
  unfold KeepsCurrent State.engineCurrent
  rw [hs, hc]
  exact id

theorem KeepsCurrent.of_engine {s t : State} (h : t.engine = s.engine) : KeepsCurrent s t :=
  .of_eq (congrArg Engine.state h) (congrArg Engine.current h)

theorem current_setPack (d : PackIx) (p : Pack) (s : State) : KeepsCurrent s (s.setPack d p) := .of_engine rfl
theorem current_setSlot (j : SlotIx) (v : Slot) (s : State) : KeepsCurrent s (s.setSlot j v) := .of_engine rfl
theorem current_freeRecord (d : PackIx) (s : State) : KeepsCurrent s (s.freeRecord d) := .of_engine rfl
theorem current_count (f : Counters → Counters) (s : State) : KeepsCurrent s (s.count f) := .of_engine rfl
theorem current_send (g : Nat) (b : UpBody) (s : State) : KeepsCurrent s (s.send g b) := .of_engine rfl
theorem current_raise (t : Time) (e : EventBody) (s : State) : KeepsCurrent s (s.raise t e) :=
  .of_engine (State.raise_engine s t e)

/-! ### The Pack Assembler -/

/-- A commit that begins has a current pack (R117). -/
theorem current_beginCommit (s : State) : KeepsCurrent s s.beginCommit := by
  unfold State.beginCommit
  split
  · split
    · exact .refl s
    · intro _
      simp [State.engineCurrent]
  · exact .refl s

theorem current_sealPack (t : Time) (x : SealCause) (d : PackIx) (s : State) : KeepsCurrent s (s.sealPack t x d) := by
  have hqueue := current_beginCommit
    { s.setPack d { s.pack d with state := .sealing, age := .absent, sealTime := t, cause := some x } with
      engine := { s.engine with queue := s.engine.queue ++ [d] } }
  exact (KeepsCurrent.of_engine (sealPack_engine t x d s)).then (hqueue.then (.of_eq rfl rfl))

theorem current_sealClassPack (t : Time) (x : SealCause) (c : ClassIx) (s : State) :
    KeepsCurrent s (s.sealClassPack t x c) := by
  unfold State.sealClassPack
  split
  · exact current_sealPack _ _ _ s
  · exact .refl s

theorem current_sealIfFull (t : Time) (d : PackIx) (s : State) : KeepsCurrent s (s.sealIfFull t d) := by
  unfold State.sealIfFull
  split
  · exact current_sealPack _ _ _ s
  · split
    · exact current_sealPack _ _ _ s
    · exact .refl s

theorem current_addMember (t : Time) (m : MemberIx) (d : PackIx) (s : State) : KeepsCurrent s (s.addMember t m d) :=
  (current_sealIfFull _ _ _).then (.of_engine rfl)

theorem current_openPack (t : Time) (d : PackIx) (c : ClassIx) (s : State) : KeepsCurrent s (s.openPack t d c) :=
  .of_engine rfl

theorem engine_joinWaitList (t : Time) (m : MemberIx) (c : ClassIx) (s : State) :
    (s.joinWaitList t m c).engine = s.engine := by
  unfold State.joinWaitList
  dsimp only
  split <;> simp

theorem current_newPackFor (t : Time) (m : MemberIx) (c : ClassIx) (s : State) : KeepsCurrent s (s.newPackFor t m c) := by
  unfold State.newPackFor
  split
  · exact (current_addMember _ _ _ _).then (current_openPack _ _ _ s)
  · exact .of_engine (engine_joinWaitList _ _ _ s)

theorem current_closeIfDisabled (t : Time) (c : ClassIx) (s : State) : KeepsCurrent s (s.closeIfDisabled t c) := by
  unfold State.closeIfDisabled
  split
  · exact .refl s
  · exact current_sealClassPack _ _ _ s

theorem current_assemble (t : Time) (m : MemberIx) (s : State) : KeepsCurrent s (s.assemble t m) := by
  unfold State.assemble
  refine (current_closeIfDisabled _ _ _).then ?_
  split
  · exact .of_engine (engine_joinWaitList _ _ _ s)
  · split
    · split
      · exact current_addMember _ _ _ s
      · exact (current_newPackFor _ _ _ _).then (current_sealPack _ _ _ s)
    · exact current_newPackFor _ _ _ s

theorem current_openWaiting (t : Time) (m : MemberIx) (c : ClassIx) (d : PackIx) (s : State) :
    KeepsCurrent s (s.openWaiting t m c d) :=
  (current_addMember _ _ _ _).then (.of_engine rfl)

theorem current_drainMembers (t : Time) (c : ClassIx) (ms : List MemberIx) (s : State) :
    KeepsCurrent s (s.drainMembers t c ms).1 := by
  induction ms generalizing s with
  | nil => exact .refl s
  | cons m ms ih =>
    rw [State.drainMembers]
    split
    · split
      · exact (ih _).then ((current_addMember _ _ _ _).then (.of_engine rfl))
      · dsimp only
        split
        · exact (ih _).then ((current_openWaiting _ _ _ _ _).then (current_sealPack _ _ _ s))
        · exact current_sealPack _ _ _ s
    · split
      · exact (ih _).then (current_openWaiting _ _ _ _ s)
      · exact .refl s

theorem current_drainRound (t : Time) (m : MemberIx) (d : PackIx) (s : State) : KeepsCurrent s (s.drainRound t m d) := by
  unfold State.drainRound
  dsimp only
  have hmembers := fun ms => (current_drainMembers t (s.member m).cls ms _).then (current_openWaiting t m (s.member m).cls d s)
  split
  · exact (current_closeIfDisabled _ _ _).then (hmembers _)
  · exact hmembers _

theorem current_drainRounds (t : Time) (n : Nat) (s : State) : KeepsCurrent s (s.drainRounds t n) := by
  induction n generalizing s with
  | zero => exact .refl s
  | succ n ih =>
    rw [State.drainRounds]
    split
    · exact (ih _).then (current_drainRound _ _ _ s)
    · exact .refl s

theorem current_drainWaitList (t : Time) (s : State) : KeepsCurrent s (s.drainWaitList t) := current_drainRounds _ _ s

theorem current_drainClasses (t : Time) (cs : List ClassIx) (s : State) : KeepsCurrent s (s.drainClasses t cs) := by
  induction cs generalizing s with
  | nil => exact .refl s
  | cons c cs ih => exact (ih _).then (current_sealClassPack _ _ _ s)

/-! ### Lanes -/

theorem current_completeMember (t : Time) (k : LaneIx) (m : MemberIx) (s : State) :
    KeepsCurrent s (s.completeMember t k m) :=
  (current_assemble _ _ _).then (.of_engine rfl)

theorem engine_resyncIf (t : Time) (k : LaneIx) (n : Nat) (r : Bool) (s : State) : (s.resyncIf t k n r).engine = s.engine := by
  unfold State.resyncIf
  split <;> simp

theorem current_takeFile (t : Time) (k : LaneIx) (n : Nat) (b : List Byte) (f : LeadFields) (s : State) :
    KeepsCurrent s (s.takeFile t k n b f) := by
  unfold State.takeFile
  split
  · exact .refl s
  · dsimp only
    split
    · exact (current_completeMember _ _ _ _).then (.of_engine rfl)
    · exact .of_engine rfl

theorem current_takeData (t : Time) (k : LaneIx) (b : Byte) (last : Bool) (s : State) :
    KeepsCurrent s (s.takeData t k b last) := by
  unfold State.takeData
  split
  · exact .refl s
  · dsimp only
    split
    · exact (current_completeMember _ _ _ _).then (.of_engine rfl)
    · exact .of_engine rfl

theorem current_takeFound (t : Time) (k : LaneIx) (x : Option Found) (s : State) : KeepsCurrent s (s.takeFound t k x) := by
  unfold State.takeFound
  split
  · exact .refl s
  · exact (current_takeFile _ _ _ _ _ _).then (.of_engine (engine_resyncIf ..))
  · exact (current_sealClassPack _ _ _ _).then (.of_engine (engine_resyncIf ..))
  · exact .of_engine (State.raise_engine s t _)
  · exact current_takeData _ _ _ _ s

theorem current_parseBytes (t : Time) (k : LaneIx) (bs : List Byte) (s : State) : KeepsCurrent s (s.parseBytes t k bs) := by
  induction bs generalizing s with
  | nil => exact .refl s
  | cons b bs ih => exact (ih _).then ((current_takeFound _ _ _ _).then (.of_engine rfl))

theorem current_acceptWrite (t : Time) (k : LaneIx) (w : HeldWrite) (s : State) : KeepsCurrent s (s.acceptWrite t k w) :=
  KeepsCurrent.trans (current_parseBytes t k w.data s) (.of_engine rfl)

theorem current_serveHeads (t : Time) (k : LaneIx) (ws : List HeldWrite) (a : Bool) (s : State) :
    KeepsCurrent s (s.serveHeads t k ws a) := by
  induction ws generalizing s a with
  | nil =>
    rw [State.serveHeads]
    split
    · exact .of_engine rfl
    · exact .refl s
  | cons w ws ih =>
    rw [State.serveHeads]
    split
    · exact (ih _ _).then ((current_acceptWrite _ _ _ _).then (.of_engine rfl))
    · split
      · exact .of_engine rfl
      · exact .refl s

theorem current_serveLanes (t : Time) (ks : List LaneIx) (s : State) : KeepsCurrent s (s.serveLanes t ks) := by
  induction ks generalizing s with
  | nil => exact .refl s
  | cons k ks ih => exact (ih _).then (current_serveHeads _ _ _ _ s)

theorem current_releasePass (t : Time) (s : State) : KeepsCurrent s (s.releasePass t) := current_serveLanes _ _ s

theorem engine_breakMember (t : Time) (c : BreakCause) (k : LaneIx) (s : State) :
    (s.breakMember t c k).engine = s.engine := by
  unfold State.breakMember
  split
  · rfl
  · exact State.raise_engine ..

theorem engine_refuseHeld (k : LaneIx) (s : State) : (s.refuseHeld k).engine = s.engine := by
  unfold State.refuseHeld
  rw [refuseAll_eq]
  rfl

theorem engine_releaseMembers (ms : List MemberIx) (s : State) : (s.releaseMembers ms).engine = s.engine := by
  induction ms generalizing s with
  | nil => rfl
  | cons m ms ih => exact ih _

theorem engine_advanceTails (ks : List LaneIx) (s : State) : (s.advanceTails ks).engine = s.engine := by
  induction ks generalizing s with
  | nil => rfl
  | cons k ks ih => exact ih _

theorem current_releasePack (t : Time) (d : PackIx) (s : State) : KeepsCurrent s (s.releasePack t d) :=
  KeepsCurrent.then (current_releasePass t _)
    (.of_engine ((engine_advanceTails _ _).trans (engine_releaseMembers _ s)))

theorem current_restartLane (t : Time) (k : LaneIx) (s : State) : KeepsCurrent s (s.restartLane t k) := by
  unfold State.restartLane
  have hlane : KeepsCurrent s (((s.refuseHeld k).breakMember t .restart k).mapLane k Lane.restarted) :=
    .of_engine ((engine_breakMember ..).trans (engine_refuseHeld k s))
  dsimp only
  split
  · exact (current_releasePass _ _).then hlane
  · exact hlane

/-! ### The View Translator -/

theorem engine_bindSlot (t : Time) (j : SlotIx) (d : PackIx) (s : State) : (s.bindSlot t j d).engine = s.engine :=
  State.raise_engine ..

theorem engine_bindSlots (t : Time) (n : Nat) (s : State) : (s.bindSlots t n).engine = s.engine := by
  induction n generalizing s with
  | zero => rfl
  | succ n ih =>
    rw [State.bindSlots]
    split
    · exact (ih _).trans (engine_bindSlot ..)
    · rfl

theorem engine_bindReady (t : Time) (s : State) : (s.bindReady t).engine = s.engine := engine_bindSlots t 4 s

theorem current_takeWritten (t : Time) (j : SlotIx) (b : Binding) (tag : Nat) (tape : BitVec 128) (s : State) :
    KeepsCurrent s (s.takeWritten t j b tag tape) := by
  unfold State.takeWritten
  exact (current_send _ _ _).then (KeepsCurrent.then (.of_engine (engine_bindReady _ _)) ((current_raise _ _ _).then
    ((current_drainWaitList _ _).then ((current_count _ _).then ((current_freeRecord _ _).then ((current_setSlot _ _ _).then
      ((current_releasePack _ _ _).then (current_setPack _ _ s))))))))

theorem engine_unbind (t : Time) (j : SlotIx) (b : Binding) (c : ReturnCause) (s : State) :
    (s.unbind t j b c).engine = s.engine := by
  unfold State.unbind
  dsimp only
  rw [State.raise_engine]
  rfl

theorem engine_takeReturned (t : Time) (j : SlotIx) (b : Binding) (tag : Nat) (s : State) :
    (s.takeReturned t j b tag).engine = s.engine :=
  (engine_bindReady _ _).trans (engine_unbind _ _ _ _ s)

theorem engine_takeIdle (t : Time) (j : SlotIx) (b : Binding) (s : State) : (s.takeIdle t j b).engine = s.engine :=
  (engine_bindReady _ _).trans (engine_unbind _ _ _ _ s)

theorem current_takePendingDisposition (t : Time) (j : SlotIx) (s : State) :
    KeepsCurrent s (s.takePendingDisposition t j) := by
  unfold State.takePendingDisposition
  split
  · split
    · exact current_takeWritten _ _ _ _ _ s
    · exact .of_engine (engine_takeReturned _ _ _ _ s)
    · exact .refl s
  · exact .refl s

theorem engine_takePendingIdle (t : Time) (j : SlotIx) (s : State) : (s.takePendingIdle t j).engine = s.engine := by
  unfold State.takePendingIdle
  split
  · split
    · exact engine_takeIdle _ _ _ s
    · rfl
  · rfl

theorem current_takeDisposition (t : Time) (j : SlotIx) (o tag : Nat) (bytes : List Byte) (s : State) :
    KeepsCurrent s (s.takeDisposition t j o tag bytes) := by
  have hrefuse : ∀ r, KeepsCurrent s (s.refuseDisposition t j tag r) := fun r => .of_engine (State.raise_engine ..)
  unfold State.takeDisposition
  dsimp only
  split
  · exact hrefuse _
  · split
    · exact hrefuse _
    · split
      · exact hrefuse _
      · split
        · exact hrefuse _
        · split
          · split
            · exact current_takeWritten _ _ _ _ _ s
            · exact .of_engine (engine_takeReturned _ _ _ _ s)
          · exact .of_engine rfl

theorem engine_serveRead (j : SlotIx) (b : Binding) (o n tag : Nat) (s : State) :
    (s.serveRead j b o n tag).engine = s.engine := by
  unfold State.serveRead
  dsimp only
  split <;> rfl

theorem engine_takeRead (j : SlotIx) (o n tag : Nat) (s : State) : (s.takeRead j o n tag).engine = s.engine := by
  unfold State.takeRead
  split
  · rfl
  · split
    · rfl
    · split
      · rfl
      · exact engine_serveRead _ _ _ _ _ s

theorem current_endRead (t : Time) (j : Option SlotIx) (s : State) : KeepsCurrent s (s.endRead t j) := by
  unfold State.endRead
  split
  · exact .refl s
  · exact KeepsCurrent.then (.of_engine (engine_takePendingIdle _ _ _))
      ((current_takePendingDisposition _ _ _).then (.of_engine rfl))

theorem current_respondRead (t : Time) (s : State) : KeepsCurrent s (s.respondRead t) := by
  unfold State.respondRead
  split
  · exact .refl s
  · split
    · exact .refl s
    · dsimp only
      refine (current_endRead _ _ _).then ?_
      split <;> exact .of_engine rfl

theorem current_answerPart (t : Time) (a : MemAnswer) (s : State) : KeepsCurrent s (s.answerPart t a) := by
  unfold State.answerPart
  split
  · exact .refl s
  · exact (current_respondRead _ _).then (.of_engine rfl)

/-! ### The commit engine -/

/-- An issued unit keeps the current pack; after the last one the commit is SETTLING (R118). -/
theorem current_issueUnit (s : State) : KeepsCurrent s s.issueUnit := by
  unfold State.issueUnit
  split
  · exact .refl s
  · dsimp only
    split
    · rename_i cur hcur _
      intro _
      simp [State.engineCurrent, Engine.issued, hcur]
    · exact .of_eq rfl rfl

theorem engine_forwardGrant (c : Nat) (s : State) : (s.forwardGrant c).engine = s.engine := by
  unfold State.forwardGrant
  split <;> rfl

theorem current_commitGrant (s : State) : KeepsCurrent s s.commitGrant := by
  unfold State.commitGrant
  split
  · exact (current_issueUnit _).then (.of_engine rfl)
  · exact (current_issueUnit _).then (.of_engine rfl)

theorem current_grant (s : State) : KeepsCurrent s s.grant := by
  unfold State.grant
  split
  · exact .refl s
  · split
    · split
      · exact current_commitGrant s
      · exact .refl s
    · split
      · exact .of_engine (engine_forwardGrant _ s)
      · split
        · exact .of_engine (engine_forwardGrant _ s)
        · exact current_commitGrant s

theorem current_issueBurstUnit (s : State) : KeepsCurrent s s.issueBurstUnit := by
  unfold State.issueBurstUnit
  split
  · exact .refl s
  · split
    · exact (current_issueUnit _).then (.of_engine rfl)
    · exact .refl s

/-- An engine that is IDLE with no current pack meets the law. -/
theorem engineCurrent_of_idle {s : State} (hs : s.engine.state = .idle) (hc : s.engine.current = none) : s.engineCurrent := by
  simp [State.engineCurrent, hs, hc]

theorem engine_commitReady (t : Time) (cur : Current) (s : State) :
    (s.commitReady t cur).engine = s.engine.ended cur.record :=
  (engine_bindReady _ _).trans (State.raise_engine ..)

theorem engine_commitFailed (t : Time) (cur : Current) (s : State) :
    (s.commitFailed t cur).engine = s.engine.ended cur.record := State.raise_engine ..

theorem current_beginAfterEnd (s : State) : KeepsCurrent s s.beginAfterEnd := by
  unfold State.beginAfterEnd
  dsimp only
  split
  · exact KeepsCurrent.trans (current_beginCommit s) (.of_eq rfl rfl)
  · exact current_beginCommit s

/-- A commit that ends leaves no current pack, and the next one has its own (R121, R117). -/
theorem current_endCommit (t : Time) (s : State) : KeepsCurrent s (s.endCommit t) := by
  unfold State.endCommit
  split
  · split
    · exact .refl s
    · rename_i cur _
      intro _
      apply current_beginAfterEnd
      split
      · exact engineCurrent_of_idle (by rw [engine_commitReady]; rfl) (by rw [engine_commitReady]; rfl)
      · exact engineCurrent_of_idle (by rw [engine_commitFailed]; rfl) (by rw [engine_commitFailed]; rfl)
  · exact .refl s

theorem current_suspend (t : Time) (s : State) : KeepsCurrent s (s.suspend t) := by
  unfold State.suspend
  split
  · exact .refl s
  · rename_i cur hcur
    intro _
    simp [State.engineCurrent, hcur]

theorem current_endSuspending (t : Time) (s : State) : KeepsCurrent s (s.endSuspending t) := by
  unfold State.endSuspending
  split
  · exact current_suspend t s
  · exact .refl s

theorem current_engineOnset (t : Time) (s : State) : KeepsCurrent s (s.engineOnset t) := by
  unfold State.engineOnset
  split
  · rename_i hissuing
    split
    · exact fun _ => engineCurrent_of_idle rfl rfl
    · split
      · exact current_suspend t s
      · intro h
        have hcur := h.2 (.inl hissuing)
        simp [State.engineCurrent, hcur]
  · exact .refl s

theorem current_engineRelease (s : State) : KeepsCurrent s s.engineRelease := by
  unfold State.engineRelease
  split
  · rename_i hs
    intro h
    have hcur := h.2 (.inr (.inr (.inr hs)))
    simp [State.engineCurrent, hcur]
  · rename_i hs
    intro h
    have hcur := h.2 (.inr (.inr (.inl hs)))
    simp [State.engineCurrent, hcur]
  · exact current_beginCommit s
  · exact .refl s

theorem current_endDiscarding (t : Time) (d : PackIx) (s : State) : KeepsCurrent s (s.endDiscarding t d) := by
  unfold State.endDiscarding
  split
  · exact (current_drainWaitList _ _).then (.of_eq rfl rfl)
  · exact .refl s

theorem current_answerUnit (t : Time) (d : PackIx) (u : Nat) (a : MemAnswer) (s : State) (h : s.engine.state ≠ .stopping) :
    KeepsCurrent s (s.answerUnit t d u a) := by
  unfold State.answerUnit
  rw [if_neg h]
  split
  · exact (current_endDiscarding _ _ _).then (.of_eq rfl rfl)
  · dsimp only
    refine (current_endSuspending _ _).then ((current_endCommit _ _).then ?_)
    split <;> exact .of_eq rfl rfl

theorem engine_answerForwarded (tag : Nat) (w : Bool) (a : MemAnswer) (s : State) :
    (s.answerForwarded tag w a).engine = s.engine := by
  unfold State.answerForwarded
  split <;> rfl

theorem current_takeAnswer (t : Time) (a : MemAnswer) (s : State) (h : s.engine.state ≠ .stopping) :
    KeepsCurrent s (s.takeAnswer t a) := by
  unfold State.takeAnswer
  split
  · exact .refl s
  · dsimp only
    split
    · exact .of_engine (engine_answerForwarded _ _ _ _)
    · exact (current_answerPart _ _ _).then (.of_engine rfl)
    · exact (current_answerUnit _ _ _ _ _ (by exact h)).then (.of_engine rfl)

/-- A pack that leaves the commit queue takes its commit with it when it is the current one (R125). -/
theorem current_leaveCommit (d : PackIx) (s : State) : KeepsCurrent s (s.leaveCommit d) := by
  unfold State.leaveCommit
  dsimp only
  split
  · exact fun _ => current_beginCommit _ (engineCurrent_of_idle rfl rfl)
  · exact .of_eq rfl rfl

theorem current_discardWhole (t : Time) (d : PackIx) (s : State) : KeepsCurrent s (s.discardWhole t d) := by
  unfold State.discardWhole
  refine (current_drainWaitList _ _).then ((current_count _ _).then ((current_freeRecord _ _).then
    ((current_releasePack _ _ _).then ?_)))
  unfold State.leaveStructure
  split
  · exact .of_engine rfl
  · exact current_leaveCommit d s
  · exact .of_engine rfl
  · exact .refl s

theorem current_discardInFlight (t : Time) (d : PackIx) (s : State) : KeepsCurrent s (s.discardInFlight t d) := by
  unfold State.discardInFlight
  exact (current_count _ _).then ((current_setPack _ _ _).then
    ((current_releasePack _ _ _).then ((current_leaveCommit _ _).then (.of_eq rfl rfl))))

/-! ### The upstream port and the expiries -/

theorem current_takeLaneWrite (t : Time) (k : LaneIx) (w : HeldWrite) (s : State) :
    KeepsCurrent s (s.takeLaneWrite t k w) := by
  unfold State.takeLaneWrite
  dsimp only
  split
  · exact .of_engine rfl
  · split
    · exact .of_engine rfl
    · split
      · split
        · exact current_acceptWrite _ _ _ s
        · exact .of_engine rfl
      · split
        · exact .of_engine rfl
        · exact .of_engine rfl

theorem current_takeRequest (r : Request) (s : State) : KeepsCurrent s (s.takeRequest r) := by
  unfold State.takeRequest
  split
  · exact .of_engine rfl
  · exact .of_engine rfl
  · exact .of_engine rfl
  · exact .of_engine rfl
  · exact current_takeLaneWrite _ _ _ s
  · exact .of_engine (engine_takeRead _ _ _ _ s)
  · exact current_takeDisposition _ _ _ _ _ s

theorem current_serveBus (rs : List Request) (s : State) : KeepsCurrent s (s.serveBus rs) := by
  induction rs generalizing s with
  | nil => exact .refl s
  | cons r rs ih =>
    rw [State.serveBus]
    split
    · exact (ih _).then ((current_takeRequest _ _).then (.of_engine rfl))
    · exact .refl s

theorem current_refill (s : State) : KeepsCurrent s s.refill := current_serveBus s.bus s

theorem current_expireHold (v : Time) (k : LaneIx) (s : State) : KeepsCurrent s (s.expireHold v k) :=
  KeepsCurrent.then (current_releasePass v _) (.of_engine ((engine_breakMember ..).trans
    ((State.raise_engine ..).trans (engine_refuseHeld k s))))

theorem current_takeHoldExpiry (k : LaneIx) (s : State) : KeepsCurrent s (s.takeHoldExpiry k) := by
  unfold State.takeHoldExpiry
  split
  · exact (current_refill _).then (current_expireHold _ _ s)
  · exact .refl s

theorem current_takeAgeExpiry (d : PackIx) (s : State) : KeepsCurrent s (s.takeAgeExpiry d) := by
  unfold State.takeAgeExpiry
  split
  · split
    · exact current_sealPack _ _ _ s
    · exact .of_engine rfl
  · exact .refl s

theorem engine_takeIdleExpiry (j : SlotIx) (s : State) : (s.takeIdleExpiry j).engine = s.engine := by
  unfold State.takeIdleExpiry State.expireIdle
  split
  · split
    · dsimp only
      split
      · exact engine_takeIdle _ _ _ _
      · rfl
    · rfl
  · rfl

/-- A chain of operations that each keep the law. -/
theorem current_foldl {α : Type} (f : State → α → State) (h : ∀ u x, KeepsCurrent u (f u x)) (l : List α) (s : State) :
    KeepsCurrent s (l.foldl f s) := by
  induction l generalizing s with
  | nil => exact .refl s
  | cons x l ih => exact (ih _).then (h s x)

theorem current_takeDue (s : State) : KeepsCurrent s s.takeDue := by
  unfold State.takeDue
  exact (current_foldl _ (fun u j => .of_engine (engine_takeIdleExpiry j u)) _ _).then
    ((current_foldl _ (fun u d => current_takeAgeExpiry d u) _ _).then
      (current_foldl _ (fun u k => current_takeHoldExpiry k u) _ s))

end Sys2Proof.Machine
end

/-! ## What a command keeps of the laws of the tables, the deadlines and the settings -/

section
namespace Sys2Proof.Machine

/-- What a step keeps of the laws of the part: the bounds of its tables, the deadlines, the settings and the regions. -/
structure StepKeeps (s t : State) : Prop where
  events : s.eventsBounded → t.eventsBounded
  holds : s.holdsBounded → t.holdsBounded
  members : s.membersCanonical → t.membersCanonical
  limits : s.limitsPositive → t.limitsPositive
  deadlines : s.limitsPositive → s.deadlinesAhead → t.deadlinesAhead
  dues : s.duesNow → t.duesNow
  settings : s.settingsInRange → t.settingsInRange
  regions : s.settingsInRange → s.regionsSound → t.regionsSound

/-- What a command other than the three resets keeps: the laws, and every counter, which it does not lower. -/
structure Counts (s t : State) : Prop extends StepKeeps s t where
  counters : s.countersKept t

/-- What a command keeps that neither resets nor writes a region: also the region table. -/
structure Carries (s t : State) : Prop extends Counts s t where
  same : s.sameRegions t

theorem StepKeeps.trans {s t u : State} (h : StepKeeps s t) (g : StepKeeps t u) : StepKeeps s u :=
  ⟨g.events ∘ h.events, g.holds ∘ h.holds, g.members ∘ h.members, g.limits ∘ h.limits,
    fun l d => g.deadlines (h.limits l) (h.deadlines l d), g.dues ∘ h.dues, g.settings ∘ h.settings,
    fun r k => g.regions (h.settings r) (h.regions r k)⟩

theorem Counts.trans {s t u : State} (h : Counts s t) (g : Counts t u) : Counts s u :=
  ⟨h.toStepKeeps.trans g.toStepKeeps, h.counters.trans g.counters⟩

theorem Carries.trans {s t u : State} (h : Carries s t) (g : Carries t u) : Carries s u :=
  ⟨h.toCounts.trans g.toCounts, h.same.trans g.same⟩

/-- A sound region table is sound in every state that shares it. -/
theorem State.sameRegions.regionsSound {s t : State} (h : s.sameRegions t) (g : s.regionsSound) : t.regionsSound := by
  have hsize : ∀ k, (t.lane k).size = (s.lane k).size := fun k => congrArg (2 ^ ·) (h.exponent k)
  constructor
  · intro k; rw [h.base, hsize]; exact g.laneAligned k
  · rw [h.window]; exact g.windowAligned
  · rw [h.directory]; exact g.directoryAligned
  · intro j k hjk hj hk
    rw [h.enabled] at hj hk
    rw [h.base, h.base, hsize, hsize]
    exact g.lanesApart j k hjk hj hk
  · intro k hw hk
    rw [h.enabled] at hk
    rw [h.window] at hw ⊢
    rw [h.base, hsize]
    exact g.windowApart k hw hk
  · intro k hd hk
    rw [h.enabled] at hk
    rw [h.directory] at hd ⊢
    rw [h.base, hsize]
    exact g.directoryApart k hd hk
  · intro hw hd
    rw [h.window] at hw ⊢
    rw [h.directory] at hd ⊢
    exact g.bothApart hw hd

theorem regionsSound_of_tables {s t : State} (hw : t.window = s.window) (hd : t.directory = s.directory)
    (hl : t.lanes = s.lanes) : s.regionsSound → t.regionsSound :=
  (State.sameRegions.of_eq hw hd hl).regionsSound

/-- Every operation inside an event keeps all of this (`Keeps`). -/
theorem Keeps.carries {s t : State} (h : Keeps s t) : Carries s t where
  events := h.events
  holds := h.holds
  members := h.members
  limits := h.limits
  deadlines := h.deadlines
  dues := fun d => ⟨fun k v e => h.clock ▸ d.ages k v (h.dues.ages k v e),
    fun k v e => h.clock ▸ d.holds k v (h.dues.holds k v e), fun k v e => h.clock ▸ d.idles k v (h.dues.idles k v e)⟩
  settings := fun r => ⟨h.holdLimit ▸ r.hold, h.idleLimit ▸ r.idle, h.share ▸ r.share, h.tapeBlock ▸ r.tapeBlock,
    fun c => by
      have hc : t.cls c = s.cls c := by simp only [State.cls, h.classes]
      exact hc ▸ r.classes c,
    fun k => by rw [h.regions.exponent k]; exact r.exponents k⟩
  regions := fun _ => h.regions.regionsSound
  counters := h.counters
  same := h.regions

theorem Carries.refl (s : State) : Carries s s := (Keeps.refl s).carries

/-- A change of the fields that no law of the tables, the deadlines and the settings reads. -/
theorem Carries.inert {s t : State} (h : t = { s with
    pending := t.pending, resetLow := t.resetLow, quiesceLine := t.quiesceLine, part := t.part, response := t.response
    msdo := t.msdo, overflow := t.overflow, attentionMask := t.attentionMask, formerId := t.formerId
    serialNext := t.serialNext, prescaler := t.prescaler, lastServed := t.lastServed, waitList := t.waitList
    readyQueue := t.readyQueue, engine := t.engine
    arbiter := { s.arbiter with mode := t.arbiter.mode, run := t.arbiter.run, burst := t.arbiter.burst }
    forwarding := t.forwarding, inFlight := t.inFlight, viewReads := t.viewReads, bus := t.bus, sent := t.sent }) :
    Carries s t := by
  rw [h]
  exact {
    events := id
    holds := id
    members := id
    limits := fun l => ⟨l.hold, l.idle, l.age⟩
    deadlines := fun _ d => ⟨d.ages, d.holds, d.idles⟩
    dues := fun d => ⟨d.ages, d.holds, d.idles⟩
    settings := fun r => ⟨r.hold, r.idle, r.share, r.tapeBlock, r.classes, r.exponents⟩
    regions := fun _ r => ⟨r.laneAligned, r.windowAligned, r.directoryAligned, r.lanesApart, r.windowApart,
      r.directoryApart, r.bothApart⟩
    counters := ⟨.refl _, fun _ => .refl _⟩
    same := .of_eq rfl rfl rfl }

theorem carries_respond (status : Status) (payload : List Byte) (s : State) : Carries s (s.respond status payload) := .inert rfl

theorem carries_refuse (status : Status) (s : State) : Carries s (s.refuse status) := carries_respond status [] s

theorem carries_refill (s : State) : Carries s s.refill := (keeps_refill s).carries

/-! ### Lines -/

theorem carries_lineTo (level : Bool) (s : State) : Carries s (s.lineTo level) := by
  unfold State.lineTo
  split
  · exact .refl s
  · have hline : ∀ p, Carries s { s with quiesceLine := level, part := p } := fun p =>
      Carries.inert rfl
    dsimp only
    split
    · exact hline s.part
    · split
      · exact (hline .quiesced).trans
          ((keeps_refuseHeldIn allLanes _).then (Keeps.refl _) |>.trans (keeps_engineOnset s.clock _)).carries
      · exact (hline .run).trans (keeps_engineRelease _).carries
      · exact hline s.part

/-! ### The clock -/

/-- A deadline ahead of the clock that the next tick does not reach stays ahead (R153). -/
theorem Deadline.ahead.onTick {now : Time} {d : Deadline} (h : d.ahead now) (hend : now ≠ timeMax) :
    (d.onTick (now + 1)).ahead (now + 1) := by
  cases d with
  | pending v =>
    simp only [Deadline.onTick]
    split
    · trivial
    · rename_i hne
      have hnow : now.toNat ≠ 2 ^ 48 - 1 := fun e => hend (BitVec.eq_of_toNat_eq (e.trans rfl))
      change now < v at h
      change now + 1 < v
      bv_omega
  | absent => trivial
  | due v => trivial
  | dormant => trivial

/-- The state with the clock on by one (R150, R153), before CLOCK_END. -/
def State.clockOn (s : State) : State :=
  { s with
    clock := s.clock + 1, prescaler := 0, engine := s.engine.periodOver
    packs := s.packs.map (fun p => { p with age := p.age.onTick (s.clock + 1) })
    lanes := s.lanes.map (fun l => { l with holdDeadline := l.holdDeadline.onTick (s.clock + 1) })
    slots := s.slots.map (fun v => { v with idle := v.idle.onTick (s.clock + 1) }) }

theorem advanceClock_eq (s : State) :
    s.advanceClock = if s.clock + 1 = timeMax then s.clockOn.raise (s.clock + 1) .clockEnd else s.clockOn := rfl

theorem pack_clockOn (s : State) (d : PackIx) :
    s.clockOn.pack d = { s.pack d with age := (s.pack d).age.onTick (s.clock + 1) } := by
  simp [State.clockOn, State.pack]

theorem lane_clockOn (s : State) (k : LaneIx) :
    s.clockOn.lane k = { s.lane k with holdDeadline := (s.lane k).holdDeadline.onTick (s.clock + 1) } := by
  simp [State.clockOn, State.lane]

theorem slot_clockOn (s : State) (j : SlotIx) :
    s.clockOn.slot j = { s.slot j with idle := (s.slot j).idle.onTick (s.clock + 1) } := by
  simp [State.clockOn, State.slot]

theorem sameRegions_clockOn (s : State) : s.sameRegions s.clockOn :=
  ⟨rfl, rfl, fun k => by rw [lane_clockOn], fun k => by rw [lane_clockOn], fun k => by rw [lane_clockOn]⟩

theorem duesNow_of_raise {t : Time} {e : EventBody} {s : State} (h : (s.raise t e).duesNow) : s.duesNow := by
  unfold State.raise at h
  split at h <;> exact ⟨h.ages, h.holds, h.idles⟩

/-- The due deadlines of the state with the clock on by one equal its clock (R153). -/
theorem duesNow_clockOn {s : State} (hdue : s.nothingDue) : s.clockOn.duesNow := by
  have h := duesNow_advanceClock hdue
  rw [advanceClock_eq] at h
  split at h
  · exact duesNow_of_raise h
  · exact h

/-- Below its end, with nothing due, the clock goes on with every pending deadline ahead and every due one now (R150, R153). -/
theorem carries_clockOn {s : State} (hdue : s.nothingDue) (hend : s.clock ≠ timeMax) : Carries s s.clockOn where
  events := id
  holds := fun h k => by rw [lane_clockOn]; exact h k
  members := id
  limits := fun l => ⟨l.hold, l.idle, l.age⟩
  deadlines := fun _ d =>
    ⟨fun e => by rw [pack_clockOn]; exact (d.ages e).onTick hend, fun k => by rw [lane_clockOn]; exact (d.holds k).onTick hend,
      fun j => by rw [slot_clockOn]; exact (d.idles j).onTick hend⟩
  dues := fun _ => duesNow_clockOn hdue
  settings := fun r => ⟨r.hold, r.idle, r.share, r.tapeBlock, r.classes, fun k => by rw [lane_clockOn]; exact r.exponents k⟩
  regions := fun _ => (sameRegions_clockOn s).regionsSound
  counters := ⟨.refl _, fun k => by rw [lane_clockOn]; exact .refl _⟩
  same := sameRegions_clockOn s

/-- A tick that moves the clock, with nothing due before it (R150, R153). -/
theorem carries_advanceClock {s : State} (hdue : s.nothingDue) (hend : s.clock ≠ timeMax) : Carries s s.advanceClock := by
  rw [advanceClock_eq]
  split
  · exact (carries_clockOn hdue hend).trans (keeps_raise _ _ _).carries
  · exact carries_clockOn hdue hend

theorem carries_tick (s : State) : Carries s s.tick := by
  by_cases h : s.clock = timeMax
  · rw [State.tick, if_pos h]
    exact .inert rfl
  · rw [tick_eq h]
    have hkeeps := keeps_takeDue s
    refine hkeeps.carries.trans (carries_advanceClock (nothingDue_takeDue s) ?_)
    rwa [hkeeps.clock]

/-- A REFCLK period keeps every law (R150). -/
theorem carries_refclkPeriod (s : State) : Carries s s.refclkPeriod := by
  unfold State.refclkPeriod
  split
  · exact .inert rfl
  · exact carries_tick s

/-! ### RESTART -/

/-- The lanes fresh or as they were: their regions, their counters and no deadline that was not there (R40). -/
def FreshOr (l l' : Lane) : Prop := l' = l ∨ l' = l.fresh

/-- A deadline cell left as it was or removed. -/
def Deadline.Stays (d d' : Deadline) : Prop := d' = d ∨ d' = .absent

theorem Deadline.Stays.ahead {now : Time} {d d' : Deadline} (h : d.Stays d') (g : d.ahead now) : d'.ahead now := by
  rcases h with rfl | rfl
  · exact g
  · trivial

theorem Deadline.Stays.due {d d' : Deadline} (h : d.Stays d') {v : Time} (g : d' = .due v) : d = .due v := by
  rcases h with rfl | rfl
  · exact g
  · cases g

theorem FreshOr.holdDeadline {l l' : Lane} (h : FreshOr l l') : l.holdDeadline.Stays l'.holdDeadline :=
  h.imp (congrArg _) (congrArg _)

theorem FreshOr.enabled {l l' : Lane} (h : FreshOr l l') : l'.enabled = l.enabled := by rcases h with rfl | rfl <;> rfl
theorem FreshOr.base {l l' : Lane} (h : FreshOr l l') : l'.base = l.base := by rcases h with rfl | rfl <;> rfl
theorem FreshOr.exponent {l l' : Lane} (h : FreshOr l l') : l'.exponent = l.exponent := by rcases h with rfl | rfl <;> rfl
theorem FreshOr.counts {l l' : Lane} (h : FreshOr l l') : l'.counts = l.counts := by rcases h with rfl | rfl <;> rfl
theorem FreshOr.hold {l l' : Lane} (h : FreshOr l l') : l'.hold.length ≤ l.hold.length := by
  rcases h with rfl | rfl
  · exact le_rfl
  · exact Nat.zero_le _

/-- The tables emptied, with each lane and each slot fresh or as it was (R167, R169). -/
theorem carries_cleared (s : State) (lanes : Vector Lane 16) (slots : Vector Slot 4)
    (hl : ∀ k : LaneIx, FreshOr (s.lane k) lanes[k]) (hs : ∀ j : SlotIx, (s.slot j).idle.Stays slots[j].idle) :
    Carries s { s with lanes := lanes, slots := slots, members := [], packs := Vector.replicate 64 {} } := by
  have regions : s.sameRegions { s with lanes := lanes, slots := slots, members := [], packs := Vector.replicate 64 {} } :=
    ⟨rfl, rfl, fun k => (hl k).enabled, fun k => (hl k).base, fun k => (hl k).exponent⟩
  have age : ∀ d : PackIx, (s.pack d).age.Stays ((Vector.replicate 64 {} : Vector Pack 64)[d]).age := fun d => .inr (by simp)
  exact {
    events := id
    holds := fun h k => (hl k).hold.trans (h k)
    members := fun _ => rfl
    limits := fun l => ⟨l.hold, l.idle, l.age⟩
    deadlines := fun _ a =>
      ⟨fun d => (age d).ahead (a.ages d), fun k => (hl k).holdDeadline.ahead (a.holds k), fun j => (hs j).ahead (a.idles j)⟩
    dues := fun a =>
      ⟨fun d v h => a.ages d v ((age d).due h), fun k v h => a.holds k v ((hl k).holdDeadline.due h),
        fun j v h => a.idles j v ((hs j).due h)⟩
    settings := fun r => ⟨r.hold, r.idle, r.share, r.tapeBlock, r.classes, fun k =>
      (congrArg (fun e => 25 ≤ e ∧ e ≤ 30) (hl k).exponent).mpr (r.exponents k)⟩
    regions := fun _ => regions.regionsSound
    counters := ⟨.refl _, fun k => (congrArg (s.lane k).counts.Le (hl k).counts).mpr (.refl _)⟩
    same := regions }

/-- RESTART completes (R169). -/
theorem carries_finishRestart (s : State) : Carries s s.finishRestart := by
  refine (carries_cleared s (s.lanes.map Lane.fresh) s.slots (fun k => .inr ?_) (fun j => .inl rfl)).trans
    (.inert rfl)
  simp [State.lane]

theorem carries_endRestart (s : State) : Carries s s.endRestart := by
  unfold State.endRestart
  split
  · exact carries_finishRestart s
  · exact .refl s

/-- START enters RUN or QUIESCED (R167). -/
theorem carries_enterRun (s : State) : Carries s s.enterRun := by
  refine (carries_cleared s (s.lanes.map (fun l => if l.enabled then l.fresh else l)) (Vector.replicate 4 {})
    (fun k => ?_) (fun j => .inr (by simp))).trans (.inert rfl)
  simp only [Fin.getElem_fin, Vector.getElem_map]
  split
  · exact .inr rfl
  · exact .inl rfl

/-- RESTART (R168): the part waits, or the restart completes. -/
theorem carries_carryOutRestart (s : State) : Carries s s.carryOutRestart := by
  unfold State.carryOutRestart
  split
  · exact carries_refuse _ s
  · have hstop : ∀ u : State, Carries u (State.withdraw { u with lastServed := 15, engine := u.engine.stopped }) :=
      fun u => .inert rfl
    have hview := ((keeps_refuseHeldIn allLanes s).carries.trans (hstop _)).trans (keeps_clearView _).carries
    have hwait : ∀ u : State, Carries u { u with part := .quiesced } := fun u => .inert rfl
    dsimp only
    split
    · exact hview.trans (carries_finishRestart _)
    · exact hview.trans (hwait _)

/-! ### The answers of the memory port -/

theorem carries_engine (e : Engine) (s : State) : Carries s { s with engine := e } := .inert rfl

theorem carries_engine_withdraw (e : Engine) (s : State) : Carries s (State.withdraw { s with engine := e }) := .inert rfl

theorem carries_answerUnit (t : Time) (d : PackIx) (u : Nat) (a : MemAnswer) (s : State) :
    Carries s (s.answerUnit t d u a) := by
  by_cases h : s.engine.state = .stopping
  · rw [State.answerUnit, if_pos h]
    exact (carries_engine _ s).trans (carries_endRestart _)
  · exact (keeps_answerUnit t d u a s h).carries

theorem carries_takeAnswer (t : Time) (a : MemAnswer) (s : State) : Carries s (s.takeAnswer t a) := by
  unfold State.takeAnswer
  split
  · exact .refl s
  · rename_i r rs _
    have hrest : Carries s { s with inFlight := rs } := .inert rfl
    dsimp only
    split
    · exact hrest.trans (keeps_answerForwarded _ _ a _).carries
    · exact hrest.trans (keeps_answerPart t a _).carries
    · exact hrest.trans (carries_answerUnit t _ _ a _)

/-! ### DISCARD_PACK and RECOMMIT_PACK -/

theorem carries_beginCommit (s : State) : Carries s s.beginCommit := (assembles_beginCommit s).toKeeps.carries

theorem carries_leaveCommit (d : PackIx) (s : State) : Carries s (s.leaveCommit d) := by
  unfold State.leaveCommit
  dsimp only
  split
  · exact (carries_engine_withdraw _ s).trans (carries_beginCommit _)
  · exact .inert rfl

theorem carries_leaveStructure (d : PackIx) (s : State) : Carries s (s.leaveStructure d) := by
  unfold State.leaveStructure
  split
  · exact .inert rfl
  · exact carries_leaveCommit d s
  · exact (keeps_setPack d _ s (.absent _ _)).carries
  · exact .refl s

theorem carries_discardWhole (t : Time) (d : PackIx) (s : State) : Carries s (s.discardWhole t d) := by
  unfold State.discardWhole
  exact (carries_leaveStructure d s).trans ((assembles_drainWaitList _ _).toKeeps.then
    ((keeps_count (raises_discarded _) _).then ((assembles_freeRecord _ _).toKeeps.then
      (passes_releasePack t d _).toKeeps))).carries

theorem carries_discardInFlight (t : Time) (d : PackIx) (s : State) : Carries s (s.discardInFlight t d) := by
  unfold State.discardInFlight
  dsimp only
  have hlist : Carries s { s with
      engine := { s.engine with discards := s.engine.discards ++ [⟨d, s.engine.unitsInFlight⟩] } } := .inert rfl
  have hmark : ∀ u : State, Keeps u ((u.setPack d { u.pack d with state := .discarding }).count (Counters.bumpDiscarded false)) :=
    fun u => (keeps_setPack d { u.pack d with state := .discarding } u (.same _ _)).trans (keeps_count (raises_discarded false) _)
  exact ((hlist.trans (carries_leaveCommit d _)).trans (passes_releasePack t d _).toKeeps.carries).trans (hmark _).carries

theorem carries_carryOutDiscardPack (record : Byte) (serial : Word32) (s : State) :
    Carries s (s.carryOutDiscardPack record serial) := by
  unfold State.carryOutDiscardPack
  split
  · exact .inert rfl
  · split
    · exact .inert rfl
    · exact .inert rfl
    · refine Carries.trans ?_ (carries_respond _ _ _)
      split
      · exact carries_discardInFlight _ _ s
      · exact carries_discardWhole _ _ s

theorem carries_carryOutRecommitPack (record : Byte) (serial : Word32) (s : State) :
    Carries s (s.carryOutRecommitPack record serial) := by
  unfold State.carryOutRecommitPack
  split
  · exact .inert rfl
  · rename_i d _
    split
    · have hmark : Keeps s (s.setPack d { s.pack d with state := .sealing }) := keeps_setPack d _ s (.same _ _)
      exact (hmark.trans (assembles_joinCommitQueue d _).toKeeps).carries.trans (carries_respond _ _ _)
    · exact .inert rfl

/-! ### Settings -/

theorem le_clampTo {lo hi x : Nat} : lo ≤ clampTo lo hi x := le_max_left _ _

theorem clampTo_le {lo hi x : Nat} (h : lo ≤ hi) : clampTo lo hi x ≤ hi := max_le h (min_le_left _ _)

/-- A tape block size is stored as one of the five of R76. -/
theorem clampTapeBlock_mem (x : Nat) : clampTapeBlock x ∈ [65536, 131072, 262144, 524288, 1048576] := by
  unfold clampTapeBlock
  split_ifs <;> simp

theorem carries_carryOutSetSerial (serial : Word32) (former : BitVec 16) (tb : Word32) (s : State) :
    Carries s (s.carryOutSetSerial serial former tb) := by
  unfold State.carryOutSetSerial
  split
  · exact .inert rfl
  · have htape : Carries s { s with tapeBlock := clampTapeBlock tb.toNat } :=
      { Carries.refl s with
        settings := fun r => ⟨r.hold, r.idle, r.share, clampTapeBlock_mem _, r.classes, r.exponents⟩
        limits := fun l => ⟨l.hold, l.idle, l.age⟩
        deadlines := fun _ d => ⟨d.ages, d.holds, d.idles⟩
        dues := fun d => ⟨d.ages, d.holds, d.idles⟩
        regions := fun _ => regionsSound_of_tables rfl rfl rfl
        counters := ⟨.refl _, fun _ => .refl _⟩
        same := .of_eq rfl rfl rfl }
    exact htape.trans (.inert rfl)

theorem carries_carryOutSetLimits (hold idle : Word32) (share mode : Byte) (s : State) :
    Carries s (s.carryOutSetLimits hold idle share mode) := by
  unfold State.carryOutSetLimits
  split
  · exact .inert rfl
  · have hlimits : Carries s { s with
        holdLimit := clampTo 1 65535 hold.toNat, idleLimit := clampTo 1000 600000 idle.toNat
        arbiter := { s.arbiter with share := clampTo 1 255 share.toNat } } :=
      { Carries.refl s with
        settings := fun r => ⟨⟨le_clampTo, clampTo_le (by decide)⟩, ⟨le_clampTo, clampTo_le (by decide)⟩,
          ⟨le_clampTo, clampTo_le (by decide)⟩, r.tapeBlock, r.classes, r.exponents⟩
        limits := fun l => ⟨le_clampTo, (by decide : 1 ≤ 1000).trans le_clampTo, l.age⟩
        deadlines := fun _ d => ⟨d.ages, d.holds, d.idles⟩
        dues := fun d => ⟨d.ages, d.holds, d.idles⟩
        regions := fun _ => regionsSound_of_tables rfl rfl rfl
        counters := ⟨.refl _, fun _ => .refl _⟩
        same := .of_eq rfl rfl rfl }
    exact hlimits.trans (.inert rfl)

theorem inRange_clampedClass (enabled : Bool) (target cap : BitVec 16) (age : Word32) (retention : Byte) :
    (clampedClass enabled target cap age retention).inRange :=
  ⟨⟨le_clampTo, clampTo_le (by decide)⟩, ⟨le_clampTo, clampTo_le (by decide)⟩, ⟨le_clampTo, clampTo_le (by decide)⟩⟩

/-- A class in its ranges put into the class table (R92). -/
theorem carries_setClass (c : ClassIx) {k : PackClass} (hk : k.inRange) (s : State) :
    Carries s { s with classes := s.classes.set c k } := by
  have hcls : ∀ e : ClassIx, State.cls { s with classes := s.classes.set c k } e = if e = c then k else s.cls e := fun e => by
    simp only [State.cls, Fin.getElem_fin, Vector.getElem_set]
    split <;> split <;> simp_all [Fin.ext_iff]
  exact { Carries.refl s with
    settings := fun r => ⟨r.hold, r.idle, r.share, r.tapeBlock, fun e => by
      rw [hcls]
      split
      · exact hk
      · exact r.classes e, r.exponents⟩
    limits := fun l => ⟨l.hold, l.idle, fun e => by
      rw [hcls]
      split
      · exact (by decide : 1 ≤ 1000).trans hk.ageLimit.1
      · exact l.age e⟩
    deadlines := fun _ d => ⟨d.ages, d.holds, d.idles⟩
    dues := fun d => ⟨d.ages, d.holds, d.idles⟩
    regions := fun _ => regionsSound_of_tables rfl rfl rfl
    counters := ⟨.refl _, fun _ => .refl _⟩
    same := .of_eq rfl rfl rfl }

theorem carries_carryOutSetClass (cls enabled : Byte) (target cap : BitVec 16) (age : Word32) (retention : Byte) (s : State) :
    Carries s (s.carryOutSetClass cls enabled target cap age retention) := by
  unfold State.carryOutSetClass
  split
  · rename_i c f _ _
    have hset := carries_setClass c (inRange_clampedClass f target cap age retention) s
    refine Carries.trans ?_ (carries_respond _ _ _)
    unfold State.writeClass
    dsimp only
    split
    · exact hset.trans (assembles_sealClassPack _ _ c _).toKeeps.carries
    · exact hset
  · exact .inert rfl

/-! ### SET_CLOCK -/

/-- A deadline rebased for a preset to at most 2^47 lies ahead of the new clock (R154, R156). -/
theorem Deadline.ahead.rebase {now p : Time} {limit : Nat} {d : Deadline} (h : d.ahead now) (hp : p.toNat ≤ 2 ^ 47)
    (hl : 1 ≤ limit) : (d.rebase now p limit).ahead p := by
  cases d with
  | pending v =>
    change now.toNat < v.toNat at h
    have := v.isLt
    change p.toNat < (clampTime (p.toNat + (v.toNat - now.toNat))).toNat
    simp only [clampTime, BitVec.toNat_ofNat]
    omega
  | dormant => exact Deadline.ahead_arm p hl
  | absent => trivial
  | due v => trivial

/-- A due deadline rebased to `p` is due at `p` (R156). -/
theorem Deadline.rebase_due {now p : Time} {limit : Nat} {d : Deadline} {v : Time} (h : d.rebase now p limit = .due v) : v = p := by
  cases d with
  | due w => exact (Deadline.due.inj h).symm
  | dormant => exact absurd h (Deadline.arm_ne_due _ _ _)
  | absent => cases h
  | pending w => cases h

/-- The state with its clock preset to `p` and every deadline rebased (R154). -/
def State.preset (p : Time) (s : State) : State := { s.rebaseAll p with clock := p, prescaler := 0 }

theorem pack_preset (p : Time) (s : State) (d : PackIx) : (s.preset p).pack d =
    { s.pack d with age := (s.pack d).age.rebase s.clock p (s.cls (s.pack d).cls).ageLimit } := by
  simp [State.preset, State.rebaseAll, State.pack]

theorem lane_preset (p : Time) (s : State) (k : LaneIx) : (s.preset p).lane k =
    { s.lane k with holdDeadline := (s.lane k).holdDeadline.rebase s.clock p s.holdLimit } := by
  simp [State.preset, State.rebaseAll, State.lane]

theorem slot_preset (p : Time) (s : State) (j : SlotIx) : (s.preset p).slot j =
    { s.slot j with idle := (s.slot j).idle.rebase s.clock p s.idleLimit } := by
  simp [State.preset, State.rebaseAll, State.slot]

theorem carries_preset {p : Time} (hp : p.toNat ≤ 2 ^ 47) (s : State) : Carries s (s.preset p) := by
  have regions : s.sameRegions (s.preset p) :=
    ⟨rfl, rfl, fun k => by rw [lane_preset], fun k => by rw [lane_preset], fun k => by rw [lane_preset]⟩
  exact {
    events := id
    holds := fun h k => by rw [lane_preset]; exact h k
    members := id
    limits := fun l => ⟨l.hold, l.idle, l.age⟩
    deadlines := fun l d =>
      ⟨fun e => by rw [pack_preset]; exact (d.ages e).rebase hp (l.age _),
        fun k => by rw [lane_preset]; exact (d.holds k).rebase hp l.hold,
        fun j => by rw [slot_preset]; exact (d.idles j).rebase hp l.idle⟩
    dues := fun _ =>
      ⟨fun e v h => by rw [pack_preset] at h; exact Deadline.rebase_due h,
        fun k v h => by rw [lane_preset] at h; exact Deadline.rebase_due h,
        fun j v h => by rw [slot_preset] at h; exact Deadline.rebase_due h⟩
    settings := fun r => ⟨r.hold, r.idle, r.share, r.tapeBlock, r.classes, fun k => by rw [lane_preset]; exact r.exponents k⟩
    regions := fun _ => regions.regionsSound
    counters := ⟨.refl _, fun k => by rw [lane_preset]; exact .refl _⟩
    same := regions }

theorem carries_carryOutSetClock (p : Time) (s : State) : Carries s (s.carryOutSetClock p) := by
  unfold State.carryOutSetClock
  split
  · exact .inert rfl
  · rename_i h
    exact (carries_preset (Nat.le_of_not_lt h) s).trans (carries_respond _ _ _)

/-! ### The other commands of the link -/

theorem carries_carryOutReadLane (lane : Byte) (s : State) : Carries s (s.carryOutReadLane lane) := by
  unfold State.carryOutReadLane
  split <;> exact .inert rfl

theorem carries_carryOutReadPack (record : Byte) (s : State) : Carries s (s.carryOutReadPack record) := by
  unfold State.carryOutReadPack
  split <;> exact .inert rfl

theorem carries_carryOutStart (s : State) : Carries s s.carryOutStart := by
  unfold State.carryOutStart
  split
  · exact .inert rfl
  · split
    · exact .inert rfl
    · exact (carries_enterRun s).trans (carries_respond _ _ _)

theorem carries_carryOutSealClass (cls : Byte) (s : State) : Carries s (s.carryOutSealClass cls) := by
  unfold State.carryOutSealClass
  split
  · exact .inert rfl
  · split
    · exact .inert rfl
    · split
      · exact (assembles_sealPack _ _ _ s).toKeeps.carries.trans (carries_respond _ _ _)
      · exact .inert rfl

theorem carries_carryOutDrain (s : State) : Carries s s.carryOutDrain := by
  unfold State.carryOutDrain
  split
  · exact .inert rfl
  · exact (keeps_drainClasses _ _ s).carries.trans (carries_respond _ _ _)

theorem carries_carryOutLaneRestart (lane : Byte) (s : State) : Carries s (s.carryOutLaneRestart lane) := by
  unfold State.carryOutLaneRestart
  split
  · exact .inert rfl
  · split
    · exact .inert rfl
    · split
      · exact (keeps_restartLane _ _ s).carries.trans (carries_respond _ _ _)
      · exact .inert rfl

theorem carries_carryOutPopEvent (s : State) : Carries s s.carryOutPopEvent := by
  unfold State.carryOutPopEvent
  split
  · exact .inert rfl
  · rename_i e rest h
    have hpop : Carries s { s with events := rest } :=
      { Carries.refl s with
        events := fun g => (by rw [State.eventsBounded, h] at g; exact Nat.le_of_succ_le g)
        settings := fun r => ⟨r.hold, r.idle, r.share, r.tapeBlock, r.classes, r.exponents⟩
        limits := fun l => ⟨l.hold, l.idle, l.age⟩
        deadlines := fun _ d => ⟨d.ages, d.holds, d.idles⟩
        dues := fun d => ⟨d.ages, d.holds, d.idles⟩
        regions := fun _ => regionsSound_of_tables rfl rfl rfl
        counters := ⟨.refl _, fun _ => .refl _⟩
        same := .of_eq rfl rfl rfl }
    exact hpop.trans (carries_respond _ _ _)

theorem carries_discardFrame (n : Nat) (s : State) : Carries s (s.discardFrame n) := by
  have hzeros : Carries s { s with msdo := zeroBytes n } := .inert rfl
  exact hzeros.trans (keeps_count raises_frameDiscarded _).carries

theorem carries_readResponse (span : ReadSpan) (s : State) : Carries s (s.readResponse span) := by
  unfold State.readResponse
  split
  · exact .refl s
  · exact .inert rfl

/-- What every command body keeps, its frame keeps (R160). -/
theorem carries_takeFrame {body : State → State} (h : ∀ u, Carries u (body u)) (n : Nat) (s : State) :
    Carries s (s.takeFrame n body) := by
  unfold State.takeFrame
  split
  · exact .refl s
  · split
    · exact carries_discardFrame n s
    · have htaken : Carries s { s with response := .busy, msdo := zeroBytes n } := .inert rfl
      exact htaken.trans (h _)

end Sys2Proof.Machine
end

/-! ## What every step keeps of the laws of the tables, the deadlines, the settings and the regions -/

section
namespace Sys2Proof.Machine

/-! ### The region table writes -/

/-- Regions of which each has an address share none of them when the test of R7 finds none. -/
theorem apart_of_overlap {b1 b2 : Addr} {n1 n2 : Nat} (h : overlap b1.toNat n1 b2.toNat n2 = false) : apart b1 n1 b2 n2 := by
  simp only [overlap, Bool.and_eq_false_iff, decide_eq_false_iff_not, not_lt] at h
  unfold apart
  omega

theorem apart.symm {b1 b2 : Addr} {n1 n2 : Nat} (h : apart b1 n1 b2 n2) : apart b2 n2 b1 n1 := Or.symm h

/-- A region that meets no enabled lane region but `skip` is apart from each of them (R7). -/
theorem apart_of_meetsLane {s : State} {skip : Option LaneIx} {b : Addr} {n : Nat} (h : s.meetsLane skip b.toNat n = false)
    {j : LaneIx} (hj : some j ≠ skip) (he : (s.lane j).enabled = true) : apart b n (s.lane j).base (s.lane j).size := by
  have hall := List.any_eq_false.1 h j (mem_allLanes j)
  simp only [he, hj, ne_eq, not_false_eq_true, decide_true, Bool.and_true, Bool.true_and, Bool.not_eq_true] at hall
  exact apart_of_overlap hall

/-- The lanes after the entry of lane `k` has been written (R7). -/
theorem lane_writeRegion (s : State) (k : LaneIx) (f : Bool) (e : Nat) (b : Addr) (j : LaneIx) :
    (s.writeRegion k f e b).lane j =
      if j = k then { s.lane k with enabled := f, base := b, exponent := e } else s.lane j := by
  unfold State.writeRegion State.mapLane
  exact s.lane_setLane j k _

theorem lane_writeRegion_same (s : State) (k : LaneIx) (f : Bool) (e : Nat) (b : Addr) :
    (s.writeRegion k f e b).lane k = { s.lane k with enabled := f, base := b, exponent := e } := by
  rw [lane_writeRegion, if_pos rfl]

theorem lane_writeRegion_other (s : State) {j k : LaneIx} (f : Bool) (e : Nat) (b : Addr) (h : j ≠ k) :
    (s.writeRegion k f e b).lane j = s.lane j := by
  rw [lane_writeRegion, if_neg h]

/-- A property of every lane after the write holds when it holds of the written lane and of the others as they were. -/
theorem forall_lane_writeRegion {s : State} {k : LaneIx} {f : Bool} {e : Nat} {b : Addr} {P : LaneIx → Lane → Prop}
    (written : P k { s.lane k with enabled := f, base := b, exponent := e }) (others : ∀ j, j ≠ k → P j (s.lane j))
    (j : LaneIx) : P j ((s.writeRegion k f e b).lane j) := by
  by_cases h : j = k
  · subst h
    rw [lane_writeRegion_same]
    exact written
  · rw [lane_writeRegion_other s f e b h]
    exact others j h

/-- The entry written by a SET_LANE that fails no test leaves the region table sound (R7). -/
theorem regionsSound_writeRegion {k : LaneIx} {f : Bool} {e : Nat} {b : Addr} {s : State} (r : s.regionsSound)
    (ha : b.toNat % 2 ^ e = 0) (ho : f = true → s.laneOverlaps k b.toNat (2 ^ e) = false) :
    (s.writeRegion k f e b).regionsSound := by
  let l : Lane := { s.lane k with enabled := f, base := b, exponent := e }
  have parts : f = true → s.meetsLane (some k) b.toNat (2 ^ e) = false ∧
      (s.window.set = true → overlap b.toNat (2 ^ e) s.window.base.toNat Config.viewWindowSize = false) ∧
      (s.directory.set = true → overlap b.toNat (2 ^ e) s.directory.base.toNat Config.directorySize = false) := by
    intro hf
    have h := ho hf
    simp only [State.laneOverlaps, Bool.or_eq_false_iff, Bool.and_eq_false_iff] at h
    obtain ⟨⟨hl, hw⟩, hd⟩ := h
    exact ⟨hl, fun g => hw.resolve_left (by simp [g]), fun g => hd.resolve_left (by simp [g])⟩
  have fromOthers : ∀ j, j ≠ k → f = true → (s.lane j).enabled = true → apart b (2 ^ e) (s.lane j).base (s.lane j).size :=
    fun j hj hf he => apart_of_meetsLane (parts hf).1 (by simpa using hj) he
  exact {
    laneAligned := forall_lane_writeRegion (P := fun _ l => l.base.toNat % l.size = 0) ha fun j _ => r.laneAligned j
    windowAligned := r.windowAligned
    directoryAligned := r.directoryAligned
    lanesApart := by
      intro i j hij
      by_cases hi : i = k
      · subst hi
        rw [lane_writeRegion_same, lane_writeRegion_other s f e b hij.symm]
        exact fromOthers j hij.symm
      · rw [lane_writeRegion_other s f e b hi]
        by_cases hj : j = k
        · subst hj
          rw [lane_writeRegion_same]
          exact fun he hf => (fromOthers i hi hf he).symm
        · rw [lane_writeRegion_other s f e b hj]
          exact r.lanesApart i j hij
    windowApart := forall_lane_writeRegion
      (P := fun _ l => s.window.set = true → l.enabled = true → apart s.window.base Config.viewWindowSize l.base l.size)
      (fun hw hf => (apart_of_overlap ((parts hf).2.1 hw)).symm) fun j _ => r.windowApart j
    directoryApart := forall_lane_writeRegion
      (P := fun _ l => s.directory.set = true → l.enabled = true →
        apart s.directory.base Config.directorySize l.base l.size)
      (fun hd hf => (apart_of_overlap ((parts hf).2.2 hd)).symm) fun j _ => r.directoryApart j
    bothApart := r.bothApart }

theorem counts_writeRegion {k : LaneIx} {f : Bool} {e : Nat} {b : Addr} {s : State} (he : 25 ≤ e ∧ e ≤ 30)
    (ha : b.toNat % 2 ^ e = 0) (ho : f = true → s.laneOverlaps k b.toNat (2 ^ e) = false) :
    Counts s (s.writeRegion k f e b) where
  events := id
  holds := fun h => forall_lane_writeRegion (P := fun _ l => l.hold.length ≤ Config.holdPlaces) (h k) fun j _ => h j
  members := id
  limits := fun l => ⟨l.hold, l.idle, l.age⟩
  deadlines := fun _ d => ⟨d.ages,
    forall_lane_writeRegion (P := fun _ l => l.holdDeadline.ahead s.clock) (d.holds k) fun j _ => d.holds j, d.idles⟩
  dues := fun d => ⟨d.ages,
    forall_lane_writeRegion (P := fun _ l => ∀ v, l.holdDeadline = .due v → v = s.clock) (d.holds k) fun j _ => d.holds j,
    d.idles⟩
  settings := fun r => ⟨r.hold, r.idle, r.share, r.tapeBlock, r.classes,
    forall_lane_writeRegion (P := fun _ l => 25 ≤ l.exponent ∧ l.exponent ≤ 30) he fun j _ => r.exponents j⟩
  regions := fun _ r => regionsSound_writeRegion r ha ho
  counters := ⟨.refl _,
    forall_lane_writeRegion (P := fun j l => (s.lane j).counts.Le l.counts) (.refl _) fun _ _ => .refl _⟩

theorem counts_carryOutSetLane (lane enabled exponent : Byte) (base : Addr) (s : State) :
    Counts s (s.carryOutSetLane lane enabled exponent base) := by
  unfold State.carryOutSetLane
  split
  · exact (carries_refuse _ s).toCounts
  · split
    · rename_i k f _ _
      dsimp only
      split
      · exact (carries_refuse _ s).toCounts
      · rename_i ha
        split
        · exact (carries_refuse _ s).toCounts
        · rename_i ho
          have hf : f = true → s.laneOverlaps k base.toNat (2 ^ clampTo 25 30 exponent.toNat) = false := by
            intro hf
            simpa [hf] using ho
          exact (counts_writeRegion ⟨le_clampTo, clampTo_le (by decide)⟩ (not_not.1 ha) hf).trans
            (carries_respond _ _ _).toCounts
    · exact (carries_refuse _ s).toCounts

/-- The windows written by a SET_WINDOWS that fails no test leave the region table sound (R7). -/
theorem counts_windows {v d : Addr} {mask : BitVec 4} {s : State} (hv : v.toNat % Config.viewWindowSize = 0)
    (hd : d.toNat % Config.directorySize = 0) (ho : s.windowsOverlap v.toNat d.toNat = false) :
    Counts s { s with window := { set := true, base := v, mask := mask }, directory := { set := true, base := d } } := by
  simp only [State.windowsOverlap, Bool.or_eq_false_iff] at ho
  obtain ⟨⟨hboth, hview⟩, hdir⟩ := ho
  exact {
    events := id
    holds := id
    members := id
    limits := fun l => ⟨l.hold, l.idle, l.age⟩
    deadlines := fun _ a => ⟨a.ages, a.holds, a.idles⟩
    dues := fun a => ⟨a.ages, a.holds, a.idles⟩
    settings := fun r => ⟨r.hold, r.idle, r.share, r.tapeBlock, r.classes, r.exponents⟩
    regions := fun _ r => ⟨r.laneAligned, hv, hd, r.lanesApart, fun _ _ => apart_of_meetsLane hview (by simp),
      fun _ _ => apart_of_meetsLane hdir (by simp), fun _ _ => apart_of_overlap hboth⟩
    counters := ⟨.refl _, fun _ => .refl _⟩ }

theorem counts_carryOutSetWindows (v : Addr) (mask : Byte) (d : Addr) (s : State) :
    Counts s (s.carryOutSetWindows v mask d) := by
  unfold State.carryOutSetWindows
  split
  · exact (carries_refuse _ s).toCounts
  · split
    · exact (carries_refuse _ s).toCounts
    · rename_i ha
      split
      · exact (carries_refuse _ s).toCounts
      · rename_i ho
        obtain ⟨hv, hd⟩ := not_or.1 ha
        exact (counts_windows (not_not.1 hv) (not_not.1 hd) (Bool.not_eq_true _ ▸ ho)).trans (carries_respond _ _ _).toCounts

/-! ### Frames -/

theorem carries_carryOutReadPart (s : State) : Carries s s.carryOutReadPart := .inert rfl

theorem carries_carryOutSetAttentionMask (mask : BitVec 16) (s : State) : Carries s (s.carryOutSetAttentionMask mask) :=
  .inert rfl

/-- A frame's command by its code keeps the laws and the counters (R162). -/
theorem counts_carryOut (code : Byte) (payload : List Byte) (s : State) : Counts s (s.carryOut code payload) := by
  unfold State.carryOut
  dsimp only
  split
  · exact (carries_carryOutReadPart s).toCounts
  · exact (carries_carryOutReadLane _ s).toCounts
  · exact (carries_carryOutReadPack _ s).toCounts
  · exact counts_carryOutSetLane _ _ _ _ s
  · exact counts_carryOutSetWindows _ _ _ s
  · exact (carries_carryOutSetSerial _ _ _ s).toCounts
  · exact (carries_carryOutSetClass _ _ _ _ _ _ s).toCounts
  · exact (carries_carryOutSetLimits _ _ _ _ s).toCounts
  · exact (carries_carryOutSetClock _ s).toCounts
  · exact (carries_carryOutStart s).toCounts
  · exact (carries_carryOutRestart s).toCounts
  · exact (carries_carryOutSealClass _ s).toCounts
  · exact (carries_carryOutDrain s).toCounts
  · exact (carries_carryOutDiscardPack _ _ s).toCounts
  · exact (carries_carryOutRecommitPack _ _ s).toCounts
  · exact (carries_carryOutLaneRestart _ s).toCounts
  · exact (carries_carryOutPopEvent s).toCounts
  · exact (carries_carryOutSetAttentionMask _ s).toCounts
  · exact (carries_refuse _ s).toCounts

theorem counts_takeFrame {body : State → State} (h : ∀ u, Counts u (body u)) (n : Nat) (s : State) :
    Counts s (s.takeFrame n body) := by
  unfold State.takeFrame
  split
  · exact (Carries.refl s).toCounts
  · split
    · exact (carries_discardFrame n s).toCounts
    · have htaken : Carries s { s with response := .busy, msdo := zeroBytes n } := .inert rfl
      exact htaken.toCounts.trans (h _)

theorem counts_selectPeriod (bytes : List Byte) (edges : FrameEdges) (s : State) : Counts s (s.selectPeriod bytes edges) := by
  unfold State.selectPeriod
  split
  · exact (Carries.refl s).toCounts
  · split
    · exact (Carries.refl s).toCounts
    · split
      · exact (carries_readResponse _ s).toCounts
      · split
        · exact (carries_discardFrame _ s).toCounts
        · exact counts_takeFrame (fun u => counts_carryOut _ _ u) _ s

/-! ### Commands -/

/-- A command that neither resets nor can write a region keeps the laws, the counters and the region table. -/
theorem carries_exec {c : Instr} {s t : State} (h : exec c s = .next t) (hlane : ∀ l e x b, c ≠ .setLane l e x b)
    (hwindows : ∀ v m d, c ≠ .setWindows v m d) (hreset : c ≠ .powerOn ∧ c ≠ .resetbAssertion ∧ c ≠ .resetbRelease)
    (hframe : (∀ bytes x, c ≠ .commandFrameDiscard bytes x) ∧ (∀ code p, c ≠ .unknownCommand code p)) : Carries s t := by
  cases c with
  | powerOn => exact absurd rfl hreset.1
  | resetbAssertion => exact absurd rfl hreset.2.1
  | resetbRelease => exact absurd rfl hreset.2.2
  | setLane l e x b => exact absurd rfl (hlane l e x b)
  | setWindows v m d => exact absurd rfl (hwindows v m d)
  | commandFrameDiscard bytes x => exact absurd rfl (hframe.1 bytes x)
  | unknownCommand code p => exact absurd rfl (hframe.2 code p)
  | upstreamRequest r =>
    rw [exec, execUpstreamRequest] at h
    split at h
    · cases h
    · split at h
      · cases h; exact .refl s
      · cases h; exact (keeps_arrive r s).carries
  | quiesceOnset => cases h; exact (carries_lineTo true s).trans (carries_refill _)
  | quiesceRelease => cases h; exact (carries_lineTo false s).trans (carries_refill _)
  | quiesceLineIgnored level => cases h; exact (carries_lineTo level s).trans (carries_refill _)
  | grant => cases h; exact (keeps_grant s).carries
  | burstUnitIssue => cases h; exact (keeps_issueBurstUnit s).carries
  | memoryResponse a => cases h; exact (carries_takeAnswer _ a s).trans (carries_refill _)
  | viewReadResponse => cases h; exact (keeps_respondRead _ s).carries.trans (carries_refill _)
  | commitEnd => cases h; exact (keeps_endCommit _ s).carries
  | commitSuspended => cases h; exact (keeps_endSuspending _ s).carries
  | discardingEnd d => cases h; exact (keeps_endDiscarding _ d s).carries
  | pendingDispositionTaken j => cases h; exact (keeps_takePendingDisposition _ j s).carries.trans (carries_refill _)
  | pendingIdleReturn j => cases h; exact (keeps_takePendingIdle _ j s).carries
  | restartCompletion => cases h; exact carries_endRestart s
  | packClockTick => cases h; exact carries_tick s
  | holdExpiry k => cases h; exact (keeps_takeHoldExpiry k s).carries
  | ageExpiry d => cases h; exact (keeps_takeAgeExpiry d s).carries
  | idleExpiry j => cases h; exact (keeps_takeIdleExpiry j s).carries
  | responseRead span => cases h; exact carries_readResponse span s
  | readPart => cases h; exact carries_takeFrame carries_carryOutReadPart 3 s
  | readLane k => cases h; exact carries_takeFrame (carries_carryOutReadLane k) 4 s
  | readPack d => cases h; exact carries_takeFrame (carries_carryOutReadPack d) 4 s
  | setSerial n f tb => cases h; exact carries_takeFrame (carries_carryOutSetSerial n f tb) 13 s
  | setClass c e t k a r => cases h; exact carries_takeFrame (carries_carryOutSetClass c e t k a r) 14 s
  | setLimits hl i g m => cases h; exact carries_takeFrame (carries_carryOutSetLimits hl i g m) 13 s
  | setClock p => cases h; exact carries_takeFrame (carries_carryOutSetClock p) 9 s
  | start => cases h; exact carries_takeFrame carries_carryOutStart 3 s
  | restart => cases h; exact (carries_takeFrame carries_carryOutRestart 3 s).trans (carries_refill _)
  | sealClass c => cases h; exact carries_takeFrame (carries_carryOutSealClass c) 4 s
  | drain => cases h; exact carries_takeFrame carries_carryOutDrain 3 s
  | discardPack d n => cases h; exact carries_takeFrame (carries_carryOutDiscardPack d n) 8 s
  | recommitPack d n => cases h; exact carries_takeFrame (carries_carryOutRecommitPack d n) 8 s
  | laneRestart k => cases h; exact (carries_takeFrame (carries_carryOutLaneRestart k) 4 s).trans (carries_refill _)
  | popEvent => cases h; exact carries_takeFrame carries_carryOutPopEvent 3 s
  | setAttentionMask m => cases h; exact carries_takeFrame (carries_carryOutSetAttentionMask m) 5 s

/-- A command other than the three resets keeps the laws and the counters. -/
theorem counts_exec {c : Instr} {s t : State} (h : exec c s = .next t)
    (hreset : c ≠ .powerOn ∧ c ≠ .resetbAssertion ∧ c ≠ .resetbRelease) : Counts s t := by
  cases c with
  | setLane l e x b => cases h; exact counts_takeFrame (counts_carryOutSetLane l e x b) 11 s
  | setWindows v m d => cases h; exact counts_takeFrame (counts_carryOutSetWindows v m d) 14 s
  | commandFrameDiscard bytes x => cases h; exact (counts_selectPeriod bytes x s).trans (carries_refill _).toCounts
  | unknownCommand code p => cases h; exact (counts_selectPeriod _ _ s).trans (carries_refill _).toCounts
  | _ => exact (carries_exec h (by simp) (by simp) hreset (by simp)).toCounts

/-! ### Resets -/

/-- A state with the values of power-on but for what comes from outside and what RESETB keeps (R170). -/
def State.cleared (t : State) : Prop :=
  t = { State.reset with
    pending := t.pending, resetLow := t.resetLow, quiesceLine := t.quiesceLine, sent := t.sent, clock := t.clock
    prescaler := t.prescaler, serialNext := t.serialNext }

theorem lane_reset (k : LaneIx) : State.reset.lane k = {} := by simp [State.reset, State.lane]
theorem pack_reset (d : PackIx) : State.reset.pack d = {} := by simp [State.reset, State.pack]
theorem slot_reset (j : SlotIx) : State.reset.slot j = {} := by simp [State.reset, State.slot]
theorem cls_reset (c : ClassIx) : State.reset.cls c = {} := by simp [State.reset, State.cls]

theorem State.cleared.lane {t : State} (h : t.cleared) (k : LaneIx) : t.lane k = {} := by rw [h]; exact lane_reset k
theorem State.cleared.pack {t : State} (h : t.cleared) (d : PackIx) : t.pack d = {} := by rw [h]; exact pack_reset d
theorem State.cleared.slot {t : State} (h : t.cleared) (j : SlotIx) : t.slot j = {} := by rw [h]; exact slot_reset j
theorem State.cleared.cls {t : State} (h : t.cleared) (c : ClassIx) : t.cls c = {} := by rw [h]; exact cls_reset c

theorem inRange_default : ({} : PackClass).inRange := ⟨by decide, by decide, by decide⟩

theorem State.cleared.eventsBounded {t : State} (h : t.cleared) : t.eventsBounded := by rw [h]; exact Nat.zero_le _
theorem State.cleared.holdsBounded {t : State} (h : t.cleared) : t.holdsBounded := fun k => by
  rw [h.lane]; exact Nat.zero_le _
theorem State.cleared.membersCanonical {t : State} (h : t.cleared) : t.membersCanonical := by rw [h]; rfl

theorem State.cleared.limitsPositive {t : State} (h : t.cleared) : t.limitsPositive where
  hold := by rw [h]; exact (by decide : 1 ≤ 2000)
  idle := by rw [h]; exact (by decide : 1 ≤ 120000)
  age := fun c => by rw [h.cls]; decide

theorem State.cleared.deadlinesAhead {t : State} (h : t.cleared) : t.deadlinesAhead where
  ages := fun d => by rw [h.pack]; trivial
  holds := fun k => by rw [h.lane]; trivial
  idles := fun j => by rw [h.slot]; trivial

theorem State.cleared.duesNow {t : State} (h : t.cleared) : t.duesNow where
  ages := fun d v e => by rw [h.pack] at e; cases e
  holds := fun k v e => by rw [h.lane] at e; cases e
  idles := fun j v e => by rw [h.slot] at e; cases e

theorem State.cleared.settingsInRange {t : State} (h : t.cleared) : t.settingsInRange where
  hold := by rw [h]; exact (by decide : 1 ≤ 2000 ∧ 2000 ≤ 65535)
  idle := by rw [h]; exact (by decide : 1000 ≤ 120000 ∧ 120000 ≤ 600000)
  share := by rw [h]; exact (by decide : 1 ≤ 8 ∧ 8 ≤ 255)
  tapeBlock := by rw [h]; exact (by decide : 262144 ∈ [65536, 131072, 262144, 524288, 1048576])
  classes := fun c => by rw [h.cls]; exact inRange_default
  exponents := fun k => by rw [h.lane]; decide

theorem State.cleared.regionsSound {t : State} (h : t.cleared) : t.regionsSound where
  laneAligned := fun k => by rw [h.lane]; exact Nat.zero_mod _
  windowAligned := by rw [h]; exact Nat.zero_mod _
  directoryAligned := by rw [h]; exact Nat.zero_mod _
  lanesApart := fun j k _ e => by rw [h.lane] at e; cases e
  windowApart := fun k e => by rw [h] at e; cases e
  directoryApart := fun k e => by rw [h] at e; cases e
  bothApart := fun e => by rw [h] at e; cases e

/-- A reset keeps every law: the state it leaves meets them all (R170). -/
theorem State.cleared.stepKeeps {t : State} (h : t.cleared) (s : State) : StepKeeps s t :=
  ⟨fun _ => h.eventsBounded, fun _ => h.holdsBounded, fun _ => h.membersCanonical, fun _ => h.limitsPositive,
    fun _ _ => h.deadlinesAhead, fun _ => h.duesNow, fun _ => h.settingsInRange, fun _ _ => h.regionsSound⟩

theorem cleared_powerOn (s : State) : s.powerOn.cleared := rfl
theorem cleared_resetTo (low : Bool) (s : State) : (s.resetTo low).cleared := rfl

/-- Every command keeps the laws of the tables, the deadlines, the settings and the regions. -/
theorem stepKeeps_exec {c : Instr} {s t : State} (h : exec c s = .next t) : StepKeeps s t := by
  by_cases hreset : c ≠ .powerOn ∧ c ≠ .resetbAssertion ∧ c ≠ .resetbRelease
  · exact (counts_exec h hreset).toStepKeeps
  · cases c with
    | powerOn => cases h; exact (cleared_powerOn s).stepKeeps s
    | resetbAssertion => cases h; exact (cleared_resetTo true s).stepKeeps s
    | resetbRelease =>
      cases h
      split
      · exact (cleared_resetTo false s).stepKeeps s
      · exact (Carries.refl s).toStepKeeps
    | _ => exact absurd (by simp) hreset

/-- Every step keeps the laws of the tables, the deadlines, the settings and the regions. -/
theorem stepKeeps_step {s t : State} (h : step s = .next t) : StepKeeps s t := by
  unfold step at h
  split at h
  · cases h
    exact (carries_refclkPeriod s).toStepKeeps
  · rename_i c rest _
    have hrest : Carries s { s with pending := rest } := .inert rfl
    exact hrest.toStepKeeps.trans (stepKeeps_exec h)

/-! ### Frames that write no region -/

/-- A code that names no command is answered BAD_ARG (R162). -/
theorem carryOut_unknown {code : Byte} (h : commandCodeKnown code = false) (payload : List Byte) (s : State) :
    s.carryOut code payload = s.refuse .badArg := by
  have hcode : code.toNat < 1 ∨ 18 < code.toNat := by
    simp only [commandCodeKnown, Bool.and_eq_false_iff, decide_eq_false_iff_not] at h
    omega
  unfold State.carryOut
  dsimp only
  split
  case h_19 => rfl
  all_goals exact absurd hcode (by omega)

/-- A select period that ends in a discard leaves the region table (R160). -/
theorem carries_selectPeriod_discard {bytes : List Byte} {edges : FrameEdges} {s : State}
    (h : frameMalformed bytes edges.extraBits.val = true ∨ edges.begunBusy = true ∨ s.response = .busy) :
    Carries s (s.selectPeriod bytes edges) := by
  unfold State.selectPeriod
  split
  · exact .refl s
  · rename_i hlow
    split
    · exact .refl s
    · split
      · exact carries_readResponse _ s
      · split
        · exact carries_discardFrame _ s
        · rename_i hbad
          have hbusy : s.response = .busy := (h.resolve_left fun g => hbad (by simp [g])).resolve_left fun g => hbad (by simp [g])
          rw [State.takeFrame, if_neg hlow, if_pos hbusy]
          exact carries_discardFrame _ s

/-- A frame whose code names nothing leaves the region table (R162). -/
theorem carries_selectPeriod_unknown {code : Byte} (h : commandCodeKnown code = false) (rest : List Byte) (edges : FrameEdges)
    (s : State) : Carries s (s.selectPeriod (code :: rest) edges) := by
  unfold State.selectPeriod
  split
  · exact .refl s
  · dsimp only
    split
    · exact carries_readResponse _ s
    · split
      · exact carries_discardFrame _ s
      · exact carries_takeFrame (fun u => by rw [carryOut_unknown h]; exact carries_refuse _ u) _ s

end Sys2Proof.Machine

open Sys2Proof Sys2Proof.Machine

/-- Settles O54: every operation inside an event keeps the bounds of the tables, and a reset empties them. -/
theorem stepKeepsTableBounds : Obligations.StepKeepsTableBounds := by
  unfold Obligations.StepKeepsTableBounds
  intro s t h
  have keeps := stepKeeps_step h
  exact ⟨keeps.events, keeps.holds, keeps.members⟩

/-- Settles O55: an armed deadline lies ahead, SET_CLOCK rebases every deadline ahead of the new clock, and a tick moves the
clock with nothing due. -/
theorem stepKeepsDeadlinesAhead : Obligations.StepKeepsDeadlinesAhead := by
  unfold Obligations.StepKeepsDeadlinesAhead
  intro s t h
  have keeps := stepKeeps_step h
  exact ⟨fun limits ahead => ⟨keeps.limits limits, keeps.deadlines limits ahead⟩, keeps.dues⟩

/-- Settles O57: the settings are stored clamped, and SET_LANE and SET_WINDOWS write a region that fails no test of R7. -/
theorem stepKeepsSettingsAndRegions : Obligations.StepKeepsSettingsAndRegions := by
  unfold Obligations.StepKeepsSettingsAndRegions
  intro s t h settings regions
  have keeps := stepKeeps_step h
  exact ⟨keeps.settings settings, keeps.regions settings regions⟩

/-- Settles O58: the values of power-on meet every law. -/
theorem resetStateMeetsLaws : Obligations.ResetStateMeetsLaws := by
  unfold Obligations.ResetStateMeetsLaws
  have h : State.reset.cleared := rfl
  have quiet : State.reset.arbiterQuiet := fun _ => ⟨rfl, rfl⟩
  have current : State.reset.engineCurrent := by simp [State.engineCurrent, State.reset]
  have busy : State.reset.busyIsRestart := by simp [State.busyIsRestart, State.reset]
  exact ⟨h.eventsBounded, h.holdsBounded, h.membersCanonical, h.limitsPositive, h.deadlinesAhead, h.duesNow, quiet, current,
    busy, h.settingsInRange, h.regionsSound⟩

/-- Settles O59: every change of a counter outside the resets is a saturating increase. -/
theorem onlyResetsLowerCounters : Obligations.OnlyResetsLowerCounters := by
  unfold Obligations.OnlyResetsLowerCounters
  intro s t c h hpower hassert hrelease
  exact (counts_exec h ⟨hpower, hassert, hrelease⟩).counters

/-- Settles O60: no other operation writes the region table, and a period that ends in a discard carries out no command. -/
theorem onlyRegionWritesChangeRegions : Obligations.OnlyRegionWritesChangeRegions := by
  unfold Obligations.OnlyRegionWritesChangeRegions
  intro s t c h hformed hlane hwindows hpower hassert hrelease hframe
  cases c with
  | commandFrameDiscard bytes x =>
    cases h
    exact ((carries_selectPeriod_discard (hframe bytes x rfl)).trans (carries_refill _)).same
  | unknownCommand code payload =>
    cases h
    have hcode : commandCodeKnown code = false := by
      simp only [Instr.wellFormed, Bool.and_eq_true, Bool.not_eq_true'] at hformed
      exact hformed.1.1
    exact ((carries_selectPeriod_unknown hcode _ _ s).trans (carries_refill _)).same
  | _ => exact (carries_exec h hlane hwindows ⟨hpower, hassert, hrelease⟩ (by simp)).same
end

/-! ## What every step keeps of the commit engine and the response -/

section
namespace Sys2Proof.Machine

/-- The laws of the engine, the arbiter and the response that every step keeps together. -/
structure EngineLaws (s : State) : Prop where
  quiet : s.arbiterQuiet
  current : s.engineCurrent
  busy : s.busyIsRestart

/-- A state in which a command's frame has just been taken (R160): BUSY, and no RESTART in progress. -/
structure Taken (s : State) : Prop where
  quiet : s.arbiterQuiet
  current : s.engineCurrent
  busy : s.response = .busy
  running : s.engine.state ≠ .stopping

/-- An operation inside an event keeps the laws. -/
theorem EngineLaws.keeps {s t : State} (l : EngineLaws s) (h : Keeps s t) (g : KeepsCurrent s t) : EngineLaws t :=
  ⟨h.quiet l.quiet, g l.current, by rw [State.busyIsRestart, h.response, h.stopping]; exact l.busy⟩

/-- The laws read the arbiter, the engine and the response alone. -/
theorem EngineLaws.of_eq {s t : State} (l : EngineLaws s) (ha : t.arbiter = s.arbiter) (hs : t.engine.state = s.engine.state)
    (hc : t.engine.current = s.engine.current) (hr : t.response = s.response) : EngineLaws t :=
  ⟨by rw [State.arbiterQuiet, hs, ha]; exact l.quiet, by rw [State.engineCurrent, hs, hc]; exact l.current,
    by rw [State.busyIsRestart, hs, hr]; exact l.busy⟩

theorem engineLaws_refill {s : State} (l : EngineLaws s) : EngineLaws s.refill := l.keeps (keeps_refill s) (current_refill s)

/-- A command that completes with a response, having entered no RESTART. -/
theorem Taken.respond {u v : State} (l : Taken u) (quiet : u.arbiterQuiet → v.arbiterQuiet) (current : KeepsCurrent u v)
    (stopping : v.engine.state = .stopping → u.engine.state = .stopping) (status : Status) (payload : List Byte) :
    EngineLaws (v.respond status payload) :=
  ⟨quiet l.quiet, current l.current, ⟨fun h => (nomatch h), fun h => absurd (stopping h) l.running⟩⟩

theorem Taken.refuse {u : State} (l : Taken u) (status : Status) : EngineLaws (u.refuse status) := l.respond id id id status []

/-- A command that completes with a response and touches neither the engine nor the run and the burst of the arbiter. -/
theorem Taken.apart {u t : State} (l : Taken u) (hr : t.arbiter.run = u.arbiter.run)
    (hb : t.arbiter.burst = u.arbiter.burst) (he : t.engine = u.engine) (hresponse : t.response ≠ .busy) : EngineLaws t :=
  ⟨by rw [State.arbiterQuiet, hr, hb, he]; exact l.quiet, KeepsCurrent.of_engine he l.current,
    ⟨fun h => absurd h hresponse, fun h => absurd (he ▸ h) l.running⟩⟩

theorem Taken.respondKept {u v : State} (l : Taken u) (h : Keeps u v) (g : KeepsCurrent u v) (status : Status)
    (payload : List Byte) : EngineLaws (v.respond status payload) :=
  l.respond h.quiet g h.stopping.1 status payload

/-! ### RESTART -/

/-- RESTART completes with an engine of power-on and an arbiter that was quiet (R169). -/
theorem engineLaws_finishRestart {s : State} (hrun : s.arbiter.run = 0) (hburst : s.arbiter.burst = none) :
    EngineLaws s.finishRestart where
  quiet := fun _ => ⟨hrun, hburst⟩
  current := engineCurrent_of_idle rfl rfl
  busy := ⟨fun h => (nomatch h), fun h => nomatch h⟩

theorem engineLaws_endRestart {s : State} (l : EngineLaws s) : EngineLaws s.endRestart := by
  unfold State.endRestart
  split
  · rename_i hdue
    have hquiet := l.quiet (by rw [restartDue_stopping hdue]; decide)
    exact engineLaws_finishRestart hquiet.1 hquiet.2
  · exact l

/-- The engine stopped and its candidate withdrawn by RESTART (R126, R168). -/
def State.stopped (s : State) : State := State.withdraw { s with lastServed := 15, engine := s.engine.stopped }

theorem stopped_engine (s : State) : s.stopped.engine = s.engine.stopped := rfl
theorem stopped_quiet (s : State) : s.stopped.arbiterQuiet := fun _ => ⟨rfl, rfl⟩
theorem stopped_response (s : State) : s.stopped.response = s.response := rfl

theorem carryOutRestart_eq {u : State} (h : u.part ≠ .config) : u.carryOutRestart =
    if (u.refuseHeldIn allLanes).stopped.clearView.restartDue then (u.refuseHeldIn allLanes).stopped.clearView.finishRestart
    else { (u.refuseHeldIn allLanes).stopped.clearView with part := .quiesced } := if_neg h

theorem clearView_engine (s : State) : s.clearView.engine = s.engine := by
  rw [State.clearView, refusePending_eq]

theorem engine_refuseHeldIn (ks : List LaneIx) (s : State) : (s.refuseHeldIn ks).engine = s.engine := by
  induction ks generalizing s with
  | nil => rfl
  | cons k ks ih => exact (ih _).trans (engine_refuseHeld k s)

theorem taken_carryOutRestart {u : State} (l : Taken u) : EngineLaws u.carryOutRestart := by
  by_cases hpart : u.part = .config
  · rw [State.carryOutRestart, if_pos hpart]
    exact l.refuse _
  · rw [carryOutRestart_eq hpart]
    have hresponse : (u.refuseHeldIn allLanes).stopped.response = .busy :=
      (stopped_response _).trans ((keeps_refuseHeldIn allLanes u).response.trans l.busy)
    have hengine := stopped_engine (u.refuseHeldIn allLanes)
    have hquiet := stopped_quiet (u.refuseHeldIn allLanes)
    generalize (u.refuseHeldIn allLanes).stopped = v at hresponse hengine hquiet ⊢
    have hview := keeps_clearView v
    have hstate : v.clearView.engine.state = .stopping := by rw [clearView_engine, hengine]; rfl
    have hcurrent : v.clearView.engine.current = none := by rw [clearView_engine, hengine]; rfl
    have hidle := hview.quiet hquiet (by rw [hstate]; decide)
    split
    · exact engineLaws_finishRestart hidle.1 hidle.2
    · exact ⟨fun _ => hidle, by simp [State.engineCurrent, hstate, hcurrent],
        by simp [State.busyIsRestart, hstate, hview.response, hresponse]⟩

/-! ### The answers of the memory port -/

theorem engineLaws_answerUnit {t : Time} {d : PackIx} {u : Nat} {a : MemAnswer} {s : State} (l : EngineLaws s) :
    EngineLaws (s.answerUnit t d u a) := by
  by_cases h : s.engine.state = .stopping
  · rw [State.answerUnit, if_pos h]
    refine engineLaws_endRestart (l.of_eq rfl ?_ ?_ rfl)
    · dsimp only; split <;> rfl
    · dsimp only; split <;> rfl
  · exact l.keeps (keeps_answerUnit t d u a s h) (current_answerUnit t d u a s h)

theorem engineLaws_takeAnswer {t : Time} {a : MemAnswer} {s : State} (l : EngineLaws s) : EngineLaws (s.takeAnswer t a) := by
  unfold State.takeAnswer
  split
  · exact l
  · rename_i r rs _
    have hrest : EngineLaws { s with inFlight := rs } := l.of_eq rfl rfl rfl rfl
    dsimp only
    split
    · exact hrest.keeps (keeps_answerForwarded _ _ a _) (.of_engine (engine_answerForwarded _ _ a _))
    · exact hrest.keeps (keeps_answerPart t a _) (current_answerPart t a _)
    · exact engineLaws_answerUnit hrest

/-! ### Lines and the clock -/

theorem engineLaws_lineTo {level : Bool} {s : State} (l : EngineLaws s) : EngineLaws (s.lineTo level) := by
  unfold State.lineTo
  split
  · exact l
  · have hline : ∀ p, EngineLaws { s with quiesceLine := level, part := p } := fun p => l.of_eq rfl rfl rfl rfl
    dsimp only
    split
    · exact hline s.part
    · split
      · have hheld := (hline .quiesced).keeps (keeps_refuseHeldIn allLanes _) (.of_engine (engine_refuseHeldIn allLanes _))
        exact hheld.keeps (keeps_engineOnset s.clock _) (current_engineOnset s.clock _)
      · exact (hline .run).keeps (keeps_engineRelease _) (current_engineRelease _)
      · exact hline s.part

theorem engineLaws_advanceClock {s : State} (l : EngineLaws s) : EngineLaws s.advanceClock := by
  have hon : EngineLaws s.clockOn := l.of_eq rfl rfl rfl rfl
  rw [advanceClock_eq]
  split
  · exact hon.keeps (keeps_raise _ _ _) (current_raise _ _ _)
  · exact hon

theorem engineLaws_tick {s : State} (l : EngineLaws s) : EngineLaws s.tick := by
  by_cases h : s.clock = timeMax
  · rw [State.tick, if_pos h]
    exact l.of_eq rfl rfl rfl rfl
  · rw [tick_eq h]
    exact engineLaws_advanceClock (l.keeps (keeps_takeDue s) (current_takeDue s))

theorem engineLaws_refclkPeriod {s : State} (l : EngineLaws s) : EngineLaws s.refclkPeriod := by
  unfold State.refclkPeriod
  split
  · exact l.of_eq rfl rfl rfl rfl
  · exact engineLaws_tick l

/-! ### Frames -/

theorem taken_carryOutReadPart {u : State} (l : Taken u) : EngineLaws u.carryOutReadPart := l.apart rfl rfl rfl (fun h => nomatch h)

theorem taken_carryOutReadLane (lane : Byte) {u : State} (l : Taken u) : EngineLaws (u.carryOutReadLane lane) := by
  unfold State.carryOutReadLane
  split
  · exact l.refuse _
  · exact l.apart rfl rfl rfl (fun h => nomatch h)

theorem taken_carryOutReadPack (record : Byte) {u : State} (l : Taken u) : EngineLaws (u.carryOutReadPack record) := by
  unfold State.carryOutReadPack
  split
  · exact l.refuse _
  · exact l.apart rfl rfl rfl (fun h => nomatch h)

theorem taken_carryOutSetLane (lane enabled exponent : Byte) (base : Addr) {u : State} (l : Taken u) :
    EngineLaws (u.carryOutSetLane lane enabled exponent base) := by
  unfold State.carryOutSetLane
  split
  · exact l.refuse _
  · split
    · dsimp only
      split
      · exact l.refuse _
      · split
        · exact l.refuse _
        · exact l.apart rfl rfl rfl (fun h => nomatch h)
    · exact l.refuse _

theorem taken_carryOutSetWindows (v : Addr) (mask : Byte) (d : Addr) {u : State} (l : Taken u) :
    EngineLaws (u.carryOutSetWindows v mask d) := by
  unfold State.carryOutSetWindows
  split
  · exact l.refuse _
  · split
    · exact l.refuse _
    · split
      · exact l.refuse _
      · exact l.apart rfl rfl rfl (fun h => nomatch h)

theorem taken_carryOutSetSerial (serial : Word32) (former : BitVec 16) (tb : Word32) {u : State} (l : Taken u) :
    EngineLaws (u.carryOutSetSerial serial former tb) := by
  unfold State.carryOutSetSerial
  split
  · exact l.refuse _
  · exact l.apart rfl rfl rfl (fun h => nomatch h)

theorem taken_carryOutSetClass (cls enabled : Byte) (target cap : BitVec 16) (age : Word32) (retention : Byte) {u : State}
    (l : Taken u) : EngineLaws (u.carryOutSetClass cls enabled target cap age retention) := by
  unfold State.carryOutSetClass
  split
  · rename_i c f _ _
    dsimp only
    generalize clampedClass f target cap age retention = k
    have hset : Taken { u with classes := u.classes.set c k } := ⟨l.quiet, l.current, l.busy, l.running⟩
    unfold State.writeClass
    dsimp only
    split
    · exact hset.respondKept (assembles_sealClassPack _ _ c _).toKeeps (current_sealClassPack _ _ c _) _ _
    · exact hset.apart rfl rfl rfl (fun h => nomatch h)
  · exact l.refuse _

theorem taken_carryOutSetLimits (hold idle : Word32) (share mode : Byte) {u : State} (l : Taken u) :
    EngineLaws (u.carryOutSetLimits hold idle share mode) := by
  unfold State.carryOutSetLimits
  split
  · exact l.refuse _
  · exact l.apart rfl rfl rfl (fun h => nomatch h)

theorem taken_carryOutSetClock (p : Time) {u : State} (l : Taken u) : EngineLaws (u.carryOutSetClock p) := by
  unfold State.carryOutSetClock
  split
  · exact l.refuse _
  · exact l.apart rfl rfl rfl (fun h => nomatch h)

theorem taken_carryOutStart {u : State} (l : Taken u) : EngineLaws u.carryOutStart := by
  unfold State.carryOutStart
  split
  · exact l.refuse _
  · split
    · exact l.apart rfl rfl rfl (fun h => nomatch h)
    · exact l.respond (fun _ _ => ⟨rfl, rfl⟩) (fun _ => engineCurrent_of_idle rfl rfl)
        (fun h => absurd (show EngineState.idle = .stopping from h) (by decide)) _ _

theorem taken_carryOutSealClass (cls : Byte) {u : State} (l : Taken u) : EngineLaws (u.carryOutSealClass cls) := by
  unfold State.carryOutSealClass
  split
  · exact l.refuse _
  · split
    · exact l.refuse _
    · split
      · exact l.respondKept (assembles_sealPack _ _ _ u).toKeeps (current_sealPack _ _ _ u) _ _
      · exact l.apart rfl rfl rfl (fun h => nomatch h)

theorem taken_carryOutDrain {u : State} (l : Taken u) : EngineLaws u.carryOutDrain := by
  unfold State.carryOutDrain
  split
  · exact l.refuse _
  · exact l.respondKept (keeps_drainClasses _ _ u) (current_drainClasses _ _ u) _ _

theorem taken_carryOutDiscardPack (record : Byte) (serial : Word32) {u : State} (l : Taken u) :
    EngineLaws (u.carryOutDiscardPack record serial) := by
  unfold State.carryOutDiscardPack
  split
  · exact l.refuse _
  · split
    · exact l.refuse _
    · exact l.refuse _
    · split
      · exact l.respondKept (keeps_discardInFlight _ _ u fun _ => l.running) (current_discardInFlight _ _ u) _ _
      · exact l.respondKept (keeps_discardWhole _ _ u fun _ => l.running) (current_discardWhole _ _ u) _ _

theorem current_joinCommitQueue (d : PackIx) (s : State) : KeepsCurrent s (s.joinCommitQueue d) :=
  KeepsCurrent.trans (t := { s with engine := { s.engine with queue := s.engine.queue ++ [d] } }) (.of_eq rfl rfl)
    (current_beginCommit _)

theorem taken_carryOutRecommitPack (record : Byte) (serial : Word32) {u : State} (l : Taken u) :
    EngineLaws (u.carryOutRecommitPack record serial) := by
  unfold State.carryOutRecommitPack
  split
  · exact l.refuse _
  · rename_i d _
    split
    · have hmark : Keeps u (u.setPack d { u.pack d with state := .sealing }) := keeps_setPack d _ u (.same _ _)
      exact l.respondKept (hmark.trans (assembles_joinCommitQueue d _).toKeeps)
        ((current_setPack d _ u).trans (current_joinCommitQueue d _)) _ _
    · exact l.refuse _

theorem taken_carryOutLaneRestart (lane : Byte) {u : State} (l : Taken u) : EngineLaws (u.carryOutLaneRestart lane) := by
  unfold State.carryOutLaneRestart
  split
  · exact l.refuse _
  · split
    · exact l.refuse _
    · split
      · exact l.respondKept (keeps_restartLane _ _ u) (current_restartLane _ _ u) _ _
      · exact l.refuse _

theorem taken_carryOutPopEvent {u : State} (l : Taken u) : EngineLaws u.carryOutPopEvent := by
  unfold State.carryOutPopEvent
  split
  · exact l.refuse _
  · exact l.apart rfl rfl rfl (fun h => nomatch h)

theorem taken_carryOutSetAttentionMask (mask : BitVec 16) {u : State} (l : Taken u) :
    EngineLaws (u.carryOutSetAttentionMask mask) := l.apart rfl rfl rfl (fun h => nomatch h)

/-- Every command of the link ends with a response but a RESTART that waits (R162, R168). -/
theorem taken_carryOut (code : Byte) (payload : List Byte) {u : State} (l : Taken u) :
    EngineLaws (u.carryOut code payload) := by
  unfold State.carryOut
  dsimp only
  split
  · exact taken_carryOutReadPart l
  · exact taken_carryOutReadLane _ l
  · exact taken_carryOutReadPack _ l
  · exact taken_carryOutSetLane _ _ _ _ l
  · exact taken_carryOutSetWindows _ _ _ l
  · exact taken_carryOutSetSerial _ _ _ l
  · exact taken_carryOutSetClass _ _ _ _ _ _ l
  · exact taken_carryOutSetLimits _ _ _ _ l
  · exact taken_carryOutSetClock _ l
  · exact taken_carryOutStart l
  · exact taken_carryOutRestart l
  · exact taken_carryOutSealClass _ l
  · exact taken_carryOutDrain l
  · exact taken_carryOutDiscardPack _ _ l
  · exact taken_carryOutRecommitPack _ _ l
  · exact taken_carryOutLaneRestart _ l
  · exact taken_carryOutPopEvent l
  · exact taken_carryOutSetAttentionMask _ l
  · exact l.refuse _

/-- The laws hold after a frame whose command keeps them (R160). -/
theorem engineLaws_takeFrame {body : State → State} (h : ∀ {u}, Taken u → EngineLaws (body u)) (n : Nat) {s : State}
    (l : EngineLaws s) : EngineLaws (s.takeFrame n body) := by
  unfold State.takeFrame
  split
  · exact l
  · split
    · exact l.of_eq rfl rfl rfl rfl
    · rename_i hfree
      exact h ⟨l.quiet, l.current, rfl, fun hs => hfree (l.busy.2 hs)⟩

/-- A response read changes no BUSY response and makes none (R161). -/
theorem readResponse_busy (span : ReadSpan) (s : State) : (s.readResponse span).response = .busy ↔ s.response = .busy := by
  unfold State.readResponse
  split
  · exact .rfl
  · cases hr : s.response with
    | none => cases hb : span.shownBusy <;> simp
    | busy => cases hb : span.shownBusy <;> simp
    | ready status payload =>
      cases hb : span.shownBusy with
      | true => simp
      | false =>
        have hfull : (if (LinkResponse.ready status payload).bytes.length ≤ span.periods then LinkResponse.none
            else .ready status payload) ≠ .busy := by split <;> exact fun h => nomatch h
        simpa using hfull

theorem engineLaws_readResponse {span : ReadSpan} {s : State} (l : EngineLaws s) : EngineLaws (s.readResponse span) := by
  have he : (s.readResponse span).engine = s.engine := by unfold State.readResponse; split <;> rfl
  have ha : (s.readResponse span).arbiter = s.arbiter := by unfold State.readResponse; split <;> rfl
  exact ⟨by rw [State.arbiterQuiet, he, ha]; exact l.quiet, KeepsCurrent.of_engine he l.current,
    by rw [State.busyIsRestart, readResponse_busy, he]; exact l.busy⟩

theorem engineLaws_selectPeriod {bytes : List Byte} {edges : FrameEdges} {s : State} (l : EngineLaws s) :
    EngineLaws (s.selectPeriod bytes edges) := by
  unfold State.selectPeriod
  split
  · exact l
  · split
    · exact l
    · split
      · exact engineLaws_readResponse l
      · split
        · exact l.of_eq rfl rfl rfl rfl
        · exact engineLaws_takeFrame (taken_carryOut _ _) _ l

/-! ### Commands -/

theorem State.cleared.engineLaws {t : State} (h : t.cleared) : EngineLaws t := by
  rw [h]
  exact ⟨fun _ => ⟨rfl, rfl⟩, engineCurrent_of_idle rfl rfl, ⟨fun h => (nomatch h), fun h => nomatch h⟩⟩

/-- Every command keeps the laws of the engine and the response. -/
theorem engineLaws_exec {c : Instr} {s t : State} (h : exec c s = .next t) (l : EngineLaws s) : EngineLaws t := by
  cases c with
  | powerOn => cases h; exact (cleared_powerOn s).engineLaws
  | resetbAssertion => cases h; exact (cleared_resetTo true s).engineLaws
  | resetbRelease =>
    cases h
    split
    · exact (cleared_resetTo false s).engineLaws
    · exact l
  | upstreamRequest r =>
    rw [exec, execUpstreamRequest] at h
    split at h
    · cases h
    · split at h
      · cases h; exact l
      · cases h
        have hbus : EngineLaws { s with bus := s.bus ++ [r] } := l.of_eq rfl rfl rfl rfl
        exact engineLaws_refill hbus
  | quiesceOnset => cases h; exact engineLaws_refill (engineLaws_lineTo l)
  | quiesceRelease => cases h; exact engineLaws_refill (engineLaws_lineTo l)
  | quiesceLineIgnored level => cases h; exact engineLaws_refill (engineLaws_lineTo l)
  | grant => cases h; exact l.keeps (keeps_grant s) (current_grant s)
  | burstUnitIssue => cases h; exact l.keeps (keeps_issueBurstUnit s) (current_issueBurstUnit s)
  | memoryResponse a => cases h; exact engineLaws_refill (engineLaws_takeAnswer l)
  | viewReadResponse => cases h; exact engineLaws_refill (l.keeps (keeps_respondRead _ s) (current_respondRead _ s))
  | commitEnd => cases h; exact l.keeps (keeps_endCommit _ s) (current_endCommit _ s)
  | commitSuspended => cases h; exact l.keeps (keeps_endSuspending _ s) (current_endSuspending _ s)
  | discardingEnd d => cases h; exact l.keeps (keeps_endDiscarding _ d s) (current_endDiscarding _ d s)
  | pendingDispositionTaken j =>
    cases h
    exact engineLaws_refill (l.keeps (keeps_takePendingDisposition _ j s) (current_takePendingDisposition _ j s))
  | pendingIdleReturn j => cases h; exact l.keeps (keeps_takePendingIdle _ j s) (.of_engine (engine_takePendingIdle _ j s))
  | restartCompletion => cases h; exact engineLaws_endRestart l
  | packClockTick => cases h; exact engineLaws_tick l
  | holdExpiry k => cases h; exact l.keeps (keeps_takeHoldExpiry k s) (current_takeHoldExpiry k s)
  | ageExpiry d => cases h; exact l.keeps (keeps_takeAgeExpiry d s) (current_takeAgeExpiry d s)
  | idleExpiry j => cases h; exact l.keeps (keeps_takeIdleExpiry j s) (.of_engine (engine_takeIdleExpiry j s))
  | commandFrameDiscard bytes x => cases h; exact engineLaws_refill (engineLaws_selectPeriod l)
  | unknownCommand code p => cases h; exact engineLaws_refill (engineLaws_selectPeriod l)
  | responseRead span => cases h; exact engineLaws_readResponse l
  | readPart => cases h; exact engineLaws_takeFrame taken_carryOutReadPart 3 l
  | readLane k => cases h; exact engineLaws_takeFrame (taken_carryOutReadLane k) 4 l
  | readPack d => cases h; exact engineLaws_takeFrame (taken_carryOutReadPack d) 4 l
  | setLane k e x b => cases h; exact engineLaws_takeFrame (taken_carryOutSetLane k e x b) 11 l
  | setWindows v m d => cases h; exact engineLaws_takeFrame (taken_carryOutSetWindows v m d) 14 l
  | setSerial n f tb => cases h; exact engineLaws_takeFrame (taken_carryOutSetSerial n f tb) 13 l
  | setClass c e t k a r => cases h; exact engineLaws_takeFrame (taken_carryOutSetClass c e t k a r) 14 l
  | setLimits hl i g m => cases h; exact engineLaws_takeFrame (taken_carryOutSetLimits hl i g m) 13 l
  | setClock p => cases h; exact engineLaws_takeFrame (taken_carryOutSetClock p) 9 l
  | start => cases h; exact engineLaws_takeFrame taken_carryOutStart 3 l
  | restart => cases h; exact engineLaws_refill (engineLaws_takeFrame taken_carryOutRestart 3 l)
  | sealClass c => cases h; exact engineLaws_takeFrame (taken_carryOutSealClass c) 4 l
  | drain => cases h; exact engineLaws_takeFrame taken_carryOutDrain 3 l
  | discardPack d n => cases h; exact engineLaws_takeFrame (taken_carryOutDiscardPack d n) 8 l
  | recommitPack d n => cases h; exact engineLaws_takeFrame (taken_carryOutRecommitPack d n) 8 l
  | laneRestart k => cases h; exact engineLaws_refill (engineLaws_takeFrame (taken_carryOutLaneRestart k) 4 l)
  | popEvent => cases h; exact engineLaws_takeFrame taken_carryOutPopEvent 3 l
  | setAttentionMask m => cases h; exact engineLaws_takeFrame (taken_carryOutSetAttentionMask m) 5 l

theorem engineLaws_step {s t : State} (h : step s = .next t) (l : EngineLaws s) : EngineLaws t := by
  unfold step at h
  split at h
  · cases h
    exact engineLaws_refclkPeriod l
  · rename_i c rest _
    have hrest : EngineLaws { s with pending := rest } := l.of_eq rfl rfl rfl rfl
    exact engineLaws_exec h hrest

end Sys2Proof.Machine

open Sys2Proof Sys2Proof.Machine

/-- Settles O56: the operations inside an event keep the three laws, a command of the link responds but for a RESTART that
waits with a stopped engine, and the completion of RESTART leaves an engine that is IDLE. -/
theorem stepKeepsEngineLaws : Obligations.StepKeepsEngineLaws := by
  unfold Obligations.StepKeepsEngineLaws
  intro s t h quiet current busy
  obtain ⟨quiet', current', busy'⟩ := engineLaws_step h ⟨quiet, current, busy⟩
  exact ⟨quiet', current', busy'⟩
end

/-! ## The step, power-on and RESETB -/

section
namespace Sys2Proof.Machine

/-! ### The upstream bus -/

/-- With nothing on the bus there is nothing to take (R2). -/
theorem refill_of_empty {s : State} (h : s.bus = []) : s.refill = s := by
  rw [State.refill, h, State.serveBus]

/-- A port that holds 96 requests takes none (R2). -/
theorem refill_of_full {s : State} (h : 96 ≤ s.outstanding) : s.refill = s := by
  rw [State.refill]
  cases hb : s.bus with
  | nil => rw [State.serveBus]
  | cons r rs => rw [State.serveBus, if_neg (by exact Nat.not_lt.2 h)]

/-- A binding changes the tables of packs and slots and the events alone (R131). -/
theorem bindSlot_eq (t : Time) (j : SlotIx) (d : PackIx) (s : State) : s.bindSlot t j d = { s with
    slots := (s.bindSlot t j d).slots, packs := (s.bindSlot t j d).packs, events := (s.bindSlot t j d).events
    overflow := (s.bindSlot t j d).overflow, counters := (s.bindSlot t j d).counters } := by
  unfold State.bindSlot State.raise
  dsimp only
  split <;> rfl

theorem bindSlots_eq (t : Time) (n : Nat) (s : State) : s.bindSlots t n = { s with
    slots := (s.bindSlots t n).slots, packs := (s.bindSlots t n).packs, events := (s.bindSlots t n).events
    overflow := (s.bindSlots t n).overflow, counters := (s.bindSlots t n).counters
    readyQueue := (s.bindSlots t n).readyQueue } := by
  induction n generalizing s with
  | zero => rfl
  | succ n ih =>
    rw [State.bindSlots]
    split
    · rw [ih, bindSlot_eq]
    · rfl

/-- The bindings of an event change the tables of packs and slots, the ready queue and the events alone (R131). -/
theorem bindReady_eq (t : Time) (s : State) : s.bindReady t = { s with
    slots := (s.bindReady t).slots, packs := (s.bindReady t).packs, events := (s.bindReady t).events
    overflow := (s.bindReady t).overflow, counters := (s.bindReady t).counters
    readyQueue := (s.bindReady t).readyQueue } := bindSlots_eq t 4 s

/-! ### The bus while a request is taken -/

@[simp] theorem bus_bindReady (t : Time) (s : State) : (s.bindReady t).bus = s.bus := by rw [bindReady_eq]

@[simp] theorem bus_unbind (t : Time) (j : SlotIx) (b : Binding) (c : ReturnCause) (s : State) :
    (s.unbind t j b c).bus = s.bus := by
  simp [State.unbind]

theorem bus_takeWritten (t : Time) (j : SlotIx) (b : Binding) (tag : Nat) (tape : BitVec 128) (s : State) :
    (s.takeWritten t j b tag tape).bus = s.bus := by
  have hdrain := fun u : State => (assembles_drainWaitList t u).bus
  have hrelease := fun u : State => (passes_releasePack t b.record u).bus
  simp [State.takeWritten, State.freeRecord, hdrain, hrelease]

theorem bus_takeReturned (t : Time) (j : SlotIx) (b : Binding) (tag : Nat) (s : State) :
    (s.takeReturned t j b tag).bus = s.bus := by
  simp [State.takeReturned]

theorem bus_takeDisposition (t : Time) (j : SlotIx) (o tag : Nat) (bytes : List Byte) (s : State) :
    (s.takeDisposition t j o tag bytes).bus = s.bus := by
  unfold State.takeDisposition
  dsimp only
  split
  · simp
  · split
    · simp
    · split
      · simp
      · split
        · simp
        · split
          · split
            · exact bus_takeWritten t j _ tag _ s
            · exact bus_takeReturned t j _ tag s
          · rfl

theorem bus_takeRead (j : SlotIx) (o n tag : Nat) (s : State) : (s.takeRead j o n tag).bus = s.bus := by
  unfold State.takeRead
  split
  · rfl
  · split
    · rfl
    · split
      · rfl
      · unfold State.serveRead
        dsimp only
        split <;> rfl

theorem bus_takeLaneWrite (t : Time) (k : LaneIx) (w : HeldWrite) (s : State) : (s.takeLaneWrite t k w).bus = s.bus := by
  unfold State.takeLaneWrite
  dsimp only
  split
  · rfl
  · split
    · rfl
    · split
      · split
        · exact (parses_acceptWrite t k w s).bus
        · rfl
      · split <;> rfl

/-- A request that is taken leaves the others on the bus (R2). -/
theorem bus_takeRequest (r : Request) (s : State) : (s.takeRequest r).bus = s.bus := by
  unfold State.takeRequest
  split
  · rfl
  · rfl
  · rfl
  · rfl
  · exact bus_takeLaneWrite _ _ _ s
  · exact bus_takeRead _ _ _ _ s
  · exact bus_takeDisposition _ _ _ _ _ s

/-! ### RESETB low -/

theorem takeFrame_low {s : State} (h : s.resetLow = true) (n : Nat) (body : State → State) : s.takeFrame n body = s := by
  rw [State.takeFrame, if_pos h]

theorem selectPeriod_low {s : State} (h : s.resetLow = true) (bytes : List Byte) (x : FrameEdges) :
    s.selectPeriod bytes x = s := by
  unfold State.selectPeriod
  exact if_pos h

/-- A line that is already at the level does not change. -/
theorem lineTo_same {s : State} {level : Bool} (h : s.quiesceLine = level) : s.lineTo level = s := by
  rw [State.lineTo, if_pos h]

/-- Where a change of the line is no onset and no release it changes the level alone (R166, R170). -/
theorem lineTo_level {s : State} {level : Bool} (h : s.resetLow = true ∨ s.engine.state = .stopping ∨ s.part = .config) :
    s.lineTo level = { s with quiesceLine := level } := by
  by_cases hsame : s.quiesceLine = level
  · rw [lineTo_same hsame, ← hsame]
  · rw [State.lineTo, if_neg hsame]
    dsimp only
    rcases h with h | h | h
    · rw [if_pos (Or.inl h)]
    · rw [if_pos (Or.inr h)]
    · split
      · rfl
      · rw [h]

/-- A frame taken while RESETB is low changes nothing (R170). -/
theorem exec_frame_low {s : State} (hlow : s.resetLow = true) (hbus : s.bus = []) {c : Instr} {n : Nat}
    (h : frameBytes c = some n) : exec c s = .next s := by
  have next : ∀ (m : Nat) (body : State → State), (Host.Outcome.next (s.takeFrame m body) : Host.Outcome State Fault Refusal) = .next s :=
    fun m body => by rw [takeFrame_low hlow]
  have nextRefill : ∀ (m : Nat) (body : State → State),
      (Host.Outcome.next (s.takeFrame m body).refill : Host.Outcome State Fault Refusal) = .next s :=
    fun m body => by rw [takeFrame_low hlow, refill_of_empty hbus]
  cases c with
  | readPart | readLane | readPack | setLane | setWindows | setSerial | setClass | setLimits | setClock | start
  | sealClass | drain | discardPack | recommitPack | popEvent | setAttentionMask => exact next _ _
  | restart | laneRestart => exact nextRefill _ _
  | unknownCommand code payload => rw [exec, execUnknownCommand, selectPeriod_low hlow, refill_of_empty hbus]
  | _ => cases h

theorem clock_advanceClock (s : State) : s.advanceClock.clock = s.clock + 1 := by
  rw [advanceClock_eq]
  split
  · exact (keeps_raise _ _ _).clock
  · rfl

/-! ### QUIESCE onset -/

/-- What a QUIESCE onset leaves of the state outside the engine, the arbiter and the events. -/
theorem engineOnset_eq (t : Time) (s : State) : s.engineOnset t = { s with
    engine := (s.engineOnset t).engine, arbiter := (s.engineOnset t).arbiter, events := (s.engineOnset t).events
    overflow := (s.engineOnset t).overflow, counters := (s.engineOnset t).counters } := by
  unfold State.engineOnset
  split
  · split
    · rfl
    · split
      · unfold State.suspend
        split
        · rfl
        · unfold State.raise
          split <;> rfl
      · rfl
  · rfl

theorem engineOnset_of_not_issuing {t : Time} {s : State} (h : s.engine.state ≠ .issuing) : s.engineOnset t = s := if_neg h

theorem engineOnset_unbegun {t : Time} {s : State} {l : Leftover} (h : s.engine.state = .issuing)
    (ha : s.engine.afterEnd = some l) : s.engineOnset t = State.withdraw { s with engine := s.engine.unbegun l } := by
  rw [State.engineOnset, if_pos h, ha]

theorem engineOnset_inFlight {t : Time} {s : State} (h : s.engine.state = .issuing) (ha : s.engine.afterEnd = none)
    (hf : 0 < s.engine.unitsInFlight) :
    s.engineOnset t = State.withdraw { s with engine := { s.engine with state := .suspending } } := by
  rw [State.engineOnset, if_pos h, ha]
  exact if_neg (by omega)

/-- The engine with current pack `cur` becomes SUSPENDED (R122). -/
theorem suspend_eq {t : Time} {s : State} {cur : Current} (h : s.engine.current = some cur) :
    s.suspend t = (State.withdraw { s with engine := { s.engine with state := .suspended } }).raise t
      (.commitSuspended cur.record cur.serial s.engine.nextUnit) := by
  unfold State.suspend
  split
  · rename_i hn
    cases hn.symm.trans h
  · rename_i c hc
    cases hc.symm.trans h
    rfl

theorem engineOnset_suspended {t : Time} {s : State} {cur : Current} (h : s.engine.state = .issuing)
    (ha : s.engine.afterEnd = none) (hf : s.engine.unitsInFlight = 0) (hc : s.engine.current = some cur) :
    s.engineOnset t = (State.withdraw { s with engine := { s.engine with state := .suspended } }).raise t
      (.commitSuspended cur.record cur.serial s.engine.nextUnit) := by
  rw [State.engineOnset, if_pos h, ha]
  dsimp only
  rw [if_pos hf, suspend_eq hc]

theorem raise_room {s : State} (h : s.events.length < 32) (t : Time) (e : EventBody) :
    s.raise t e = { s with events := s.events ++ [⟨t, e⟩] } := if_pos h

/-- An onset in RUN: the line is up, the held writes are refused, the engine suspends (R166, R54, R122). -/
theorem lineTo_onset {s : State} (hlow : s.resetLow = false) (hline : s.quiesceLine = false) (hpart : s.part = .run)
    (hstop : s.engine.state ≠ .stopping) :
    s.lineTo true = State.engineOnset s.clock (State.refuseHeldIn allLanes { s with quiesceLine := true, part := .quiesced }) := by
  rw [State.lineTo, if_neg (by simp [hline])]
  dsimp only
  rw [if_neg (by simp [hlow, hstop]), hpart]
  rfl

theorem nodup_allLanes : allLanes.Nodup := by decide

/-- A release in QUIESCED: the line is down, the part is in RUN, the engine goes on (R166, R123). -/
theorem lineTo_release {s : State} (hlow : s.resetLow = false) (hline : s.quiesceLine = true) (hpart : s.part = .quiesced)
    (hstop : s.engine.state ≠ .stopping) :
    s.lineTo false = State.engineRelease { s with quiesceLine := false, part := .run } := by
  rw [State.lineTo, if_neg (by simp [hline])]
  dsimp only
  rw [if_neg (by simp [hlow, hstop]), hpart]
  rfl

end Sys2Proof.Machine

open Sys2Proof Sys2Proof.Machine

/-- Settles O1: `step` takes the front of its queue. -/
theorem stepRunsFrontCommand : Obligations.StepRunsFrontCommand := by
  unfold Obligations.StepRunsFrontCommand
  intro s c rest h
  rw [step, h]

/-- Settles O2: with no command waiting `step` is a REFCLK period, which ticks at its 50,000th. -/
theorem emptyQueueStepIsRefclkPeriod : Obligations.EmptyQueueStepIsRefclkPeriod := by
  unfold Obligations.EmptyQueueStepIsRefclkPeriod
  intro s h
  have hstep : step s = .next s.refclkPeriod := by rw [step, h]
  constructor
  · intro hlt
    rw [hstep, State.refclkPeriod, if_pos (by exact hlt)]
    rfl
  · intro hge
    rw [hstep, State.refclkPeriod, if_neg (by exact Nat.not_lt.2 hge)]
    rfl

/-- Settles O3: the default values of the state and its tables are those of power-on. -/
theorem resetStateHoldsInitialValues : Obligations.ResetStateHoldsInitialValues := by
  unfold Obligations.ResetStateHoldsInitialValues
  have lanes : ∀ k : LaneIx, State.reset.tail k = 0 := fun k => by rw [State.tail, lane_reset]; rfl
  refine ⟨rfl, rfl, rfl, rfl, rfl, rfl, rfl, rfl, rfl, rfl, rfl, rfl, rfl, rfl, rfl, rfl, rfl, rfl, rfl, ?outstanding, rfl, rfl,
    rfl, rfl, ?counters, cls_reset, fun k => ?lane, fun m => rfl, pack_reset, slot_reset⟩
  case outstanding =>
    rw [State.outstanding]
    simp only [lane_reset, slot_reset]
    rfl
  case counters => exact fun n h => List.eq_of_mem_replicate (show n ∈ List.replicate 25 0 from h)
  case lane =>
    have h := lane_reset k
    refine ⟨by rw [h], fun n hn => ?_, lanes k, ?_, by rw [h]; rfl⟩
    · rw [h] at hn
      exact List.eq_of_mem_replicate (show n ∈ List.replicate 8 0 from hn)
    · rw [State.used, lanes, h]
      exact Nat.mod_self _

/-- Settles O4: each reset event leaves the values of power-on but what R170 keeps. -/
theorem resetEvents : Obligations.ResetEvents := by
  unfold Obligations.ResetEvents
  intro s
  refine ⟨rfl, rfl, fun h => ?_, fun h => ?_⟩
  · rw [exec, execResetbRelease, if_pos h]
    rfl
  · rw [exec, execResetbRelease, if_neg (by simp [h])]

/-- Settles O5: every frame, request and line change tests RESETB first; a tick does not. -/
theorem nothingIsTakenWhileResetbLow : Obligations.NothingIsTakenWhileResetbLow := by
  unfold Obligations.NothingIsTakenWhileResetbLow
  intro s hlow hbus
  have line : ∀ level, (s.lineTo level).refill = { s with quiesceLine := level } := fun level => by
    rw [lineTo_level (Or.inl hlow)]
    exact refill_of_empty hbus
  refine ⟨fun r hr => ?request, fun c n h => exec_frame_low hlow hbus h, fun bytes x => ?discard, fun p => ?read, ?_, ?_,
    fun level => ?_, fun hend => ?tick⟩
  case request =>
    have hlen := wellFormed_len hr
    rw [exec, execUpstreamRequest, if_neg (by omega), if_pos hlow]
  case discard => rw [exec, execCommandFrameDiscard, selectPeriod_low hlow, refill_of_empty hbus]
  case read => rw [exec, execResponseRead, State.readResponse, if_pos hlow]
  case tick =>
    refine ⟨s.tick, rfl, ?_⟩
    rw [tick_eq hend, clock_advanceClock, (keeps_takeDue s).clock]
  all_goals exact congrArg Host.Outcome.next (line _)

/-- Settles O6: the held writes are refused first, which leaves the engine; then the engine suspends as its state says. -/
theorem quiesceOnsetEffects : Obligations.QuiesceOnsetEffects := by
  unfold Obligations.QuiesceOnsetEffects
  intro s hlow hline hpart hstop
  let s1 : State := { s with quiesceLine := true, part := .quiesced }
  obtain ⟨hheld, hlanes⟩ := refuseHeldIn_spec allLanes s1 nodup_allLanes
  have honset : exec .quiesceOnset s = .next (State.engineOnset s.clock (s1.refuseHeldIn allLanes)).refill := by
    rw [exec, execQuiesceOnset, lineTo_onset hlow hline hpart hstop]
  generalize hv : s1.refuseHeldIn allLanes = v at hheld hlanes honset
  have hengine : v.engine = s.engine := by rw [hheld]
  have harbiter : v.arbiter = s.arbiter := by rw [hheld]
  have hevents : v.events = s.events := by rw [hheld]
  have hrest := engineOnset_eq s.clock v
  refine ⟨_, honset, by rw [hrest, hheld], by rw [hrest, hheld], fun k => ?lane, by rw [hrest, hheld]; rfl, fun h => ?other,
    fun l h ha => ?unbegun, fun h ha hf => ?inFlight, fun cur h ha hf hc => ?suspended, by rw [hrest, hheld],
    by rw [hrest, hheld], by rw [hrest, hheld], by rw [hrest, hheld], by rw [hrest, hheld], by rw [hrest, hheld],
    by rw [hrest, hheld], by rw [hrest, hheld], by rw [hrest, hheld]⟩
  case lane =>
    have hk := hlanes k
    rw [if_pos (mem_allLanes k)] at hk
    rw [hrest]
    exact hk
  case other =>
    rw [engineOnset_of_not_issuing (hengine ▸ h)]
    exact ⟨hengine, harbiter, hevents⟩
  case unbegun =>
    rw [engineOnset_unbegun (hengine ▸ h) (hengine ▸ ha), State.withdraw, hengine, harbiter]
    exact ⟨rfl, rfl, hevents⟩
  case inFlight =>
    rw [engineOnset_inFlight (hengine ▸ h) (hengine ▸ ha) (hengine ▸ hf), State.withdraw, hengine, harbiter]
    exact ⟨rfl, rfl, hevents⟩
  case suspended =>
    rw [engineOnset_suspended (hengine ▸ h) (hengine ▸ ha) (hengine ▸ hf) (hengine ▸ hc), State.withdraw, hengine, harbiter]
    refine ⟨by simp, by simp, fun hroom => ?_⟩
    rw [raise_room (by exact hevents ▸ hroom), hevents]

/-- Settles O7: a release takes each engine state on by its own rule; elsewhere the line's level alone changes. -/
theorem quiesceReleaseAndIgnoredLevels : Obligations.QuiesceReleaseAndIgnoredLevels := by
  unfold Obligations.QuiesceReleaseAndIgnoredLevels
  constructor
  · intro s hlow hline hpart
    have release : s.engine.state ≠ .stopping → exec .quiesceRelease s =
        .next (State.engineRelease { s with quiesceLine := false, part := .run }).refill := fun hstop => by
      rw [exec, execQuiesceRelease, lineTo_release hlow hline hpart hstop]
    refine ⟨fun h => ?suspended, fun d ds h hq => ?begins, fun h => ?same, fun h => ?stopping⟩
    case suspended =>
      rcases h with h | h
      all_goals
        rw [release (by simp [h]), State.engineRelease]
        dsimp only
        rw [h]
    case begins =>
      rw [release (by simp [h]), State.engineRelease]
      dsimp only
      rw [h]
      dsimp only
      rw [beginCommit_eq, beginCommit_begun (by exact h) rfl (by exact hq)]
      rfl
    case same =>
      rcases h with ⟨h, hq⟩ | h
      · rw [release (by simp [h]), State.engineRelease]
        dsimp only
        rw [h]
        dsimp only
        rw [beginCommit_nil (by exact hq)]
      · rw [release (by simp [h]), State.engineRelease]
        dsimp only
        rw [h]
    case stopping =>
      rw [exec, execQuiesceRelease, lineTo_level (Or.inr (Or.inl h))]
  · intro s level h
    rw [exec, execQuiesceLineIgnored, lineTo_level (Or.inr h.symm)]

/-- Settles O8: `refill` takes the oldest request while there is room, and the outstanding requests are counted place by
place. -/
theorem requestsAreTakenInOrderWhileRoom : Obligations.RequestsAreTakenInOrderWhileRoom := by
  unfold Obligations.RequestsAreTakenInOrderWhileRoom
  refine ⟨fun s r hlow hr => ?arrives, fun s r hr => ?malformed, fun s => refill_of_empty, fun s => refill_of_full,
    fun s r rs hb hroom => ?taken, fun s => ?outstanding⟩
  case arrives =>
    have hlen := wellFormed_len hr
    rw [exec, execUpstreamRequest, if_neg (by omega), if_neg (by simp [hlow])]
    rfl
  case malformed =>
    have hlen : r.len = 0 ∨ 4096 < r.len := by
      simp only [Request.wellFormed, Bool.and_eq_false_iff, decide_eq_false_iff_not] at hr
      omega
    rw [exec, execUpstreamRequest, if_pos hlen]
  case taken =>
    rw [State.refill, hb, State.serveBus, if_pos (by exact hroom), State.refill, bus_takeRequest]
  case outstanding =>
    have hlanes : allLanes = List.finRange 16 := by decide
    have hslots : allSlots = List.finRange 4 := by decide
    rw [State.outstanding, hlanes, hslots, List.countP_append, ← Nat.add_assoc]
    rfl
end

/-! ## Regions, routes and held writes -/

section
namespace Sys2Proof.Machine

/-! ### The region of an address -/

/-- Address `a` lies in the enabled region of lane `k` (R6). -/
def State.inLane (s : State) (k : LaneIx) (a : Nat) : Prop :=
  (s.lane k).enabled = true ∧ (s.lane k).base.toNat ≤ a ∧ a < (s.lane k).base.toNat + (s.lane k).size

theorem covers_iff (b : Addr) (n a : Nat) : covers b n a = true ↔ b.toNat ≤ a ∧ a < b.toNat + n := by
  simp [covers]

/-- Regions that share no address do not both cover one. -/
theorem apart.not_both {b1 b2 : Addr} {n1 n2 a : Nat} (h : apart b1 n1 b2 n2) (h1 : b1.toNat ≤ a ∧ a < b1.toNat + n1)
    (h2 : b2.toNat ≤ a ∧ a < b2.toNat + n2) : False := by
  unfold apart at h
  omega

theorem regionOf_lane_iff {s : State} (hr : s.regionsSound) (k : LaneIx) (a : Nat) :
    s.regionOf a = .lane k ↔ s.inLane k a := by
  refine ⟨regionOf_lane, fun h => ?_⟩
  obtain ⟨henabled, hcovers⟩ := h
  have hk : ((s.lane k).enabled && covers (s.lane k).base (s.lane k).size a) = true := by
    simp [henabled, (covers_iff _ _ _).2 hcovers]
  unfold State.regionOf
  split
  · rename_i j hj
    have hfound := List.find?_some hj
    obtain ⟨hje, hjc⟩ := Bool.and_eq_true_iff.1 hfound
    by_cases e : j = k
    · rw [e]
    · exact ((hr.lanesApart j k e hje henabled).not_both ((covers_iff _ _ _).1 hjc) hcovers).elim
  · rename_i hnone
    exact absurd hk (List.find?_eq_none.1 hnone k (mem_allLanes k))

/-- An address in no lane region is classified by the windows (R6). -/
theorem regionOf_of_noLane {s : State} {a : Nat} (h : ∀ k, ¬ s.inLane k a) : s.regionOf a =
    if s.window.set && covers s.window.base Config.viewWindowSize a then
      .slotWindow (Fin.ofNat 4 ((a - s.window.base.toNat) / Config.slotWindowSize))
    else if s.directory.set && covers s.directory.base Config.directorySize a then .directory
    else .other := by
  have hnone : allLanes.find? (fun k => (s.lane k).enabled && covers (s.lane k).base (s.lane k).size a) = none := by
    refine List.find?_eq_none.2 fun k _ hk => h k ?_
    obtain ⟨he, hc⟩ := Bool.and_eq_true_iff.1 hk
    exact ⟨he, (covers_iff _ _ _).1 hc⟩
  unfold State.regionOf
  rw [hnone]

/-- An address that no lane region of the table covers, when its region is none. -/
theorem noLane_of_regionOf {s : State} (hr : s.regionsSound) {a : Nat} (h : ∀ k, s.regionOf a ≠ .lane k) (k : LaneIx) :
    ¬ s.inLane k a := fun hk => h k ((regionOf_lane_iff hr k a).2 hk)

/-- The slot window of an offset within the view window. -/
theorem slotOf_eq_iff {base a : Nat} (j : SlotIx) (h : base ≤ a) (hlt : a < base + Config.viewWindowSize) :
    Fin.ofNat 4 ((a - base) / Config.slotWindowSize) = j ↔ base + j.val * 2 ^ 31 ≤ a ∧ a < base + (j.val + 1) * 2 ^ 31 := by
  rw [Fin.ext_iff, Fin.val_ofNat, Config.slotWindowSize]
  rw [Config.viewWindowSize] at hlt
  have hj := j.isLt
  omega

theorem regionOf_slotWindow_iff {s : State} (hr : s.regionsSound) (j : SlotIx) (a : Nat) :
    s.regionOf a = .slotWindow j ↔
      s.window.set = true ∧ s.window.base.toNat + j.val * 2 ^ 31 ≤ a ∧ a < s.window.base.toNat + (j.val + 1) * 2 ^ 31 := by
  constructor
  · intro h
    rw [regionOf_of_noLane (noLane_of_regionOf hr (by rw [h]; exact fun _ e => nomatch e))] at h
    split at h
    · rename_i hw
      obtain ⟨hset, hc⟩ := Bool.and_eq_true_iff.1 hw
      obtain ⟨hbase, hend⟩ := (covers_iff _ _ _).1 hc
      exact ⟨hset, (slotOf_eq_iff j hbase hend).1 (Region.slotWindow.inj h)⟩
    · split at h <;> cases h
  · rintro ⟨hset, hlo, hhi⟩
    have hj := j.isLt
    have hwin : s.window.base.toNat ≤ a ∧ a < s.window.base.toNat + Config.viewWindowSize := by
      rw [Config.viewWindowSize]
      omega
    rw [regionOf_of_noLane fun k hk => (hr.windowApart k hset hk.1).not_both hwin hk.2,
      if_pos (by rw [hset, (covers_iff _ _ _).2 hwin]; rfl), (slotOf_eq_iff j hwin.1 hwin.2).2 ⟨hlo, hhi⟩]

theorem regionOf_directory_iff {s : State} (hr : s.regionsSound) (a : Nat) :
    s.regionOf a = .directory ↔
      s.directory.set = true ∧ s.directory.base.toNat ≤ a ∧ a < s.directory.base.toNat + 2 ^ 23 := by
  constructor
  · intro h
    rw [regionOf_of_noLane (noLane_of_regionOf hr (by rw [h]; exact fun _ e => nomatch e))] at h
    split at h
    · cases h
    · split at h
      · rename_i hd
        obtain ⟨hset, hc⟩ := Bool.and_eq_true_iff.1 hd
        exact ⟨hset, (covers_iff _ _ _).1 hc⟩
      · cases h
  · rintro ⟨hset, hdir⟩
    have hwin : ¬ (s.window.set && covers s.window.base Config.viewWindowSize a) = true := by
      intro hw
      obtain ⟨hws, hc⟩ := Bool.and_eq_true_iff.1 hw
      exact (hr.bothApart hws hset).not_both ((covers_iff _ _ _).1 hc) hdir
    rw [regionOf_of_noLane fun k hk => (hr.directoryApart k hset hk.1).not_both hdir hk.2, if_neg hwin,
      if_pos (by rw [hset, (covers_iff _ Config.directorySize _).2 hdir]; rfl)]

/-! ### Routes -/

/-- A request that lies in one region is taken by its route of Table 1-2. -/
theorem exec_liesIn {s : State} {r : Request} {g : Region} {route : Route} (hnow : s.takesNow) (h : s.liesIn r g)
    (hroute : routeIn s.part (isWriteRequest r) g = route) :
    exec (.upstreamRequest r) s = .next (s.takeRequest r) ∧ s.route r = route :=
  ⟨exec_upstreamRequest_takesNow hnow h.formed, (route_liesIn h).trans hroute⟩

/-- The state with the request forwarded (R5). -/
def State.forwarded (r : Request) (s : State) : State :=
  { s with forwarding := s.forwarding ++ [⟨isWriteRequest r, r.addr, r.len, requestData r, .upstream r.tag⟩] }

theorem exec_forwarded {s : State} {r : Request} {g : Region} (hnow : s.takesNow) (h : s.liesIn r g)
    (hroute : routeIn s.part (isWriteRequest r) g = .forward) : exec (.upstreamRequest r) s = .next (s.forwarded r) := by
  obtain ⟨hexec, hr⟩ := exec_liesIn hnow h hroute
  rw [hexec, State.takeRequest, hr]
  rfl

theorem exec_placement {s : State} {r : Request} {g : Region} (hnow : s.takesNow) (h : s.liesIn r g)
    (hroute : routeIn s.part (isWriteRequest r) g = .placement) :
    exec (.upstreamRequest r) s = .next ((s.count Counters.bumpPlacement).send r.tag .refused) := by
  obtain ⟨hexec, hr⟩ := exec_liesIn hnow h hroute
  rw [hexec, State.takeRequest, hr]

theorem exec_laneWrite {s : State} {r : Request} {g : Region} {k : LaneIx} (hnow : s.takesNow) (h : s.liesIn r g)
    (hroute : routeIn s.part (isWriteRequest r) g = .lane k) :
    exec (.upstreamRequest r) s = .next (s.takeLaneWrite s.clock k ⟨r.tag, r.addr, requestData r⟩) := by
  obtain ⟨hexec, hr⟩ := exec_liesIn hnow h hroute
  rw [hexec, State.takeRequest, hr]

theorem exec_slotRead {s : State} {r : Request} {g : Region} {j : SlotIx} (hnow : s.takesNow) (h : s.liesIn r g)
    (hroute : routeIn s.part (isWriteRequest r) g = .viewRead j) :
    exec (.upstreamRequest r) s = .next (s.takeRead j ((r.addr.toNat - s.window.base.toNat) % 2 ^ 31) r.len r.tag) := by
  obtain ⟨hexec, hr⟩ := exec_liesIn hnow h hroute
  rw [hexec, State.takeRequest, hr]
  rfl

theorem exec_slotWrite {s : State} {r : Request} {g : Region} {j : SlotIx} (hnow : s.takesNow) (h : s.liesIn r g)
    (hroute : routeIn s.part (isWriteRequest r) g = .disposition j) :
    exec (.upstreamRequest r) s =
      .next (s.takeDisposition s.clock j ((r.addr.toNat - s.window.base.toNat) % 2 ^ 31) r.tag (requestData r)) := by
  obtain ⟨hexec, hr⟩ := exec_liesIn hnow h hroute
  rw [hexec, State.takeRequest, hr]
  rfl

/-! ### A write in sequence -/

/-- A write that passes R21 and R22, at its Lane Parser (R43, R44). -/
theorem exec_inSequence {s : State} {k : LaneIx} {tag : Nat} {addr : Addr} {data : List Byte}
    (h : s.inSequence k tag addr data) : exec (.upstreamRequest (.write tag addr data)) s = .next
      (if (s.lane k).hold = [] then
        if s.accepts k data then s.acceptWrite s.clock k ⟨tag, addr, data⟩ else s.holdFirst k ⟨tag, addr, data⟩
      else if (s.lane k).hold.length < Config.holdPlaces then s.holdBehind k ⟨tag, addr, data⟩
      else s.refuseHoldFull k tag) := by
  have hreach := h.toreachesLane
  rw [exec_reachesLane hreach, takeLaneWrite_atCursor (w := ⟨tag, addr, data⟩) s.clock hreach.base_le h.inside h.atCursor]

/-! ### The visit of a lane in a release pass -/

/-- A held head that passes the acceptance test is accepted, and the lane's visit goes on (R50). -/
theorem serveHeads_passes {t : Time} {k : LaneIx} {w : HeldWrite} {ws : List HeldWrite} {accepted : Bool} {s : State}
    (h : s.accepts k w.data = true) : s.serveHeads t k (w :: ws) accepted =
      State.serveHeads t k ws true
        (State.acceptWrite t k w { s.setLane k { s.lane k with hold := ws } with lastServed := k }) := by
  rw [State.serveHeads, if_pos h]
  rfl

/-- The first held head that fails ends the visit: the deadline is armed again for it when another was accepted (R50). -/
theorem serveHeads_fails {t : Time} {k : LaneIx} {w : HeldWrite} {ws : List HeldWrite} {accepted : Bool} {s : State}
    (h : s.accepts k w.data ≠ true) : s.serveHeads t k (w :: ws) accepted =
      if accepted then s.setLane k { s.lane k with holdDeadline := Deadline.arm s.clock s.holdLimit } else s := by
  rw [State.serveHeads, if_neg h]
  rfl

/-- After an acceptance in a visit the lane's hold queue is what stood behind the accepted head. -/
theorem hold_afterAccept (t : Time) (k : LaneIx) (w : HeldWrite) (ws : List HeldWrite) (s : State) :
    ((State.acceptWrite t k w { s.setLane k { s.lane k with hold := ws } with lastServed := k }).lane k).hold = ws := by
  rw [(parses_acceptWrite t k w _).hold k]
  exact congrArg Lane.hold (State.lane_setLane_same s k _)

/-! ### Tail and used -/

theorem size_pos (l : Lane) : 0 < l.size := Nat.two_pow_pos _

theorem used_spec {s : State} {k : LaneIx} (h : s.tail k < (s.lane k).size) :
    s.used k < (s.lane k).size ∧ (s.tail k + s.used k) % (s.lane k).size = (s.lane k).cursor % (s.lane k).size := by
  refine ⟨Nat.mod_lt _ (size_pos _), ?_⟩
  rw [State.used, Nat.add_mod_mod, Nat.add_sub_cancel' (by omega), Nat.add_mod_right]

end Sys2Proof.Machine

open Sys2Proof Sys2Proof.Machine

/-- Settles O11: regions that share no address cover an address at most once, so the order in which they are looked up does
not matter. -/
theorem regionTableClassifiesAddresses : Obligations.RegionTableClassifiesAddresses := by
  unfold Obligations.RegionTableClassifiesAddresses
  intro s hr a
  exact ⟨fun k => regionOf_lane_iff hr k a, fun j => regionOf_slotWindow_iff hr j a, regionOf_directory_iff hr a⟩

/-- Settles O12: the route of a request that lies in one region is the entry of Table 1-2. -/
theorem routesOfTable12 : Obligations.RoutesOfTable12 := by
  unfold Obligations.RoutesOfTable12
  intro s r g hnow h
  refine ⟨fun hg => ?other, fun hg hc => ?directory, fun hg hw hc => ?directoryWrite, fun k hg => ?lane, fun j hg => ?slot⟩
  case other => exact exec_forwarded hnow h (by rw [hg]; rfl)
  case directory => exact exec_forwarded hnow h (by rw [hg]; exact if_neg (by rcases hc with hc | hc <;> simp [hc]))
  case directoryWrite => exact exec_placement hnow h (by rw [hg]; exact if_pos ⟨hw, hc⟩)
  case lane =>
    refine ⟨fun hc => exec_forwarded hnow h ?_, fun hw hp => exec_placement hnow h ?_, fun hw hp => exec_laneWrite hnow h ?_⟩
    · rcases hc with hc | hc <;> simp [hg, hc, routeIn]
    · simp [hg, hw, hp, routeIn]
    · simp [hg, hw, hp, routeIn]
  case slot =>
    refine ⟨fun hp => exec_placement hnow h ?_, fun hp hw => exec_slotRead hnow h ?_, fun hp hw => exec_slotWrite hnow h ?_⟩
    · simp [hg, hp, routeIn]
    · simp [hg, hp, hw, routeIn]
    · simp [hg, hp, hw, routeIn]

/-- Settles O14: the acceptance test and the length of the hold queue decide what a write in sequence becomes, a release pass
serves held heads one after another, and the test reads tail, used, the FREE count and the lead count. -/
theorem holdSteps : Obligations.HoldSteps := by
  unfold Obligations.HoldSteps
  refine ⟨fun s k tag addr data h => ⟨fun hhold hfail => ?first, fun hlo hhi => ?behind, fun hfull => ?full⟩,
    fun s t => ⟨?pass, fun k => ⟨fun hhold => ?nothing, fun w ws hhold => ⟨fun hfail => ?failing, fun hpass => ⟨?last, ?next⟩⟩⟩⟩,
    fun s k => ⟨fun m rest ho => ?head, fun p ho hp => ?pending, fun ho hp => ?cursor, used_spec, fun hc => ?free⟩,
    fun s t k b bs => ⟨rfl, fun hc => ?completes, fun hc => ?other⟩⟩
  case first =>
    have hrej : ¬ s.accepts k data = true := fun ha => by
      obtain ⟨hspace, hentries⟩ := (accepts_iff s k data).1 ha
      omega
    rw [exec_inSequence h, if_pos hhold, if_neg hrej]
    rfl
  case behind =>
    rw [exec_inSequence h, if_neg (fun e => by simp [e] at hlo), if_pos (by exact Nat.lt_of_le_of_lt hhi (by decide))]
    rfl
  case full =>
    rw [exec_inSequence h, if_neg (fun e => by simp [e] at hfull), if_neg (by rw [hfull]; decide)]
    rfl
  case pass =>
    rw [State.releasePass, serveLanes_eq_foldl, passOrder, List.foldl_map]
  case nothing =>
    dsimp only
    rw [hhold]
    rfl
  case failing =>
    dsimp only
    rw [hhold, serveHeads_fails (mt (accepts_iff s k w.data).1 hfail)]
    rfl
  case last =>
    intro hws
    dsimp only
    rw [hhold, serveHeads_passes ((accepts_iff s k w.data).2 hpass), hws]
    rfl
  case next =>
    intro v vs hws
    have hvisit := serveHeads_passes (t := t) (ws := ws) (accepted := false) ((accepts_iff s k w.data).2 hpass)
    have hheld := hold_afterAccept t k w ws s
    generalize State.acceptWrite t k w { s.setLane k { s.lane k with hold := ws } with lastServed := k } = u at hvisit hheld ⊢
    dsimp only
    rw [hhold, hvisit]
    subst hws
    refine ⟨fun hv => ?_, fun hv => ?_⟩
    · rw [serveHeads_fails (mt (accepts_iff u k v.data).1 hv)]
      rfl
    · rw [hheld, serveHeads_passes ((accepts_iff u k v.data).2 hv), serveHeads_passes ((accepts_iff u k v.data).2 hv)]
  case head => rw [State.tail, ho]
  case pending => rw [State.tail, ho, hp]; rfl
  case cursor => rw [State.tail, ho, hp]; rfl
  case free => exact MemberTable.freeCount_eq hc
  case completes =>
    dsimp only
    rw [leadCount_cons s t k b bs, if_pos ((isFile_scanByte s.classes (s.lane k) b).2 hc)]
  case other =>
    dsimp only
    rw [leadCount_cons s t k b bs, if_neg (mt (isFile_scanByte s.classes (s.lane k) b).1 hc), Nat.zero_add]
end

/-! ## The Lane Parser, byte by byte -/

section
namespace Sys2Proof.Machine

/-! ### One byte of a lane -/

/-- A byte in LEAD or SEEK that is collected: the first sets the pending lead start (R24, R32). -/
def Lane.leadStart (l : Lane) (buf : List Byte) : Nat := if buf = [] then l.cursor else l.pendingLead.getD l.cursor

theorem scanByte_lead_collects {c : Vector PackClass 8} {l : Lane} (b : Byte) (hp : l.parser = .lead)
    (hlen : l.leadBuffer.length < 63) : l.scanByte c b =
      ({ l with cursor := (l.cursor + 1) % l.size, leadBuffer := l.leadBuffer ++ [b],
                pendingLead := some (l.leadStart l.leadBuffer) }, none) := by
  have h : (l.leadBuffer ++ [b]).length < 64 := by simp; omega
  unfold Lane.scanByte
  rw [hp]
  exact if_pos h

theorem scanByte_lead_full {c : Vector PackClass 8} {l : Lane} (b : Byte) {start : Nat} (hp : l.parser = .lead)
    (hlen : l.leadBuffer.length = 63) (hstart : l.pendingLead = some start) : l.scanByte c b =
      Lane.takeLead c start (l.leadBuffer ++ [b]) { l with cursor := (l.cursor + 1) % l.size } := by
  have h : ¬ (l.leadBuffer ++ [b]).length < 64 := by simp; omega
  have hne : l.leadBuffer ≠ [] := fun e => by simp [e] at hlen
  unfold Lane.scanByte
  rw [hp]
  dsimp only
  rw [if_neg h, if_neg hne, hstart]
  rfl

theorem scanByte_seek_passes {c : Vector PackClass 8} {l : Lane} (b : Byte) (hp : l.parser = .seek) (hc : l.candidate = [])
    (hoff : l.cursor % 64 ≠ 0) : l.scanByte c b = ({ l with cursor := (l.cursor + 1) % l.size }, none) := by
  unfold Lane.scanByte
  rw [hp]
  exact if_pos ⟨hc, hoff⟩

theorem scanByte_seek_collects {c : Vector PackClass 8} {l : Lane} (b : Byte) (hp : l.parser = .seek)
    (hstart : l.candidate ≠ [] ∨ l.cursor % 64 = 0) (hlen : l.candidate.length < 63) : l.scanByte c b =
      ({ l with cursor := (l.cursor + 1) % l.size, candidate := l.candidate ++ [b],
                pendingLead := some (l.leadStart l.candidate) }, none) := by
  have h : (l.candidate ++ [b]).length < 64 := by simp; omega
  have hcollect : ¬ (l.candidate = [] ∧ l.cursor % 64 ≠ 0) := fun ⟨he, hne⟩ => hstart.elim (absurd he) hne
  unfold Lane.scanByte
  rw [hp]
  dsimp only
  rw [if_neg hcollect, if_pos h]
  rfl

theorem scanByte_seek_full {c : Vector PackClass 8} {l : Lane} (b : Byte) {start : Nat} (hp : l.parser = .seek)
    (hlen : l.candidate.length = 63) (hstart : l.pendingLead = some start) : l.scanByte c b =
      Lane.takeCandidate c start (l.candidate ++ [b]) { l with cursor := (l.cursor + 1) % l.size } := by
  have h : ¬ (l.candidate ++ [b]).length < 64 := by simp; omega
  have hne : l.candidate ≠ [] := fun e => by simp [e] at hlen
  unfold Lane.scanByte
  rw [hp]
  dsimp only
  rw [if_neg (fun g => hne g.1), if_neg h, if_neg hne, hstart]
  rfl

/-- Past data or pad the lane is in LEAD at a 64-aligned cursor and in PAD otherwise (R30, R31). -/
theorem padOrLead_eq (l : Lane) : l.padOrLead = { l with parser := if l.cursor % 64 = 0 then .lead else .pad } := by
  unfold Lane.padOrLead
  split <;> rfl

theorem scanByte_pad {c : Vector PackClass 8} {l : Lane} (b : Byte) (hp : l.parser = .pad) : l.scanByte c b =
    ({ l with cursor := (l.cursor + 1) % l.size,
              parser := if (l.cursor + 1) % l.size % 64 = 0 then .lead else .pad }, none) := by
  unfold Lane.scanByte
  rw [hp]
  dsimp only
  rw [padOrLead_eq]

theorem scanByte_data_more {c : Vector PackClass 8} {l : Lane} (b : Byte) (hp : l.parser = .data) (hr : 1 < l.remaining) :
    l.scanByte c b =
      ({ l with cursor := (l.cursor + 1) % l.size, remaining := l.remaining - 1 }, some (.data b false)) := by
  unfold Lane.scanByte
  rw [hp]
  exact if_neg (by omega)

theorem scanByte_data_last {c : Vector PackClass 8} {l : Lane} (b : Byte) (hp : l.parser = .data) (hr : l.remaining = 1) :
    l.scanByte c b =
      ({ l with cursor := (l.cursor + 1) % l.size, remaining := 0,
                parser := if (l.cursor + 1) % l.size % 64 = 0 then .lead else .pad }, some (.data b true)) := by
  unfold Lane.scanByte
  rw [hp]
  dsimp only
  rw [if_pos (by omega), padOrLead_eq]

/-! ### One byte in the state -/

theorem parseBytes_one (t : Time) (k : LaneIx) (b : Byte) (s : State) : s.parseBytes t k [b] =
    (s.setLane k ((s.lane k).scanByte s.classes b).1).takeFound t k ((s.lane k).scanByte s.classes b).2 := rfl

/-- A byte that gives rise to nothing outside its lane. -/
theorem parseBytes_inLane {t : Time} {k : LaneIx} {b : Byte} {s : State} {l : Lane}
    (h : (s.lane k).scanByte s.classes b = (l, none)) : s.parseBytes t k [b] = s.setLane k l := by
  rw [parseBytes_one, h]
  rfl

/-- A byte that hands on a result. -/
theorem parseBytes_found {t : Time} {k : LaneIx} {b : Byte} {s : State} {l : Lane} {x : Option Found}
    (h : (s.lane k).scanByte s.classes b = (l, x)) : s.parseBytes t k [b] = (s.setLane k l).takeFound t k x := by
  rw [parseBytes_one, h]

/-- A data byte joins the received bytes and the data digest of the receiving member (R29, R60). -/
def Member.withByte (b : Byte) (r : Member) : Member :=
  { r with received := r.received + 1, dataDigest := r.dataDigest.byte b }

theorem takeData_eq {t : Time} {k : LaneIx} {b : Byte} {last : Bool} {s : State} {m : MemberIx}
    (h : (s.lane k).receiving = some m) : s.takeData t k b last =
      if last then (s.setMember m ((s.member m).withByte b)).completeMember t k m
      else s.setMember m ((s.member m).withByte b) := by
  rw [State.takeData, h]
  rfl

theorem parseBytes_data_more {t : Time} {k : LaneIx} {b : Byte} {s : State} {m : MemberIx} (hp : (s.lane k).parser = .data)
    (hm : (s.lane k).receiving = some m) (hr : 1 < (s.lane k).remaining) : s.parseBytes t k [b] =
      (s.setMember m ((s.member m).withByte b)).setLane k { s.lane k with
        cursor := ((s.lane k).cursor + 1) % (s.lane k).size, remaining := (s.lane k).remaining - 1 } := by
  rw [parseBytes_found (scanByte_data_more b hp hr), State.takeFound,
    takeData_eq (m := m) (by rw [State.lane_setLane_same]; exact hm)]
  rfl

theorem parseBytes_data_last {t : Time} {k : LaneIx} {b : Byte} {s : State} {m : MemberIx} (hp : (s.lane k).parser = .data)
    (hm : (s.lane k).receiving = some m) (hr : (s.lane k).remaining = 1) : s.parseBytes t k [b] =
      ((s.setMember m ((s.member m).withByte b)).setLane k { s.lane k with
        cursor := ((s.lane k).cursor + 1) % (s.lane k).size, remaining := 0
        parser := if ((s.lane k).cursor + 1) % (s.lane k).size % 64 = 0 then .lead else .pad }).completeMember t k m := by
  rw [parseBytes_found (scanByte_data_last b hp hr), State.takeFound,
    takeData_eq (m := m) (by rw [State.lane_setLane_same]; exact hm)]
  rfl

/-! ### The validation of leads -/

/-- The class byte of a lead names an enabled class (Table 2-3, test 4). -/
theorem enabledClass_of {classes : Vector PackClass 8} {n : Nat} {c : ClassIx} (hc : c.val = n)
    (he : classes[c].enabled = true) : enabledClass classes n = some c := by
  subst hc
  rw [enabledClass, classOf, dif_pos c.isLt]
  exact if_pos he

theorem enabledClass_none {classes : Vector PackClass 8} {n : Nat}
    (h : ∀ c : ClassIx, c.val = n → classes[c].enabled = false) : enabledClass classes n = none := by
  unfold enabledClass classOf
  split
  · rename_i c hc
    split at hc
    · cases hc
      exact if_neg (by rw [h _ rfl]; decide)
    · cases hc
  · rfl

theorem checkPasses_iff (b : List Byte) : checkPasses b = true ↔ wordSum b % 65536 = 0xFFFF := by
  simp [checkPasses]

end Sys2Proof.Machine

open Sys2Proof Sys2Proof.Machine

/-- Settles O16: the tests of Table 2-3 stand in `judgeLead` in their order. -/
theorem leadValidationOrder : Obligations.LeadValidationOrder := by
  unfold Obligations.LeadValidationOrder
  intro classes b
  refine ⟨fun hmark => if_pos hmark, fun hmark => ⟨fun hcheck => ?check, fun hcheck => ⟨fun h1 h2 => ?kind, fun hkind =>
    ⟨fun hdisabled => ?cls, fun c hc he => ⟨fun hlong => ?length, fun hlen =>
      ⟨fun h2 hn => ?sealLength, fun h2 hz => ?sealed, fun h1 => ?file⟩⟩⟩⟩⟩⟩
  all_goals
    rw [judgeLead, if_neg (show ¬ field b 0 4 ≠ Config.leadMark from not_not_intro hmark)]
  case check => exact if_pos (by simp [checkPasses, hcheck])
  all_goals
    have hpass : checkPasses b = true := (checkPasses_iff b).2 hcheck
    rw [if_neg (by simp [hpass])]
  case kind => exact if_pos ⟨h1, h2⟩
  all_goals rw [if_neg (by omega)]
  case cls => rw [enabledClass_none hdisabled]
  all_goals
    rw [enabledClass_of hc he]
    dsimp only
  case length => exact if_pos hlong
  all_goals rw [if_neg (by exact Nat.not_lt.2 hlen)]
  case sealLength => exact if_pos ⟨h2, hn⟩
  case sealed => rw [if_neg (by omega), if_neg (by omega)]
  case file => rw [if_neg (by omega), if_pos h1]

/-- Settles O15: the acceptance of a write is the parse of its bytes, its count and its place in the forwarding queue, and the
parser state at a byte says what the byte does. -/
theorem acceptedWriteIsParsedAndForwarded : Obligations.AcceptedWriteIsParsedAndForwarded := by
  unfold Obligations.AcceptedWriteIsParsedAndForwarded
  refine ⟨fun s k tag addr data h hhold hspace hleads => ?accepted, fun s t k w => rfl, fun s t k b bs =>
    ⟨rfl, rfl, fun hp => ⟨fun he => ?leadFirst, fun p hne hlen hpend => ?lead⟩, fun m hp hm => ⟨?dataMore, ?dataLast⟩,
      fun hp => parseBytes_inLane (scanByte_pad b hp),
      fun hp => ⟨fun he hoff => ?passed, fun he hoff => ?seekFirst, fun p hne hlen hpend => ?seek⟩⟩,
    fun s t k m => rfl⟩
  case accepted =>
    have hexec : exec (.upstreamRequest (.write tag addr data)) s =
        .next (s.acceptWrite s.clock k ⟨tag, addr, data⟩) := by
      rw [exec_inSequence h, if_pos hhold, if_pos ((accepts_iff s k data).2 ⟨hspace, hleads⟩)]
    have hparses := parses_acceptWrite s.clock k ⟨tag, addr, data⟩ s
    obtain ⟨-, -, hbytes, hothers, hforward, hcursor⟩ :=
      acceptWrite_lane s.clock k ⟨tag, addr, data⟩ s h.toreachesLane.data_ne_nil
    exact ⟨_, hexec, rfl, hcursor, hbytes, (hparses.hold k).trans hhold, hparses.holdDeadline k, hforward, hothers,
      hparses.slots, hparses.readyQueue, hparses.inFlight, hparses.viewReads, hparses.sent, hparses.bus.trans h.now.free,
      hparses.part.trans h.run, hparses.regions, hparses.clock⟩
  case leadFirst =>
    rw [parseBytes_inLane (scanByte_lead_collects b hp (by rw [he]; decide)), Lane.leadStart, if_pos he, he]
    rfl
  case lead =>
    rw [parseBytes_inLane (scanByte_lead_collects b hp hlen), Lane.leadStart, if_neg hne, hpend]
    dsimp only [Option.getD_some]
  case dataMore => exact parseBytes_data_more hp hm
  case dataLast => exact parseBytes_data_last hp hm
  case passed => exact parseBytes_inLane (scanByte_seek_passes b hp he hoff)
  case seekFirst =>
    rw [parseBytes_inLane (scanByte_seek_collects b hp (Or.inr hoff) (by rw [he]; decide)), Lane.leadStart, if_pos he, he]
    rfl
  case seek =>
    rw [parseBytes_inLane (scanByte_seek_collects b hp (Or.inl hne) hlen), Lane.leadStart, if_neg hne, hpend]
    dsimp only [Option.getD_some]
end

/-! ## Leads and member entries -/

section
namespace Sys2Proof.Machine

/-! ### The lowest FREE entry -/

/-- The gap search over a table whose indices all lie from `n` on: every entry before the gap is listed, the one at it is FREE,
and it is at most as many places on as the table is long. -/
theorem MemberTable.gap_spec {t : MemberTable} (h : t.wf = true) {n : Nat} (hn : ∀ x ∈ t, n ≤ x.1.val) :
    n ≤ t.gap n ∧ t.gap n ≤ n + t.length ∧ (∀ i : MemberIx, n ≤ i.val → i.val < t.gap n → t.get i ≠ {}) ∧
      ∀ i : MemberIx, i.val = t.gap n → t.get i = {} := by
  induction t generalizing n with
  | nil => exact ⟨le_rfl, le_rfl, fun i hlo hhi => absurd hhi (Nat.not_lt.2 hlo), fun _ _ => rfl⟩
  | cons y t ih =>
    obtain ⟨j, m⟩ := y
    obtain ⟨hm, hj, ht⟩ := (MemberTable.wf_cons j m t).1 h
    have hnj : n ≤ j.val := hn (j, m) List.mem_cons_self
    by_cases e : j.val = n
    · obtain ⟨hle, hlen, hlisted, hfree⟩ := ih ht (n := n + 1) fun x hx => e ▸ hj x hx
      have hgap : MemberTable.gap n ((j, m) :: t) = MemberTable.gap (n + 1) t := if_pos e
      have hget : ∀ i : MemberIx, n + 1 ≤ i.val → MemberTable.get ((j, m) :: t) i = MemberTable.get t i :=
        fun i hi => if_neg fun he => by rw [← he] at hi; omega
      rw [hgap]
      refine ⟨by omega, by rw [List.length_cons]; omega, fun i hlo hhi => ?_, fun i hi => ?_⟩
      · by_cases hin : i.val = n
        · have hij : j = i := Fin.ext (e.trans hin.symm)
          have hget : MemberTable.get ((j, m) :: t) i = m := if_pos hij
          rw [hget]
          exact hm
        · rw [hget i (by omega)]
          exact hlisted i (by omega) hhi
      · rw [hget i (by omega)]
        exact hfree i hi
    · have hgap : MemberTable.gap n ((j, m) :: t) = n := if_neg e
      rw [hgap]
      refine ⟨le_rfl, by omega, fun i hlo hhi => absurd hhi (Nat.not_lt.2 hlo), fun i hi => MemberTable.get_of_below fun x hx => ?_⟩
      rcases List.mem_cons.1 hx with rfl | hx
      · change i.val < j.val
        omega
      · have hjx : j.val < x.1.val := hj x hx
        change i.val < x.1.val
        omega

/-- The lowest FREE entry of a canonical table that is not full (R59). -/
theorem MemberTable.lowestFree_spec {t : MemberTable} (h : t.wf = true) (hroom : t.length < 4096) :
    ∃ m : MemberIx, t.lowestFree = some m ∧ t.get m = {} ∧ ∀ i : MemberIx, i < m → t.get i ≠ {} := by
  obtain ⟨-, hlen, hlisted, hfree⟩ := MemberTable.gap_spec h (n := 0) fun _ _ => Nat.zero_le _
  have hlt : t.gap 0 < 4096 := by omega
  exact ⟨⟨t.gap 0, hlt⟩, dif_pos hlt, hfree _ rfl, fun i hi => hlisted i (Nat.zero_le _) hi⟩

/-- The entry that is FREE and has none before it is the lowest FREE one (R59). -/
theorem MemberTable.lowestFree_eq {t : MemberTable} (h : t.wf = true) {m : MemberIx} (hm : t.get m = {})
    (hbelow : ∀ i : MemberIx, i < m → t.get i ≠ {}) : t.lowestFree = some m := by
  obtain ⟨-, -, hlisted, hfree⟩ := MemberTable.gap_spec h (n := 0) fun _ _ => Nat.zero_le _
  have hge : m.val ≥ t.gap 0 := Nat.not_lt.1 fun hlt => hlisted m (Nat.zero_le _) hlt hm
  have hlt : t.gap 0 < 4096 := Nat.lt_of_le_of_lt hge m.isLt
  have heq : t.gap 0 = m.val := by
    refine Nat.le_antisymm hge (Nat.not_lt.1 fun hlt' => ?_)
    exact hbelow ⟨t.gap 0, hlt⟩ hlt' (hfree _ rfl)
  exact (dif_pos hlt).trans (congrArg some (Fin.ext heq))

/-! ### A complete lead -/

/-- The lane with its collected bytes gone (R24, R33). -/
theorem clearLead_eq (l : Lane) : l.clearLead = { l with leadBuffer := [], candidate := [], pendingLead := none } := rfl

theorem afterFile_data {n : Nat} (h : n ≠ 0) (l : Lane) :
    l.afterFile n = { l.clearLead with parser := .data, remaining := n } := if_neg h

theorem afterFile_empty (l : Lane) : l.afterFile 0 = { l.clearLead with parser := .lead, remaining := 0 } := if_pos rfl

/-- A valid FILE lead of a lane with data to come (R25): the lowest FREE entry is RECEIVING. -/
theorem takeFile_data {t : Time} {k : LaneIx} {start : Nat} {lead : List Byte} {f : LeadFields} {s : State} {l : Lane}
    {m : MemberIx} (hm : s.members.lowestFree = some m) (hf : f.dataLength ≠ 0) :
    (s.setLane k l).takeFile t k start lead f = (s.setMember m (newMember t k start lead f)).setLane k
      { l with order := l.order ++ [m], receiving := some m } := by
  rw [State.takeFile, State.setLane_members, hm]
  dsimp only
  rw [if_neg hf]
  simp [State.mapLane, State.setLane, State.lane, State.setMember]

/-- A valid FILE lead of data length 0: its member completes at once (R26). -/
theorem takeFile_empty {t : Time} {k : LaneIx} {start : Nat} {lead : List Byte} {f : LeadFields} {s : State} {l : Lane}
    {m : MemberIx} (hm : s.members.lowestFree = some m) (hf : f.dataLength = 0) :
    (s.setLane k l).takeFile t k start lead f = ((s.setMember m (newMember t k start lead f)).setLane k
      { l with order := l.order ++ [m] }).completeMember t k m := by
  rw [State.takeFile, State.setLane_members, hm]
  dsimp only
  rw [if_pos hf]
  congr 1
  simp [State.mapLane, State.setLane, State.lane, State.setMember]

theorem resyncIf_setLane (t : Time) (k : LaneIx) (start : Nat) (resync : Bool) (l : Lane) (s : State) :
    (s.setLane k l).resyncIf t k start resync = (s.resyncIf t k start resync).setLane k l := by
  cases resync
  · rfl
  · exact raise_setLane t _ k l s

theorem resyncIf_members (t : Time) (k : LaneIx) (start : Nat) (resync : Bool) (s : State) :
    (s.resyncIf t k start resync).members = s.members := by
  cases resync
  · rfl
  · exact State.raise_members s t _

/-- What the 64th byte of a valid lead `lead` of lane `k`, begun at `start`, does to `s`; `u` is `s` with RESYNC raised where
the lead was found in SEEK (R25 to R27, R33). -/
structure LeadTaken (s u : State) (t : Time) (k : LaneIx) (b : Byte) (start : Nat) (lead : List Byte) (cleared : Lane) :
    Prop where
  data : ∀ (f : LeadFields) (m : MemberIx), judgeLead s.classes lead = .file f → s.members.lowestFree = some m →
    f.dataLength ≠ 0 → s.parseBytes t k [b] = (u.setMember m (newMember t k start lead f)).setLane k
      { cleared with parser := .data, remaining := f.dataLength, receiving := some m, order := cleared.order ++ [m] }
  empty : ∀ (f : LeadFields) (m : MemberIx), judgeLead s.classes lead = .file f → s.members.lowestFree = some m →
    f.dataLength = 0 → s.parseBytes t k [b] = ((u.setMember m (newMember t k start lead f)).setLane k
      { cleared with parser := .lead, remaining := 0, order := cleared.order ++ [m] }).completeMember t k m
  sealed : ∀ c : ClassIx, judgeLead s.classes lead = .seal c → s.parseBytes t k [b] =
    (u.setLane k { cleared with parser := .lead }).sealClassPack t .lead c
  unsealed : ∀ c : ClassIx, judgeLead s.classes lead = .seal c → s.openPackOf c = none →
    s.parseBytes t k [b] = u.setLane k { cleared with parser := .lead }

/-- The OPEN pack of a class is read from the pack table alone (R97). -/
theorem openPackOf_congr {s u : State} (h : u.packs = s.packs) (c : ClassIx) : u.openPackOf c = s.openPackOf c := by
  have hpack : ∀ d, u.pack d = s.pack d := fun d => by rw [State.pack, h]; rfl
  unfold State.openPackOf
  simp only [hpack]

/-- A byte whose lane hands on the lead it completes, from LEAD or from SEEK. -/
theorem leadTaken_of_scan {s : State} {t : Time} {k : LaneIx} {b : Byte} {start : Nat} {lead : List Byte} {l : Lane}
    {resync : Bool}
    (hfile : ∀ f, judgeLead s.classes lead = .file f →
      (s.lane k).scanByte s.classes b = (l.afterFile f.dataLength, some (.file start lead f resync)))
    (hseal : ∀ c, judgeLead s.classes lead = .seal c →
      (s.lane k).scanByte s.classes b = ({ l.clearLead with parser := .lead }, some (.seal start c resync))) :
    LeadTaken s (s.resyncIf t k start resync) t k b start lead l.clearLead where
  data := fun f m hj hm hf => by
    rw [parseBytes_found (hfile f hj), State.takeFound, resyncIf_setLane,
      takeFile_data (by rw [resyncIf_members]; exact hm) hf, afterFile_data hf]
  empty := fun f m hj hm hf => by
    rw [parseBytes_found (hfile f hj), State.takeFound, resyncIf_setLane,
      takeFile_empty (by rw [resyncIf_members]; exact hm) hf, hf, afterFile_empty]
  sealed := fun c hj => by
    rw [parseBytes_found (hseal c hj), State.takeFound, resyncIf_setLane]
  unsealed := fun c hj hnone => by
    have hpacks : ((s.resyncIf t k start resync).setLane k { l.clearLead with parser := .lead }).packs = s.packs := by
      cases resync
      · rfl
      · exact State.raise_packs s t _
    rw [parseBytes_found (hseal c hj), State.takeFound, resyncIf_setLane,
      sealClassPack_none t .lead ((openPackOf_congr hpacks c).trans hnone)]

/-- The lane with the byte passed and its collected bytes gone. -/
def Lane.passedCleared (l : Lane) : Lane := Lane.clearLead { l with cursor := (l.cursor + 1) % l.size }

/-- The 64th byte of a lead in LEAD (R24 to R27). -/
theorem leadTaken_lead {s : State} {k : LaneIx} {b : Byte} {front : List Byte} {start : Nat} (t : Time)
    (hlen : front.length = 63) (hstart : (s.lane k).pendingLead = some start) (hp : (s.lane k).parser = .lead)
    (hbuf : (s.lane k).leadBuffer = front) :
    LeadTaken s s t k b start (front ++ [b]) (s.lane k).passedCleared := by
  subst hbuf
  have hscan := scanByte_lead_full (c := s.classes) b hp hlen hstart
  refine leadTaken_of_scan (resync := false) (fun f hj => ?_) fun c hj => ?_
  · rw [hscan, Lane.takeLead, hj]
  · rw [hscan, Lane.takeLead, hj]

/-- The 64th byte of a candidate in SEEK (R33). -/
theorem leadTaken_seek {s : State} {k : LaneIx} {b : Byte} {front : List Byte} {start : Nat} (t : Time)
    (hlen : front.length = 63) (hstart : (s.lane k).pendingLead = some start) (hp : (s.lane k).parser = .seek)
    (hbuf : (s.lane k).candidate = front) :
    LeadTaken s (s.raise t (.resync k start)) t k b start (front ++ [b]) (s.lane k).passedCleared := by
  subst hbuf
  have hscan := scanByte_seek_full (c := s.classes) b hp hlen hstart
  refine leadTaken_of_scan (resync := true) (fun f hj => ?_) fun c hj => ?_
  · rw [hscan, Lane.takeCandidate, hj]
  · rw [hscan, Lane.takeCandidate, hj]

/-- The 64th byte of a lead that fails (R28, R34). -/
theorem parseBytes_badLead {s : State} {t : Time} {k : LaneIx} {b : Byte} {front : List Byte} {start : Nat} {r : LeadReason}
    (hlen : front.length = 63) (hstart : (s.lane k).pendingLead = some start) (hp : (s.lane k).parser = .lead)
    (hbuf : (s.lane k).leadBuffer = front) (hj : judgeLead s.classes (front ++ [b]) = .bad r) :
    s.parseBytes t k [b] = (s.setLane k { (s.lane k).passedCleared with
      parser := .seek, receiving := none, remaining := 0
      counts := { (s.lane k).counts with leadFaults := satAdd (s.lane k).counts.leadFaults 1 } }).raise t
        (.leadFault k start r) := by
  subst hbuf
  have hscan : (s.lane k).scanByte s.classes b =
      (Lane.enterSeek { s.lane k with cursor := ((s.lane k).cursor + 1) % (s.lane k).size }, some (.fault start r)) := by
    rw [scanByte_lead_full (c := s.classes) b hp hlen hstart, Lane.takeLead, hj]
  rw [parseBytes_found hscan, State.takeFound, raise_setLane, raise_setLane, State.mapLane, State.lane_setLane_same]
  simp [State.setLane, Lane.count, Lane.enterSeek, Lane.passedCleared, Lane.clearLead]

/-- The 64th byte of a candidate that fails (R33). -/
theorem parseBytes_badCandidate {s : State} {t : Time} {k : LaneIx} {b : Byte} {front : List Byte} {start : Nat}
    {r : LeadReason} (hlen : front.length = 63) (hstart : (s.lane k).pendingLead = some start)
    (hp : (s.lane k).parser = .seek) (hbuf : (s.lane k).candidate = front)
    (hj : judgeLead s.classes (front ++ [b]) = .bad r) :
    s.parseBytes t k [b] = s.setLane k (s.lane k).passedCleared := by
  subst hbuf
  refine parseBytes_inLane ?_
  rw [scanByte_seek_full (c := s.classes) b hp hlen hstart, Lane.takeCandidate, hj]
  rfl

/-! ### The first 63 bytes of a lead -/

theorem parseBytes_append (t : Time) (k : LaneIx) (xs ys : List Byte) (s : State) :
    s.parseBytes t k (xs ++ ys) = (s.parseBytes t k xs).parseBytes t k ys := by
  induction xs generalizing s with
  | nil => rfl
  | cons x xs ih => exact ih _

/-- The lead count of bytes parsed one part after the other (R35). -/
theorem leadCount_append (t : Time) (k : LaneIx) (xs ys : List Byte) (s : State) :
    (s.lane k).leadCount s.classes (xs ++ ys) = (s.lane k).leadCount s.classes xs +
      ((s.parseBytes t k xs).lane k).leadCount (s.parseBytes t k xs).classes ys := by
  induction xs generalizing s with
  | nil => exact (Nat.zero_add _).symm
  | cons x xs ih =>
    rw [List.cons_append, leadCount_cons s t k x (xs ++ ys), leadCount_cons s t k x xs, ih (s.parseBytes t k [x]),
      Nat.add_assoc]
    rfl

/-- The lead count of one byte is at most 1 (R35). -/
theorem leadCount_one_le (l : Lane) (c : Vector PackClass 8) (b : Byte) : l.leadCount c [b] ≤ 1 := by
  rw [Lane.leadCount, Lane.leadCount]
  split <;> decide

theorem setLane_setLane (s : State) (k : LaneIx) (a b : Lane) : (s.setLane k a).setLane k b = s.setLane k b := by
  simp [State.setLane]

/-- Up to 63 bytes of a lead from a lead boundary are collected, and no FILE lead is counted (R24, R35). -/
theorem parseBytes_collected (t : Time) (k : LaneIx) (front : List Byte) {s : State} (hp : (s.lane k).parser = .lead)
    (he : (s.lane k).leadBuffer = []) (hne : front ≠ []) (hlen : front.length ≤ 63) :
    (∃ c, s.parseBytes t k front = s.setLane k { s.lane k with
      cursor := c, leadBuffer := front, pendingLead := some (s.lane k).cursor }) ∧
    (s.lane k).leadCount s.classes front = 0 := by
  induction front using List.reverseRecOn with
  | nil => exact absurd rfl hne
  | append_singleton xs b ih =>
    rw [List.length_append, List.length_singleton] at hlen
    by_cases hx : xs = []
    · have hscan := scanByte_lead_collects (c := s.classes) b hp (by rw [he]; decide)
      rw [he, Lane.leadStart, if_pos rfl] at hscan
      subst hx
      refine ⟨⟨_, parseBytes_inLane hscan⟩, ?_⟩
      rw [List.nil_append, leadCount_cons s t k b [], hscan]
      rfl
    · obtain ⟨⟨c, hparse⟩, hcount⟩ := ih hx (by omega)
      rw [parseBytes_append, leadCount_append t, hcount, Nat.zero_add, hparse]
      generalize hl : ({ s.lane k with cursor := c, leadBuffer := xs, pendingLead := some (s.lane k).cursor } : Lane) = l
      have hlane : (s.setLane k l).lane k = l := State.lane_setLane_same s k l
      have hscan := scanByte_lead_collects (c := s.classes) (l := l) b (by rw [← hl]; exact hp) (by rw [← hl]; exact hlen)
      have hstart : l.leadStart l.leadBuffer = (s.lane k).cursor := by
        rw [← hl]
        exact if_neg hx
      rw [hstart] at hscan
      constructor
      · refine ⟨(l.cursor + 1) % l.size, ?_⟩
        rw [parseBytes_inLane (l := { l with
          cursor := (l.cursor + 1) % l.size, leadBuffer := l.leadBuffer ++ [b], pendingLead := some (s.lane k).cursor })
          (by rw [hlane]; exact hscan), setLane_setLane, ← hl]
      · rw [leadCount_cons _ t k b [], hlane]
        have hnone : (l.scanByte (s.setLane k l).classes b).2 = none := congrArg Prod.snd hscan
        rw [hnone]
        rfl

/-- The lane of an accepted write is the lane after its parse, the bytes counted (R46). -/
theorem acceptWrite_laneSelf (t : Time) (k : LaneIx) (w : HeldWrite) (s : State) : (s.acceptWrite t k w).lane k =
    ((s.parseBytes t k w.data).lane k).count
      (fun c => { c with bytesAccepted := satAdd c.bytesAccepted w.data.length }) :=
  State.lane_setLane_same _ k _

/-- A whole valid FILE lead with data to come, from a lead boundary (R25). -/
theorem parseBytes_wholeLead {s : State} (t : Time) {k : LaneIx} {front : List Byte} {b : Byte} {f : LeadFields}
    {m : MemberIx} (hp : (s.lane k).parser = .lead) (hbuf : (s.lane k).leadBuffer = []) (hlen : front.length = 63)
    (hfree : s.members.lowestFree = some m) (hjudge : judgeLead s.classes (front ++ [b]) = .file f)
    (hdata : f.dataLength ≠ 0) :
    (∃ c, s.parseBytes t k (front ++ [b]) =
      (s.setMember m (newMember t k (s.lane k).cursor (front ++ [b]) f)).setLane k { (s.lane k).clearLead with
        cursor := c, parser := .data, remaining := f.dataLength, receiving := some m, order := (s.lane k).order ++ [m] }) ∧
    (s.lane k).leadCount s.classes (front ++ [b]) ≤ 1 := by
  have hne : front ≠ [] := fun e => by simp [e] at hlen
  obtain ⟨⟨c, hfront⟩, hcount⟩ := parseBytes_collected t k front hp hbuf hne (by omega)
  rw [parseBytes_append, leadCount_append t, hcount, Nat.zero_add, hfront]
  refine ⟨?_, leadCount_one_le _ _ b⟩
  generalize hl : ({ s.lane k with cursor := c, leadBuffer := front, pendingLead := some (s.lane k).cursor } : Lane) = l
  have hlane : (s.setLane k l).lane k = l := State.lane_setLane_same s k l
  have taken := leadTaken_lead (s := s.setLane k l) (k := k) (b := b) (front := front) (start := (s.lane k).cursor) t hlen
    (by rw [hlane, ← hl]) (by rw [hlane, ← hl]; exact hp) (by rw [hlane, ← hl])
  refine ⟨(l.cursor + 1) % l.size, ?_⟩
  rw [taken.data f m hjudge hfree hdata, hlane, ← hl]
  simp [State.setLane, State.setMember, Lane.passedCleared, Lane.clearLead]

end Sys2Proof.Machine

open Sys2Proof Sys2Proof.Machine

/-- Settles O17: the first 63 bytes of a lead are collected in the lane, and its 64th is judged there; what it gives rise to is
taken on the state with the lane's buffers empty. -/
theorem fileLeadTakesLowestFreeEntry : Obligations.FileLeadTakesLowestFreeEntry := by
  unfold Obligations.FileLeadTakesLowestFreeEntry
  constructor
  · intro s k tag addr lead f h hcanon hhold hspace hroom hp hbuf hlen hjudge hdata
    obtain ⟨m, hfree, hm, hbelow⟩ := MemberTable.lowestFree_spec hcanon hroom
    obtain ⟨front, b, rfl⟩ : ∃ front b, lead = front ++ [b] :=
      (List.eq_nil_or_concat lead).resolve_left (fun e => by simp [e] at hlen) |>.imp fun front ⟨b, e⟩ => ⟨b, by simpa using e⟩
    have hfront : front.length = 63 := by simpa using hlen
    obtain ⟨⟨c, hparse⟩, hcount⟩ := parseBytes_wholeLead s.clock (b := b) hp hbuf hfront hfree hjudge hdata
    have haccepts : s.accepts k (front ++ [b]) = true := (accepts_iff s k _).2 ⟨by rw [hlen]; exact hspace, by
      have hentries : 1 ≤ s.members.freeCount := by rw [MemberTable.freeCount]; omega
      exact hcount.trans hentries⟩
    have hexec : exec (.upstreamRequest (.write tag addr (front ++ [b]))) s =
        .next (s.acceptWrite s.clock k ⟨tag, addr, front ++ [b]⟩) := by
      rw [exec_inSequence h, if_pos hhold, if_pos haccepts]
    have hlane := acceptWrite_laneSelf s.clock k ⟨tag, addr, front ++ [b]⟩ s
    have hmembers : ∀ i, (s.acceptWrite s.clock k ⟨tag, addr, front ++ [b]⟩).member i =
        if i = m then newMember s.clock k (s.lane k).cursor (front ++ [b]) f else s.member i := fun i => by
      refine Eq.trans ?_ (MemberTable.get_put hcanon m i _)
      exact congrArg (fun u : State => u.member i) hparse
    have hpacks : (s.acceptWrite s.clock k ⟨tag, addr, front ++ [b]⟩).packs = s.packs := by
      have h := congrArg State.packs hparse
      exact h
    have hevents : (s.acceptWrite s.clock k ⟨tag, addr, front ++ [b]⟩).events = s.events := by
      have h := congrArg State.events hparse
      exact h
    rw [hparse, State.lane_setLane_same] at hlane
    refine ⟨_, m, hexec, hm, hbelow, (hmembers m).trans (if_pos rfl), fun i hi => (hmembers i).trans (if_neg hi),
      by rw [hlane]; rfl, by rw [hlane]; rfl, by rw [hlane]; rfl, by rw [hlane]; rfl, by rw [hlane]; rfl, by rw [hlane]; rfl,
      hpacks, hevents⟩
  · intro s t k b front start
    dsimp only
    intro hlen hstart
    have free : ∀ {m : MemberIx}, s.membersCanonical → s.member m = {} → (∀ i : MemberIx, i < m → s.member i ≠ {}) →
        s.members.lowestFree = some m := fun hc hm hb => MemberTable.lowestFree_eq hc hm hb
    refine ⟨fun hp hbuf => ⟨?lead, fun r hj => parseBytes_badLead hlen hstart hp hbuf hj⟩,
      fun hp hbuf => ⟨?seek, fun r hj => parseBytes_badCandidate hlen hstart hp hbuf hj⟩⟩
    case lead =>
      have taken := leadTaken_lead (b := b) t hlen hstart hp hbuf
      exact ⟨fun f m hj hc hm hb => ⟨taken.data f m hj (free hc hm hb), taken.empty f m hj (free hc hm hb)⟩,
        taken.sealed, taken.unsealed⟩
    case seek =>
      have taken := leadTaken_seek (b := b) t hlen hstart hp hbuf
      exact ⟨fun f m hj hc hm hb => ⟨taken.data f m hj (free hc hm hb), taken.empty f m hj (free hc hm hb)⟩,
        taken.sealed, taken.unsealed⟩
end

/-! ## The Pack Assembler -/

section
namespace Sys2Proof.Machine

/-! ### Section and body digests -/

/-- The section digest of a member is that of its lead, its data and its pad (R72). -/
theorem formSection_eq {m : Member} {lead data : List Byte} (hl : m.leadDigest = Digest.ofBytes lead)
    (hd : m.dataDigest = Digest.ofBytes data) (hn : data.length = m.dataLength) :
    m.formSection = Digest.ofBytes (lead ++ data ++ zeroBytes (roundUp 64 m.dataLength - m.dataLength)) := by
  have hz : ∀ n, (Digest.ofBytes (lead ++ data)).zeros n = Digest.ofBytes (lead ++ data ++ zeroBytes n) := fun n => by
    have h := Digest.ofBytes_append (lead ++ data) (zeroBytes n)
    rw [zeroBytes_length, Digest.ofBytes_zeroBytes] at h
    exact h
  rw [Member.formSection, hl, hd, ← hn, Digest.ofBytes_append, hz]

/-- Adding a member appends its section to the pack's body (R80, R86). -/
theorem withMember_digest {tb : Nat} {i : MemberIx} {m : Member} {p : Pack} {body sec : List Byte}
    (hp : p.digest = Digest.ofBytes body) (hm : m.sectionDigest = Digest.ofBytes sec)
    (hlen : sec.length = sectionLength m.dataLength) : (p.withMember tb i m).digest = Digest.ofBytes (body ++ sec) := by
  change p.digest.append m.sectionDigest (sectionLength m.dataLength) = _
  rw [hp, hm, ← hlen, Digest.ofBytes_append]

/-! ### The OPEN pack of a class -/

theorem openPackOf_none_iff (s : State) (c : ClassIx) :
    s.openPackOf c = none ↔ ∀ d : PackIx, ¬ ((s.pack d).state = .opened ∧ (s.pack d).cls = c) := by
  unfold State.openPackOf
  rw [List.find?_eq_none]
  simp [mem_allPacks]

theorem openPackOf_some {s : State} {c : ClassIx} {d : PackIx} (h : s.openPackOf c = some d) :
    (s.pack d).state = .opened ∧ (s.pack d).cls = c := by
  have hfound := List.find?_some h
  simpa using hfound

theorem sealClassPack_some {s : State} {c : ClassIx} {d : PackIx} (t : Time) (x : SealCause) (h : s.openPackOf c = some d) :
    s.sealClassPack t x c = s.sealPack t x d := by
  rw [State.sealClassPack, h]

/-! ### The lowest FREE record -/

theorem freePack_none {s : State} (h : ∀ d : PackIx, (s.pack d).state ≠ .free) : s.freePack = none := by
  unfold State.freePack
  rw [List.find?_eq_none]
  exact fun d _ => by simpa using h d

/-- The record that is FREE and has none before it is the lowest FREE one (R98). -/
theorem freePack_some {s : State} {d : PackIx} (hd : (s.pack d).state = .free)
    (hbelow : ∀ e : PackIx, e < d → (s.pack e).state ≠ .free) : s.freePack = some d := by
  unfold State.freePack allPacks
  rw [List.find?_eq_some_iff_getElem]
  refine ⟨by simpa using hd, d.val, by simp, by simp, fun j hj => ?_⟩
  simpa using hbelow ⟨j, by omega⟩ hj

/-! ### Completion -/

theorem closeIfDisabled_eq {s u : State} (h : u.classes = s.classes) (t : Time) (c : ClassIx) :
    u.closeIfDisabled t c = if (s.cls c).enabled then u else u.sealClassPack t .classClosed c := by
  have hc : u.cls c = s.cls c := by rw [State.cls, h]; rfl
  rw [State.closeIfDisabled, hc]

/-- A completed member, by its place: behind a waiting one, in its class's OPEN pack, or in a new one (R97). -/
def State.placeMember (s : State) (t : Time) (m : MemberIx) (c : ClassIx) : State :=
  if s.classWaits c then s.joinWaitList t m c
  else match s.openPackOf c with
    | some d =>
        if (s.pack d).fits s.tapeBlock (s.member m).dataLength then s.addMember t m d
        else (s.sealPack t .size d).newPackFor t m c
    | none => s.newPackFor t m c

theorem placeMember_classes (s : State) (t : Time) (m : MemberIx) (c : ClassIx) :
    (s.placeMember t m c).classes = s.classes := by
  unfold State.placeMember
  split
  · exact (assembles_joinWaitList t m c s).classes
  · split
    · split
      · exact (assembles_addMember t m _ s).classes
      · exact ((assembles_sealPack t .size _ s).trans (assembles_newPackFor t m c _)).classes
    · exact (assembles_newPackFor t m c s).classes

/-- A completion ends with a disabled class left without an OPEN pack (R93, R98). -/
theorem assemble_eq {s : State} {m : MemberIx} {c : ClassIx} (t : Time) (hc : c = (s.member m).cls) : s.assemble t m =
    if (s.cls c).enabled then s.placeMember t m c else (s.placeMember t m c).sealClassPack t .classClosed c := by
  subst hc
  exact closeIfDisabled_eq (placeMember_classes s t m _) t _

theorem classWaits_iff (s : State) (c : ClassIx) : s.classWaits c = true ↔ ∃ w ∈ s.waitList, (s.member w).cls = c := by
  simp [State.classWaits]

theorem placeMember_behind {s : State} {t : Time} {m : MemberIx} {c : ClassIx}
    (h : ∃ w ∈ s.waitList, (s.member w).cls = c) : s.placeMember t m c = s.joinWaitList t m c :=
  if_pos ((classWaits_iff s c).2 h)

theorem placeMember_new {s : State} {t : Time} {m : MemberIx} {c : ClassIx}
    (h : ¬ ∃ w ∈ s.waitList, (s.member w).cls = c) (ho : s.openPackOf c = none) :
    s.placeMember t m c = s.newPackFor t m c := by
  rw [State.placeMember, if_neg (mt (classWaits_iff s c).1 h), ho]

theorem placeMember_open {s : State} {t : Time} {m : MemberIx} {c : ClassIx} {d : PackIx}
    (h : ¬ ∃ w ∈ s.waitList, (s.member w).cls = c) (ho : s.openPackOf c = some d) : s.placeMember t m c =
      if (s.pack d).fits s.tapeBlock (s.member m).dataLength then s.addMember t m d
      else (s.sealPack t .size d).newPackFor t m c := by
  rw [State.placeMember, if_neg (mt (classWaits_iff s c).1 h), ho]

/-- The admission projection in numbers (R77, R81). -/
theorem fits_iff (tb : Nat) (p : Pack) (x : Nat) : p.fits tb x = true ↔
    roundUp tb (1024 + (p.body + (64 + roundUp 64 x)) + 64 * (p.members.length + 1)) ≤ p.target * 1048576 := by
  rw [Pack.fits]
  exact decide_eq_true_iff

/-- The wait list a member joins (R99). -/
theorem joinWaitList_first {s : State} (t : Time) (m : MemberIx) (c : ClassIx) (h : s.waitList = []) :
    s.joinWaitList t m c =
      State.raise t (.waiting m c)
        { s.setMember m { s.member m with state := .waiting } with waitList := s.waitList ++ [m] } := by
  unfold State.joinWaitList
  dsimp only
  rw [if_pos h]
  unfold State.raise
  dsimp only
  split <;> rfl

theorem joinWaitList_more {s : State} (t : Time) (m : MemberIx) (c : ClassIx) (h : s.waitList ≠ []) :
    s.joinWaitList t m c = { s.setMember m { s.member m with state := .waiting } with waitList := s.waitList ++ [m] } := by
  unfold State.joinWaitList
  dsimp only
  rw [if_neg h]

/-- The state with member `m` added to pack `d`, before the tests that end an add (R98). -/
def State.withAdded (m : MemberIx) (d : PackIx) (s : State) : State :=
  (s.setPack d ((s.pack d).withMember s.tapeBlock m (s.member m))).setMember m { s.member m with
    state := .packed, packRecord := some d, sectionOffset := some (512 + (s.pack d).body) }

theorem addMember_eq (t : Time) (m : MemberIx) (d : PackIx) (s : State) :
    s.addMember t m d = (s.withAdded m d).sealIfFull t d := rfl

theorem pack_withAdded (m : MemberIx) (d : PackIx) (s : State) :
    (s.withAdded m d).pack d = (s.pack d).withMember s.tapeBlock m (s.member m) := State.pack_setPack_same s d _

end Sys2Proof.Machine

open Sys2Proof Sys2Proof.Machine

/-- Settles O19: digests are appended as their bytes are, a completed member is placed by the tests of R97 in order, and a seal
is `SealedIn`. -/
theorem sectionAndBodyDigests : Obligations.SectionAndBodyDigests := by
  unfold Obligations.SectionAndBodyDigests
  refine ⟨fun m lead data => formSection_eq, fun tb i m p body sec hp hm hlen => ?body, fun tb i m p => ?times,
    fun s t m c hc => ⟨fun hb => ?behind, fun hb ho => ?new, fun d hb ho => ⟨fun hf => ?fits, fun hf => ?full⟩⟩,
    fun s t m c => ⟨openPackOf_none_iff s c, fun d => openPackOf_some, fun x => sealClassPack_none t x,
      fun d x => sealClassPack_some t x, fun hn => ?waits, fun d => ⟨rfl, fun hd hbelow => ?opens⟩,
      joinWaitList_more t m c, joinWaitList_first t m c⟩,
    fun s t m d => ⟨fun hsize => ?size, fun hsize hcap => ?count, fun hsize hcap => ?room⟩,
    fun s t d x => sealPack_sealedIn t x d s,
    fun s t d => ⟨sealPack_counters .., sealPack_counters .., sealPack_counters .., sealPack_counters .., sealPack_counters ..,
      sealPack_counters .., sealPack_counters .., fun x => sealPack_counters t x d s, fun n => satAdd_toNat n 1⟩⟩
  case body =>
    have hbody : (p.withMember tb i m).body = p.body + sec.length := by rw [hlen]; rfl
    exact ⟨withMember_digest hp hm hlen, hbody, rfl, by rw [hlen]; rfl⟩
  case times => simp [Pack.withMember, List.length_eq_zero_iff]
  case behind =>
    dsimp only
    rw [assemble_eq t hc, placeMember_behind hb]
  case new =>
    dsimp only
    rw [assemble_eq t hc, placeMember_new hb ho]
  case fits =>
    dsimp only
    rw [assemble_eq t hc, placeMember_open hb ho, if_pos ((fits_iff ..).2 hf)]
  case full =>
    dsimp only
    rw [assemble_eq t hc, placeMember_open hb ho, if_neg (mt (fits_iff ..).1 hf)]
  case waits => rw [State.newPackFor, freePack_none hn]
  case opens => rw [State.newPackFor, freePack_some hd hbelow]
  case size =>
    rw [addMember_eq, State.sealIfFull, pack_withAdded, if_pos (by exact hsize)]
    rfl
  case count =>
    rw [addMember_eq, State.sealIfFull, pack_withAdded, if_neg (by exact Nat.not_lt.2 hsize), if_pos (by exact hcap)]
    rfl
  case room =>
    rw [addMember_eq, State.sealIfFull, pack_withAdded, if_neg (by exact Nat.not_lt.2 hsize),
      if_neg (by exact Nat.not_le.2 hcap)]
    rfl
end

/-! ## The units of a commit -/

section
namespace Sys2Proof.Machine

/-! ### Records read field by field -/

/-- From offset `o` on, the bytes are fields of the given sizes that hold the given values modulo their range, and then the
bytes `rest`. -/
def ReadsAt (bytes : List Byte) : Nat → List (Nat × Nat) → List Byte → Prop
  | o, [], rest => bytes.drop o = rest
  | o, (n, v) :: l, rest => field bytes o n = v % 256 ^ n ∧ ReadsAt bytes (o + n) l rest

/-- Bytes written field by field read back as those fields. -/
theorem readsAt_of_drop_eq {bytes rest : List Byte} {l : List (Nat × Nat)} {o : Nat}
    (h : bytes.drop o = fieldBytes l ++ rest) : ReadsAt bytes o l rest := by
  induction l generalizing o with
  | nil => exact h
  | cons x l ih =>
    obtain ⟨n, v⟩ := x
    rw [fieldBytes_cons, List.append_assoc] at h
    refine ⟨?_, ih ?_⟩
    · calc field bytes o n = field (bytes.drop o) 0 n := rfl
        _ = v % 256 ^ n := by rw [h, field_front]
    · rw [← List.drop_drop, h, List.drop_left' (le_length n v)]

theorem readsAt_of_eq {bytes rest : List Byte} {l : List (Nat × Nat)} (h : bytes = fieldBytes l ++ rest) :
    ReadsAt bytes 0 l rest := readsAt_of_drop_eq (by rw [List.drop_zero, h])

/-- A word is read back whole from a field of its size. -/
theorem toNat_mod_byte (b : Byte) : b.toNat % 256 ^ 1 = b.toNat := Nat.mod_eq_of_lt b.isLt
theorem toNat_mod_half (v : BitVec 16) : v.toNat % 256 ^ 2 = v.toNat := Nat.mod_eq_of_lt v.isLt
theorem toNat_mod_word (v : Word32) : v.toNat % 256 ^ 4 = v.toNat := Nat.mod_eq_of_lt v.isLt
theorem toNat_mod_time (v : Time) : v.toNat % 256 ^ 8 = v.toNat := Nat.mod_eq_of_lt (v.isLt.trans (by decide))
theorem toNat_mod_name (v : BitVec 128) : v.toNat % 256 ^ 16 = v.toNat := Nat.mod_eq_of_lt v.isLt

theorem ofNat_byte_eq (n : Nat) : [BitVec.ofNat 8 n] = le 1 n := rfl

/-! ### The header, the index entry and the trailer -/

/-- The fields of a pack header (Table 11-3). -/
def headerFields (formerId : BitVec 16) (tb : Nat) (p : Pack) : List (Nat × Nat) :=
  [(4, Config.headerMark), (2, 1), (2, formerId.toNat), (4, p.serial.toNat), (1, p.cls.val), (1, p.retention.toNat),
    (1, sealCode p.cause), (1, 0), (4, p.members.length), (4, p.projected), (4, 512 + p.body), (4, p.projected - 512), (4, tb),
    (4, 0), (8, p.openTime.toNat), (8, p.firstDone.toNat), (8, p.lastDone.toNat), (8, p.sealTime.toNat)]

theorem headerBytes_eq (formerId : BitVec 16) (tb : Nat) (p : Pack) :
    headerBytes formerId tb p = fieldBytes (headerFields formerId tb p) ++ zeroBytes 440 := by
  have hfour : [BitVec.ofNat 8 p.cls.val, p.retention, BitVec.ofNat 8 (sealCode p.cause), (0 : Byte)] =
      le 1 p.cls.val ++ (le 1 p.retention.toNat ++ (le 1 (sealCode p.cause) ++ le 1 0)) := by
    rw [le_byte]
    rfl
  simp only [headerBytes, headerFields, hfour, fieldBytes_cons, fieldBytes_nil, zeroBytes_eq 4, List.append_assoc,
    List.nil_append]

theorem headerBytes_length (formerId : BitVec 16) (tb : Nat) (p : Pack) : (headerBytes formerId tb p).length = 512 := by
  simp [headerBytes]

theorem sealCode_lt (c : Option SealCause) : sealCode c < 256 := by
  rcases c with - | c
  · decide
  · cases c <;> decide

/-- The fields of an index entry (Table 11-4). -/
def indexFields (m : Member) : List (Nat × Nat) :=
  [(16, m.nameDigest.toNat), (4, m.dataset.toNat), (4, m.producerSeq.toNat), (4, m.sectionOffset.getD 0), (4, m.dataLength),
    (4, m.dataDigest.a.toNat), (4, m.dataDigest.b.toNat), (8, m.doneTime.toNat), (1, m.lane.val), (1, m.cls.val), (6, 0),
    (8, m.leadTime.toNat)]

theorem indexEntry_eq (m : Member) : indexEntry m = fieldBytes (indexFields m) ++ [] := by
  have htwo : [BitVec.ofNat 8 m.lane.val, BitVec.ofNat 8 m.cls.val] = le 1 m.lane.val ++ le 1 m.cls.val := rfl
  simp only [indexEntry, indexFields, Digest.bytes, htwo, fieldBytes_cons, fieldBytes_nil, zeroBytes_eq 6, List.append_assoc,
    List.append_nil]

theorem indexEntry_length (m : Member) : (indexEntry m).length = 64 := by
  simp [indexEntry, Digest.bytes]

/-- The fields of trailer bytes 0 to 503 (Table 11-5). -/
def trailerFields (formerId : BitVec 16) (index : Digest) (p : Pack) : List (Nat × Nat) :=
  [(4, Config.trailerMark), (2, formerId.toNat), (2, 0), (4, p.serial.toNat), (4, p.members.length), (4, p.projected), (4, 0),
    (4, p.digest.a.toNat), (4, p.digest.b.toNat), (4, index.a.toNat), (4, index.b.toNat)]

theorem trailerBytes_eq (formerId : BitVec 16) (index : Digest) (p : Pack) :
    trailerBytes formerId index p = fieldBytes (trailerFields formerId index p) ++ zeroBytes 464 := by
  simp only [trailerBytes, trailerFields, Digest.bytes, fieldBytes_cons, fieldBytes_nil, zeroBytes_eq 2, zeroBytes_eq 4,
    List.append_assoc, List.nil_append]

theorem trailerBytes_length (formerId : BitVec 16) (index : Digest) (p : Pack) :
    (trailerBytes formerId index p).length = 504 := by
  simp [trailerBytes, Digest.bytes]

/-! ### Units one after another -/

/-- The digest of bytes after others is carried on (R84). -/
theorem Digest.feed_append (d : Digest) (xs ys : List Byte) : d.feed (xs ++ ys) = (d.feed xs).feed ys := List.foldl_append ..

/-- The engine after `count` units built from unit `u` on (R119). -/
def engineAfter (formerId : BitVec 16) (tb : Nat) (members : MemberTable) (p : Pack) : Nat → Engine → Nat → Engine
  | 0, e, _ => e
  | count + 1, e, u => engineAfter formerId tb members p count (e.issued (buildUnit formerId tb members p e u)) (u + 1)

section
variable (formerId : BitVec 16) (tb : Nat) (members : MemberTable) (p : Pack)

theorem commitBytes_add (a b : Nat) (e : Engine) (u : Nat) : commitBytes formerId tb members p (a + b) e u =
    commitBytes formerId tb members p a e u ++
      commitBytes formerId tb members p b (engineAfter formerId tb members p a e u) (u + a) := by
  induction a generalizing e u with
  | zero => rw [Nat.zero_add]; rfl
  | succ a ih =>
    rw [Nat.succ_add]
    simp only [commitBytes, engineAfter]
    rw [ih, List.append_assoc, Nat.add_right_comm u 1 a]
    rfl

/-- The bytes of units and the digests taken in with them. -/
structure Builds (e : Engine) (count u : Nat) (bytes : List Byte) (header index trailer : Digest) : Prop where
  bytes : commitBytes formerId tb members p count e u = bytes
  header : (engineAfter formerId tb members p count e u).headerAcc = header
  index : (engineAfter formerId tb members p count e u).indexAcc = index
  trailer : (engineAfter formerId tb members p count e u).trailerAcc = trailer

/-- 64 bytes from an offset, and what follows them. -/
theorem slice64_append_take (bytes : List Byte) (o n : Nat) :
    slice64 bytes o ++ (bytes.drop (o + 64)).take n = (bytes.drop o).take (64 + n) := by
  rw [slice64, List.take_add, List.drop_drop]

/-- Units of the header (R115): `count` of them from unit `j + 1` on are the header's bytes from `64 * j` on. -/
theorem builds_header (count j : Nat) (e : Engine) (h : j + count ≤ 8) :
    Builds formerId tb members p e count (j + 1) (((headerBytes formerId tb p).drop (64 * j)).take (64 * count))
      (e.headerAcc.feed (((headerBytes formerId tb p).drop (64 * j)).take (64 * count))) e.indexAcc e.trailerAcc := by
  induction count generalizing j e with
  | zero => exact ⟨by simp [commitBytes], by simp [engineAfter, Digest.feed], rfl, rfl⟩
  | succ count ih =>
    have hbuild : buildUnit formerId tb members p e (j + 1) =
        ⟨slice64 (headerBytes formerId tb p) (64 * j), e.headerAcc.feed (slice64 (headerBytes formerId tb p) (64 * j)),
          e.indexAcc, e.trailerAcc⟩ := if_pos (by omega)
    have hsplit := slice64_append_take (headerBytes formerId tb p) (64 * j) (64 * count)
    rw [show 64 * j + 64 = 64 * (j + 1) by omega, show 64 + 64 * count = 64 * (count + 1) by omega] at hsplit
    obtain ⟨hbytes, hheader, hindex, htrailer⟩ := ih (j + 1) (e.issued (buildUnit formerId tb members p e (j + 1))) (by omega)
    rw [← hsplit, Digest.feed_append]
    refine ⟨?_, ?_, ?_, ?_⟩
    · rw [commitBytes, hbytes, hbuild]
    · rw [engineAfter, hheader, hbuild]
      rfl
    · rw [engineAfter, hindex, hbuild]
      rfl
    · rw [engineAfter, htrailer, hbuild]
      rfl

/-- Units of the index (R115): `count` of them from unit `j + 9` on are the entries of the members from place `j` on. -/
theorem builds_index (count j : Nat) (e : Engine) (h : j + count ≤ p.members.length) :
    Builds formerId tb members p e count (j + 9)
      (((p.members.drop j).take count).flatMap (fun m => indexEntry (members.get m))) e.headerAcc
      (e.indexAcc.feed (((p.members.drop j).take count).flatMap (fun m => indexEntry (members.get m)))) e.trailerAcc := by
  induction count generalizing j e with
  | zero => exact ⟨by simp [commitBytes], rfl, by simp [engineAfter, Digest.feed], rfl⟩
  | succ count ih =>
    have hj : j < p.members.length := by omega
    have hbuild : buildUnit formerId tb members p e (j + 9) =
        ⟨indexEntry (members.get p.members[j]), e.headerAcc, e.indexAcc.feed (indexEntry (members.get p.members[j])),
          e.trailerAcc⟩ := by
      unfold buildUnit
      dsimp only
      rw [if_neg (by omega), if_pos (by omega), show j + 9 - 9 = j by omega, List.getElem?_eq_getElem hj]
    obtain ⟨hbytes, hheader, hindex, htrailer⟩ := ih (j + 1) (e.issued (buildUnit formerId tb members p e (j + 9))) (by omega)
    rw [List.drop_eq_getElem_cons hj, List.take_succ_cons, List.flatMap_cons, Digest.feed_append]
    rw [show j + 1 + 9 = j + 9 + 1 by omega] at hbytes hheader hindex htrailer
    refine ⟨?_, ?_, ?_, ?_⟩
    · rw [commitBytes, hbytes, hbuild]
    · rw [engineAfter, hheader, hbuild]
      rfl
    · rw [engineAfter, hindex, hbuild]
      rfl
    · rw [engineAfter, htrailer, hbuild]
      rfl

/-- Units of the trailer but its last (R115). -/
theorem builds_trailer (count j : Nat) (e : Engine) (h : j + count ≤ 7) :
    Builds formerId tb members p e count (j + p.members.length + 9)
      (((trailerBytes formerId e.indexAcc p).drop (64 * j)).take (64 * count)) e.headerAcc e.indexAcc
      (e.trailerAcc.feed (((trailerBytes formerId e.indexAcc p).drop (64 * j)).take (64 * count))) := by
  induction count generalizing j e with
  | zero => exact ⟨by simp [commitBytes], rfl, rfl, by simp [engineAfter, Digest.feed]⟩
  | succ count ih =>
    have hbuild : buildUnit formerId tb members p e (j + p.members.length + 9) =
        ⟨slice64 (trailerBytes formerId e.indexAcc p) (64 * j), e.headerAcc, e.indexAcc,
          e.trailerAcc.feed (slice64 (trailerBytes formerId e.indexAcc p) (64 * j))⟩ := by
      unfold buildUnit
      dsimp only
      rw [if_neg (by omega), if_neg (by omega), if_neg (by omega),
        show 64 * (j + p.members.length + 9 - p.members.length - 9) = 64 * j by omega]
    have hsplit := slice64_append_take (trailerBytes formerId e.indexAcc p) (64 * j) (64 * count)
    rw [show 64 * j + 64 = 64 * (j + 1) by omega, show 64 + 64 * count = 64 * (count + 1) by omega] at hsplit
    obtain ⟨hbytes, hheader, hindex, htrailer⟩ :=
      ih (j + 1) (e.issued (buildUnit formerId tb members p e (j + p.members.length + 9))) (by omega)
    rw [show j + 1 + p.members.length + 9 = j + p.members.length + 9 + 1 by omega] at hbytes hheader hindex htrailer
    rw [hbuild] at hbytes htrailer
    rw [← hsplit, Digest.feed_append]
    refine ⟨?_, ?_, ?_, ?_⟩
    · rw [commitBytes, hbuild, hbytes]
      rfl
    · rw [engineAfter, hheader, hbuild]
      rfl
    · rw [engineAfter, hindex, hbuild]
      rfl
    · rw [engineAfter, hbuild, htrailer]
      rfl

/-- The last unit: the last 56 trailer bytes, then the pack digest (R88, R115). -/
theorem buildUnit_last (e : Engine) : (buildUnit formerId tb members p e (p.members.length + 16)).bytes =
    (trailerBytes formerId e.indexAcc p).drop 448 ++
      (packDigest p e.headerAcc e.indexAcc
        (e.trailerAcc.feed ((trailerBytes formerId e.indexAcc p).drop 448))).bytes := by
  have hslice : slice64 (trailerBytes formerId e.indexAcc p) (64 * (p.members.length + 16 - p.members.length - 9)) =
      (trailerBytes formerId e.indexAcc p).drop 448 := by
    rw [slice64, show 64 * (p.members.length + 16 - p.members.length - 9) = 448 by omega]
    exact List.take_of_length_le (by rw [List.length_drop, trailerBytes_length]; decide)
  unfold buildUnit
  dsimp only
  rw [if_neg (by omega), if_neg (by omega), if_pos rfl, hslice]

/-- The units of a whole commit, laid end to end: header, index, trailer and the pack digest over them (R115, R119). -/
theorem commitBytes_whole :
    let header := headerBytes formerId tb p
    let index := p.members.flatMap (fun m => indexEntry (members.get m))
    let trailer := trailerBytes formerId (Digest.ofBytes index) p
    commitBytes formerId tb members p (p.members.length + 16) {} 1 = header ++ index ++ trailer ++
      (packDigest p (Digest.ofBytes header) (Digest.ofBytes index) (Digest.ofBytes trailer)).bytes := by
  intro header index trailer
  have hheader := builds_header formerId tb members p 8 0 {} (by decide)
  have htake : ((headerBytes formerId tb p).drop (64 * 0)).take (64 * 8) = header :=
    List.take_of_length_le (by rw [List.length_drop, headerBytes_length])
  rw [htake] at hheader
  generalize he1 : engineAfter formerId tb members p 8 {} 1 = e1
  have hindex := builds_index formerId tb members p p.members.length 0 e1 (by omega)
  rw [List.drop_zero, List.take_length] at hindex
  generalize he2 : engineAfter formerId tb members p p.members.length e1 9 = e2
  have h1 : e1.headerAcc = Digest.ofBytes header ∧ e1.indexAcc = {} ∧ e1.trailerAcc = {} := by
    rw [← he1]
    exact ⟨hheader.header, hheader.index, hheader.trailer⟩
  have h2 : e2.headerAcc = Digest.ofBytes header ∧ e2.indexAcc = Digest.ofBytes index ∧ e2.trailerAcc = {} := by
    rw [← he2]
    refine ⟨hindex.header.trans h1.1, hindex.index.trans ?_, hindex.trailer.trans h1.2.2⟩
    rw [h1.2.1]
    rfl
  have htrailer := builds_trailer formerId tb members p 7 0 e2 (by decide)
  rw [h2.1, h2.2.1, h2.2.2, show 0 + p.members.length + 9 = p.members.length + 9 by omega, Nat.mul_zero, List.drop_zero]
    at htrailer
  generalize he3 : engineAfter formerId tb members p 7 e2 (p.members.length + 9) = e3
  have h3 : e3.headerAcc = Digest.ofBytes header ∧ e3.indexAcc = Digest.ofBytes index ∧
      e3.trailerAcc = Digest.feed {} (trailer.take 448) := by
    rw [← he3]
    exact ⟨htrailer.header, htrailer.index, htrailer.trailer⟩
  have hwhole : trailer.take 448 ++ trailer.drop 448 = trailer := List.take_append_drop 448 trailer
  have hlast : commitBytes formerId tb members p 1 e3 (p.members.length + 16) = trailer.drop 448 ++
      (packDigest p (Digest.ofBytes header) (Digest.ofBytes index) (Digest.ofBytes trailer)).bytes := by
    rw [commitBytes, commitBytes, List.append_nil, buildUnit_last, h3.1, h3.2.1, h3.2.2, ← Digest.feed_append, hwhole]
    rfl
  rw [show p.members.length + 16 = 8 + (p.members.length + (7 + 1)) by omega, commitBytes_add, commitBytes_add, commitBytes_add,
    he1, show 1 + 8 = 9 by rfl, he2, show 9 + p.members.length = p.members.length + 9 by omega, he3, hheader.bytes,
    hindex.bytes, htrailer.bytes, show p.members.length + 9 + 7 = p.members.length + 16 by omega, hlast]
  rw [← List.append_assoc (trailer.take (64 * 7)), hwhole]
  simp only [index, List.append_assoc]

end

/-- The pack digest is that of the whole image but its last 8 bytes (R88). -/
theorem packDigest_eq {p : Pack} {header body index trailer : List Byte} (hp : p.digest = Digest.ofBytes body)
    (hbody : body.length = p.body) (hindex : index.length = 64 * p.members.length) (htrailer : trailer.length = 504) :
    packDigest p (Digest.ofBytes header) (Digest.ofBytes index) (Digest.ofBytes trailer) =
      Digest.ofBytes (header ++ body ++ index ++ zeroBytes (p.projected - (1024 + p.body + 64 * p.members.length)) ++
        trailer) := by
  have hzeros : ∀ (xs : List Byte) (n : Nat), (Digest.ofBytes xs).zeros n = Digest.ofBytes (xs ++ zeroBytes n) := fun xs n => by
    have h := Digest.ofBytes_append xs (zeroBytes n)
    rw [zeroBytes_length, Digest.ofBytes_zeroBytes] at h
    exact h
  unfold packDigest
  dsimp only
  rw [hp, ← hbody, Digest.ofBytes_append, ← hindex, Digest.ofBytes_append, hzeros, ← htrailer, Digest.ofBytes_append, hbody,
    hindex]
  rfl

theorem indexBytes_length (members : MemberTable) (l : List MemberIx) :
    (l.flatMap (fun m => indexEntry (members.get m))).length = 64 * l.length := by
  induction l with
  | nil => rfl
  | cons m l ih => rw [List.flatMap_cons, List.length_append, indexEntry_length, ih, List.length_cons]; omega

end Sys2Proof.Machine

open Sys2Proof Sys2Proof.Machine

/-- Settles O20: units 1 to 8 write the header, the next the index, the last eight the trailer, while the engine takes their
bytes into its accumulators, so that the last unit can end in the digest of the image. -/
theorem commitWritesDigestOfImage : Obligations.CommitWritesDigestOfImage := by
  unfold Obligations.CommitWritesDigestOfImage
  refine ⟨fun formerId tb members p body hp hbody => ?units, fun formerId tb p => ?header, rfl, fun m => ?index,
    fun formerId index p => ?trailer⟩
  case units =>
    have hindex := indexBytes_length members p.members
    have htrailer := trailerBytes_length formerId
      (Digest.ofBytes (p.members.flatMap (fun m => indexEntry (members.get m)))) p
    refine ⟨headerBytes_length formerId tb p, hindex, htrailer, ?_⟩
    rw [commitBytes_whole, packDigest_eq hp hbody hindex htrailer, Digest.bytes]
    simp only [List.append_assoc]
  case header =>
    have h := readsAt_of_eq (headerBytes_eq formerId tb p)
    dsimp only
    obtain ⟨h1, h2, h3, h4, h5, h6, h7, h8, h9, h10, h11, h12, h13, h14, h15, h16, h17, h18, hrest⟩ := h
    exact ⟨h1, h2, h3.trans (toNat_mod_half _), h4.trans (toNat_mod_word _),
      h5.trans (Nat.mod_eq_of_lt (p.cls.isLt.trans (by decide))), h6.trans (toNat_mod_byte _),
      h7.trans (Nat.mod_eq_of_lt (sealCode_lt _)), h8, h9, h10, h11, h12, h13, h14, h15.trans (toNat_mod_time _),
      h16.trans (toNat_mod_time _), h17.trans (toNat_mod_time _), h18.trans (toNat_mod_time _), hrest⟩
  case index =>
    have h := readsAt_of_eq (indexEntry_eq m)
    dsimp only
    obtain ⟨h1, h2, h3, h4, h5, h6, h7, h8, h9, h10, h11, h12, -⟩ := h
    exact ⟨indexEntry_length m, h1.trans (toNat_mod_name _), h2.trans (toNat_mod_word _), h3.trans (toNat_mod_word _),
      fun o ho => by rw [ho] at h4; exact h4, h5, h6.trans (toNat_mod_word _), h7.trans (toNat_mod_word _),
      h8.trans (toNat_mod_time _), h9.trans (Nat.mod_eq_of_lt (m.lane.isLt.trans (by decide))),
      h10.trans (Nat.mod_eq_of_lt (m.cls.isLt.trans (by decide))), h11, h12.trans (toNat_mod_time _)⟩
  case trailer =>
    have h := readsAt_of_eq (trailerBytes_eq formerId index p)
    dsimp only
    obtain ⟨h1, h2, h3, h4, h5, h6, h7, h8, h9, h10, h11, hrest⟩ := h
    exact ⟨h1, h2.trans (toNat_mod_half _), h3, h4.trans (toNat_mod_word _), h5, h6, h7, h8.trans (toNat_mod_word _),
      h9.trans (toNat_mod_word _), h10.trans (toNat_mod_word _), h11.trans (toNat_mod_word _), hrest⟩
end

/-! ## The memory port -/

section
namespace Sys2Proof.Machine

/-! ### The bytes of a unit -/

theorem slice64_length {bytes : List Byte} {o : Nat} (h : o + 64 ≤ bytes.length) : (slice64 bytes o).length = 64 := by
  rw [slice64, List.length_take, List.length_drop]
  omega

/-- Every unit of a pack has 64 bytes (R114). -/
theorem buildUnit_length (formerId : BitVec 16) (tb : Nat) (members : MemberTable) (p : Pack) (e : Engine) {u : Nat}
    (h : u ≤ p.members.length + 16) : (buildUnit formerId tb members p e u).bytes.length = 64 := by
  by_cases hheader : u ≤ 8
  · have hbuild : (buildUnit formerId tb members p e u).bytes = slice64 (headerBytes formerId tb p) (64 * (u - 1)) := by
      rw [buildUnit, if_pos hheader]
    rw [hbuild, slice64_length (by rw [headerBytes_length]; omega)]
  · by_cases hindex : u ≤ p.members.length + 8
    · have hbuild : (buildUnit formerId tb members p e u).bytes = indexEntry (members.get p.members[u - 9]) := by
        rw [buildUnit, if_neg hheader, if_pos hindex, List.getElem?_eq_getElem (by omega)]
      rw [hbuild, indexEntry_length]
    · by_cases hlast : u = p.members.length + 16
      · subst hlast
        rw [buildUnit_last, List.length_append, List.length_drop, trailerBytes_length]
        simp [Digest.bytes]
      · have hbuild : (buildUnit formerId tb members p e u).bytes =
            slice64 (trailerBytes formerId e.indexAcc p) (64 * (u - p.members.length - 9)) := by
          rw [buildUnit, if_neg hheader, if_neg hindex]
          exact if_neg hlast
        rw [hbuild, slice64_length (by rw [trailerBytes_length]; omega)]

/-- An offset from an offset of a base. -/
theorem addrAt_addrAt (b : Addr) (x y : Nat) : addrAt (addrAt b x) y = BitVec.ofNat 40 (b.toNat + x + y) := by
  apply BitVec.eq_of_toNat_eq
  simp [addrAt]

/-- The place of unit `u` in the directory slot of its record (R113, R114). -/
theorem unitRequest_eq (s : State) (d : PackIx) (u : Nat) (bytes : List Byte) : s.unitRequest d u bytes =
    ⟨true, BitVec.ofNat 40 (s.directory.base.toNat + d.val * 131072 + 64 * (u - 1)), 64, bytes, .commitUnit d u⟩ := by
  rw [State.unitRequest, State.directorySlot, addrAt_addrAt]
  rfl

/-! ### Grants -/

theorem hasCandidate_iff (s : State) : s.hasCandidate = true ↔ s.engine.state = .issuing := decide_eq_true_iff

theorem grant_inBurst {s : State} (h : s.arbiter.burst ≠ none) : s.grant = s :=
  if_pos (Option.isSome_iff_ne_none.2 h)

/-- A grant decision with no burst in progress (R13). -/
theorem grant_eq {s : State} (h : s.arbiter.burst = none) : s.grant =
    if s.forwarding = [] then (if s.hasCandidate then s.commitGrant else s)
    else if !s.hasCandidate then s.forwardGrant 0
    else if s.arbiter.run < s.arbiter.share then s.forwardGrant (s.arbiter.run + 1)
    else s.commitGrant := by
  rw [State.grant, h]
  rfl

theorem forwardGrant_cons {s : State} {r : MemReq} {rs : List MemReq} (h : s.forwarding = r :: rs) (c : Nat) :
    s.forwardGrant c =
      { s with forwarding := rs, inFlight := s.inFlight ++ [r], arbiter := { s.arbiter with run := c } } := by
  rw [State.forwardGrant, h]

/-- The engine's candidate is granted when nothing is forwarded or the share is used up (R13). -/
theorem grant_commit {s : State} (hb : s.arbiter.burst = none) (hs : s.engine.state = .issuing)
    (hturn : s.forwarding = [] ∨ s.arbiter.share ≤ s.arbiter.run) : s.grant = s.commitGrant := by
  have hc := (hasCandidate_iff s).2 hs
  rw [grant_eq hb, hc]
  by_cases hf : s.forwarding = []
  · rw [if_pos hf]
    rfl
  · rw [if_neg hf, if_neg (by simp), if_neg (Nat.not_lt.2 (hturn.resolve_left hf))]

theorem commitGrant_steal {s : State} (h : s.arbiter.mode = .steal) :
    s.commitGrant = State.issueUnit { s with arbiter := { s.arbiter with run := 0 } } := by
  rw [State.commitGrant, h]

theorem commitGrant_burst {s : State} (h : s.arbiter.mode = .burst) :
    s.commitGrant = State.issueUnit { s with arbiter := { s.arbiter with run := 0, burst := burstOf s.burstRest } } := by
  rw [State.commitGrant, h]

/-- The issue of a unit puts its request in flight and leaves the forwarding queue; a run count of 0 stays (R118). -/
theorem issueUnit_request {s : State} {cur : Current} (h : s.engine.current = some cur) :
    (∃ r : MemReq, s.issueUnit.inFlight = s.inFlight ++ [r] ∧ r.owner = .commitUnit cur.record s.engine.nextUnit) ∧
    s.issueUnit.forwarding = s.forwarding ∧ (s.arbiter.run = 0 → s.issueUnit.arbiter.run = 0) := by
  by_cases hu : s.engine.nextUnit = (s.pack cur.record).members.length + 16
  · rw [issueUnit_last h hu]
    exact ⟨⟨_, rfl, rfl⟩, rfl, fun _ => rfl⟩
  · rw [issueUnit_more h hu]
    exact ⟨⟨_, rfl, rfl⟩, rfl, id⟩

/-- The units a BURST grant covers after its first (R14). -/
theorem burstRest_eq {s : State} {cur : Current} (h : s.engine.current = some cur) : s.burstRest =
    min (64 * ((s.engine.nextUnit + 63) / 64)) ((s.pack cur.record).members.length + 16) - s.engine.nextUnit := by
  rw [State.burstRest, h]
  simp only [Pack.blockEnd, Pack.unitCount, roundUp]
  rw [Nat.mul_comm]

theorem issueBurstUnit_eq {s : State} {left : Nat} (hb : s.arbiter.burst = some left) (hs : s.engine.state = .issuing) :
    s.issueBurstUnit = State.issueUnit { s with arbiter := { s.arbiter with burst := burstOf (left - 1) } } := by
  rw [State.issueBurstUnit, hb]
  exact if_pos ((hasCandidate_iff s).2 hs)

/-- The engine after the unit `b` has been issued (R118, R119). -/
theorem issued_eq (e : Engine) (b : BuiltUnit) : e.issued b = { e with
    nextUnit := e.nextUnit + 1, unitsInFlight := e.unitsInFlight + 1, headerAcc := b.headerAcc, indexAcc := b.indexAcc
    trailerAcc := b.trailerAcc, afterEnd := none } := rfl

/-- The issue of a unit with the arbiter as given, when it is not the last (R118). -/
theorem issueUnit_goesOn {s : State} {cur : Current} (a : Arbiter) (h : s.engine.current = some cur)
    (hu : s.engine.nextUnit ≠ (s.pack cur.record).members.length + 16) :
    State.issueUnit { s with arbiter := a } =
      let b := buildUnit s.formerId s.tapeBlock s.members (s.pack cur.record) s.engine s.engine.nextUnit
      { s with engine := s.engine.issued b, arbiter := a, inFlight := s.inFlight ++
        [⟨true, BitVec.ofNat 40 (s.directory.base.toNat + cur.record.val * 131072 + 64 * (s.engine.nextUnit - 1)), 64, b.bytes,
          .commitUnit cur.record s.engine.nextUnit⟩] } := by
  rw [issueUnit_more (s := { s with arbiter := a }) h hu]
  dsimp only
  rw [unitRequest_eq]
  rfl

/-- The issue of the last unit with the arbiter as given: the engine is SETTLING and its candidate is withdrawn (R118, R15). -/
theorem issueUnit_settles {s : State} {cur : Current} {a : Arbiter} (h : s.engine.current = some cur)
    (hu : s.engine.nextUnit = (s.pack cur.record).members.length + 16)
    (ha : ({ a with run := 0, burst := none } : Arbiter) = { s.arbiter with run := 0, burst := none }) :
    State.issueUnit { s with arbiter := a } =
      let b := buildUnit s.formerId s.tapeBlock s.members (s.pack cur.record) s.engine s.engine.nextUnit
      { s with engine := { s.engine.issued b with state := .settling }, arbiter := { s.arbiter with run := 0, burst := none },
               inFlight := s.inFlight ++
        [⟨true, BitVec.ofNat 40 (s.directory.base.toNat + cur.record.val * 131072 + 64 * (s.engine.nextUnit - 1)), 64, b.bytes,
          .commitUnit cur.record s.engine.nextUnit⟩] } := by
  rw [issueUnit_last (s := { s with arbiter := a }) h hu]
  dsimp only
  rw [unitRequest_eq, ← ha]
  rfl

/-! ### Answers -/

/-- The first waiting part takes its answer (R4). -/
theorem fillPieces_append {before after : List Piece} {n : Nat} (a : MemAnswer) (h : before.any Piece.isWaiting = false) :
    fillPieces a (before ++ .waiting n :: after) =
      before ++ (match a with | .done d => Piece.filled d | .fault => .faulted) :: after := by
  induction before with
  | nil => rfl
  | cons p ps ih =>
    rw [List.any_cons, Bool.or_eq_false_iff] at h
    obtain ⟨hp, hps⟩ := h
    cases p with
    | waiting m => cases hp
    | zeros m => exact congrArg _ (ih hps)
    | filled d => exact congrArg _ (ih hps)
    | faulted => exact congrArg _ (ih hps)

end Sys2Proof.Machine

open Sys2Proof Sys2Proof.Machine

/-- Settles O21: a grant goes by the burst, the forwarding queue, the candidate and the run count. -/
theorem grantTable : Obligations.GrantTable := by
  unfold Obligations.GrantTable
  intro s
  refine ⟨fun hb => congrArg _ (grant_inBurst hb), fun hb => ⟨fun hf hs => ?idle, fun r rs hf => ⟨fun hs => ?alone,
    fun hs hrun => ?shared⟩, fun cur hs hcur hturn => ?commit⟩⟩
  case idle =>
    have hc := mt (hasCandidate_iff s).1 hs
    rw [exec, execGrant, grant_eq hb, if_pos hf, if_neg hc]
  case alone =>
    have hc := Bool.eq_false_iff.2 (mt (hasCandidate_iff s).1 hs)
    rw [exec, execGrant, grant_eq hb, if_neg (by simp [hf]), hc, forwardGrant_cons hf]
    rfl
  case shared =>
    have hc := (hasCandidate_iff s).2 hs
    rw [exec, execGrant, grant_eq hb, if_neg (by simp [hf]), hc, if_neg (by simp), if_pos hrun, forwardGrant_cons hf]
  case commit =>
    have granted : ∀ a : Arbiter, a.run = 0 → ∃ (t : State) (r : MemReq), State.issueUnit { s with arbiter := a } = t ∧
        t.arbiter.run = 0 ∧ t.forwarding = s.forwarding ∧ t.inFlight = s.inFlight ++ [r] ∧
        r.owner = .commitUnit cur.record s.engine.nextUnit := fun a ha => by
      obtain ⟨⟨r, hflight, howner⟩, hforward, hrun⟩ := issueUnit_request (s := { s with arbiter := a }) hcur
      exact ⟨_, r, rfl, hrun ha, hforward, hflight, howner⟩
    have hgrant := grant_commit hb hs hturn
    cases hmode : s.arbiter.mode with
    | steal =>
      obtain ⟨t, r, ht, hrest⟩ := granted { s.arbiter with run := 0 } rfl
      exact ⟨t, r, by rw [exec, execGrant, hgrant, commitGrant_steal hmode, ht], hrest⟩
    | burst =>
      obtain ⟨t, r, ht, hrest⟩ := granted { s.arbiter with run := 0, burst := burstOf s.burstRest } rfl
      exact ⟨t, r, by rw [exec, execGrant, hgrant, commitGrant_burst hmode, ht], hrest⟩

/-- Settles O22: a STEAL grant issues the one unit that `buildUnit` builds. -/
theorem commitUnitIssue : Obligations.CommitUnitIssue := by
  unfold Obligations.CommitUnitIssue
  intro s cur hb hmode hs hcur hturn
  have hgrant : exec .grant s = .next (State.issueUnit { s with arbiter := { s.arbiter with run := 0 } }) := by
    rw [exec, execGrant, grant_commit hb hs hturn, commitGrant_steal hmode]
  refine ⟨fun hu => buildUnit_length _ _ _ _ _ hu, fun hu => ?_, fun hu => ?_⟩
  · rw [hgrant, issueUnit_goesOn _ hcur hu]
    rfl
  · exact hgrant.trans (congrArg _ (issueUnit_settles hcur hu rfl))

/-- Settles O23: a BURST grant issues its first unit and leaves the rest of the block to BURST_UNIT_ISSUE, one unit each. -/
theorem burstCoversRestOfBlock : Obligations.BurstCoversRestOfBlock := by
  unfold Obligations.BurstCoversRestOfBlock
  intro s cur hs hcur
  dsimp only
  have some_of : ∀ n : Nat, 0 < n → burstOf n = some n := fun n hn => if_neg (by omega)
  have none_of : ∀ n : Nat, n = 0 → burstOf n = none := fun n hn => if_pos hn
  refine ⟨fun hu => buildUnit_length _ _ _ _ _ hu, fun hb hmode hturn => ?grant, fun left hleft => ?unit⟩
  case grant =>
    have hgrant : exec .grant s = .next
        (State.issueUnit { s with arbiter := { s.arbiter with run := 0, burst := burstOf s.burstRest } }) := by
      rw [exec, execGrant, grant_commit hb hs hturn, commitGrant_burst hmode]
    have hrest := burstRest_eq hcur
    refine ⟨fun hu hlt => ?_, fun hu hle => ?_, fun hu => ?_⟩
    · rw [hgrant, issueUnit_goesOn _ hcur hu, some_of _ (by rw [hrest]; omega), hrest]
      rfl
    · rw [hgrant, issueUnit_goesOn _ hcur hu, none_of _ (by rw [hrest]; omega)]
      rfl
    · exact hgrant.trans (congrArg _ (issueUnit_settles hcur hu rfl))
  case unit =>
    have hissue : exec .burstUnitIssue s =
        .next (State.issueUnit { s with arbiter := { s.arbiter with burst := burstOf (left - 1) } }) := by
      rw [exec, execBurstUnitIssue, issueBurstUnit_eq hleft hs]
    refine ⟨fun hu hlt => ?_, fun hu hle => ?_, fun hu => ?_⟩
    · rw [hissue, issueUnit_goesOn _ hcur hu, some_of _ (by omega)]
      rfl
    · rw [hissue, issueUnit_goesOn _ hcur hu, none_of _ (by omega)]
      rfl
    · exact hissue.trans (congrArg _ (issueUnit_settles hcur hu rfl))

/-- Settles O24: an answer goes to the owner of the oldest request in flight; a view part's answer goes on as
VIEW_READ_RESPONSE does. -/
theorem forwardedAndViewPartAnswers : Obligations.ForwardedAndViewPartAnswers := by
  unfold Obligations.ForwardedAndViewPartAnswers
  constructor
  · intro s r rs tag hflight howner
    have hanswer : ∀ a, s.takeAnswer s.clock a = State.answerForwarded tag r.write a { s with inFlight := rs } := fun a => by
      rw [State.takeAnswer, hflight]
      dsimp only
      rw [howner]
    refine ⟨fun d => ?_, ?_⟩
    · rw [exec, execMemoryResponse, hanswer]
      rfl
    · rw [exec, execMemoryResponse, hanswer]
      rfl
  · intro s r rs v vs before after n a hflight howner hreads hpieces hbefore
    have hanswer : s.takeAnswer s.clock a = State.answerPart s.clock a { s with inFlight := rs } := by
      rw [State.takeAnswer, hflight]
      dsimp only
      rw [howner]
    rw [exec, execMemoryResponse, hanswer, State.answerPart]
    dsimp only
    rw [hreads]
    dsimp only
    rw [hpieces, fillPieces_append a hbefore]
    rfl
end

/-! ## Bindings, dispositions and idle returns -/

section
namespace Sys2Proof.Machine

/-! ### What raising an event and binding keep -/

/-- A counter other than events-lost keeps its value when an event is raised (R171). -/
theorem counters_raise {α : Type} (f : Counters → α) (h : ∀ c : Counters, f c.bumpEventLost = f c) (t : Time) (e : EventBody)
    (s : State) : f (s.raise t e).counters = f s.counters := by
  unfold State.raise
  split
  · rfl
  · exact h s.counters

/-- One binding (R131), in the state it starts from. -/
theorem slot_bindSlot_same (t : Time) (j : SlotIx) (d : PackIx) (s : State) : (s.bindSlot t j d).slot j =
    { bound := some ⟨d, (s.pack d).serial, (s.pack d).projected⟩, idle := Deadline.arm s.clock s.idleLimit } := by
  rw [State.bindSlot, State.slot, State.raise_slots, State.setPack_slots]
  exact State.slot_setSlot_same s j _

theorem pack_bindSlot (t : Time) (j : SlotIx) (d e : PackIx) (s : State) : (s.bindSlot t j d).pack e =
    if e = d then { s.pack d with state := .bound, viewSlot := some j } else s.pack e := by
  rw [State.bindSlot, State.pack, State.raise_packs]
  exact State.pack_setPack _ e d _

theorem readyQueue_bindSlot (t : Time) (j : SlotIx) (d : PackIx) (s : State) : (s.bindSlot t j d).readyQueue = s.readyQueue := by
  rw [bindSlot_eq]

theorem events_bindSlot {s : State} (h : s.events.length < 32) (t : Time) (j : SlotIx) (d : PackIx) :
    (s.bindSlot t j d).events = s.events ++ [⟨t, .slotBound j (s.pack d).serial (s.pack d).projected⟩] := by
  rw [State.bindSlot, raise_room (by exact h)]
  rfl

theorem bound_of_freeSlot {s : State} {j : SlotIx} (h : s.freeSlot = some j) : (s.slot j).bound = none := by
  have hp := List.find?_some h
  rw [Bool.and_eq_true, Option.isNone_iff_eq_none] at hp
  exact hp.2

/-- A property of the state that every binding of an enabled FREE slot keeps, the bindings of an event keep. -/
theorem bindReady_keeps {p : State → Prop} (t : Time)
    (h : ∀ (u : State) (d : PackIx) (ds : List PackIx) (j : SlotIx), u.freeSlot = some j → p u →
      p (State.bindSlot t j d { u with readyQueue := ds })) (s : State) (hs : p s) : p (s.bindReady t) := by
  have all : ∀ (n : Nat) (u : State), p u → p (u.bindSlots t n) := fun n => by
    induction n with
    | zero => exact fun u hu => hu
    | succ n ih =>
      intro u hu
      rw [State.bindSlots]
      split
      · rename_i d ds j _ hfree
        exact ih _ (h u d ds j hfree hu)
      · exact hu
  exact all 4 s hs

theorem counters_bindReady {α : Type} (f : Counters → α) (h : ∀ c : Counters, f c.bumpEventLost = f c) (t : Time) (s : State) :
    f (s.bindReady t).counters = f s.counters :=
  bindReady_keeps (p := fun u => f u.counters = f s.counters) t
    (fun _ _ _ _ _ hu => (counters_raise f h t _ _).trans hu) s rfl

/-- A slot that is bound keeps its binding while others are bound (R131). -/
theorem slot_bindReady_bound {s : State} {j : SlotIx} {v : Slot} (h : s.slot j = v) (hb : v.bound ≠ none) (t : Time) :
    (s.bindReady t).slot j = v :=
  bindReady_keeps (p := fun u => u.slot j = v) t
    (fun u d ds i hfree hu => by
      have hne : j ≠ i := fun e => hb (by rw [← hu, e]; exact bound_of_freeSlot hfree)
      exact (slot_bindSlot_other t i j d { u with readyQueue := ds } hne).trans hu) s h

/-- A slot with nothing pending has nothing pending after the bindings (R131). -/
theorem pending_bindReady {s : State} {j : SlotIx} (h : (s.slot j).pending = none) (t : Time) :
    ((s.bindReady t).slot j).pending = none :=
  bindReady_keeps (p := fun u => (u.slot j).pending = none) t
    (fun u d ds i _ hu => by
      by_cases he : j = i
      · rw [he, slot_bindSlot_same]
      · rw [slot_bindSlot_other t i j d _ he]
        exact hu) s h

/-- A BOUND pack stays BOUND while others are bound (R131). -/
theorem pack_bindReady_bound {s : State} {d : PackIx} (h : (s.pack d).state = .bound) (t : Time) :
    ((s.bindReady t).pack d).state = .bound :=
  bindReady_keeps (p := fun u => (u.pack d).state = .bound) t
    (fun u e ds i _ hu => by
      rw [pack_bindSlot]
      split
      · rfl
      · exact hu) s h

theorem slotEnabled_bindReady (t : Time) (s : State) (j : SlotIx) : (s.bindReady t).slotEnabled j = s.slotEnabled j := by
  rw [bindReady_eq]
  rfl

/-- As many rounds as there are enabled FREE slots end with nothing ready or with no such slot (R131). -/
theorem bindSlots_ends (t : Time) (n : Nat) (s : State) (h : s.freeSlots.length ≤ n) :
    (s.bindSlots t n).readyQueue = [] ∨ (s.bindSlots t n).freeSlot = none := by
  induction n generalizing s with
  | zero =>
    refine Or.inr ?_
    rw [State.bindSlots, freeSlot_eq, List.eq_nil_of_length_eq_zero (Nat.le_zero.1 h)]
    rfl
  | succ n ih =>
    rw [State.bindSlots]
    split
    · rename_i d ds j _ hfree
      refine ih _ ?_
      rw [freeSlots_bindSlot]
      have hj : j ∈ s.freeSlots := List.mem_of_mem_head? (freeSlot_eq s ▸ hfree)
      have hlt : (s.freeSlots.filter (fun i => decide (i ≠ j))).length < s.freeSlots.length :=
        List.length_filter_lt_length_iff_exists.2 ⟨j, hj, by simp⟩
      have hsame : State.freeSlots { s with readyQueue := ds } = s.freeSlots := rfl
      rw [hsame]
      omega
    · rename_i hstop
      by_cases hq : s.readyQueue = []
      · exact Or.inl hq
      · cases hf : s.freeSlot with
        | none => exact Or.inr rfl
        | some j =>
          obtain ⟨d, ds, hqueue⟩ := List.exists_cons_of_ne_nil hq
          exact absurd hf (hstop d ds j hqueue)

theorem bound_of_freeSlot_none {s : State} (h : s.freeSlot = none) (j : SlotIx) (he : s.slotEnabled j = true) :
    (s.slot j).bound ≠ none := fun hb => by
  have hp := List.find?_eq_none.1 h j (mem_allSlots j)
  rw [he, hb] at hp
  exact hp rfl

/-- With one pack ready and a slot FREE the pack is bound to it, and no binding is left (R131). -/
theorem bindReady_one {s : State} {d : PackIx} {j : SlotIx} (hq : s.readyQueue = [d]) (hf : s.freeSlot = some j) (t : Time) :
    s.bindReady t = State.bindSlot t j d { s with readyQueue := [] } := by
  rw [bindReady_cons t hq hf, bindReady_same t (Or.inl (readyQueue_bindSlot _ _ _ _))]

/-! ### Returns -/

/-- The state of the part once slot `j` has returned its pack, before what is bound next (R140). -/
theorem unbind_spec (t : Time) (j : SlotIx) (b : Binding) (c : ReturnCause) (s : State) :
    (s.unbind t j b c).readyQueue = b.record :: s.readyQueue ∧ (s.unbind t j b c).slot j = {} ∧
    (∀ i, i ≠ j → (s.unbind t j b c).slot i = s.slot i) ∧
    (s.unbind t j b c).pack b.record = { s.pack b.record with
      state := .ready, viewSlot := none, returns := satAdd (s.pack b.record).returns 1 } ∧
    (s.events.length < 32 → (s.unbind t j b c).events = s.events ++ [⟨t, .packReturned j b.serial c⟩]) := by
  refine ⟨?_, ?_, fun i hi => ?_, ?_, fun h => ?_⟩
  · rw [State.unbind, State.raise_readyQueue]
    rfl
  · rw [State.unbind, State.slot, State.raise_slots]
    exact State.slot_setSlot_same _ j _
  · rw [State.unbind, State.slot, State.raise_slots]
    exact State.slot_setSlot_other _ _ hi
  · rw [State.unbind, State.pack, State.raise_packs]
    exact State.pack_setPack_same s b.record _
  · rw [State.unbind, raise_room (by exact h)]
    rfl

end Sys2Proof.Machine

open Sys2Proof Sys2Proof.Machine

/-- Settles O35: bindings go on while a pack is ready and an enabled slot is FREE. -/
theorem bindingFillsLowestFreeSlots : Obligations.BindingFillsLowestFreeSlots := by
  unfold Obligations.BindingFillsLowestFreeSlots
  intro t s
  have first : ∀ (d : PackIx) (ds : List PackIx) (j : SlotIx), s.readyQueue = d :: ds → s.slotEnabled j = true →
      (s.slot j).bound = none → (∀ i : SlotIx, i < j → s.slotEnabled i = true → (s.slot i).bound ≠ none) →
      s.bindReady t = State.bindReady t (State.bindSlot t j d { s with readyQueue := ds }) :=
    fun d ds j hq he hb hl => bindReady_cons t hq (freeSlot_some he hb hl)
  refine ⟨fun h => bindReady_same t (h.imp_right freeSlot_none), first, ?ends, fun d ds j hq he hb hl => ?bound⟩
  case ends =>
    have hlen : s.freeSlots.length ≤ 4 := List.length_filter_le _ _
    exact (bindSlots_ends t 4 s hlen).imp_right fun h j he =>
      bound_of_freeSlot_none h j ((slotEnabled_bindReady t s j).trans he)
  case bound =>
    have hslot := slot_bindSlot_same t j d { s with readyQueue := ds }
    have hpack : ((State.bindSlot t j d { s with readyQueue := ds }).pack d).state = .bound := by
      rw [pack_bindSlot, if_pos rfl]
    refine ⟨?_, ?_, ?_, ?_, ?_⟩
    · rw [first d ds j hq he hb hl]
      exact slot_bindReady_bound hslot (by simp) t
    · rw [first d ds j hq he hb hl]
      exact pack_bindReady_bound hpack t
    · rw [bindReady_eq]
    · rw [bindReady_eq]
    · rw [bindReady_eq]
end

/-! ## Dispositions, idle returns and the response of a view read -/

section
namespace Sys2Proof.Machine

theorem takePendingDisposition_busy {t : Time} {j : SlotIx} {s : State} (h : (s.slot j).reads ≠ 0) :
    s.takePendingDisposition t j = s := if_neg h

theorem takePendingDisposition_none {t : Time} {j : SlotIx} {s : State} (h : (s.slot j).holdsWrite = false) :
    s.takePendingDisposition t j = s := by
  unfold State.takePendingDisposition
  split
  · split
    · rename_i hp
      rw [Slot.holdsWrite, hp] at h
      cases h
    · rename_i hp
      rw [Slot.holdsWrite, hp] at h
      cases h
    · rfl
  · rfl

theorem takePendingDisposition_written {t : Time} {j : SlotIx} {s : State} {b : Binding} {tag : Nat} {tape : BitVec 128}
    (hr : (s.slot j).reads = 0) (hb : (s.slot j).bound = some b) (hp : (s.slot j).pending = some (.written tag tape)) :
    s.takePendingDisposition t j = s.takeWritten t j b tag tape := by
  rw [State.takePendingDisposition, if_pos hr, hb, hp]

theorem takePendingDisposition_returned {t : Time} {j : SlotIx} {s : State} {b : Binding} {tag : Nat} {tape : BitVec 128}
    (hr : (s.slot j).reads = 0) (hb : (s.slot j).bound = some b) (hp : (s.slot j).pending = some (.returned tag tape)) :
    s.takePendingDisposition t j = s.takeReturned t j b tag := by
  rw [State.takePendingDisposition, if_pos hr, hb, hp]

theorem takePendingIdle_busy {t : Time} {j : SlotIx} {s : State} (h : (s.slot j).reads ≠ 0) : s.takePendingIdle t j = s :=
  if_neg h

theorem takePendingIdle_none {t : Time} {j : SlotIx} {s : State} (h : (s.slot j).pending ≠ some .idle) :
    s.takePendingIdle t j = s := by
  unfold State.takePendingIdle
  split
  · split
    · exact absurd ‹_› h
    · rfl
  · rfl

theorem takePendingIdle_idle {t : Time} {j : SlotIx} {s : State} {b : Binding} (hr : (s.slot j).reads = 0)
    (hb : (s.slot j).bound = some b) (hp : (s.slot j).pending = some .idle) :
    s.takePendingIdle t j = s.takeIdle t j b := by
  rw [State.takePendingIdle, if_pos hr, hb, hp]

/-! ### The slot once its disposition has been taken -/

theorem pending_takeReturned (t : Time) (j : SlotIx) (b : Binding) (tag : Nat) (s : State) :
    ((s.takeReturned t j b tag).slot j).pending = none := by
  obtain ⟨_, hslot, _⟩ := unbind_spec t j b .returned s
  have bound : ∀ u : State, u.slot j = {} → (((u.bindReady t).send tag (.done [])).slot j).pending = none :=
    fun u hu => pending_bindReady (by rw [hu]) t
  exact bound _ hslot

theorem slot_raise (t : Time) (e : EventBody) (j : SlotIx) (s : State) : (s.raise t e).slot j = s.slot j := by
  rw [State.slot, State.raise_slots]
  rfl

theorem pack_raise (t : Time) (e : EventBody) (d : PackIx) (s : State) : (s.raise t e).pack d = s.pack d := by
  rw [State.pack, State.raise_packs]
  rfl

theorem slot_drainWaitList (t : Time) (j : SlotIx) (s : State) : (s.drainWaitList t).slot j = s.slot j := by
  rw [State.slot, (assembles_drainWaitList t s).slots]
  rfl

theorem pending_takeWritten (t : Time) (j : SlotIx) (b : Binding) (tag : Nat) (tape : BitVec 128) (s : State) :
    ((s.takeWritten t j b tag tape).slot j).pending = none := by
  have bound : ∀ u : State, (u.slot j).pending = none → (((u.bindReady t).send tag (.done [])).slot j).pending = none :=
    fun u hu => pending_bindReady hu t
  unfold State.takeWritten
  refine bound _ ?_
  have freed : ∀ q : State, (((q.setSlot j {}).freeRecord b.record).count Counters.bumpReleased).slot j = {} :=
    fun q => State.slot_setSlot_same q j {}
  rw [slot_raise, slot_drainWaitList, freed]

/-- A disposition that is pending is no idle return, and when it has been taken nothing is pending (R137, R138). -/
theorem pending_takePendingDisposition {t : Time} {j : SlotIx} {s : State} (h : (s.slot j).holdsWrite = true) :
    ((s.takePendingDisposition t j).slot j).pending ≠ some .idle := by
  unfold State.takePendingDisposition
  split
  · split
    · rw [pending_takeWritten]
      exact fun hn => nomatch hn
    · rw [pending_takeReturned]
      exact fun hn => nomatch hn
    · exact fun hn => by rw [Slot.holdsWrite, hn] at h; cases h
  · exact fun hn => by rw [Slot.holdsWrite, hn] at h; cases h

/-! ### The release of a pack -/

theorem releaseMembers_eq (ms : List MemberIx) (s : State) :
    s.releaseMembers ms = { s with members := (s.releaseMembers ms).members } := by
  induction ms generalizing s with
  | nil => rfl
  | cons m ms ih => rw [State.releaseMembers, ih]; rfl

/-- A member on the list is RELEASED and refers to no pack; another is unchanged (R64). -/
theorem releaseMembers_member (ms : List MemberIx) (s : State) (h : s.membersCanonical) (m : MemberIx) :
    (s.releaseMembers ms).member m =
      if m ∈ ms then { s.member m with state := .released, packRecord := none, sectionOffset := none } else s.member m := by
  induction ms generalizing s with
  | nil => simp [State.releaseMembers]
  | cons x ms ih =>
    have hcanon := MemberTable.wf_put h x { s.member x with state := .released, packRecord := none, sectionOffset := none }
    have hget := MemberTable.get_put h x m { s.member x with state := .released, packRecord := none, sectionOffset := none }
    rw [State.releaseMembers, ih _ (by exact hcanon)]
    by_cases hx : m = x
    · subst hx
      have hm : (s.setMember m { s.member m with state := .released, packRecord := none, sectionOffset := none }).member m =
          { s.member m with state := .released, packRecord := none, sectionOffset := none } := hget.trans (if_pos rfl)
      simp only [hm, List.mem_cons, true_or, if_true]
      exact ite_self _
    · have hm : (s.setMember x { s.member x with state := .released, packRecord := none, sectionOffset := none }).member m =
          s.member m := hget.trans (if_neg hx)
      rw [hm]
      simp [hx]

theorem setLane_lane (s : State) (k : LaneIx) : s.setLane k (s.lane k) = s := by
  simp [State.setLane, State.lane]

theorem advanceTail_nil {s : State} {k : LaneIx} (h : (s.lane k).order = []) : s.advanceTail k = s := by
  have hlane : ({ s.lane k with order := [] } : Lane) = s.lane k := by rw [← h]
  rw [State.advanceTail, h]
  exact (congrArg (s.setLane k) hlane).trans (setLane_lane s k)

theorem advanceTail_stop {s : State} {k : LaneIx} {m : MemberIx} {rest : List MemberIx} (h : (s.lane k).order = m :: rest)
    (hm : (s.member m).state ≠ .released) : s.advanceTail k = s := by
  have hpop : popReleased (s.lane k).order s.members = ((s.lane k).order, s.members) := by
    rw [h, popReleased]
    exact if_neg hm
  rw [State.advanceTail, hpop]
  exact setLane_lane s k

theorem advanceTail_pop {s : State} {k : LaneIx} {m : MemberIx} {rest : List MemberIx} (h : (s.lane k).order = m :: rest)
    (hm : (s.member m).state = .released) :
    s.advanceTail k = State.advanceTail k ((s.setMember m {}).setLane k { s.lane k with order := rest }) := by
  have hpop : popReleased (s.lane k).order s.members = popReleased rest (s.members.put m {}) := by
    rw [h, popReleased]
    exact if_pos hm
  have hlane := (s.setMember m {}).lane_setLane_same k { s.lane k with order := rest }
  rw [State.advanceTail, State.advanceTail, hpop, hlane]
  simp [State.mapLane, State.setLane, State.setMember, State.lane]

theorem advanceTails_eq (ks : List LaneIx) (s : State) :
    s.advanceTails ks = { s with members := (s.advanceTails ks).members, lanes := (s.advanceTails ks).lanes } := by
  induction ks generalizing s with
  | nil => rfl
  | cons k ks ih => rw [State.advanceTails, ih]; rfl

theorem hold_advanceTails (ks : List LaneIx) (s : State) (k : LaneIx) :
    ((s.advanceTails ks).lane k).hold = (s.lane k).hold := by
  induction ks generalizing s with
  | nil => rfl
  | cons x ks ih =>
    rw [State.advanceTails, ih, State.advanceTail, State.mapLane, State.lane_setLane]
    split
    · next h => rw [h]; rfl
    · rfl

/-- The tail advance frees RELEASED members and leaves the others (R69). -/
theorem popReleased_released_or_free (ms : List MemberIx) (t : MemberTable) (h : t.wf = true) {m : MemberIx}
    (hm : (t.get m).state = .released ∨ (t.get m).state = .free) :
    ((popReleased ms t).2.get m).state = .released ∨ ((popReleased ms t).2.get m).state = .free := by
  induction ms generalizing t with
  | nil => exact hm
  | cons x ms ih =>
    rw [popReleased]
    split
    · refine ih _ (MemberTable.wf_put h x {}) ?_
      rw [MemberTable.get_put h]
      split
      · exact Or.inr rfl
      · exact hm
    · exact hm

theorem advanceTails_released_or_free (ks : List LaneIx) (s : State) (h : s.membersCanonical) {m : MemberIx}
    (hm : (s.member m).state = .released ∨ (s.member m).state = .free) :
    ((s.advanceTails ks).member m).state = .released ∨ ((s.advanceTails ks).member m).state = .free := by
  induction ks generalizing s with
  | nil => exact hm
  | cons k ks ih => exact ih _ (wf_popReleased _ _ h) (popReleased_released_or_free _ _ h hm)

/-- With no write held the release pass does nothing (R50). -/
theorem releasePack_nothingHeld {s : State} (h : s.nothingHeld) (t : Time) (d : PackIx) : s.releasePack t d =
    (s.releaseMembers (s.pack d).members).advanceTails (s.lanesOf (s.pack d).members) :=
  releasePass_nothingHeld t fun k => by
    rw [hold_advanceTails, releaseMembers_eq]
    exact h k

/-- The release of a pack with no write held changes the Member Table and the lanes alone; its members are RELEASED, or FREE
where the tail has advanced past them (R64, R69). -/
theorem releasePack_spec {s : State} (h : s.nothingHeld) (t : Time) (d : PackIx) :
    s.releasePack t d = { s with members := (s.releasePack t d).members, lanes := (s.releasePack t d).lanes } ∧
    (s.membersCanonical → ∀ m ∈ (s.pack d).members,
      ((s.releasePack t d).member m).state = .released ∨ ((s.releasePack t d).member m).state = .free) := by
  rw [releasePack_nothingHeld h]
  refine ⟨?_, fun hcanon m hm => ?_⟩
  · rw [advanceTails_eq, releaseMembers_eq]
  · refine advanceTails_released_or_free _ _ ?_ (Or.inl ?_)
    · exact (assembles_releaseMembers (s.pack d).members s).members hcanon
    · rw [releaseMembers_member _ _ hcanon, if_pos hm]

/-! ### A WRITTEN taken -/

/-- A disposition taken sends one response (R137). -/
theorem takeWritten_sent (t : Time) (j : SlotIx) (b : Binding) (tag : Nat) (tape : BitVec 128) (s : State) :
    (s.takeWritten t j b tag tape).sent = s.sent ++ [⟨tag, .done []⟩] := by
  have hdrain := fun u : State => (assembles_drainWaitList t u).sent
  have hrelease := fun u : State => (passes_releasePack t b.record u).sent
  have hbind := fun u : State => congrArg State.sent (bindReady_eq t u)
  simp only [State.takeWritten, State.send, hbind, State.raise_sent, hdrain, State.count_sent, State.freeRecord,
    State.setPack_sent, State.setSlot_sent, hrelease]

theorem takeReturned_sent (t : Time) (j : SlotIx) (b : Binding) (tag : Nat) (s : State) :
    (s.takeReturned t j b tag).sent = s.sent ++ [⟨tag, .done []⟩] := by
  have hbind := fun u : State => congrArg State.sent (bindReady_eq t u)
  simp only [State.takeReturned, State.send, hbind, State.unbind, State.raise_sent, State.count_sent, State.setSlot_sent,
    State.setPack_sent]

/-- A WRITTEN whose release leaves no member waiting and no pack ready (R139). -/
theorem takeWritten_of_release {s q : State} {t : Time} {j : SlotIx} {b : Binding}
    (hq : State.releasePack t b.record (s.setPack b.record { s.pack b.record with viewSlot := none }) = q)
    (hw : q.waitList = []) (hr : q.readyQueue = []) (tag : Nat) (tape : BitVec 128) :
    s.takeWritten t j b tag tape =
      ((((q.setSlot j {}).freeRecord b.record).count Counters.bumpReleased).raise t (.packReleased b.serial tape)).send tag
        (.done []) := by
  have hdrain : (((q.setSlot j {}).freeRecord b.record).count Counters.bumpReleased).drainWaitList t =
      ((q.setSlot j {}).freeRecord b.record).count Counters.bumpReleased := drainWaitList_nil t hw
  have hnone : ((((q.setSlot j {}).freeRecord b.record).count Counters.bumpReleased).raise t
      (.packReleased b.serial tape)).readyQueue = [] := (State.raise_readyQueue _ _ _).trans hr
  unfold State.takeWritten
  dsimp only at hq ⊢
  rw [hq, hdrain, bindReady_same t (Or.inl hnone)]

/-- A WRITTEN taken with no write held, no member waiting and no pack ready (R139). -/
theorem takeWritten_spec {s u : State} (hheld : s.nothingHeld) (hwait : s.waitList = []) (hready : s.readyQueue = []) {t : Time}
    {j : SlotIx} {b : Binding} {tag : Nat} {tape : BitVec 128} (hu : s.takeWritten t j b tag tape = u) :
    u.slot j = {} ∧ u.pack b.record = {} ∧ (∀ e : PackIx, e ≠ b.record → u.pack e = s.pack e) ∧
    u.counters.packsReleased = satAdd s.counters.packsReleased 1 ∧
    (s.events.length < 32 → u.events = s.events ++ [⟨t, .packReleased b.serial tape⟩]) ∧
    (s.membersCanonical → ∀ m ∈ (s.pack b.record).members, (u.member m).state = .released ∨ (u.member m).state = .free) := by
  have hunview : (s.setPack b.record { s.pack b.record with viewSlot := none }).nothingHeld := hheld
  obtain ⟨hrest, hmembers⟩ := releasePack_spec hunview t b.record
  generalize hq : State.releasePack t b.record (s.setPack b.record { s.pack b.record with viewSlot := none }) = q at hrest hmembers
  have hqueues : q.waitList = [] ∧ q.readyQueue = [] := by
    rw [hrest]
    exact ⟨hwait, hready⟩
  rw [takeWritten_of_release hq hqueues.1 hqueues.2] at hu
  subst hu
  have hkept : q.packs = (s.setPack b.record { s.pack b.record with viewSlot := none }).packs ∧ q.events = s.events ∧
      q.counters = s.counters := by
    rw [hrest]
    exact ⟨rfl, rfl, rfl⟩
  obtain ⟨hpacks, hevents, hcounters⟩ := hkept
  refine ⟨?_, ?_, fun e he => ?_, ?_, fun hroom => ?_, fun hcanon m hm => ?_⟩
  · exact (slot_raise _ _ _ _).trans (State.slot_setSlot_same q j {})
  · exact (pack_raise _ _ _ _).trans (State.pack_setPack_same _ b.record {})
  · have hother : q.pack e = s.pack e := by
      rw [State.pack, hpacks]
      exact State.pack_setPack_other s _ he
    exact (pack_raise _ _ _ _).trans ((State.pack_setPack_other _ _ he).trans hother)
  · have hone : (((q.setSlot j {}).freeRecord b.record).count Counters.bumpReleased).counters.packsReleased =
        satAdd s.counters.packsReleased 1 := by rw [← hcounters]; rfl
    exact (counters_raise Counters.packsReleased (fun _ => rfl) _ _ _).trans hone
  · have hevents' : (((q.setSlot j {}).freeRecord b.record).count Counters.bumpReleased).events = s.events := hevents
    have hraised := raise_room (s := ((q.setSlot j {}).freeRecord b.record).count Counters.bumpReleased)
      (by rw [hevents']; exact hroom) t (.packReleased b.serial tape)
    refine (congrArg State.events hraised).trans ?_
    dsimp only
    rw [hevents']
  · have hmember := hmembers hcanon m (by rw [State.pack_setPack_same]; exact hm)
    rw [State.member, State.send, State.raise_members]
    exact hmember

/-! ### A return with nothing else ready -/

/-- What the bindings after a return with no other pack ready bring: the pack is bound again to the slot (R131, R140). The state
`u` is the one of the return, up to what the bindings do not read. -/
theorem bindReady_returned {s u v : State} {t : Time} {j : SlotIx} {b : Binding} {c : ReturnCause}
    (hv : s.unbind t j b c = v) (hu : u = { v with counters := u.counters }) (he : s.slotEnabled j = true)
    (hl : ∀ i : SlotIx, i < j → s.slotEnabled i = true → (s.slot i).bound ≠ none) (hq : s.readyQueue = []) :
    (u.bindReady t).slot j = { bound := some ⟨b.record, (s.pack b.record).serial, (s.pack b.record).projected⟩,
                               idle := Deadline.arm s.clock s.idleLimit } ∧
    (u.bindReady t).pack b.record = { s.pack b.record with
      state := .bound, viewSlot := some j, returns := satAdd (s.pack b.record).returns 1 } ∧
    (u.bindReady t).readyQueue = [] ∧ (u.bindReady t).members = s.members ∧
    (s.events.length < 31 → (u.bindReady t).events = s.events ++ [⟨t, .packReturned j b.serial c⟩,
      ⟨t, .slotBound j (s.pack b.record).serial (s.pack b.record).projected⟩]) := by
  obtain ⟨hready, hself, hother, hpack, hevents⟩ := unbind_spec t j b c s
  have hkept : (s.unbind t j b c).window = s.window ∧ (s.unbind t j b c).clock = s.clock ∧
      (s.unbind t j b c).idleLimit = s.idleLimit ∧ (s.unbind t j b c).members = s.members := by
    refine ⟨?_, ?_, ?_, ?_⟩ <;> simp [State.unbind]
  rw [hv] at hready hself hother hpack hevents hkept
  obtain ⟨hwindow, hclock, hlimit, hmembers⟩ := hkept
  have henabled : ∀ i, u.slotEnabled i = s.slotEnabled i := fun i => by
    rw [State.slotEnabled, hu]
    exact congrArg (fun w => w.mask.getLsbD i.val) hwindow
  have hslot : ∀ i, u.slot i = v.slot i := fun i => by rw [hu]; rfl
  have hrecord : u.pack b.record = v.pack b.record := by rw [hu]; rfl
  have hfree : u.freeSlot = some j := freeSlot_some ((henabled j).trans he) (by rw [hslot, hself]) fun i hi hen => by
    rw [hslot, hother i (ne_of_lt hi)]
    exact hl i hi ((henabled i).symm.trans hen)
  have hqueue : u.readyQueue = [b.record] := by
    rw [hu]
    exact hready.trans (by rw [hq])
  have hclock' : u.clock = s.clock ∧ u.idleLimit = s.idleLimit ∧ u.members = s.members ∧ u.events = v.events := by
    rw [hu]
    exact ⟨hclock, hlimit, hmembers, rfl⟩
  obtain ⟨hclock, hlimit, hmembers, hsame⟩ := hclock'
  have hreturned : State.pack { u with readyQueue := [] } b.record = { s.pack b.record with
      state := .ready, viewSlot := none, returns := satAdd (s.pack b.record).returns 1 } := hrecord.trans hpack
  rw [bindReady_one hqueue hfree]
  refine ⟨?_, ?_, readyQueue_bindSlot _ _ _ _, ?_, fun hroom => ?_⟩
  · rw [slot_bindSlot_same, hreturned]
    dsimp only
    rw [hclock, hlimit]
  · rw [pack_bindSlot, if_pos rfl, hreturned]
  · rw [bindSlot_eq]
    exact hmembers
  · have hraised := hevents (by omega)
    rw [events_bindSlot (by dsimp only; rw [hsame, hraised, List.length_append]; exact Nat.succ_lt_succ hroom), hreturned]
    dsimp only
    rw [hsame, hraised, List.append_assoc]
    rfl

/-! ### Expiry of an idle deadline -/

theorem takeIdleExpiry_due {s : State} {j : SlotIx} {v : Time} {b : Binding} (hd : (s.slot j).idle = .due v)
    (hb : (s.slot j).bound = some b) (hp : (s.slot j).pending = none) : s.takeIdleExpiry j = s.expireIdle v j b := by
  rw [State.takeIdleExpiry, hd]
  dsimp only
  rw [hb, hp]

theorem setSlot_setSlot (s : State) (j : SlotIx) (a b : Slot) : (s.setSlot j a).setSlot j b = s.setSlot j b := by
  simp [State.setSlot]

/-- A return writes its slot whole: what the slot held before does not matter (R140, R142). -/
theorem takeIdle_setSlot (t : Time) (j : SlotIx) (b : Binding) (a : Slot) (s : State) :
    (s.setSlot j a).takeIdle t j b = s.takeIdle t j b := by
  have hunbind : (s.setSlot j a).unbind t j b .idle = s.unbind t j b .idle := by
    have hslots : ∀ u : State, (u.setSlot j a).setSlot j {} = u.setSlot j {} := fun u => setSlot_setSlot u j a {}
    exact congrArg (fun u : State => (u.count Counters.bumpReturned).raise t (.packReturned j b.serial .idle))
      (hslots ({ s.setPack b.record { s.pack b.record with state := .ready, viewSlot := none, returns := satAdd (s.pack b.record).returns 1 } with readyQueue := b.record :: s.readyQueue }))
  rw [State.takeIdle, hunbind, State.takeIdle]

/-- The effects of an idle return (R142). -/
theorem takeIdle_spec (s : State) (t : Time) (j : SlotIx) (b : Binding) :
    (s.takeIdle t j b).counters.packsReturned = satAdd s.counters.packsReturned 1 ∧
    (s.takeIdle t j b).counters.idleReturns = satAdd s.counters.idleReturns 1 ∧ (s.takeIdle t j b).sent = s.sent ∧
    (s.takeIdle t j b).members = s.members := by
  have hbind := bindReady_eq t ((s.unbind t j b .idle).count Counters.bumpIdleReturn)
  refine ⟨?_, ?_, ?_, ?_⟩
  · exact (counters_bindReady Counters.packsReturned (fun _ => rfl) t _).trans
      (counters_raise Counters.packsReturned (fun _ => rfl) t (.packReturned j b.serial .idle) _)
  · refine (counters_bindReady Counters.idleReturns (fun _ => rfl) t _).trans (congrArg (fun n => satAdd n 1) ?_)
    exact counters_raise Counters.idleReturns (fun _ => rfl) t (.packReturned j b.serial .idle) _
  · rw [State.takeIdle, hbind]
    simp [State.unbind]
  · rw [State.takeIdle, hbind]
    simp [State.unbind]

end Sys2Proof.Machine

open Sys2Proof Sys2Proof.Machine

/-- Settles O25: the oldest view read is responded to when no part waits, and then what its slot has pending is taken. -/
theorem viewReadResponseWhenAllAnswered : Obligations.ViewReadResponseWhenAllAnswered := by
  unfold Obligations.ViewReadResponseWhenAllAnswered
  intro s v vs hreads
  refine ⟨fun hwait => ?_, fun hall => ?_⟩
  · rw [exec, execViewReadResponse, State.respondRead, hreads]
    dsimp only
    rw [if_pos hwait]
  intro body counters answered
  have hresponse : s.respondRead s.clock = answered.endRead s.clock v.slot := by
    rw [State.respondRead, hreads]
    dsimp only
    rw [if_neg (by rw [hall]; exact Bool.false_ne_true)]
    by_cases hf : v.pieces.any Piece.isFaulted = true
    · simp only [answered, body, counters, hf, if_true]
      rfl
    · simp only [answered, body, counters, hf]
      rfl
  have hexec : exec .viewReadResponse s = .next (answered.endRead s.clock v.slot).refill := by
    rw [exec, execViewReadResponse, hresponse]
  clear_value body counters
  refine ⟨fun hslot => by rw [hexec, hslot]; rfl, fun j hslot => ?_⟩
  intro lowered
  have hend : answered.endRead s.clock v.slot =
      (lowered.takePendingDisposition s.clock j).takePendingIdle s.clock j := by
    rw [hslot]
    rfl
  have hlow : lowered.slot j = { s.slot j with reads := (s.slot j).reads - 1 } := State.slot_setSlot_same _ j _
  rw [hexec, hend]
  refine ⟨fun hidle => ?none, fun hwrite hone => ?disposition, fun hidle hone => ?idle⟩
  case none =>
    rcases hidle with hnone | hmore
    · rw [takePendingDisposition_none (by rw [hlow, Slot.holdsWrite, hnone]),
        takePendingIdle_none (by rw [hlow, hnone]; exact fun hn => nomatch hn)]
    · have hbusy : (lowered.slot j).reads ≠ 0 := by
        rw [hlow]
        exact Nat.sub_ne_zero_of_lt hmore
      rw [takePendingDisposition_busy hbusy, takePendingIdle_busy hbusy]
  case disposition =>
    have hholds : (lowered.slot j).holdsWrite = true := by
      rw [hlow]
      exact hwrite
    rw [takePendingIdle_none (pending_takePendingDisposition hholds)]
    rfl
  case idle =>
    refine ⟨_, rfl, ?_⟩
    rw [takePendingDisposition_none (by rw [hlow, Slot.holdsWrite, hidle])]
    rfl

/-- Settles O33: a pending disposition is taken with no read in flight, and what its release of a pack does. -/
theorem pendingDispositionIsTaken : Obligations.PendingDispositionIsTaken := by
  unfold Obligations.PendingDispositionIsTaken
  refine ⟨fun s j => ⟨fun hr => ?busy, fun b tag tape hr hb hp => ⟨?written, ?writtenEffects⟩,
    fun b tag tape hr hb hp => ⟨?returned, ?returnedEffects⟩⟩, fun s t j b tag => rfl, fun s t d => ⟨?pass, ?members, ?released⟩,
    fun s k => ⟨advanceTail_nil, fun m rest h => ⟨advanceTail_stop h, advanceTail_pop h⟩⟩⟩
  case busy => rw [exec, execPendingDispositionTaken, takePendingDisposition_busy hr]
  case written =>
    rw [exec, execPendingDispositionTaken, takePendingDisposition_written hr hb hp]
    rfl
  case writtenEffects =>
    refine ⟨s.takeWritten s.clock j b tag tape, ?_, ?_, fun hheld hwait hready => ?_⟩
    · rw [exec, execPendingDispositionTaken, takePendingDisposition_written hr hb hp]
    · exact takeWritten_sent s.clock j b tag tape s
    · exact takeWritten_spec hheld hwait hready rfl
  case returned => rw [exec, execPendingDispositionTaken, takePendingDisposition_returned hr hb hp]
  case returnedEffects =>
    refine ⟨s.takeReturned s.clock j b tag, ?_, takeReturned_sent s.clock j b tag s, ?_, fun he hl hq => ?_⟩
    · rw [exec, execPendingDispositionTaken, takePendingDisposition_returned hr hb hp]
    · exact (counters_bindReady Counters.packsReturned (fun _ => rfl) s.clock _).trans
        (counters_raise Counters.packsReturned (fun _ => rfl) s.clock _ _)
    · exact bindReady_returned rfl rfl he hl hq
  case pass => rw [State.releasePack, advanceTails_eq_foldl, State.lanesOf]
  case members => exact releaseMembers_eq _ s
  case released => exact fun hcanon m => releaseMembers_member _ s hcanon m

/-- Settles O34: an idle return is taken with no read in flight, from a pending one or from a due deadline. -/
theorem idleReturns : Obligations.IdleReturns := by
  unfold Obligations.IdleReturns
  intro s j
  refine ⟨fun hd => ?notDue, fun v b hd hb hp hr => ?pend, fun hr => ?busy, fun t stamp b hr hb h => ?returns, fun t b => rfl,
    ⟨_, rfl⟩, ⟨_, rfl⟩⟩
  case notDue => rw [exec, execIdleExpiry, takeIdleExpiry_of hd]
  case pend =>
    rw [exec, execIdleExpiry, takeIdleExpiry_due hd hb hp, State.expireIdle, if_neg hr, State.slot_setSlot_same,
      setSlot_setSlot]
  case busy => rw [exec, execPendingIdleReturn, takePendingIdle_busy hr]
  case returns =>
    have ht : t = s.takeIdle stamp j b := by
      rcases h with ⟨hp, ht, rfl⟩ | ⟨hp, hd, ht⟩
      · rw [exec, execPendingIdleReturn, takePendingIdle_idle hr hb hp] at ht
        exact (Host.Outcome.next.inj ht).symm
      · rw [exec, execIdleExpiry, takeIdleExpiry_due hd hb hp, State.expireIdle, if_pos hr, takeIdle_setSlot] at ht
        exact (Host.Outcome.next.inj ht).symm
    subst ht
    obtain ⟨hreturned, hidle, hsent, hmembers⟩ := takeIdle_spec s stamp j b
    refine ⟨rfl, hreturned, hidle, hsent, hmembers, fun he hl hq => ?_⟩
    obtain ⟨hslot, hpack, _, _, hevents⟩ := bindReady_returned (u := (s.unbind stamp j b .idle).count Counters.bumpIdleReturn)
      rfl rfl he hl hq
    exact ⟨hslot, hpack, hevents⟩
end

/-! ## The bytes of an image and the reads of it -/

section
namespace Sys2Proof.Machine

/-! ### Segments and their bytes -/

theorem places_length (g : Segment) : g.places.length = g.len := by
  rw [Segment.places, List.length_map, List.length_range]

theorem getElem?_places {g : Segment} {i : Nat} (h : i < g.len) :
    g.places[i]? = some (g.source.map (fun a => addrAt a i)) := by
  rw [Segment.places, List.getElem?_map, List.getElem?_range h]
  rfl

/-- The bytes of a segment from offset `o` on, `n` of them, are those of the segment that starts there. -/
theorem places_part {g : Segment} {o n : Nat} (h : o + n ≤ g.len) :
    Segment.places ⟨n, g.source.map (fun a => addrAt a o)⟩ = (g.places.drop o).take n := by
  apply List.ext_getElem?
  intro i
  by_cases hi : i < n
  · have hplace : ∀ a : Addr, addrAt (addrAt a o) i = addrAt a (o + i) := fun a => by
      rw [addrAt_addrAt, addrAt, Nat.add_assoc]
    rw [getElem?_places hi, List.getElem?_take_of_lt hi, List.getElem?_drop, getElem?_places (by omega), Option.map_map]
    exact congrArg some (congrFun (congrArg Option.map (funext hplace)) g.source)
  · rw [List.getElem?_eq_none (by rw [places_length]; exact Nat.not_lt.1 hi), List.getElem?_eq_none (by rw [List.length_take]; omega)]

/-- Cutting a sequence of segments gives the sources of the bytes it covers (R133). -/
theorem places_cutSegments (gs : List Segment) (o len : Nat) :
    (cutSegments gs o len).flatMap Segment.places = ((gs.flatMap Segment.places).drop o).take len := by
  induction gs generalizing o len with
  | nil => simp [cutSegments]
  | cons g gs ih =>
    have hlen := places_length g
    rw [cutSegments, List.flatMap_cons]
    split
    · next h => rw [h, List.take_zero]; rfl
    · split
      · next hbehind =>
        rw [ih, List.drop_append, List.drop_of_length_le (l := g.places) (by omega), List.nil_append, hlen]
      · next hinside =>
        have hdrop : (g.places.drop o).length = g.len - o := by rw [List.length_drop, hlen]
        have hleft : len - min (g.len - o) len = len - (g.len - o) := by omega
        rw [List.flatMap_cons, ih, places_part (by omega), List.drop_zero, List.drop_append_of_le_length (by omega),
          List.take_append, hdrop, hleft]
        congr 1
        rw [List.take_eq_take_iff, hdrop]
        omega

theorem zeroBytes_add (a b : Nat) : zeroBytes a ++ zeroBytes b = zeroBytes (a + b) := List.replicate_append_replicate

theorem request_eq (g : Segment) :
    g.request = g.source.map (fun a => (⟨false, a, g.len, [], .viewPart⟩ : MemReq)) := by
  unfold Segment.request
  split
  · next h => rw [h]; rfl
  · next h => rw [h]; rfl

theorem piece_eq (g : Segment) : g.piece = if g.source.isSome then .waiting g.len else .zeros g.len := by
  unfold Segment.piece
  split
  · next h => rw [h]; rfl
  · next h => rw [h]; rfl

/-- The bytes of zero parts alone (R134). -/
theorem bytes_of_zeros (parts : List Segment) (h : ∀ g ∈ parts, g.source = none) :
    parts.flatMap (fun g => g.piece.bytes) = zeroBytes (parts.map Segment.len).sum := by
  induction parts with
  | nil => rfl
  | cons g gs ih =>
    have hpiece : g.piece = .zeros g.len := by
      rw [piece_eq, h g List.mem_cons_self]
      rfl
    rw [List.flatMap_cons, ih (fun x hx => h x (List.mem_cons_of_mem g hx)), hpiece, List.map_cons, List.sum_cons]
    exact zeroBytes_add _ _

/-! ### The section of a member -/

/-- A place in the middle of three lists. -/
theorem getElem?_mid {α : Type} {front mid back : List α} {a i : Nat} (ha : front.length = a) (h : i < mid.length) :
    (front ++ (mid ++ back))[a + i]? = mid[i]? := by
  rw [List.getElem?_append_right (by omega), ha, Nat.add_sub_cancel_left, List.getElem?_append_left h]

theorem getElem?_behind {α : Type} {front back : List α} {a i : Nat} (ha : front.length = a) :
    (front ++ back)[a + i]? = back[i]? := by
  rw [List.getElem?_append_right (by omega), ha, Nat.add_sub_cancel_left]

theorem le_roundUp_64 (n : Nat) : n ≤ roundUp 64 n := by
  rw [roundUp]
  omega

/-- The sources of the bytes of a member's section (R79, Table 8-2). -/
def sectionPlaces (l : Lane) (m : Member) : List (Option Addr) := (sectionSegments l m).flatMap Segment.places

theorem sectionSegments_len (l : Lane) (m : Member) : (sectionSegments l m).map Segment.len =
    [64, min m.dataLength (l.size - (m.leadOffset + 64) % l.size),
      m.dataLength - min m.dataLength (l.size - (m.leadOffset + 64) % l.size), roundUp 64 m.dataLength - m.dataLength] := rfl

theorem length_flatMap_places (gs : List Segment) : (gs.flatMap Segment.places).length = (gs.map Segment.len).sum := by
  rw [List.length_flatMap]
  congr 1
  exact List.map_congr_left fun g _ => places_length g

theorem sectionPlaces_length (l : Lane) (m : Member) : (sectionPlaces l m).length = 64 + roundUp 64 m.dataLength := by
  have hround := le_roundUp_64 m.dataLength
  rw [sectionPlaces, length_flatMap_places, sectionSegments_len]
  simp only [List.sum_cons, List.sum_nil]
  omega

/-- The lead of a section comes from its place in the lane (Table 8-2). -/
theorem sectionPlaces_lead (l : Lane) (m : Member) {x : Nat} (h : x < 64) :
    (sectionPlaces l m)[x]? = some (some (BitVec.ofNat 40 (l.base.toNat + m.leadOffset + x))) := by
  have hlead := getElem?_places (g := ⟨64, some (addrAt l.base m.leadOffset)⟩) h
  rw [sectionPlaces, sectionSegments, List.cons_append, List.flatMap_cons,
    List.getElem?_append_left (by rw [places_length]; exact h), hlead]
  exact congrArg (fun a => some (some a)) (addrAt_addrAt _ _ _)

/-- The data of a section follow the lead around the ring of the lane (R18, Table 8-2). -/
theorem sectionPlaces_data (l : Lane) (m : Member) (hlen : m.dataLength ≤ l.size) {j : Nat} (h : j < m.dataLength) :
    (sectionPlaces l m)[64 + j]? = some (some (BitVec.ofNat 40 (l.base.toNat + (m.leadOffset + 64 + j) % l.size))) := by
  have hstart := Nat.mod_lt (m.leadOffset + 64) (size_pos l)
  have hring : (m.leadOffset + 64 + j) % l.size = ((m.leadOffset + 64) % l.size + j) % l.size := by
    rw [Nat.mod_add_mod]
  rw [hring]
  generalize hs : (m.leadOffset + 64) % l.size = start at hstart
  have hsection : sectionPlaces l m = Segment.places ⟨64, some (addrAt l.base m.leadOffset)⟩ ++
      (Segment.places ⟨min m.dataLength (l.size - start), some (addrAt l.base start)⟩ ++
        (Segment.places ⟨m.dataLength - min m.dataLength (l.size - start), some l.base⟩ ++
          Segment.places ⟨roundUp 64 m.dataLength - m.dataLength, none⟩)) := by
    rw [← hs]
    simp [sectionPlaces, sectionSegments, dataSegments]
  by_cases hj : j < min m.dataLength (l.size - start)
  · rw [hsection, getElem?_mid (places_length _) (by rw [places_length]; exact hj), getElem?_places hj,
      Nat.mod_eq_of_lt (by omega), ← Nat.add_assoc]
    exact congrArg (fun a => some (some a)) (addrAt_addrAt _ _ _)
  · have hwrap : (start + j) % l.size = j - min m.dataLength (l.size - start) := by
      rw [Nat.mod_eq_sub_mod (by omega), Nat.mod_eq_of_lt (by omega)]
      omega
    have hplace : 64 + j = 64 + min m.dataLength (l.size - start) + (j - min m.dataLength (l.size - start)) := by omega
    rw [hsection, hplace, ← List.append_assoc, getElem?_mid (by rw [List.length_append, places_length, places_length])
      (by rw [places_length]; dsimp only; omega), getElem?_places (by dsimp only; omega), hwrap]
    rfl

/-- The member pad of a section is zeros (Table 8-2). -/
theorem sectionPlaces_pad (l : Lane) (m : Member) {j : Nat} (h : m.dataLength ≤ j) (hpad : j < roundUp 64 m.dataLength) :
    (sectionPlaces l m)[64 + j]? = some none := by
  have hfront : ((Segment.mk 64 (some (addrAt l.base m.leadOffset)) :: dataSegments l m).flatMap Segment.places).length =
      64 + m.dataLength := by
    rw [length_flatMap_places]
    simp only [dataSegments, List.map_cons, List.map_nil, List.sum_cons, List.sum_nil]
    omega
  have hlast := getElem?_places (g := ⟨roundUp 64 m.dataLength - m.dataLength, none⟩) (i := j - m.dataLength)
    (by dsimp only; omega)
  rw [sectionPlaces, sectionSegments, List.flatMap_append, List.getElem?_append_right (by omega), hfront, List.flatMap_singleton]
  have hplace : 64 + j - (64 + m.dataLength) = j - m.dataLength := by omega
  rw [hplace, hlast]
  rfl

/-! ### The image -/

/-- The sources of the bytes of an image: header, sections, index, pad and trailer (Table 8-2). -/
theorem image_eq (s : State) (d : PackIx) : (s.imageSegments d).flatMap Segment.places =
    Segment.places ⟨512, some (s.directorySlot d)⟩ ++
    ((s.pack d).members.flatMap (fun m => sectionPlaces (s.lane (s.member m).lane) (s.member m)) ++
    (Segment.places ⟨64 * (s.pack d).members.length, some (addrAt (s.directorySlot d) 512)⟩ ++
    (Segment.places ⟨(s.pack d).projected - rawLength (s.pack d).body (s.pack d).members.length, none⟩ ++
    Segment.places ⟨512, some (addrAt (s.directorySlot d) (512 + 64 * (s.pack d).members.length))⟩))) := by
  simp [State.imageSegments, sectionPlaces, List.flatMap_assoc]

theorem sections_length (s : State) (ms : List MemberIx) :
    (ms.flatMap (fun m => sectionPlaces (s.lane (s.member m).lane) (s.member m))).length =
      (ms.map (fun m => 64 + roundUp 64 (s.member m).dataLength)).sum := by
  rw [List.length_flatMap]
  congr 1
  exact List.map_congr_left fun m _ => sectionPlaces_length _ _

theorem addrAt_directorySlot (s : State) (d : PackIx) (x : Nat) :
    addrAt (s.directorySlot d) x = BitVec.ofNat 40 (s.directory.base.toNat + d.val * 131072 + x) := addrAt_addrAt _ _ _

theorem addrAt_directorySlot_addrAt (s : State) (d : PackIx) (x y : Nat) :
    addrAt (addrAt (s.directorySlot d) x) y = BitVec.ofNat 40 (s.directory.base.toNat + d.val * 131072 + x + y) := by
  rw [addrAt_directorySlot]
  apply BitVec.eq_of_toNat_eq
  simp [addrAt]

end Sys2Proof.Machine

open Sys2Proof Sys2Proof.Machine

/-- Settles O30: a view read that passes is answered with zeros, or waits for its memory READs. -/
theorem viewReadServed : Obligations.ViewReadServed := by
  unfold Obligations.ViewReadServed
  intro s j b o len tag parts idle
  have hrequest : Segment.request = fun g => g.source.map (fun a => (⟨false, a, g.len, [], .viewPart⟩ : MemReq)) :=
    funext request_eq
  have hpiece : Segment.piece = fun g => if g.source.isSome then .waiting g.len else .zeros g.len := funext piece_eq
  refine ⟨fun hzeros => ?zeros, fun ⟨g, hg, hsource⟩ => ?memory⟩
  case zeros =>
    have hnone : parts.filterMap Segment.request = [] := by
      rw [List.filterMap_eq_nil_iff]
      intro g hg
      rw [request_eq, hzeros g hg]
      rfl
    rw [State.serveRead]
    dsimp only
    rw [if_pos hnone, bytes_of_zeros _ hzeros]
    rfl
  case memory =>
    have hsome : parts.filterMap Segment.request ≠ [] := by
      rw [Ne, List.filterMap_eq_nil_iff]
      intro hall
      have hnone := hall g hg
      rw [request_eq, Option.map_eq_none_iff] at hnone
      exact hsource hnone
    rw [State.serveRead]
    dsimp only
    rw [if_neg hsome, State.slot_setSlot_same, setSlot_setSlot, hrequest, hpiece]
    rfl

/-- Settles O31: cutting segments, and the image of a pack byte by byte. -/
theorem readPartsAreTheBytesRead : Obligations.ReadPartsAreTheBytesRead := by
  unfold Obligations.ReadPartsAreTheBytesRead
  refine ⟨places_cutSegments, fun s d => ?_⟩
  intro p n sectionOf size start slot image stored
  refine ⟨?lens, fun hbody hlen hdata => ?_⟩
  case lens =>
    simp only [State.imageSegments, List.map_append, List.map_cons, List.map_nil, List.map_flatMap, sectionSegments_len]
    rfl
  have himage : image = _ := image_eq s d
  have hsections : ∀ ms : List MemberIx,
      (ms.flatMap (fun m => sectionPlaces (s.lane (s.member m).lane) (s.member m))).length = (ms.map sectionOf).sum :=
    sections_length s
  have hall : ((s.pack d).members.flatMap (fun m => sectionPlaces (s.lane (s.member m).lane) (s.member m))).length = p.body :=
    (hsections p.members).trans hbody.symm
  have hraw : rawLength (s.pack d).body (s.pack d).members.length = 1024 + p.body + 64 * n := rfl
  refine ⟨?length, fun x hx => ?header, fun before after m hm => ?_, fun x hx => ?index, fun x hlow hhigh => ?pad,
    fun x hx => ?trailer⟩
  case length =>
    rw [himage]
    simp only [List.length_append, places_length]
    rw [hall, hraw]
    change 512 + (p.body + (64 * n + (p.projected - (1024 + p.body + 64 * n) + 512))) = p.projected
    omega
  case header =>
    rw [himage, List.getElem?_append_left (by rw [places_length]; exact hx), getElem?_places hx]
    exact congrArg (fun a => some (some a)) (addrAt_directorySlot s d x)
  case index =>
    rw [himage, Nat.add_assoc, getElem?_behind (places_length _), getElem?_behind hall,
      List.getElem?_append_left (by rw [places_length]; exact hx), getElem?_places hx]
    exact congrArg (fun a => some (some a)) (addrAt_directorySlot_addrAt s d 512 x)
  case pad =>
    have hplace : x = 512 + (p.body + (64 * n + (x - (512 + p.body + 64 * n)))) := by omega
    have hinside : x - (512 + p.body + 64 * n) < (s.pack d).projected - rawLength (s.pack d).body (s.pack d).members.length := by
      rw [hraw]
      change _ < p.projected - _
      omega
    rw [himage, hplace, getElem?_behind (places_length _), getElem?_behind hall, getElem?_behind (places_length _),
      List.getElem?_append_left (by rw [places_length]; exact hinside), getElem?_places hinside]
    rfl
  case trailer =>
    have hplace : p.projected - 512 + x = 512 + (p.body + (64 * n + ((p.projected - (1024 + p.body + 64 * n)) + x))) := by omega
    rw [himage, hplace, getElem?_behind (places_length _), getElem?_behind hall, getElem?_behind (places_length _),
      getElem?_behind ((places_length _).trans (congrArg (p.projected - ·) hraw)), getElem?_places hx]
    exact congrArg (fun a => some (some a)) ((addrAt_directorySlot_addrAt s d (512 + 64 * n) x).trans (by rw [← Nat.add_assoc]))
  intro o base lead len
  have hmember : ∀ i, i < 64 + roundUp 64 len → image[o + i]? = (sectionPlaces (s.lane (s.member m).lane) (s.member m))[i]? :=
    fun i hi => by
      have hmembers : (s.pack d).members = before ++ m :: after := hm
      rw [himage, hmembers, List.flatMap_append, List.flatMap_cons, List.append_assoc, List.append_assoc]
      change (_ ++ (_ ++ (_ ++ _)))[512 + (before.map sectionOf).sum + i]? = _
      rw [Nat.add_assoc, getElem?_behind (places_length _), getElem?_behind (hsections before),
        List.getElem?_append_left (by rw [sectionPlaces_length]; exact hi)]
  have hround := le_roundUp_64 len
  have hring := hdata m (by rw [hm]; exact List.mem_append_right _ List.mem_cons_self)
  refine ⟨fun x hx => ?lead, fun j hj => ?data, fun j hlow hhigh => ?memberPad⟩
  case lead => rw [hmember x (by omega), sectionPlaces_lead _ _ hx]
  case data => rw [Nat.add_assoc, hmember (64 + j) (by omega), sectionPlaces_data _ _ hring hj]
  case memberPad => rw [Nat.add_assoc, hmember (64 + j) (by omega), sectionPlaces_pad _ _ hlow hhigh]
end

/-! ## The end of a commit, of a suspension, of a discard and of a RESTART -/

section
namespace Sys2Proof.Machine

/-! ### The end of a commit -/

theorem endCommit_same {t : Time} {s : State} (h : s.engine.state ≠ .settling ∨ s.engine.unitsInFlight ≠ 0) :
    s.endCommit t = s := if_neg fun hend => h.elim (absurd hend.1) (absurd hend.2)

theorem endCommit_faults {t : Time} {s : State} {cur : Current} (hs : s.engine.state = .settling)
    (hf : s.engine.unitsInFlight = 0) (hc : s.engine.current = some cur) :
    s.endCommit t = (if s.engine.faults = 0 then s.commitReady t cur else s.commitFailed t cur).beginAfterEnd := by
  rw [State.endCommit, if_pos ⟨hs, hf⟩]
  split
  · next hn => cases hn.symm.trans hc
  · next c hsome => cases hsome.symm.trans hc; rfl

/-- With the engine IDLE in RUN the end of one commit begins the next of the queue (R117, R121). -/
theorem beginAfterEnd_begun {s : State} {d : PackIx} {ds : List PackIx} (h : s.engine.state = .idle) (hp : s.part = .run)
    (hq : s.engine.queue = d :: ds) :
    s.beginAfterEnd.engine = { s.begun d s.engine with afterEnd := some s.engine.leftover } := by
  have hengine := beginCommit_begun h hp hq
  have hstate : s.beginCommit.engine.state = .issuing := by rw [hengine]; rfl
  rw [State.beginAfterEnd]
  dsimp only
  rw [if_pos hstate, hengine]

theorem beginAfterEnd_same {s : State} (h : s.engine.state = .idle) (hn : s.part ≠ .run ∨ s.engine.queue = []) :
    s.beginAfterEnd = s := by
  have hbegin : s.beginCommit = s := hn.elim (fun hp => beginCommit_same fun hh => hp hh.2) beginCommit_nil
  rw [State.beginAfterEnd]
  dsimp only
  rw [hbegin, if_neg (by rw [h]; nofun)]

/-- A commit that ends with no fault, up to the engine (R121). -/
theorem commitReady_eq (t : Time) (cur : Current) (s : State) :
    let p := s.pack cur.record
    let ready := State.raise t (.packReady cur.record cur.serial p.projected)
      { s.setPack cur.record { p with state := .ready } with readyQueue := s.readyQueue ++ [cur.record] }
    s.commitReady t cur = { State.bindReady t { ready with
      counters := { ready.counters with commitsCompleted := satAdd ready.counters.commitsCompleted 1 } } with
        engine := s.engine.ended cur.record } := by
  intro p ready
  have hraise := raise_engine t (.packReady cur.record cur.serial p.projected) (s.engine.ended cur.record)
    { s.setPack cur.record { p with state := .ready } with readyQueue := s.readyQueue ++ [cur.record] }
  have hbind := bindReady_engine t (s.engine.ended cur.record) (ready.count Counters.bumpCommitted)
  exact (congrArg (fun v : State => (v.count Counters.bumpCommitted).bindReady t) hraise).trans hbind

/-- A commit that has ended, before the next begins: the engine is IDLE, and the part is as before (R121). -/
theorem committed_spec (t : Time) (cur : Current) {s u : State} (hs : s.engine.state = .settling)
    (hu : (if s.engine.faults = 0 then s.commitReady t cur else s.commitFailed t cur) = u) :
    u.engine = s.engine.ended cur.record ∧ Keeps s u ∧ ∀ d, (u.pack d).serial = (s.pack d).serial := by
  have kept : ∀ (d : PackIx) (p : Pack) (v : State), p.serial = (v.pack d).serial →
      ∀ e, ((v.setPack d p).pack e).serial = (v.pack e).serial := fun d p v hp e => by
    rw [State.pack_setPack]
    split
    · next h => rw [h, hp]
    · rfl
  subst hu
  split
  · refine ⟨by rw [commitReady_eq], keeps_commitReady t cur s hs, fun d => ?_⟩
    unfold State.commitReady
    refine bindReady_keeps (p := fun v => (v.pack d).serial = (s.pack d).serial) t (fun v e ds j _ hv => ?_) _ ?_
    · rw [pack_bindSlot]
      split
      · next h => subst h; exact hv
      · exact hv
    · have h := kept cur.record { s.pack cur.record with state := .ready } s rfl d
      refine Eq.trans (congrArg Pack.serial ?_) h
      rw [State.pack, State.count_packs, State.raise_packs]
      rfl
  · refine ⟨engine_commitFailed t cur s, keeps_commitFailed t cur s hs, fun d => ?_⟩
    refine Eq.trans (congrArg Pack.serial ?_) (kept cur.record { s.pack cur.record with state := .failed } s rfl d)
    rw [State.commitFailed, State.pack, State.count_packs, State.raise_packs]
    rfl

/-! ### Suspension -/

theorem endSuspending_same {t : Time} {s : State} (h : s.engine.unitsInFlight ≠ 0 ∨
    s.engine.state ≠ .suspending ∧ (s.engine.state ≠ .issuing ∨ s.part ≠ .quiesced)) : s.endSuspending t = s := by
  refine if_neg fun hdue => ?_
  simp only [State.suspendDue, Bool.and_eq_true, Bool.or_eq_true, decide_eq_true_eq] at hdue
  obtain ⟨hflight, hstate⟩ := hdue
  rcases h with h | ⟨hsuspending, hissuing⟩
  · exact h hflight
  · rcases hstate with h | ⟨hi, hq⟩
    · exact hsuspending h
    · exact hissuing.elim (absurd hi) (absurd hq)

theorem endSuspending_suspends {t : Time} {s : State} (hs : s.engine.state = .suspending) (hf : s.engine.unitsInFlight = 0) :
    s.endSuspending t = s.suspend t := if_pos (by simp [State.suspendDue, hs, hf])

/-- The end of a SETTLING commit brings no suspension with it (R121, R122). -/
theorem endSuspending_endCommit {t : Time} {s : State} (h : s.engine.state = .settling) :
    (s.endCommit t).endSuspending t = s.endCommit t := by
  by_cases hend : s.engine.unitsInFlight = 0
  · cases hc : s.engine.current with
    | none =>
      have hsame : s.endCommit t = s := by
        rw [State.endCommit, if_pos ⟨h, hend⟩]
        split
        · rfl
        · next c hsome => cases hsome.symm.trans hc
      rw [hsame, endSuspending_same (Or.inr ⟨by rw [h]; nofun, Or.inl (by rw [h]; nofun)⟩)]
    | some cur =>
      obtain ⟨hengine, hkeeps, _⟩ := committed_spec t cur h rfl
      rw [endCommit_faults h hend hc]
      generalize (if s.engine.faults = 0 then s.commitReady t cur else s.commitFailed t cur) = u at hengine hkeeps
      have hidle : u.engine.state = .idle := by rw [hengine]; rfl
      have hpart : u.beginAfterEnd.part = u.part := by rw [beginAfterEnd_eq]
      refine endSuspending_same (Or.inr ?_)
      by_cases hbegin : u.part ≠ .run ∨ u.engine.queue = []
      · rw [beginAfterEnd_same hidle hbegin, hidle]
        exact ⟨nofun, Or.inl nofun⟩
      · rw [not_or, not_not] at hbegin
        obtain ⟨hrun, hqueue⟩ := hbegin
        obtain ⟨d, ds, hq⟩ := List.exists_cons_of_ne_nil hqueue
        rw [hpart, hrun, beginAfterEnd_begun hidle hrun hq]
        exact ⟨nofun, Or.inr nofun⟩
  · rw [endCommit_same (Or.inr hend),
      endSuspending_same (Or.inl hend)]

/-! ### Answers to commit units -/

theorem discards?_iff (e : Engine) (d : PackIx) : e.discards? d = true ↔ ∃ x ∈ e.discards, x.record = d := by
  simp [Engine.discards?]

theorem takeAnswer_unit {s : State} {r : MemReq} {rs : List MemReq} {d : PackIx} {u : Nat} (h : s.inFlight = r :: rs)
    (ho : r.owner = .commitUnit d u) (a : MemAnswer) :
    exec (.memoryResponse a) s = .next (State.answerUnit s.clock d u a { s with inFlight := rs }).refill := by
  rw [exec, execMemoryResponse, State.takeAnswer, h]
  dsimp only
  rw [ho]

/-- The state in which unit `u` of the current pack has been answered, before what the answer brings about (R120). -/
def State.unitAnswered (u : Nat) (a : MemAnswer) (s : State) : State :=
  match a with
  | .done _ => { s with engine := s.engine.lowerInFlight }
  | .fault => State.unitFaulted u { s with engine := s.engine.lowerInFlight }

theorem answerUnit_current {t : Time} {d : PackIx} {u : Nat} {a : MemAnswer} {s : State} (hs : s.engine.state ≠ .stopping)
    (hd : ∀ x ∈ s.engine.discards, x.record ≠ d) :
    s.answerUnit t d u a = ((s.unitAnswered u a).endCommit t).endSuspending t := by
  have hnone : ¬ s.engine.discards? d = true := fun h => by
    obtain ⟨x, hx, hr⟩ := (discards?_iff _ _).1 h
    exact hd x hx hr
  rw [State.answerUnit, if_neg hs, if_neg hnone]
  cases a with
  | done d => rfl
  | fault => rfl

theorem answerUnit_discarded {t : Time} {d : PackIx} {u : Nat} {a : MemAnswer} {s : State} (hs : s.engine.state ≠ .stopping)
    (hd : ∃ x ∈ s.engine.discards, x.record = d) :
    s.answerUnit t d u a = State.endDiscarding t d { s with engine := s.engine.lowerDiscard d } := by
  rw [State.answerUnit, if_neg hs, if_pos ((discards?_iff _ _).2 hd)]

theorem answerUnit_stopping {t : Time} {d : PackIx} {u : Nat} {a : MemAnswer} {s : State} (hs : s.engine.state = .stopping) :
    s.answerUnit t d u a =
      State.endRestart { s with engine := if s.engine.discards? d then s.engine.lowerDiscard d else s.engine.lowerInFlight } :=
  if_pos hs

theorem endRestart_waits {s : State} (h : s.inFlight.any MemReq.isCommit = true) : s.endRestart = s := by
  refine if_neg fun hdue => ?_
  simp [State.restartDue, h] at hdue

theorem endRestart_done {s : State} (hs : s.engine.state = .stopping) (h : s.inFlight.any MemReq.isCommit = false) :
    s.endRestart = s.finishRestart := if_pos (by simp [State.restartDue, hs, h])

theorem discardingDue_iff (s : State) (d : PackIx) : s.discardingDue d = true ↔
    s.engine.state ≠ .stopping ∧ ∃ x ∈ s.engine.discards, x.record = d ∧ x.units = 0 := by
  simp [State.discardingDue]

end Sys2Proof.Machine

open Sys2Proof Sys2Proof.Machine

/-- Settles O26: an answer to a commit unit lowers the count it belongs to, and the event goes on as its ending does. -/
theorem commitUnitAnswer : Obligations.CommitUnitAnswer := by
  unfold Obligations.CommitUnitAnswer
  intro s r rs d u hflight howner
  have hexec := takeAnswer_unit hflight howner
  refine ⟨fun hs hpart hd => ?issuing, fun a hs hd hunits => ?discarded, fun a hs hcommit => ?waits, fun a hs hd => ?current,
    fun a hd => ⟨fun hs => ?ends, fun hs => ?stops⟩, fun a hs hd => ?stopped⟩
  case issuing =>
    have hstop : s.engine.state ≠ .stopping := by rw [hs]; nofun
    have hnosettle : s.engine.state ≠ .settling := by rw [hs]; nofun
    have hnosuspend : s.engine.state ≠ .suspending := by rw [hs]; nofun
    have hnoquiesce : s.part ≠ .quiesced := by rw [hpart]; nofun
    have goesOn : ∀ v : State, v.engine.state = s.engine.state → v.part = s.part →
        (v.endCommit s.clock).endSuspending s.clock = v := fun v he hp => by
      rw [endCommit_same (Or.inl (he ▸ hnosettle)), endSuspending_same (Or.inr ⟨he ▸ hnosuspend, Or.inr (hp ▸ hnoquiesce)⟩)]
    refine ⟨fun data => ?_, ?_⟩
    · rw [hexec, answerUnit_current (by exact hstop) (by exact hd)]
      exact congrArg (fun v : State => Host.Outcome.next v.refill) (goesOn _ rfl rfl)
    · rw [hexec, answerUnit_current (by exact hstop) (by exact hd)]
      exact congrArg (fun v : State => Host.Outcome.next v.refill) (goesOn _ rfl rfl)
  case discarded =>
    have hmore : ¬ State.discardingDue { s with inFlight := rs, engine := s.engine.lowerDiscard d } d = true := fun h => by
      obtain ⟨_, x, hx, hrecord, hzero⟩ := (discardingDue_iff _ _).1 h
      obtain ⟨y, hy, rfl⟩ := List.mem_map.1 hx
      by_cases he : y.record = d
      · rw [if_pos he] at hzero
        have hlt := hunits y hy he
        dsimp only at hzero
        omega
      · rw [if_neg he] at hrecord
        exact he hrecord
    rw [hexec, answerUnit_discarded (by exact hs) (by exact hd)]
    exact congrArg (fun v : State => Host.Outcome.next v.refill) (if_neg hmore)
  case waits =>
    refine ⟨if s.engine.discards? d then s.engine.lowerDiscard d else s.engine.lowerInFlight, ?_, ?_, ?_⟩
    · rw [hexec, answerUnit_stopping (by exact hs), endRestart_waits (by exact hcommit)]
    · split <;> exact hs
    · split <;> rfl
  case current =>
    intro done lowered
    have hlowered : State.unitAnswered u a { s with inFlight := rs } = lowered := by cases a <;> rfl
    have hstate : lowered.engine.state = s.engine.state := by cases a <;> rfl
    have hclock : lowered.clock = s.clock := by cases a <;> rfl
    have hunits : lowered.engine.unitsInFlight = s.engine.unitsInFlight - 1 := by cases a <;> rfl
    rw [hexec, answerUnit_current (by exact hs) (by exact hd), hlowered]
    refine ⟨fun hmore => ?_, fun hsettle => ⟨_, rfl, ?_⟩, fun hsuspend => ⟨_, rfl, ?_⟩,
      lowered.endCommit lowered.clock, _, rfl, rfl, ?_⟩
    · have hflight : lowered.engine.unitsInFlight ≠ 0 := by omega
      rw [endCommit_same (Or.inr hflight), endSuspending_same (Or.inl hflight)]
    · rw [endSuspending_endCommit (hstate.trans hsettle)]
      exact congrArg (fun n => Host.Outcome.next (lowered.endCommit n).refill) hclock.symm
    · rw [endCommit_same (Or.inl (by rw [hstate, hsuspend]; nofun))]
      exact congrArg (fun n => Host.Outcome.next (lowered.endSuspending n).refill) hclock.symm
    · rw [(keeps_endCommit lowered.clock lowered).clock, hclock]
  case ends =>
    refine ⟨_, rfl, ?_⟩
    rw [hexec, answerUnit_discarded (by exact hs) (by exact hd)]
    rfl
  case stops =>
    refine ⟨_, rfl, ?_⟩
    rw [hexec, answerUnit_stopping (by exact hs), if_pos ((discards?_iff _ _).2 hd)]
    rfl
  case stopped =>
    refine ⟨_, rfl, ?_⟩
    have hnone : ¬ s.engine.discards? d = true := fun h => by
      obtain ⟨x, hx, hr⟩ := (discards?_iff _ _).1 h
      exact hd x hx hr
    rw [hexec, answerUnit_stopping (by exact hs), if_neg hnone]
    rfl
end

/-! ## What the end of a commit leaves -/

section
namespace Sys2Proof.Machine

/-- The pack of a commit that has ended with no fault, READY at the tail of the ready queue, with PACK_READY raised and the commit
counted: the state in which the bindings of R131 are made (R121). -/
def State.readied (t : Time) (cur : Current) (s : State) : State :=
  let ready := State.raise t (.packReady cur.record cur.serial (s.pack cur.record).projected)
    { s.setPack cur.record { s.pack cur.record with state := .ready } with readyQueue := s.readyQueue ++ [cur.record] }
  { ready with counters := { ready.counters with commitsCompleted := satAdd ready.counters.commitsCompleted 1 } }

theorem commitReady_readied (t : Time) (cur : Current) (s : State) :
    s.commitReady t cur = { (s.readied t cur).bindReady t with engine := s.engine.ended cur.record } := commitReady_eq t cur s

theorem readied_spec (t : Time) (cur : Current) (s : State) :
    (s.readied t cur).readyQueue = s.readyQueue ++ [cur.record] ∧ (∀ j, (s.readied t cur).slot j = s.slot j) ∧
    (∀ j, (s.readied t cur).slotEnabled j = s.slotEnabled j) ∧
    (s.readied t cur).pack cur.record = { s.pack cur.record with state := .ready } ∧
    (∀ e, e ≠ cur.record → (s.readied t cur).pack e = s.pack e) ∧
    (s.readied t cur).clock = s.clock ∧ (s.readied t cur).idleLimit = s.idleLimit ∧
    (s.events.length < 32 → (s.readied t cur).events =
      s.events ++ [⟨t, .packReady cur.record cur.serial (s.pack cur.record).projected⟩]) ∧
    (s.readied t cur).counters.commitsCompleted = satAdd s.counters.commitsCompleted 1 := by
  refine ⟨State.raise_readyQueue _ _ _, fun j => slot_raise _ _ _ _, fun j => ?_, ?_, fun e he => ?_, State.raise_clock _ _ _,
    State.raise_idleLimit _ _ _, fun h => ?_, ?_⟩
  · exact congrArg (fun w => w.mask.getLsbD j.val) (State.raise_window _ _ _)
  · exact (pack_raise _ _ _ _).trans (State.pack_setPack_same s cur.record _)
  · exact (pack_raise _ _ _ _).trans (State.pack_setPack_other s _ he)
  · exact congrArg State.events (raise_room (by exact h) t _)
  · exact congrArg (fun n => satAdd n 1) (counters_raise Counters.commitsCompleted (fun _ => rfl) t _ _)

/-- With no enabled slot FREE the pack waits in the ready queue (R121, R131). -/
theorem bindReady_readied_waits (t : Time) (cur : Current) {s : State}
    (h : ∀ j : SlotIx, s.slotEnabled j = true → (s.slot j).bound ≠ none) :
    (s.readied t cur).bindReady t = s.readied t cur := by
  obtain ⟨_, hslot, henabled, _⟩ := readied_spec t cur s
  exact bindReady_same t (Or.inr (freeSlot_none fun j he => by
    rw [hslot]
    exact h j ((henabled j).symm.trans he)))

/-- With no pack ready before it, the pack is bound to the lowest enabled FREE slot (R121, R131). -/
theorem bindReady_readied_bound (t : Time) (cur : Current) {s : State} {j : SlotIx} (hq : s.readyQueue = [])
    (he : s.slotEnabled j = true) (hb : (s.slot j).bound = none)
    (hl : ∀ i : SlotIx, i < j → s.slotEnabled i = true → (s.slot i).bound ≠ none) :
    ((s.readied t cur).bindReady t).slot j =
      { bound := some ⟨cur.record, (s.pack cur.record).serial, (s.pack cur.record).projected⟩,
        idle := Deadline.arm s.clock s.idleLimit } ∧
    ((s.readied t cur).bindReady t).pack cur.record = { s.pack cur.record with state := .bound, viewSlot := some j } ∧
    ((s.readied t cur).bindReady t).readyQueue = [] ∧
    (s.events.length < 31 → ((s.readied t cur).bindReady t).events = s.events ++
      [⟨t, .packReady cur.record cur.serial (s.pack cur.record).projected⟩,
       ⟨t, .slotBound j (s.pack cur.record).serial (s.pack cur.record).projected⟩]) := by
  obtain ⟨hqueue, hslot, henabled, hpack, _, hclock, hlimit, hevents, _⟩ := readied_spec t cur s
  generalize s.readied t cur = u at hqueue hslot henabled hpack hclock hlimit hevents
  have hfree : u.freeSlot = some j := freeSlot_some ((henabled j).trans he) (by rw [hslot, hb]) fun i hi hen => by
    rw [hslot]
    exact hl i hi ((henabled i).symm.trans hen)
  have hone : u.readyQueue = [cur.record] := hqueue.trans (by rw [hq]; rfl)
  have hready : State.pack { u with readyQueue := [] } cur.record = { s.pack cur.record with state := .ready } := hpack
  rw [bindReady_one hone hfree]
  refine ⟨?_, ?_, readyQueue_bindSlot _ _ _ _, fun hroom => ?_⟩
  · rw [slot_bindSlot_same, hready]
    dsimp only
    rw [hclock, hlimit]
  · rw [pack_bindSlot, if_pos rfl, hready]
  · have hraised := hevents (by omega)
    rw [events_bindSlot (by dsimp only; rw [hraised, List.length_append]; exact Nat.succ_lt_succ hroom), hready]
    dsimp only
    rw [hraised, List.append_assoc]
    rfl

/-- A commit that ends with faults (R121). -/
theorem commitFailed_spec (t : Time) (cur : Current) (s : State) :
    (s.commitFailed t cur).pack cur.record = { s.pack cur.record with state := .failed } ∧
    (s.commitFailed t cur).readyQueue = s.readyQueue ∧
    (∀ e : PackIx, e ≠ cur.record → (s.commitFailed t cur).pack e = s.pack e) ∧
    (s.commitFailed t cur).counters.commitsFailed = satAdd s.counters.commitsFailed 1 ∧
    (s.events.length < 32 → (s.commitFailed t cur).events = s.events ++
      [⟨t, .commitFailed cur.record cur.serial s.engine.faults (s.engine.firstFaulted.getD 0)⟩]) := by
  refine ⟨?_, State.raise_readyQueue _ _ _, fun e he => ?_, ?_, fun h => ?_⟩
  · exact (pack_raise _ _ _ _).trans (State.pack_setPack_same s cur.record _)
  · exact (pack_raise _ _ _ _).trans (State.pack_setPack_other s _ he)
  · exact congrArg (fun n => satAdd n 1) (counters_raise Counters.commitsFailed (fun _ => rfl) t _ _)
  · exact congrArg State.events (raise_room (by exact h) t _)

/-- A QUIESCE onset in RUN refuses the held writes and then suspends the engine: the engine, the part and the events (R166). -/
theorem lineTo_onset_engine {s : State} (hlow : s.resetLow = false) (hline : s.quiesceLine = false) (hpart : s.part = .run)
    (hstop : s.engine.state ≠ .stopping) :
    ∃ w : State, s.lineTo true = w.engineOnset s.clock ∧ w.engine = s.engine ∧ w.part = .quiesced ∧ w.events = s.events := by
  obtain ⟨hrest, _⟩ := refuseHeldIn_spec allLanes { s with quiesceLine := true, part := .quiesced } nodup_allLanes
  refine ⟨State.refuseHeldIn allLanes { s with quiesceLine := true, part := .quiesced }, lineTo_onset hlow hline hpart hstop, ?_⟩
  rw [hrest]
  exact ⟨rfl, rfl, rfl⟩

end Sys2Proof.Machine

open Sys2Proof Sys2Proof.Machine

/-- Settles O27: the end of a SETTLING commit, and the completion of a suspension. -/
theorem commitEndAndSuspension : Obligations.CommitEndAndSuspension := by
  unfold Obligations.CommitEndAndSuspension
  refine ⟨fun s => ⟨fun h => ?same, fun cur hs hf hc => ?ends⟩, fun s => ⟨fun h => ?inFlight, fun h g => ?otherState,
    fun cur hs hf hc hroom => ?suspends⟩⟩
  case same => rw [exec, execCommitEnd, endCommit_same h]
  case inFlight => rw [exec, execCommitSuspended, endSuspending_same (Or.inl h)]
  case otherState => rw [exec, execCommitSuspended, endSuspending_same (Or.inr ⟨h, g⟩)]
  case suspends =>
    rw [exec, execCommitSuspended, endSuspending_suspends hs hf, suspend_eq hc, raise_room (by exact hroom)]
    rfl
  case ends =>
    refine ⟨s.endCommit s.clock, rfl, ?_⟩
    rw [endCommit_faults hs hf hc]
    obtain ⟨hengine, hkeeps, hserial⟩ := committed_spec s.clock cur hs rfl
    have hfailed : 0 < s.engine.faults →
        (if s.engine.faults = 0 then s.commitReady s.clock cur else s.commitFailed s.clock cur) = s.commitFailed s.clock cur :=
      fun h => if_neg (by omega)
    have hready : s.engine.faults = 0 →
        (if s.engine.faults = 0 then s.commitReady s.clock cur else s.commitFailed s.clock cur) = s.commitReady s.clock cur :=
      fun h => if_pos h
    generalize (if s.engine.faults = 0 then s.commitReady s.clock cur else s.commitFailed s.clock cur) = u
      at hengine hkeeps hserial hfailed hready
    have hidle : u.engine.state = .idle := by rw [hengine]; rfl
    have hrest := beginAfterEnd_eq u
    refine ⟨fun hq => ?_, ?_, fun hfaults => ?_, fun hfaults => ?_⟩
    · have hqueue : u.engine.queue = [] := by
        rw [hengine, Engine.ended, hq]
        simp
      rw [beginAfterEnd_same hidle (Or.inr hqueue), hengine]
      exact ⟨rfl, rfl, hengine ▸ hqueue⟩
    · intro e left
      have hwaits : s.part ≠ .run ∨ e.queue = [] → u.beginAfterEnd.engine = e := fun h => by
        rw [beginAfterEnd_same hidle (by rw [hkeeps.part, hengine]; exact h), hengine]
        rfl
      have hbegins : ∀ (d : PackIx) (ds : List PackIx), s.part = .run → e.queue = d :: ds →
          u.beginAfterEnd.engine = { s.begun d e with afterEnd := some left } := fun d ds hrun hq => by
        rw [beginAfterEnd_begun hidle (hkeeps.part.trans hrun) (by rw [hengine]; exact hq), hengine]
        simp only [State.begun, hserial d]
        rfl
      refine ⟨hwaits, hbegins, fun hrun hlow hline => ?_⟩
      generalize hv : u.beginAfterEnd = v at hwaits hbegins hrest ⊢
      have hkept : v.resetLow = false ∧ v.quiesceLine = false ∧ v.part = .run := by
        rw [hrest]
        exact ⟨hkeeps.resetLow.trans hlow, hkeeps.quiesceLine.trans hline, hkeeps.part.trans hrun⟩
      obtain ⟨hlow, hline, hpart⟩ := hkept
      cases hq : e.queue with
      | nil =>
        have he := hwaits (Or.inr hq)
        obtain ⟨w, hline, hengine, hpart, hevents⟩ := lineTo_onset_engine hlow hline hpart (by rw [he]; nofun)
        refine ⟨w.engineOnset v.clock, by rw [exec, execQuiesceOnset, hline], ?_⟩
        rw [engineOnset_of_not_issuing (by rw [hengine, he]; nofun)]
        exact ⟨hpart, hengine.trans he, hevents⟩
      | cons d ds =>
        have he := hbegins d ds hrun hq
        obtain ⟨w, hline, hengine, hpart, hevents⟩ := lineTo_onset_engine hlow hline hpart (by rw [he]; nofun)
        refine ⟨w.engineOnset v.clock, by rw [exec, execQuiesceOnset, hline], ?_⟩
        rw [engineOnset_unbegun (l := left) (by rw [hengine, he]; rfl) (by rw [hengine, he])]
        refine ⟨hpart, ?_, hevents⟩
        change Engine.unbegun left (State.engine _) = e
        rw [hengine, he]
        simp only [Engine.unbegun, State.begun, e, left, hf]
    · obtain ⟨e', he'⟩ : ∃ e', u.beginAfterEnd = { u with engine := e' } := ⟨_, hrest⟩
      rw [he', hfailed hfaults]
      exact commitFailed_spec s.clock cur s
    · obtain ⟨e', he'⟩ : ∃ e', u.beginAfterEnd = { u with engine := e' } := ⟨_, hrest⟩
      rw [he', hready hfaults, commitReady_readied]
      obtain ⟨hqueue, _, _, hpack, hother, _, _, hevents, hcounted⟩ := readied_spec s.clock cur s
      refine ⟨?_, fun hnone => ?_, rfl, fun j hq he hb hl => bindReady_readied_bound s.clock cur hq he hb hl⟩
      · exact (counters_bindReady Counters.commitsCompleted (fun _ => rfl) s.clock _).trans hcounted
      · rw [bindReady_readied_waits s.clock cur hnone]
        exact ⟨hpack, hqueue, hother, hevents⟩
end

/-! ## Drains of the wait list -/

section
namespace Sys2Proof.Machine

/-! ### Rounds -/

/-- A round of a drain, and the rest of it (R100). -/
theorem drainWaitList_cons (t : Time) {s : State} {m : MemberIx} {rest : List MemberIx} {d : PackIx} (h : s.waitList = m :: rest)
    (hd : s.freePack = some d) : s.drainWaitList t = (s.drainRound t m d).drainWaitList t := by
  have hround := length_waitList_drainRound t d h
  rw [h, List.length_cons] at hround
  rw [State.drainWaitList, h, List.length_cons, State.drainRounds, h, hd]
  exact drainRounds_enough t rest.length _ _ (by omega) (Nat.le_refl _)

theorem drainWaitList_stop (t : Time) {s : State} (h : s.freePack = none) : s.drainWaitList t = s := by
  rw [State.drainWaitList]
  cases s.waitList.length with
  | zero => rfl
  | succ n =>
    rw [State.drainRounds, h]
    cases s.waitList <;> rfl

theorem classes_drainMembers (t : Time) (c : ClassIx) (ms : List MemberIx) (s : State) :
    (s.drainMembers t c ms).1.classes = s.classes := (assembles_drainMembers t c ms s).classes

/-- A round of a drain ends with the seal of a disabled class, when all were added (R100, R93). -/
theorem drainRound_eq (t : Time) (d : PackIx) {m : MemberIx} {rest : List MemberIx} {s : State} (h : s.waitList = m :: rest)
    {c : ClassIx} (hc : (s.member m).cls = c) {r : State × Bool}
    (hr : (s.openWaiting t m c d).drainMembers t c (rest.filter (fun w => decide ((s.member w).cls = c))) = r) :
    s.drainRound t m d = if r.2 = true ∧ (s.cls c).enabled = false then r.1.sealClassPack t .classClosed c else r.1 := by
  have hclasses : r.1.classes = s.classes := by
    rw [← hr, classes_drainMembers]
    exact (assembles_openWaiting t m c d s).classes
  subst hc
  have hround : s.drainRound t m d = if r.2 then r.1.closeIfDisabled t (s.member m).cls else r.1 := by
    rw [← hr, State.drainRound, h]
    rfl
  rw [hround, closeIfDisabled_eq hclasses]
  cases r.2 <;> cases (s.cls (s.member m).cls).enabled <;> rfl

/-! ### The further members of a drain -/

theorem drainMembers_fits (t : Time) {c : ClassIx} {m : MemberIx} {ms : List MemberIx} {s : State} {d : PackIx}
    (h : s.openPackOf c = some d) (hf : (s.pack d).fits s.tapeBlock (s.member m).dataLength = true) :
    s.drainMembers t c (m :: ms) = ((s.unwait m).addMember t m d).drainMembers t c ms := by
  rw [State.drainMembers, h]
  exact if_pos hf

theorem drainMembers_full (t : Time) {c : ClassIx} {m : MemberIx} {ms : List MemberIx} {s : State} {d : PackIx}
    (h : s.openPackOf c = some d) (hf : ¬ (s.pack d).fits s.tapeBlock (s.member m).dataLength = true) :
    s.drainMembers t c (m :: ms) =
      match (s.sealPack t .size d).freePack with
      | some e => ((s.sealPack t .size d).openWaiting t m c e).drainMembers t c ms
      | none => (s.sealPack t .size d, false) := by
  rw [State.drainMembers, h]
  exact if_neg hf

theorem drainMembers_unopened (t : Time) {c : ClassIx} {m : MemberIx} {ms : List MemberIx} {s : State}
    (h : s.openPackOf c = none) :
    s.drainMembers t c (m :: ms) =
      match s.freePack with
      | some e => (s.openWaiting t m c e).drainMembers t c ms
      | none => (s, false) := by
  rw [State.drainMembers, h] <;> rfl

end Sys2Proof.Machine

open Sys2Proof Sys2Proof.Machine

/-- Settles O28: the end of DISCARDING and of a RESTART, and a drain round by round. -/
theorem discardingEndAndRestartCompletion : Obligations.DiscardingEndAndRestartCompletion := by
  unfold Obligations.DiscardingEndAndRestartCompletion
  refine ⟨fun s => ⟨fun d hs hd => ?discarding, fun d hs => ?stopping, fun hs h => ?restart, fun h => ?waits⟩,
    fun s t => ⟨fun h => ?noDrain, fun m rest d hw hfree hbelow => ?round⟩, fun s t c m ms => ?members⟩
  case discarding =>
    have hend : exec (.discardingEnd d) s = .next (State.drainWaitList s.clock (State.setPack d {} { s with
        engine := { s.engine with discards := s.engine.discards.filter (fun x => decide (x.record ≠ d)) } })) := by
      rw [exec, execDiscardingEnd, State.endDiscarding, if_pos ((discardingDue_iff s d).2 ⟨hs, hd⟩)]
      rfl
    exact ⟨hend, fun hw => hend.trans (congrArg _ (drainWaitList_nil s.clock hw))⟩
  case stopping =>
    rw [exec, execDiscardingEnd, State.endDiscarding, if_neg fun h => ((discardingDue_iff s d).1 h).1 hs]
  case restart =>
    rw [exec, execRestartCompletion, endRestart_done hs h]
    rfl
  case waits => rw [exec, execRestartCompletion, endRestart_waits h]
  case noDrain => exact h.elim (drainWaitList_nil t) fun hfull => drainWaitList_stop t (freePack_none hfull)
  case round =>
    intro c r
    rw [drainWaitList_cons t hw (freePack_some hfree hbelow), drainRound_eq t d hw rfl rfl]
  case members =>
    intro left
    refine ⟨rfl, fun d => rfl, fun d hopen => ?_, fun hopen => ?_⟩
    · intro p fits u
      have hfits : fits ↔ (s.pack d).fits s.tapeBlock (s.member m).dataLength = true := (fits_iff _ _ _).symm
      refine ⟨fun hf => drainMembers_fits t hopen (hfits.1 hf), fun hf hfull => ?_, fun e hf hfree hbelow => ?_⟩
      · rw [drainMembers_full t hopen (mt hfits.2 hf), freePack_none hfull]
      · rw [drainMembers_full t hopen (mt hfits.2 hf), freePack_some hfree hbelow]
    · refine ⟨fun hfull => ?_, fun e hfree hbelow => ?_⟩
      · rw [drainMembers_unopened t hopen, freePack_none hfull]
      · rw [drainMembers_unopened t hopen, freePack_some hfree hbelow]
end

/-! ## The pack clock, its deadlines and their expiries -/

section
namespace Sys2Proof.Machine

/-! ### Deadlines -/

theorem Deadline.onTick_eq (now : Time) (d : Deadline) : d.onTick now = if d = .pending now then .due now else d := by
  cases d with
  | pending v =>
    by_cases h : v = now
    · rw [h, if_pos rfl]
      exact if_pos rfl
    · rw [if_neg (fun he => h (Deadline.pending.inj he))]
      exact if_neg h
  | absent => rfl
  | due v => rfl
  | dormant => rfl

theorem clampTime_toNat (n : Nat) : (clampTime n).toNat = min n (2 ^ 48 - 1) := by
  rw [clampTime, BitVec.toNat_ofNat, Nat.mod_eq_of_lt]
  omega

theorem timeMax_toNat : timeMax.toNat = 2 ^ 48 - 1 := rfl

/-- A deadline armed below the end of the clock is pending ahead of it (R152). -/
theorem Deadline.arm_pending {now : Time} (h : now ≠ timeMax) (limit : Nat) : ∃ v : Time, Deadline.arm now limit = .pending v ∧
    v.toNat = min (now.toNat + limit) (2 ^ 48 - 1) ∧ (1 ≤ limit → now < v) := by
  have hnow : now.toNat ≠ 2 ^ 48 - 1 := fun he => h (BitVec.eq_of_toNat_eq (he.trans timeMax_toNat.symm))
  refine ⟨clampTime (now.toNat + limit), if_neg h, clampTime_toNat _, fun hlimit => ?_⟩
  rw [BitVec.lt_def, clampTime_toNat]
  omega

/-! ### A tick with nothing due -/

/-- The clock goes on: what a tick changes when nothing is due (R150, R151, R153). -/
theorem advanceClock_spec (s : State) :
    s.advanceClock = { s.clockOn with events := s.advanceClock.events, overflow := s.advanceClock.overflow,
                                      counters := s.advanceClock.counters } ∧
    (s.clock + 1 ≠ timeMax → s.advanceClock.events = s.events ∧ s.advanceClock.counters = s.counters) ∧
    (s.clock + 1 = timeMax → s.events.length < 32 →
      s.advanceClock.events = s.events ++ [⟨s.clock + 1, .clockEnd⟩]) := by
  rw [advanceClock_eq]
  refine ⟨?_, fun h => by rw [if_neg h]; exact ⟨rfl, rfl⟩, fun h hroom => ?_⟩
  · split
    · unfold State.raise
      split <;> rfl
    · rfl
  · rw [if_pos h, raise_room (by exact hroom)]
    rfl

/-! ### A release pass and the other lanes -/

theorem lane_mapLane_other {j k : LaneIx} (h : j ≠ k) (f : Lane → Lane) (s : State) : (s.mapLane k f).lane j = s.lane j :=
  State.lane_setLane_other s _ h

theorem lane_of_lanes {s t : State} (h : t.lanes = s.lanes) (j : LaneIx) : t.lane j = s.lane j := by
  rw [State.lane, h]
  rfl

theorem lane_completeMember_other {j k : LaneIx} (h : j ≠ k) (t : Time) (m : MemberIx) (s : State) :
    (s.completeMember t k m).lane j = s.lane j :=
  (lane_of_lanes (assembles_assemble t m _).lanes j).trans (lane_mapLane_other h _ _)

theorem lane_takeFile_other {j k : LaneIx} (h : j ≠ k) (t : Time) (n : Nat) (b : List Byte) (f : LeadFields) (s : State) :
    (s.takeFile t k n b f).lane j = s.lane j := by
  unfold State.takeFile
  split
  · rfl
  · dsimp only
    split
    · exact (lane_completeMember_other h _ _ _).trans (lane_mapLane_other h _ _)
    · exact (lane_mapLane_other h _ _).trans (lane_mapLane_other h _ _)

theorem lane_takeData_other {j k : LaneIx} (h : j ≠ k) (t : Time) (b : Byte) (last : Bool) (s : State) :
    (s.takeData t k b last).lane j = s.lane j := by
  unfold State.takeData
  split
  · rfl
  · dsimp only
    split
    · exact lane_completeMember_other h _ _ _
    · rfl

theorem lane_resyncIf (j k : LaneIx) (t : Time) (n : Nat) (r : Bool) (s : State) : (s.resyncIf t k n r).lane j = s.lane j := by
  unfold State.resyncIf
  split
  · exact lane_of_lanes (State.raise_lanes _ _ _) j
  · rfl

/-- What a byte of lane `k` gives rise to leaves the other lanes (R23). -/
theorem lane_takeFound_other {j k : LaneIx} (h : j ≠ k) (t : Time) (x : Option Found) (s : State) :
    (s.takeFound t k x).lane j = s.lane j := by
  unfold State.takeFound
  split
  · rfl
  · exact (lane_takeFile_other h _ _ _ _ _).trans (lane_resyncIf j k _ _ _ s)
  · exact (lane_of_lanes (assembles_sealClassPack _ _ _ _).lanes j).trans (lane_resyncIf j k _ _ _ s)
  · exact (lane_mapLane_other h _ _).trans (lane_of_lanes (State.raise_lanes _ _ _) j)
  · exact lane_takeData_other h _ _ _ s

theorem lane_parseBytes_other {j k : LaneIx} (h : j ≠ k) (t : Time) (bs : List Byte) (s : State) :
    (s.parseBytes t k bs).lane j = s.lane j := by
  induction bs generalizing s with
  | nil => rfl
  | cons b bs ih =>
    rw [State.parseBytes]
    exact (ih _).trans ((lane_takeFound_other h _ _ _).trans (State.lane_setLane_other s _ h))

/-- An accepted write of lane `k` leaves the other lanes (R46). -/
theorem lane_acceptWrite_other {j k : LaneIx} (h : j ≠ k) (t : Time) (w : HeldWrite) (s : State) :
    (s.acceptWrite t k w).lane j = s.lane j :=
  (lane_mapLane_other h _ _).trans (lane_parseBytes_other h _ _ s)

theorem lane_serveHeads_other {j k : LaneIx} (h : j ≠ k) (t : Time) (ws : List HeldWrite) (accepted : Bool) (s : State) :
    (s.serveHeads t k ws accepted).lane j = s.lane j := by
  induction ws generalizing s accepted with
  | nil =>
    rw [State.serveHeads]
    split
    · exact lane_mapLane_other h _ s
    · rfl
  | cons w ws ih =>
    rw [State.serveHeads]
    split
    · have hmap : (s.mapLane k (fun l => { l with hold := ws })).lane j = s.lane j := lane_mapLane_other h _ s
      exact (ih _ _).trans ((lane_acceptWrite_other h _ _ _).trans hmap)
    · split
      · exact lane_mapLane_other h _ s
      · rfl

/-- A release pass leaves a lane that holds no write (R50). -/
theorem lane_releasePass_unheld {k : LaneIx} (t : Time) {s : State} (h : (s.lane k).hold = []) :
    (s.releasePass t).lane k = s.lane k := by
  have pass : ∀ (ks : List LaneIx) (u : State), (u.lane k).hold = [] → (u.serveLanes t ks).lane k = u.lane k := fun ks => by
    induction ks with
    | nil => exact fun u _ => rfl
    | cons x ks ih =>
      intro u hu
      have hlane : (u.serveHeads t x (u.lane x).hold false).lane k = u.lane k := by
        by_cases hx : k = x
        · subst hx
          rw [hu]
          rfl
        · exact lane_serveHeads_other hx t _ _ u
      rw [State.serveLanes, ih _ (by rw [hlane]; exact hu), hlane]
  exact pass _ s h

/-! ### The expiry of a hold deadline -/

theorem takeHoldExpiry_due {s : State} {k : LaneIx} {v : Time} (h : (s.lane k).holdDeadline = .due v) :
    s.takeHoldExpiry k = (s.expireHold v k).refill := by
  rw [State.takeHoldExpiry, h]

/-- The lane after the expiry of its hold deadline, before a receiving member is broken (R51). -/
def Lane.expired (l : Lane) : Lane :=
  { l with
    parser := .seek, leadBuffer := [], candidate := [], pendingLead := none, receiving := none, remaining := 0
    hold := [], holdDeadline := .absent, counts := { l.counts with holdExpiries := satAdd l.counts.holdExpiries 1 } }

/-- The lane after the expiry of its hold deadline with receiving member `m` broken (R51, R36). -/
def Lane.expiredBroken (l : Lane) (m : MemberIx) : Lane :=
  { l.expired with
    order := l.order.filter (fun i => decide (i ≠ m))
    counts := { l.expired.counts with brokenMembers := satAdd l.counts.brokenMembers 1 } }

/-- The state with the held writes of lane `k` refused, in queue order (R51). -/
def State.holdRefused (k : LaneIx) (s : State) : State :=
  { s with sent := s.sent ++ (s.lane k).hold.map (fun w => ⟨w.tag, .refused⟩) }

theorem mapLane_setLane (k : LaneIx) (f : Lane → Lane) (l : Lane) (s : State) :
    (s.setLane k l).mapLane k f = s.setLane k (f l) := by
  rw [State.mapLane, State.lane_setLane_same, setLane_setLane]

theorem refuseHeld_eq (k : LaneIx) (s : State) :
    s.refuseHeld k = (s.holdRefused k).setLane k { s.lane k with hold := [], holdDeadline := .absent } := by
  rw [State.refuseHeld, refuseAll_eq]
  rfl

/-- The refusal, the event and the count of an expiry, before a receiving member is broken (R51). -/
theorem expireHold_eq (v : Time) (k : LaneIx) (s : State) : s.expireHold v k =
    ((((s.holdRefused k).raise v (.holdExpired k (s.lane k).hold.length (s.lane k).cursor)).setLane k
      { s.lane k with hold := [], holdDeadline := .absent,
                      counts := { (s.lane k).counts with holdExpiries := satAdd (s.lane k).counts.holdExpiries 1 } }).breakMember
        v .holdExpired k |>.mapLane k Lane.enterSeek).releasePass v := by
  rw [State.expireHold, refuseHeld_eq, raise_setLane, mapLane_setLane]
  rfl

theorem raise_setMember (t : Time) (e : EventBody) (m : MemberIx) (r : Member) (s : State) :
    (s.setMember m r).raise t e = (s.raise t e).setMember m r := by
  unfold State.raise State.setMember
  dsimp only
  split <;> rfl

theorem breakMember_none {u : State} {l : Lane} {k : LaneIx} (h : l.receiving = none) (t : Time) (c : BreakCause) :
    (u.setLane k l).breakMember t c k = u.setLane k l := by
  rw [State.breakMember, State.lane_setLane_same, h]

theorem breakMember_some {u : State} {l : Lane} {k : LaneIx} {m : MemberIx} (h : l.receiving = some m) (t : Time)
    (c : BreakCause) : (u.setLane k l).breakMember t c k =
      ((u.setMember m {}).raise t (.memberBroken k m (u.member m).leadOffset c (u.member m).received)).setLane k
        { l with
          order := l.order.filter (fun i => decide (i ≠ m)), receiving := none, remaining := 0
          counts := { l.counts with brokenMembers := satAdd l.counts.brokenMembers 1 } } := by
  have hmap : ∀ f : Lane → Lane, ((u.setLane k l).setMember m {}).mapLane k f = (u.setMember m {}).setLane k (f l) :=
    fun f => mapLane_setLane k f l (u.setMember m {})
  rw [State.breakMember, State.lane_setLane_same, h]
  dsimp only
  rw [hmap, raise_setLane]
  rfl

theorem expireHold_idle {v : Time} {k : LaneIx} {s : State} (h : (s.lane k).receiving = none) : s.expireHold v k =
    (((s.holdRefused k).setLane k (s.lane k).expired).raise v
      (.holdExpired k (s.lane k).hold.length (s.lane k).cursor)).releasePass v := by
  rw [expireHold_eq, breakMember_none (by exact h), mapLane_setLane, raise_setLane]
  rfl

theorem expireHold_receiving {v : Time} {k : LaneIx} {m : MemberIx} {s : State} (h : (s.lane k).receiving = some m) :
    s.expireHold v k =
    (((((s.holdRefused k).setMember m {}).setLane k ((s.lane k).expiredBroken m)).raise v
      (.holdExpired k (s.lane k).hold.length (s.lane k).cursor)).raise v
      (.memberBroken k m (s.member m).leadOffset .holdExpired (s.member m).received)).releasePass v := by
  have hmember : ∀ e : EventBody, ((s.holdRefused k).raise v e).member m = s.member m := fun e => by
    rw [State.member, State.raise_members]
    rfl
  rw [expireHold_eq, breakMember_some (m := m) (by exact h), hmember, mapLane_setLane, raise_setLane, raise_setLane,
    raise_setMember v (.holdExpired k _ _)]
  rfl

/-- With no write held in another lane none is held once those of lane `k` are gone (R51). -/
theorem nothingHeld_of_others {s u : State} {k : LaneIx} (hk : (u.lane k).hold = [])
    (hu : ∀ j, j ≠ k → u.lane j = s.lane j) (h : ∀ j : LaneIx, j ≠ k → (s.lane j).hold = []) : u.nothingHeld := fun j => by
  by_cases hj : j = k
  · rw [hj, hk]
  · rw [hu j hj, h j hj]

theorem lane_raise_setLane_same (t : Time) (e : EventBody) (k : LaneIx) (l : Lane) (u : State) :
    ((u.setLane k l).raise t e).lane k = l :=
  (lane_of_lanes (State.raise_lanes _ t e) k).trans (State.lane_setLane_same u k l)

theorem lane_raise_setLane_other (t : Time) (e : EventBody) {j k : LaneIx} (h : j ≠ k) (l : Lane) (u : State) :
    ((u.setLane k l).raise t e).lane j = u.lane j :=
  (lane_of_lanes (State.raise_lanes _ t e) j).trans (State.lane_setLane_other u l h)

end Sys2Proof.Machine

open Sys2Proof Sys2Proof.Machine

/-- Settles O36: a tick takes what is due, and then the clock goes on. -/
theorem tickRaisesClockAndMakesDue : Obligations.TickRaisesClockAndMakesDue := by
  unfold Obligations.TickRaisesClockAndMakesDue
  intro s owners
  refine ⟨fun h => congrArg Host.Outcome.next (if_pos h), fun h => ?taken, fun hdue h => ?ticks⟩
  case taken =>
    have hfold : owners.foldl State.carriedOut s = s.takeDue := foldl_carriedOut_expiries s
    have hclock := (keeps_takeDue s).clock
    intro u
    have hu : u = s.takeDue := hfold
    rw [hu]
    refine ⟨nothingDue_takeDue s, hclock, ?_⟩
    rw [exec, execPackClockTick, exec, execPackClockTick, tick_eq h, tick_eq (by rw [hclock]; exact h),
      takeDue_of_nothingDue (nothingDue_takeDue s)]
  case ticks =>
    obtain ⟨hclock, hbelow, hend⟩ := advanceClock_spec s
    refine ⟨s.advanceClock, ?_, ?_⟩
    · rw [exec, execPackClockTick, tick_eq h, takeDue_of_nothingDue hdue]
    generalize s.advanceClock = t at hclock hbelow hend
    have hlane : ∀ k, t.lane k = s.clockOn.lane k := fun k => by rw [hclock]; rfl
    have hpack : ∀ d, t.pack d = s.clockOn.pack d := fun d => by rw [hclock]; rfl
    have hslot : ∀ j, t.slot j = s.clockOn.slot j := fun j => by rw [hclock]; rfl
    refine ⟨by rw [hclock]; rfl, by rw [hclock]; rfl, fun k => ?_, fun d => ?_, fun j => ?_, hbelow, hend, by rw [hclock]; rfl,
      by rw [hclock]; rfl, by rw [hclock]; rfl, by rw [hclock]; rfl, by rw [hclock]; rfl⟩
    · rw [hlane, lane_clockOn, Deadline.onTick_eq]
    · rw [hpack, pack_clockOn, Deadline.onTick_eq]
    · rw [hslot, slot_clockOn, Deadline.onTick_eq]

/-- Settles O37: what arms a deadline, and how SET_CLOCK rebases each. -/
theorem deadlinesArmAndRebase : Obligations.DeadlinesArmAndRebase := by
  unfold Obligations.DeadlinesArmAndRebase
  refine ⟨fun now limit => ⟨fun h => if_pos h, fun h => Deadline.arm_pending h limit⟩, fun s p h => ⟨fun hlate => ?late,
    fun hearly => ?early⟩, fun now p limit => ⟨rfl, fun v => rfl, rfl, fun v _ => ⟨_, rfl, clampTime_toNat _⟩⟩⟩
  case late =>
    rw [exec, execSetClock, takeFrame_linkFree h, State.carryOutSetClock, if_pos hlate]
    rfl
  case early =>
    refine ⟨State.respond .ok (le 6 p.toNat) ((s.taken 9).preset p), ?_, rfl, fun d => ?_, fun k => ?_, fun j => ?_⟩
    · rw [exec, execSetClock, takeFrame_linkFree h, State.carryOutSetClock, if_neg (Nat.not_lt.2 hearly)]
      rfl
    · exact pack_preset p (s.taken 9) d
    · exact lane_preset p (s.taken 9) k
    · exact slot_preset p (s.taken 9) j

/-- Settles O38: the expiry of a hold deadline and of an age deadline. -/
theorem holdAndAgeExpiries : Obligations.HoldAndAgeExpiries := by
  unfold Obligations.HoldAndAgeExpiries
  refine ⟨fun s k => ⟨fun h => ?notDue, fun v h => ?effects⟩, fun s k v h => ?states, fun s d => ⟨fun h => ?noAge,
    fun v h hopen hcanon => ?age⟩⟩
  case notDue => rw [exec, execHoldExpiry, takeHoldExpiry_of h]
  case noAge => rw [exec, execAgeExpiry, takeAgeExpiry_of h]
  case age =>
    refine ⟨s.sealPack v .age d, ?_, sealPack_sealedIn v .age d s hcanon⟩
    rw [exec, execAgeExpiry, State.takeAgeExpiry, h]
    dsimp only
    rw [if_pos hopen]
  case states =>
    intro l expired counts refused seeking
    have hexec : exec (.holdExpiry k) s = .next (s.expireHold v k).refill := by
      rw [exec, execHoldExpiry, takeHoldExpiry_due h]
    refine ⟨fun hr => ?_, fun m hr => ?_⟩
    · rw [hexec, expireHold_idle hr]
      rfl
    · intro broken raised
      refine ⟨fun hcanon => ?_, ?_⟩
      · have hput : (s.setMember m {}).member m = {} := (MemberTable.get_put hcanon m m {}).trans (if_pos rfl)
        rw [State.member, State.raise_members, State.raise_members]
        exact hput
      · rw [hexec, expireHold_receiving hr]
        rfl
  case effects =>
    refine ⟨s.expireHold v k, by rw [exec, execHoldExpiry, takeHoldExpiry_due h], ?_⟩
    cases hr : (s.lane k).receiving with
    | none =>
      rw [expireHold_idle hr]
      have hlane := lane_raise_setLane_same v (.holdExpired k (s.lane k).hold.length (s.lane k).cursor) k (s.lane k).expired
        (s.holdRefused k)
      have hothers := fun j (hj : j ≠ k) => lane_raise_setLane_other v
        (.holdExpired k (s.lane k).hold.length (s.lane k).cursor) hj (s.lane k).expired (s.holdRefused k)
      have hsent := State.raise_sent ((s.holdRefused k).setLane k (s.lane k).expired) v
        (.holdExpired k (s.lane k).hold.length (s.lane k).cursor)
      have hmembers := State.raise_members ((s.holdRefused k).setLane k (s.lane k).expired) v
        (.holdExpired k (s.lane k).hold.length (s.lane k).cursor)
      have hevents := fun hroom => congrArg State.events (raise_room (s := (s.holdRefused k).setLane k (s.lane k).expired)
        hroom v (.holdExpired k (s.lane k).hold.length (s.lane k).cursor))
      generalize State.raise v _ _ = u at hlane hothers hsent hmembers hevents
      have hpass := lane_releasePass_unheld v (k := k) (s := u) (by rw [hlane]; rfl)
      rw [hpass, hlane]
      refine ⟨(passes_releasePass v u).sent.trans hsent, rfl, rfl, rfl, rfl, rfl, rfl, rfl, rfl, rfl, fun hheld hroom => ⟨fun _ => ?_,
        nofun⟩⟩
      rw [releasePass_nothingHeld v (nothingHeld_of_others (by rw [hlane]; rfl) hothers hheld)]
      exact ⟨hmembers, hevents (Nat.lt_succ_of_lt hroom)⟩
    | some m =>
      rw [expireHold_receiving hr]
      have hlane := lane_raise_setLane_same v (.holdExpired k (s.lane k).hold.length (s.lane k).cursor) k
        ((s.lane k).expiredBroken m) ((s.holdRefused k).setMember m {})
      have hothers := fun j (hj : j ≠ k) => lane_raise_setLane_other v
        (.holdExpired k (s.lane k).hold.length (s.lane k).cursor) hj ((s.lane k).expiredBroken m) ((s.holdRefused k).setMember m {})
      have hsent := State.raise_sent (((s.holdRefused k).setMember m {}).setLane k ((s.lane k).expiredBroken m)) v
        (.holdExpired k (s.lane k).hold.length (s.lane k).cursor)
      have hmembers := State.raise_members (((s.holdRefused k).setMember m {}).setLane k ((s.lane k).expiredBroken m)) v
        (.holdExpired k (s.lane k).hold.length (s.lane k).cursor)
      have hevents := fun hroom => congrArg State.events
        (raise_room (s := ((s.holdRefused k).setMember m {}).setLane k ((s.lane k).expiredBroken m)) hroom v
          (.holdExpired k (s.lane k).hold.length (s.lane k).cursor))
      generalize State.raise v (.holdExpired k (s.lane k).hold.length (s.lane k).cursor) _ = u
        at hlane hothers hsent hmembers hevents ⊢
      have hlanes := lane_of_lanes (State.raise_lanes u v
        (.memberBroken k m (s.member m).leadOffset .holdExpired (s.member m).received))
      have hsent := (State.raise_sent u v
        (.memberBroken k m (s.member m).leadOffset .holdExpired (s.member m).received)).trans hsent
      have hmembers := (State.raise_members u v
        (.memberBroken k m (s.member m).leadOffset .holdExpired (s.member m).received)).trans hmembers
      have hbroken := fun hroom => congrArg State.events (raise_room (s := u) hroom v
        (.memberBroken k m (s.member m).leadOffset .holdExpired (s.member m).received))
      generalize State.raise v (.memberBroken k m (s.member m).leadOffset .holdExpired (s.member m).received) u = w
        at hlanes hsent hmembers hbroken ⊢
      have hwlane := (hlanes k).trans hlane
      have hpass := lane_releasePass_unheld v (k := k) (s := w) (by rw [hwlane]; rfl)
      rw [hpass, hwlane]
      refine ⟨(passes_releasePass v w).sent.trans hsent, rfl, rfl, rfl, rfl, rfl, rfl, rfl, rfl, rfl, fun hheld hroom =>
        ⟨nofun, fun x hx hcanon => ?_⟩⟩
      cases hx
      rw [releasePass_nothingHeld v (nothingHeld_of_others (by rw [hwlane]; rfl)
        (fun j hj => (hlanes j).trans (hothers j hj)) hheld)]
      have hexpired : u.events = s.events ++ [⟨v, .holdExpired k (s.lane k).hold.length (s.lane k).cursor⟩] :=
        hevents (Nat.lt_succ_of_lt hroom)
      refine ⟨?_, rfl, ?_⟩
      · rw [State.member, hmembers]
        exact (MemberTable.get_put hcanon m m {}).trans (if_pos rfl)
      · rw [hbroken (by rw [hexpired, List.length_append]; exact Nat.succ_lt_succ hroom)]
        dsimp only
        rw [hexpired, List.append_assoc]
        rfl
end

/-! ## The management link: frames, responses and settings -/

section
namespace Sys2Proof.Machine

/-! ### Frames -/

/-- The form of a frame that R160 discards, by the fields of the frame. -/
theorem frameMalformed_iff (bytes : List Byte) (n : Nat) : frameMalformed bytes n = true ↔
    n ≠ 0 ∨ bytes.length ≠ 3 + field bytes 1 2 ∨ 64 < field bytes 1 2 := by
  have hfield : (bytes.getD 1 0).toNat + 256 * (bytes.getD 2 0).toNat = field bytes 1 2 := by
    match bytes with
    | [] => rfl
    | [_] => rfl
    | [_, b] => rfl
    | _ :: b :: c :: _ => rfl
  rw [frameMalformed, hfield, Bool.or_eq_true, Bool.or_eq_true, bne_iff_ne, bne_iff_ne, decide_eq_true_iff]
  exact or_assoc

theorem selectPeriod_discarded {s : State} {bytes : List Byte} {x : FrameEdges} (hlow : s.resetLow = false) (hne : bytes ≠ [])
    (hcode : bytes.head? ≠ some 0xF0)
    (h : x.extraBits.val ≠ 0 ∨ bytes.length ≠ 3 + field bytes 1 2 ∨ 64 < field bytes 1 2 ∨ x.begunBusy = true ∨
      s.response = .busy) : s.selectPeriod bytes x = s.discardFrame bytes.length := by
  obtain ⟨code, rest, rfl⟩ := List.exists_cons_of_ne_nil hne
  have hread : code ≠ Config.responseReadCode := fun e => hcode (congrArg some e)
  rw [State.selectPeriod, if_neg (by rw [hlow]; exact Bool.false_ne_true), if_neg hread]
  by_cases hform : (x.begunBusy || frameMalformed (code :: rest) x.extraBits.val) = true
  · rw [if_pos hform]
  · rw [if_neg hform]
    rw [Bool.or_eq_true, frameMalformed_iff] at hform
    have hbusy : s.response = .busy := by tauto
    rw [State.takeFrame, if_neg (by rw [hlow]; exact Bool.false_ne_true), if_pos hbusy]

theorem takeFrame_busy {s : State} (hlow : s.resetLow = false) (hbusy : s.response = .busy) (n : Nat) (body : State → State) :
    s.takeFrame n body = s.discardFrame n := by
  rw [State.takeFrame, if_neg (by rw [hlow]; exact Bool.false_ne_true), if_pos hbusy]

/-- The bytes of a whole frame (R160). -/
theorem frame_length (code : Byte) (payload : List Byte) : (code :: le 2 payload.length ++ payload).length = 3 + payload.length := by
  simp only [List.cons_append, List.length_cons, List.length_append, le_length]
  omega

/-- Every command frame that ends while the response is BUSY is discarded (R160). -/
theorem exec_frame_busy {s : State} (hlow : s.resetLow = false) (hbusy : s.response = .busy) {c : Instr} {n : Nat}
    (h : frameBytes c = some n) :
    exec c s = .next (s.discardFrame n) ∨ exec c s = .next (s.discardFrame n).refill := by
  have taken : ∀ (m : Nat) (body : State → State), (some m = some n) →
      (Host.Outcome.next (s.takeFrame m body) : Host.Outcome State Fault Refusal) = .next (s.discardFrame n) :=
    fun m body hm => by rw [takeFrame_busy hlow hbusy, Option.some.inj hm]
  have refilled : ∀ (m : Nat) (body : State → State), (some m = some n) →
      (Host.Outcome.next (s.takeFrame m body).refill : Host.Outcome State Fault Refusal) = .next (s.discardFrame n).refill :=
    fun m body hm => by rw [takeFrame_busy hlow hbusy, Option.some.inj hm]
  cases c with
  | readPart | readLane | readPack | setLane | setWindows | setSerial | setClass | setLimits | setClock | start
  | sealClass | drain | discardPack | recommitPack | popEvent | setAttentionMask => exact Or.inl (taken _ _ h)
  | restart | laneRestart => exact Or.inr (refilled _ _ h)
  | unknownCommand code payload =>
    rw [frameBytes] at h
    split at h
    · cases h
    · next hcode =>
      refine Or.inr ?_
      rw [exec, execUnknownCommand, selectPeriod_discarded (bytes := code :: le 2 payload.length ++ payload)
        (x := ⟨0, false⟩) hlow (List.cons_ne_nil _ _) (fun e => hcode (Option.some.inj e)) (Or.inr (Or.inr (Or.inr (Or.inr hbusy)))), frame_length, Option.some.inj h]
  | _ => cases h

/-- A code that names no command, or a payload of another length than the command's, is answered BAD_ARG (R162). -/
theorem carryOut_wrongLength {code : Byte} {payload : List Byte} (h : payloadLength code.toNat ≠ some payload.length)
    (s : State) : s.carryOut code payload = s.refuse .badArg := by
  unfold State.carryOut
  dsimp only
  generalize code.toNat = c at h
  generalize payload.length = n at h
  split
  case h_19 => rfl
  all_goals exact absurd rfl h

/-- A whole frame of a free link is taken (R160, R162). -/
theorem selectPeriod_taken {s : State} (h : s.linkFree) {code : Byte} {payload : List Byte} (hcode : code ≠ 0xF0)
    (hlen : payload.length ≤ 64) : s.selectPeriod (code :: le 2 payload.length ++ payload) ⟨0, false⟩ =
      (s.taken (3 + payload.length)).carryOut code payload := by
  have hfield : field (code :: le 2 payload.length ++ payload) 1 2 = payload.length := by
    have hfront := field_behind [code] (le 2 payload.length ++ payload) 0 2
    have hread : field (le 2 payload.length ++ payload) 0 2 = payload.length := by
      rw [field_front]
      omega
    exact hfront.trans hread
  have hform : ¬ (false || frameMalformed (code :: le 2 payload.length ++ payload) 0) = true := by
    rw [Bool.false_or, frameMalformed_iff, hfield, frame_length]
    omega
  rw [List.cons_append] at hform ⊢
  rw [State.selectPeriod, if_neg (ne_true_of_eq_false h.high)]
  dsimp only
  rw [if_neg (by exact hcode), if_neg (by exact hform), takeFrame_linkFree h]
  rw [← List.cons_append, frame_length]
  rfl

end Sys2Proof.Machine

open Sys2Proof Sys2Proof.Machine

/-- Settles O39: a malformed frame, and any frame while the response is BUSY, is counted and discarded. -/
theorem discardedFrames : Obligations.DiscardedFrames := by
  unfold Obligations.DiscardedFrames
  intro s hlow discarded
  refine ⟨fun bytes x hne hcode h => ?_, fun c n hbusy hframe => ?_⟩
  · rw [exec, execCommandFrameDiscard, selectPeriod_discarded hlow hne hcode h]
    rfl
  · rcases exec_frame_busy hlow hbusy hframe with h | h
    · exact ⟨_, h, Or.inl rfl⟩
    · exact ⟨_, h, Or.inr rfl⟩

/-- Settles O40: a frame that is taken with no command of its code and length is answered BAD_ARG. -/
theorem unknownCodeOrWrongLengthIsBadArg : Obligations.UnknownCodeOrWrongLengthIsBadArg := by
  unfold Obligations.UnknownCodeOrWrongLengthIsBadArg
  intro s code payload h hcode hlen hwrong
  rw [exec, execUnknownCommand, selectPeriod_taken h hcode hlen, carryOut_wrongLength hwrong]
  rfl

/-- Settles O41: what a response read shifts out, and when it leaves no response. -/
theorem responseReadShiftsOutResponse : Obligations.ResponseReadShiftsOutResponse := by
  unfold Obligations.ResponseReadShiftsOutResponse
  intro s p hlow
  have hread : ∀ span, exec (.responseRead span) s = .next (s.readResponse span) := fun _ => rfl
  have hhigh : ¬ s.resetLow = true := by rw [hlow]; exact Bool.false_ne_true
  refine ⟨fun h => ?_, fun h => ?_, fun st payload h => ?_, ?_⟩
  · rw [hread, State.readResponse, if_neg hhigh, h]
    rfl
  · rw [hread, State.readResponse, if_neg hhigh, h]
    rfl
  · rw [hread, State.readResponse, if_neg hhigh, h]
    rfl
  · rw [hread, State.readResponse, if_neg hhigh]
    rfl

/-- Settles O53: events are queued up to 32, and ATTN follows the mask. -/
theorem eventsAreQueuedAndAttentionFollows : Obligations.EventsAreQueuedAndAttentionFollows := by
  unfold Obligations.EventsAreQueuedAndAttentionFollows
  refine ⟨fun s t e => ⟨fun h => raise_room h t e, fun h => ?lost⟩, fun s mask h => ?mask, fun s => ?attn⟩
  case lost => exact ⟨s.counters.bumpEventLost, if_neg (Nat.not_lt.2 h), rfl, satAdd_toNat _ 1⟩
  case mask =>
    refine ⟨mask.extractLsb' 0 13, fun i hi => ?_, ?_⟩
    · rw [BitVec.getLsbD_extractLsb', Nat.zero_add, decide_eq_true hi, Bool.true_and]
    · rw [exec, execSetAttentionMask, takeFrame_linkFree h]
      rfl
  case attn => simp [State.attn]
end

/-! ## The region table, the settings and the classes -/

section
namespace Sys2Proof.Machine

/-! ### Bytes of a payload -/

theorem laneOf_of_val {b : Byte} {k : LaneIx} (h : k.val = b.toNat) : laneOf b = some k :=
  (dif_pos (h ▸ k.isLt)).trans (congrArg some (Fin.ext h.symm))

theorem laneOf_of_gt {b : Byte} (h : 15 < b.toNat) : laneOf b = none := dif_neg (Nat.not_lt.2 h)

theorem classOf_of_val {n : Nat} {c : ClassIx} (h : c.val = n) : classOf n = some c := by
  subst h
  exact dif_pos c.isLt

theorem classOf_of_gt {n : Nat} (h : 7 < n) : classOf n = none := dif_neg (Nat.not_lt.2 h)

theorem flagOf_flagByte (f : Bool) : flagOf (flagByte f) = some f := by cases f <;> rfl

theorem flagOf_of_gt {b : Byte} (h : 1 < b.toNat) : flagOf b = none := by
  have h0 : b ≠ 0 := fun e => by rw [e] at h; exact absurd h (by decide)
  have h1 : b ≠ 1 := fun e => by rw [e] at h; exact absurd h (by decide)
  rw [flagOf, if_neg h0, if_neg h1]

theorem modeOf_of_code {b : Byte} {m : CommitMode} (h : m.code = b.toNat) : modeOf b = some m := by
  cases m with
  | steal =>
    obtain rfl : b = 0 := BitVec.eq_of_toNat_eq h.symm
    rfl
  | burst =>
    obtain rfl : b = 1 := BitVec.eq_of_toNat_eq h.symm
    rfl

theorem modeOf_of_gt {b : Byte} (h : 1 < b.toNat) : modeOf b = none := by
  have h0 : b ≠ 0 := fun e => by rw [e] at h; exact absurd h (by decide)
  have h1 : b ≠ 1 := fun e => by rw [e] at h; exact absurd h (by decide)
  rw [modeOf, if_neg h0, if_neg h1]

/-! ### Regions that share an address -/

theorem overlap_iff {b1 n1 b2 n2 : Nat} (h1 : 0 < n1) (h2 : 0 < n2) : overlap b1 n1 b2 n2 = true ↔ shares b1 n1 b2 n2 := by
  rw [overlap, Bool.and_eq_true, decide_eq_true_iff, decide_eq_true_iff]
  constructor
  · intro ⟨hlow, hhigh⟩
    exact ⟨max b1 b2, by omega, by omega, by omega, by omega⟩
  · rintro ⟨a, ha1, ha2, ha3, ha4⟩
    omega

theorem meetsLane_iff (s : State) (skip : Option LaneIx) (b : Nat) {n : Nat} (hn : 0 < n) : s.meetsLane skip b n = true ↔
    ∃ j : LaneIx, some j ≠ skip ∧ (s.lane j).enabled = true ∧ shares b n (s.lane j).base.toNat (s.lane j).size := by
  rw [State.meetsLane, List.any_eq_true]
  simp only [Bool.and_eq_true, decide_eq_true_iff, overlap_iff hn (size_pos _), and_assoc]
  exact ⟨fun ⟨j, _, h⟩ => ⟨j, h⟩, fun ⟨j, h⟩ => ⟨j, mem_allLanes j, h⟩⟩

theorem laneOverlaps_iff (s : State) (k : LaneIx) (b : Nat) {n : Nat} (hn : 0 < n) : s.laneOverlaps k b n = true ↔
    (∃ j : LaneIx, j ≠ k ∧ (s.lane j).enabled = true ∧ shares b n (s.lane j).base.toNat (s.lane j).size) ∨
    (s.window.set = true ∧ shares b n s.window.base.toNat (2 ^ 33)) ∨
    (s.directory.set = true ∧ shares b n s.directory.base.toNat (2 ^ 23)) := by
  have hwindow : overlap b n s.window.base.toNat Config.viewWindowSize = true ↔ shares b n s.window.base.toNat (2 ^ 33) :=
    overlap_iff hn (by decide)
  have hdirectory : overlap b n s.directory.base.toNat Config.directorySize = true ↔
      shares b n s.directory.base.toNat (2 ^ 23) := overlap_iff hn (by decide)
  rw [State.laneOverlaps, Bool.or_eq_true, Bool.or_eq_true, Bool.and_eq_true, Bool.and_eq_true, hwindow, hdirectory,
    meetsLane_iff s _ b hn, or_assoc]
  simp only [ne_eq, Option.some.injEq]

theorem windowsOverlap_iff (s : State) (v d : Nat) : s.windowsOverlap v d = true ↔
    shares v (2 ^ 33) d (2 ^ 23) ∨ (∃ j : LaneIx, (s.lane j).enabled = true ∧
      (shares v (2 ^ 33) (s.lane j).base.toNat (s.lane j).size ∨ shares d (2 ^ 23) (s.lane j).base.toNat (s.lane j).size)) := by
  have hboth : overlap v Config.viewWindowSize d Config.directorySize = true ↔ shares v (2 ^ 33) d (2 ^ 23) :=
    overlap_iff (by decide) (by decide)
  have hview := meetsLane_iff s none v (n := Config.viewWindowSize) (by decide)
  have hdirectory := meetsLane_iff s none d (n := Config.directorySize) (by decide)
  rw [State.windowsOverlap, Bool.or_eq_true, Bool.or_eq_true, hboth, hview, hdirectory, or_assoc, ← exists_or]
  refine or_congr_right (exists_congr fun j => ?_)
  simp only [ne_eq, reduceCtorEq, not_false_eq_true, true_and, ← and_or_left]
  exact Iff.rfl

/-! ### The tape block size -/

/-- A tape block size is the least of the five that is not below the operand (R76). -/
theorem clampTapeBlock_least {x : Nat} (h : x ≤ 1048576) : x ≤ clampTapeBlock x ∧
    ∀ y ∈ [65536, 131072, 262144, 524288, 1048576], x ≤ y → clampTapeBlock x ≤ y := by
  unfold clampTapeBlock
  simp only [List.mem_cons, List.not_mem_nil, or_false, forall_eq_or_imp, forall_eq]
  split_ifs <;> omega

theorem clampTapeBlock_top {x : Nat} (h : 1048576 ≤ x) : clampTapeBlock x = 1048576 := by
  unfold clampTapeBlock
  split_ifs <;> omega

/-! ### Seals by a command -/

/-- A seal in a state in which the response buffer was changed, answered (R101, R162). -/
theorem SealedIn.respond {s t : State} {d : PackIx} {time : Time} {cause : SealCause} {r : LinkResponse} {o : List Byte}
    (h : SealedIn { s with response := r, msdo := o } t d time cause) (st : Status) (payload : List Byte) :
    SealedIn s (t.respond st payload) d time cause :=
  ⟨h.pack, h.packs, h.filed, h.members, h.queue, h.begins, h.waits, h.counters, congrArg (State.respond st payload) h.rest⟩

end Sys2Proof.Machine

open Sys2Proof Sys2Proof.Machine

/-- Settles O43: the region table is written in CONFIG, aligned and without overlap. -/
theorem regionTableWrites : Obligations.RegionTableWrites := by
  unfold Obligations.RegionTableWrites
  intro s h
  refine ⟨fun lane enabled exponent base => ?lane, fun viewBase mask dirBase => ?windows⟩
  case lane =>
    intro c e
    have hexec : exec c s = .next ((s.taken 11).carryOutSetLane lane enabled exponent base) := by
      rw [exec, execSetLane, takeFrame_linkFree h]
    refine ⟨fun hpart => ?_, fun hpart hbad => ?_, fun k f hpart hk hf => ?_⟩
    · rw [hexec, State.carryOutSetLane, if_pos (by exact hpart)]
      rfl
    · rw [hexec, State.carryOutSetLane, if_neg (by exact not_not.2 hpart)]
      rcases hbad with hbad | hbad
      · rw [laneOf_of_gt hbad]
        rfl
      · rw [flagOf_of_gt hbad]
        cases laneOf lane <;> rfl
    · intro other
      have hother : (s.taken 11).laneOverlaps k base.toNat (2 ^ e) = true ↔ other :=
        laneOverlaps_iff (s.taken 11) k base.toNat (Nat.two_pow_pos e)
      have hwrite : exec c s = .next (if base.toNat % 2 ^ e ≠ 0 then (s.taken 11).refuse .badArg
          else if f && (s.taken 11).laneOverlaps k base.toNat (2 ^ e) then (s.taken 11).refuse .overlap
          else ((s.taken 11).writeRegion k f e base).respond .ok (le 1 k.val ++ [flagByte f] ++ le 1 e ++ le 5 base.toNat)) := by
        rw [hexec, State.carryOutSetLane, if_neg (by exact not_not.2 hpart), laneOf_of_val hk, hf, flagOf_flagByte]
        rfl
      rw [hwrite]
      refine ⟨fun halign => by rw [if_pos halign]; rfl, fun halign hon hmeets => ?_, fun halign hapart => ?_⟩
      · rw [if_neg (not_not.2 halign), hon, hother.2 hmeets]
        rfl
      · have hfree : ¬ (f && (s.taken 11).laneOverlaps k base.toNat (2 ^ e)) = true := fun hboth => by
          obtain ⟨hon, hmeets⟩ := Bool.and_eq_true_iff.1 hboth
          rcases hapart with hoff | hapart
          · rw [hoff] at hon
            cases hon
          · exact hapart (hother.1 hmeets)
        rw [if_neg (not_not.2 halign), if_neg hfree]
        rfl
  case windows =>
    intro c stored aligned other
    have hexec : exec c s = .next ((s.taken 14).carryOutSetWindows viewBase mask dirBase) := by
      rw [exec, execSetWindows, takeFrame_linkFree h]
    have halign : ¬ (viewBase.toNat % Config.viewWindowSize ≠ 0 ∨ dirBase.toNat % Config.directorySize ≠ 0) ↔ aligned := by
      rw [not_or, not_not, not_not]
      exact Iff.rfl
    have hother : (s.taken 14).windowsOverlap viewBase.toNat dirBase.toNat = true ↔ other := windowsOverlap_iff (s.taken 14) _ _
    refine ⟨fun hpart => ?_, fun hpart hun => ?_, fun hpart hal hmeets => ?_, fun hpart hal hapart => ?_⟩
    · rw [hexec, State.carryOutSetWindows, if_pos (by exact hpart)]
      rfl
    · rw [hexec, State.carryOutSetWindows, if_neg (by exact not_not.2 hpart), if_pos (not_not.1 (mt halign.1 hun))]
      rfl
    · rw [hexec, State.carryOutSetWindows, if_neg (by exact not_not.2 hpart), if_neg (halign.2 hal), if_pos (hother.2 hmeets)]
      rfl
    · rw [hexec, State.carryOutSetWindows, if_neg (by exact not_not.2 hpart), if_neg (halign.2 hal), if_neg (mt hother.1 hapart)]
      rfl

/-- Settles O44: SET_SERIAL in CONFIG alone, SET_LIMITS in every part state. -/
theorem serialAndLimitsAreStored : Obligations.SerialAndLimitsAreStored := by
  unfold Obligations.SerialAndLimitsAreStored
  intro s h
  refine ⟨fun serial former tb => ⟨fun hpart => ?_, fun hpart => ?_⟩, fun hold idle share mode => ⟨fun hbad => ?_, fun m hm => ?_⟩⟩
  · rw [exec, execSetSerial, takeFrame_linkFree h, State.carryOutSetSerial, if_pos (by exact hpart)]
    rfl
  · refine ⟨clampTapeBlock tb.toNat, clampTapeBlock_mem _, ?_, clampTapeBlock_top, clampTapeBlock_least⟩
    rw [exec, execSetSerial, takeFrame_linkFree h, State.carryOutSetSerial, if_neg (by exact not_not.2 hpart)]
    rfl
  · rw [exec, execSetLimits, takeFrame_linkFree h, State.carryOutSetLimits, modeOf_of_gt hbad]
    rfl
  · rw [exec, execSetLimits, takeFrame_linkFree h, State.carryOutSetLimits, modeOf_of_code hm]
    rfl

/-- Settles O45: SET_CLASS writes the class, and seals the OPEN pack of a class that it disables. -/
theorem setClassWritesClass : Obligations.SetClassWritesClass := by
  unfold Obligations.SetClassWritesClass
  intro s cls enabled target cap age tag h i
  have hexec : exec i s = .next ((s.taken 14).carryOutSetClass cls enabled target cap age tag) := by
    rw [exec, execSetClass, takeFrame_linkFree h]
  refine ⟨fun hbad => ?_, fun c f hc hf => ?_⟩
  · rw [hexec, State.carryOutSetClass]
    rcases hbad with hbad | hbad
    · rw [classOf_of_gt hbad]
      rfl
    · rw [flagOf_of_gt hbad]
      cases classOf cls.toNat <;> rfl
  · intro k report
    have hwrite : exec i s = .next (((s.taken 14).writeClass c k).respond .ok report) := by
      rw [hexec, State.carryOutSetClass, classOf_of_val hc]
      subst hf
      rw [flagOf_flagByte]
      rfl
    have hopen : ∀ u : State, u.packs = s.packs → u.openPackOf c = s.openPackOf c := fun u hu => openPackOf_congr hu c
    refine ⟨fun hquiet => ?_, fun d hon hoff hd hcanon => ?_⟩
    · have hkept : (s.taken 14).writeClass c k = { s.taken 14 with classes := s.classes.set c k } := by
        unfold State.writeClass
        dsimp only
        split
        · next hboth =>
          obtain ⟨hon, hoff⟩ := Bool.and_eq_true_iff.1 hboth
          rcases hquiet with hwas | hstays | hnone
          · exact absurd (hwas.symm.trans hon) (by decide)
          · rw [show k.enabled = true from hstays] at hoff
            cases hoff
          · exact sealClassPack_none _ _ ((hopen _ rfl).trans hnone)
        · rfl
      rw [hwrite, hkept]
      rfl
    · let base : State := { s.taken 14 with classes := s.classes.set c k }
      have hsealed := sealPack_sealedIn s.clock .classClosed d base hcanon
      have hkept : (s.taken 14).writeClass c k = base.sealPack s.clock .classClosed d := by
        unfold State.writeClass
        dsimp only
        rw [if_pos (by rw [Bool.and_eq_true]; exact ⟨hon, by rw [show k.enabled = false from hoff]; rfl⟩)]
        exact sealClassPack_some _ _ ((hopen base rfl).trans hd)
      refine ⟨(base.sealPack s.clock .classClosed d).respond .ok report, by rw [hwrite, hkept], rfl, ?_, ?_⟩
      · exact congrArg State.classes hsealed.1.rest
      · exact SealedIn.respond (s := { s with classes := s.classes.set c k }) hsealed.1 _ _
end

/-! ## SEAL_CLASS and DRAIN -/

section
namespace Sys2Proof.Machine

/-! ### A DRAIN, class by class -/

/-- A pack as a DRAIN at stamp `t` seals it (R101, R103). -/
def Pack.drained (t : Time) (p : Pack) : Pack := { p with state := .sealing, age := .absent, sealTime := t, cause := some .drain }

theorem pack_sealPack (t : Time) (d e : PackIx) (s : State) :
    (s.sealPack t .drain d).pack e = if e = d then (s.pack d).drained t else s.pack e := by
  have hpacks : (s.sealPack t .drain d).pack e = (s.setPack d ((s.pack d).drained t)).pack e := by
    rw [sealPack_eq]
    rfl
  rw [hpacks, State.pack_setPack]

theorem member_sealPack (t : Time) (x : SealCause) (d : PackIx) {s : State} (h : s.membersCanonical) (m : MemberIx) :
    (s.sealPack t x d).member m = if m ∈ (s.pack d).members then { s.member m with state := .filed } else s.member m := by
  obtain ⟨hsealed, _⟩ := sealPack_sealedIn t x d s h
  split
  · next hm => exact hsealed.filed m hm
  · next hm => exact hsealed.members m hm

theorem satAdd_satAdd (c : Word32) (a b : Nat) : satAdd (satAdd c a) b = satAdd c (a + b) := by
  apply BitVec.eq_of_toNat_eq
  simp only [satAdd_toNat]
  omega

theorem satAdd_zero (c : Word32) : satAdd c 0 = c := by
  apply BitVec.eq_of_toNat_eq
  have hlt := c.isLt
  rw [satAdd_toNat]
  omega

/-- A DRAIN changes the packs, the members, the engine and the counters alone (R103). -/
theorem drainClasses_eq (t : Time) (cs : List ClassIx) (s : State) : s.drainClasses t cs = { s with
    packs := (s.drainClasses t cs).packs, members := (s.drainClasses t cs).members
    engine := (s.drainClasses t cs).engine, counters := (s.drainClasses t cs).counters } := by
  induction cs generalizing s with
  | nil => rfl
  | cons c cs ih =>
    rw [State.drainClasses]
    cases h : s.openPackOf c with
    | none => rw [sealClassPack_none t .drain h]; exact ih s
    | some d => rw [sealClassPack_some t .drain h, ih, sealPack_eq]

/-- The OPEN packs of the classes behind one that has been sealed (R103). -/
theorem openPackOf_rest {t : Time} {c : ClassIx} {cs : List ClassIx} (hc : c ∉ cs) {d : PackIx} {s : State}
    (h : s.openPackOf c = some d) : ∀ c' ∈ cs, (s.sealPack t .drain d).openPackOf c' = s.openPackOf c' :=
  fun _ hmem => openPackOf_sealPack_other t .drain h fun e => hc (e ▸ hmem)

/-- The packs of two classes differ (R97). -/
theorem openPackOf_ne {s : State} {c c' : ClassIx} {d d' : PackIx} (h : s.openPackOf c = some d) (h' : s.openPackOf c' = some d')
    (hne : c' ≠ c) : d' ≠ d := fun e => by
  obtain ⟨_, hcls⟩ := openPackOf_some h
  obtain ⟨_, hcls'⟩ := openPackOf_some h'
  exact hne (by rw [← hcls, ← hcls', e])

/-- A DRAIN seals the OPEN packs of its classes and leaves the others (R103). -/
theorem drainClasses_pack (t : Time) (cs : List ClassIx) (hn : cs.Nodup) (s : State) :
    (∀ c ∈ cs, ∀ d, s.openPackOf c = some d → (s.drainClasses t cs).pack d = (s.pack d).drained t) ∧
    (∀ d, (∀ c ∈ cs, s.openPackOf c ≠ some d) → (s.drainClasses t cs).pack d = s.pack d) := by
  induction cs generalizing s with
  | nil => exact ⟨nofun, fun d _ => rfl⟩
  | cons c cs ih =>
    obtain ⟨hc, hn⟩ := List.nodup_cons.1 hn
    rw [State.drainClasses]
    cases h : s.openPackOf c with
    | none =>
      rw [sealClassPack_none t .drain h]
      obtain ⟨hsealed, hkept⟩ := ih hn s
      refine ⟨fun c' hc' d hd => ?_, fun d hd => hkept d fun c' hc' => hd c' (List.mem_cons_of_mem c hc')⟩
      rcases List.mem_cons.1 hc' with rfl | hmem
      · cases h.symm.trans hd
      · exact hsealed c' hmem d hd
    | some x =>
      rw [sealClassPack_some t .drain h]
      obtain ⟨hsealed, hkept⟩ := ih hn (s.sealPack t .drain x)
      have hrest := openPackOf_rest (t := t) hc h
      refine ⟨fun c' hc' d hd => ?_, fun d hd => ?_⟩
      · rcases List.mem_cons.1 hc' with rfl | hmem
        · cases h.symm.trans hd
          rw [hkept x fun c'' hmem hx => openPackOf_ne h ((hrest c'' hmem).symm.trans hx) (fun e => hc (e ▸ hmem)) rfl,
            pack_sealPack, if_pos rfl]
        · rw [hsealed c' hmem d ((hrest c' hmem).trans hd), pack_sealPack,
            if_neg (openPackOf_ne h hd fun e => hc (e ▸ hmem))]
      · have hne : d ≠ x := fun e => hd c List.mem_cons_self (by rw [h, e])
        rw [hkept d fun c' hmem hx => hd c' (List.mem_cons_of_mem c hmem) ((hrest c' hmem).symm.trans hx), pack_sealPack,
          if_neg hne]

/-- A DRAIN counts each seal (R103, R110). -/
theorem drainClasses_counters (t : Time) (cs : List ClassIx) (hn : cs.Nodup) (s : State) :
    (s.drainClasses t cs).counters = { s.counters with
      sealedDrain := satAdd s.counters.sealedDrain (cs.countP (fun c => (s.openPackOf c).isSome)) } := by
  induction cs generalizing s with
  | nil => rw [List.countP_nil, satAdd_zero]; rfl
  | cons c cs ih =>
    obtain ⟨hc, hn⟩ := List.nodup_cons.1 hn
    rw [State.drainClasses]
    cases h : s.openPackOf c with
    | none => rw [sealClassPack_none t .drain h, List.countP_cons_of_neg (by rw [h]; exact Bool.false_ne_true), ih hn]
    | some x =>
      have hcount : cs.countP (fun c' => ((s.sealPack t .drain x).openPackOf c').isSome) =
          cs.countP (fun c' => (s.openPackOf c').isSome) :=
        List.countP_congr fun c' hmem => by rw [openPackOf_rest hc h c' hmem]
      rw [sealClassPack_some t .drain h, List.countP_cons_of_pos (by rw [h]; rfl), ih hn, hcount, sealPack_counters,
        Nat.add_comm, ← satAdd_satAdd]
      rfl

/-- A DRAIN makes the members of the packs it seals FILED and leaves the others (R63, R103). -/
theorem drainClasses_member (t : Time) (cs : List ClassIx) (hn : cs.Nodup) (s : State) (hcanon : s.membersCanonical)
    (m : MemberIx) :
    ((∃ c ∈ cs, ∃ d, s.openPackOf c = some d ∧ m ∈ (s.pack d).members) →
      (s.drainClasses t cs).member m = { s.member m with state := .filed }) ∧
    ((∀ c ∈ cs, ∀ d, s.openPackOf c = some d → m ∉ (s.pack d).members) → (s.drainClasses t cs).member m = s.member m) := by
  induction cs generalizing s with
  | nil => exact ⟨nofun, fun _ => rfl⟩
  | cons c cs ih =>
    obtain ⟨hc, hn⟩ := List.nodup_cons.1 hn
    rw [State.drainClasses]
    cases h : s.openPackOf c with
    | none =>
      rw [sealClassPack_none t .drain h]
      obtain ⟨hfiled, hkept⟩ := ih hn s hcanon
      refine ⟨fun ⟨c', hc', d, hd, hm⟩ => ?_, fun hall => hkept fun c' hmem => hall c' (List.mem_cons_of_mem c hmem)⟩
      rcases List.mem_cons.1 hc' with rfl | hmem
      · cases h.symm.trans hd
      · exact hfiled ⟨c', hmem, d, hd, hm⟩
    | some x =>
      rw [sealClassPack_some t .drain h]
      obtain ⟨hfiled, hkept⟩ := ih hn (s.sealPack t .drain x) ((assembles_sealPack t .drain x s).members hcanon)
      have hrest := openPackOf_rest (t := t) hc h
      have hmember := member_sealPack t .drain x hcanon m
      have hpack : ∀ d, ((s.sealPack t .drain x).pack d).members = (s.pack d).members := fun d => by
        rw [pack_sealPack]
        split
        · next e => rw [e]; rfl
        · rfl
      have hlist : (∃ c' ∈ cs, ∃ d, (s.sealPack t .drain x).openPackOf c' = some d ∧
          m ∈ ((s.sealPack t .drain x).pack d).members) ↔ ∃ c' ∈ cs, ∃ d, s.openPackOf c' = some d ∧ m ∈ (s.pack d).members :=
        exists_congr fun c' => and_congr_right fun hmem => exists_congr fun d => by rw [hrest c' hmem, hpack]
      by_cases hlater : ∃ c' ∈ cs, ∃ d, s.openPackOf c' = some d ∧ m ∈ (s.pack d).members
      · have hdone : ((s.sealPack t .drain x).drainClasses t cs).member m = { s.member m with state := .filed } := by
          rw [hfiled (hlist.2 hlater), hmember]
          split <;> rfl
        refine ⟨fun _ => hdone, fun hall => ?_⟩
        obtain ⟨c', hmem, d, hd, hm⟩ := hlater
        exact absurd hm (hall c' (List.mem_cons_of_mem c hmem) d hd)
      · have hdone : ((s.sealPack t .drain x).drainClasses t cs).member m = (s.sealPack t .drain x).member m :=
          hkept fun c' hmem d hd hm => hlater (hlist.1 ⟨c', hmem, d, hd, hm⟩)
        rw [hdone, hmember]
        refine ⟨fun ⟨c', hc', d, hd, hm⟩ => ?_, fun hall => if_neg (hall c List.mem_cons_self x h)⟩
        rcases List.mem_cons.1 hc' with rfl | hmem
        · cases h.symm.trans hd
          exact if_pos hm
        · exact absurd ⟨c', hmem, d, hd, hm⟩ hlater

theorem nodup_allClasses : allClasses.Nodup := by decide

theorem mem_allClasses (c : ClassIx) : c ∈ allClasses := by revert c; decide

end Sys2Proof.Machine

open Sys2Proof Sys2Proof.Machine

/-- Settles O46: SEAL_CLASS seals one class's OPEN pack, DRAIN those of all classes. -/
theorem sealCommands : Obligations.SealCommands := by
  unfold Obligations.SealCommands
  intro s h
  have hseal : ∀ cls, exec (.sealClass cls) s = .next ((s.taken 4).carryOutSealClass cls) := fun cls => by
    rw [exec, execSealClass, takeFrame_linkFree h]
  have hdrain : exec .drain s = .next (s.taken 3).carryOutDrain := by
    rw [exec, execDrain, takeFrame_linkFree h]
  refine ⟨fun hpart => ⟨fun cls => ?_, ?_⟩, fun hpart => ⟨fun cls hbad => ?_, fun cls c hc => ⟨fun hnone => ?_,
    fun d hd hcanon => ?_⟩, ?drain⟩⟩
  · rw [hseal, State.carryOutSealClass, if_pos (by exact hpart)]
    rfl
  · rw [hdrain, State.carryOutDrain, if_pos (by exact hpart)]
    rfl
  · rw [hseal, State.carryOutSealClass, if_neg (by exact hpart), classOf_of_gt hbad]
    rfl
  · have hopen : (s.taken 4).openPackOf c = none := (openPackOf_congr rfl c).trans hnone
    rw [hseal, State.carryOutSealClass, if_neg (by exact hpart), classOf_of_val hc]
    dsimp only
    rw [hopen]
    rfl
  · have hopen : (s.taken 4).openPackOf c = some d := (openPackOf_congr rfl c).trans hd
    refine ⟨((s.taken 4).sealPack s.clock .command d).respond .ok (le 1 1 ++ le 4 (s.pack d).serial.toNat), ?_, rfl,
      SealedIn.respond (sealPack_sealedIn s.clock .command d (s.taken 4) hcanon).1 _ _⟩
    rw [hseal, State.carryOutSealClass, if_neg (by exact hpart), classOf_of_val hc]
    dsimp only
    rw [hopen]
    rfl
  case drain =>
    have hopen : (s.taken 3).openPackOf = s.openPackOf := funext fun c => openPackOf_congr rfl c
    have hresult : exec .drain s =
        .next (((s.taken 3).drainClasses s.clock allClasses).respond .ok (le 1 (s.taken 3).openClasses)) := by
      rw [hdrain, State.carryOutDrain, if_neg (by exact hpart)]
      rfl
    have hengine := drainClasses_engine s.clock allClasses nodup_allClasses (s.taken 3)
    have hframe := drainClasses_eq s.clock allClasses (s.taken 3)
    obtain ⟨hsealed, hkept⟩ := drainClasses_pack s.clock allClasses nodup_allClasses (s.taken 3)
    have hcounters := drainClasses_counters s.clock allClasses nodup_allClasses (s.taken 3)
    have hmembers := drainClasses_member s.clock allClasses nodup_allClasses (s.taken 3)
    generalize (s.taken 3).drainClasses s.clock allClasses = u at hresult hengine hframe hsealed hkept hcounters hmembers
    rw [hopen] at hengine hsealed hkept hcounters hmembers
    refine ⟨u.respond .ok (le 1 (s.taken 3).openClasses), hresult, ?_, hengine, ?_,
      fun c d hd => hsealed c (mem_allClasses c) d hd, fun d hd => hkept d fun c _ => hd c, hcounters, fun hcanon m => ?_⟩
    · rw [State.respond_response, State.openClasses, hopen]
    · exact congrArg (State.respond .ok (le 1 (s.taken 3).openClasses)) hframe
    · obtain ⟨hfiled, hother⟩ := hmembers hcanon m
      exact ⟨fun ⟨c, d, hd, hm⟩ => hfiled ⟨c, mem_allClasses c, d, hd, hm⟩, fun hall => hother fun c _ => hall c⟩
end

/-! ## START and RESTART -/

section
namespace Sys2Proof.Machine

/-! ### START -/

/-- The byte of a BAD_CONFIG response, by the five conditions of R167 (R177). -/
def conditionByte (window directory lane cls slot : Bool) : Nat :=
  (if window then 0 else 1) + (if directory then 0 else 2) + (if lane then 0 else 4) + (if cls then 0 else 8) +
    (if slot then 0 else 16)

theorem failedConditions_eq (s : State) : s.failedConditions = conditionByte s.window.set s.directory.set
    (allLanes.any (fun k => (s.lane k).enabled)) (allClasses.any (fun c => (s.cls c).enabled))
    (allSlots.any (fun j => s.slotEnabled j)) := rfl

theorem conditionByte_zero : ∀ w d l c v : Bool, conditionByte w d l c v = 0 ↔
    w = true ∧ d = true ∧ l = true ∧ c = true ∧ v = true := by decide

/-- Bit i - 1 of the byte names condition i (R177). -/
theorem conditionByte_bits : ∀ w d l c v : Bool,
    (BitVec.ofNat 8 (conditionByte w d l c v)).toNat < 32 ∧
    ((BitVec.ofNat 8 (conditionByte w d l c v)).getLsbD 0 = false ↔ w = true) ∧
    ((BitVec.ofNat 8 (conditionByte w d l c v)).getLsbD 1 = false ↔ d = true) ∧
    ((BitVec.ofNat 8 (conditionByte w d l c v)).getLsbD 2 = false ↔ l = true) ∧
    ((BitVec.ofNat 8 (conditionByte w d l c v)).getLsbD 3 = false ↔ c = true) ∧
    ((BitVec.ofNat 8 (conditionByte w d l c v)).getLsbD 4 = false ↔ v = true) := by decide

theorem any_lane (p : LaneIx → Bool) : allLanes.any p = true ↔ ∃ k, p k = true := by
  rw [List.any_eq_true]
  exact ⟨fun ⟨k, _, h⟩ => ⟨k, h⟩, fun ⟨k, h⟩ => ⟨k, mem_allLanes k, h⟩⟩

theorem any_class (p : ClassIx → Bool) : allClasses.any p = true ↔ ∃ c, p c = true := by
  rw [List.any_eq_true]
  exact ⟨fun ⟨c, _, h⟩ => ⟨c, h⟩, fun ⟨c, h⟩ => ⟨c, mem_allClasses c, h⟩⟩

theorem any_slot (p : SlotIx → Bool) : allSlots.any p = true ↔ ∃ j, p j = true := by
  rw [List.any_eq_true]
  exact ⟨fun ⟨j, _, h⟩ => ⟨j, h⟩, fun ⟨j, h⟩ => ⟨j, mem_allSlots j, h⟩⟩

theorem lane_enterRun (s : State) (k : LaneIx) :
    s.enterRun.lane k = if (s.lane k).enabled then (s.lane k).fresh else s.lane k := by
  change (s.lanes.map _)[k.val] = _
  rw [Vector.getElem_map]
  rfl

theorem pack_enterRun (s : State) (d : PackIx) : s.enterRun.pack d = {} := by
  simp [State.enterRun, State.pack]

theorem slot_enterRun (s : State) (j : SlotIx) : s.enterRun.slot j = {} := by
  simp [State.enterRun, State.slot]

/-! ### RESTART -/

/-- The part once RESTART has stopped it: held writes and pending dispositions are refused, the view is cleared and the engine
stopped (R168, R55, R126, R147). -/
def State.restarting (s : State) : State := (s.refuseHeldIn allLanes).stopped.clearView

theorem restarting_eq (s : State) : s.restarting = { s with
    lanes := (s.refuseHeldIn allLanes).lanes, sent := s.sent ++ s.heldRefusals ++ s.pendingRefusals, lastServed := 15
    engine := s.engine.stopped, arbiter := { s.arbiter with run := 0, burst := none }
    slots := Vector.replicate 4 {}, readyQueue := [], packs := s.packs.map Pack.failedByRestart
    viewReads := s.viewReads.map (fun r => { r with slot := none }) } := by
  obtain ⟨hrefused, _⟩ := refuseHeldIn_spec allLanes s nodup_allLanes
  have hpending := refusePending_eq allSlots (s.refuseHeldIn allLanes).stopped
  rw [State.restarting]
  generalize s.refuseHeldIn allLanes = q at hrefused hpending ⊢
  rw [State.clearView, hpending]
  dsimp only
  rw [hrefused]
  rfl

theorem restarting_frame (s : State) : s.restarting = { s with
    response := s.restarting.response, members := s.restarting.members, waitList := s.restarting.waitList
    lanes := s.restarting.lanes, sent := s.restarting.sent, lastServed := 15, packs := s.restarting.packs
    engine := s.restarting.engine, slots := s.restarting.slots, readyQueue := []
    arbiter := { s.arbiter with run := 0, burst := none }
    viewReads := s.viewReads.map (fun r => { r with slot := none }) } := by
  rw [restarting_eq]

theorem lane_restarting (s : State) (k : LaneIx) :
    s.restarting.lane k = { s.lane k with hold := [], holdDeadline := .absent } := by
  obtain ⟨_, hlanes⟩ := refuseHeldIn_spec allLanes s nodup_allLanes
  have hsame : s.restarting.lanes = (s.refuseHeldIn allLanes).lanes := by rw [restarting_eq]
  rw [lane_of_lanes hsame, hlanes, if_pos (mem_allLanes k)]

theorem slot_restarting (s : State) (j : SlotIx) : s.restarting.slot j = {} := by
  rw [restarting_eq]
  simp [State.slot]

theorem pack_restarting (s : State) (d : PackIx) : s.restarting.pack d = (s.pack d).failedByRestart := by
  rw [restarting_eq]
  simp [State.pack]

/-- RESTART waits exactly while a commit unit is in flight (R168, R169). -/
theorem restartDue_restarting (s : State) : s.restarting.restartDue = !s.inFlight.any MemReq.isCommit := by
  rw [restarting_eq]
  rfl

theorem lane_finishRestart (s : State) (k : LaneIx) : s.finishRestart.lane k = (s.lane k).fresh := by
  simp [State.finishRestart, State.lane]

theorem pack_finishRestart (s : State) (d : PackIx) : s.finishRestart.pack d = {} := by
  simp [State.finishRestart, State.pack]

end Sys2Proof.Machine

open Sys2Proof Sys2Proof.Machine

/-- Settles O47: START tests five conditions, and enters RUN or QUIESCED with initial tables. -/
theorem startEntersRunOrQuiesced : Obligations.StartEntersRunOrQuiesced := by
  unfold Obligations.StartEntersRunOrQuiesced
  intro s h
  have hexec : exec .start s = .next (s.taken 3).carryOutStart := by
    rw [exec, execStart, takeFrame_linkFree h]
  refine ⟨fun hpart => ?_, fun hpart => ?_⟩
  · rw [hexec, State.carryOutStart, if_pos (by exact hpart)]
    rfl
  intro complete
  have hcomplete : (s.taken 3).failedConditions = 0 ↔ complete := by
    rw [failedConditions_eq, conditionByte_zero, any_lane, any_class, any_slot]
    exact Iff.rfl
  refine ⟨fun hfailed => ?_, fun hall => ?_⟩
  · have hbits := conditionByte_bits s.window.set s.directory.set (allLanes.any (fun k => (s.lane k).enabled))
      (allClasses.any (fun c => (s.cls c).enabled)) (allSlots.any (fun j => s.slotEnabled j))
    rw [any_lane, any_class, any_slot] at hbits
    refine ⟨BitVec.ofNat 8 (s.taken 3).failedConditions, ?_, hbits⟩
    rw [hexec, State.carryOutStart, if_neg (by exact not_not.2 hpart), if_pos (mt hcomplete.1 hfailed)]
    rfl
  · refine ⟨(s.taken 3).enterRun.respond .ok (le 1 (s.taken 3).startState.code), ?_, rfl, rfl, fun k => ?_, fun m => rfl,
      fun d => pack_enterRun (s.taken 3) d, fun j => slot_enterRun (s.taken 3) j, rfl⟩
    · rw [hexec, State.carryOutStart, if_neg (by exact not_not.2 hpart), if_neg (not_not.2 (hcomplete.2 hall))]
    · refine (lane_enterRun (s.taken 3) k).trans ?_
      change (if (s.lane k).enabled then (s.lane k).fresh else s.lane k) = _
      by_cases he : (s.lane k).enabled = true
      · rw [if_pos he, if_pos he, Lane.fresh, he]
      · rw [if_neg he, if_neg he]

/-- Settles O48: RESTART completes at once, or waits for the commit units in flight. -/
theorem restartCompletesOrWaits : Obligations.RestartCompletesOrWaits := by
  unfold Obligations.RestartCompletesOrWaits
  intro s h
  have hexec : exec .restart s = .next (s.taken 3).carryOutRestart.refill := by
    rw [exec, execRestart, takeFrame_linkFree h]
  refine ⟨fun hpart => ?_, fun hpart => ?_⟩
  · rw [hexec, State.carryOutRestart, if_pos (by exact hpart)]
    rfl
  have hvalues := restarting_eq (s.taken 3)
  have hframe := restarting_frame (s.taken 3)
  have hlane := lane_restarting (s.taken 3)
  have hslot := slot_restarting (s.taken 3)
  have hpack := pack_restarting (s.taken 3)
  have hdue := restartDue_restarting (s.taken 3)
  have hrestart : (s.taken 3).carryOutRestart =
      if (s.taken 3).restarting.restartDue then (s.taken 3).restarting.finishRestart
      else { (s.taken 3).restarting with part := .quiesced } := carryOutRestart_eq (by exact hpart)
  generalize (s.taken 3).restarting = v at hvalues hframe hlane hslot hpack hdue hrestart
  have hmembers : v.members = s.members := (congrArg State.members hvalues :)
  have hwait : v.waitList = s.waitList := (congrArg State.waitList hvalues :)
  cases hflight : s.inFlight.any MemReq.isCommit with
  | false =>
    have hnow : v.restartDue = true := hdue.trans (by exact congrArg not hflight)
    refine ⟨v.finishRestart, by rw [hexec, hrestart, if_pos hnow], ?_, hslot, ?_, fun _ => ⟨rfl, rfl, rfl, rfl, rfl,
      pack_finishRestart v, fun k => ?_⟩, nofun⟩
    · exact congrArg State.sent hvalues
    · exact congrArg State.finishRestart hframe
    · intro l
      rw [lane_finishRestart, hlane]
      rfl
  | true =>
    have hlater : ¬ v.restartDue = true := by
      rw [hdue]
      exact fun hno => absurd ((congrArg not hflight).symm.trans hno) (by decide)
    refine ⟨{ v with part := .quiesced }, by rw [hexec, hrestart, if_neg hlater], ?_, hslot, ?_, nofun,
      fun _ => ⟨rfl, ?_, ?_, ?_, ?_, hlane, fun d hd => ?_, fun d hready hbound => ?_⟩⟩
    · exact congrArg State.sent hvalues
    · exact congrArg (fun u : State => { u with part := .quiesced }) hframe
    · exact congrArg State.response hvalues
    · exact congrArg State.engine hvalues
    · exact hmembers
    · exact hwait
    · exact (hpack d).trans (if_pos hd)
    · exact (hpack d).trans (if_neg (not_or.2 ⟨hready, hbound⟩))
end

/-! ## LANE_RESTART -/

section
namespace Sys2Proof.Machine

/-- The lane that a restart leaves with no member receiving: at the next lead boundary, with nothing held or collected (R38). -/
def Lane.restartedIdle (l : Lane) : Lane :=
  { l with
    cursor := (l.cursor + 63) / 64 * 64 % l.size, parser := .lead, leadBuffer := [], candidate := [], pendingLead := none
    remaining := 0, hold := [], holdDeadline := .absent }

/-- The lane that a restart leaves when it has broken receiving member `m` (R38, R36). -/
def Lane.restartedBroken (l : Lane) (m : MemberIx) : Lane :=
  { l.restartedIdle with
    receiving := none, order := l.order.filter (fun i => decide (i ≠ m))
    counts := { l.counts with brokenMembers := satAdd l.counts.brokenMembers 1 } }

/-- The part with lane `k` restarted and no member broken, before a release pass (R38). -/
def State.laneIdle (k : LaneIx) (s : State) : State := (s.holdRefused k).setLane k (s.lane k).restartedIdle

/-- The part with lane `k` restarted and its receiving member `m` broken, before the release pass (R38, R36). -/
def State.laneBroken (t : Time) (k : LaneIx) (m : MemberIx) (s : State) : State :=
  State.raise t (.memberBroken k m (s.member m).leadOffset .restart (s.member m).received)
    (((s.holdRefused k).setMember m {}).setLane k ((s.lane k).restartedBroken m))

theorem restartLane_idle {t : Time} {k : LaneIx} {s : State} (h : (s.lane k).receiving = none) : s.restartLane t k =
    if (s.laneIdle k).tail k = s.tail k then s.laneIdle k else (s.laneIdle k).releasePass t := by
  have hrestarted : ((s.refuseHeld k).breakMember t .restart k).mapLane k Lane.restarted = s.laneIdle k := by
    rw [refuseHeld_eq, breakMember_none (by exact h), mapLane_setLane]
    rfl
  rw [State.restartLane, hrestarted, h]
  by_cases htail : (s.laneIdle k).tail k = s.tail k
  · rw [if_pos htail]
    exact if_neg (by simp [htail])
  · rw [if_neg htail]
    exact if_pos (by simp [htail])

theorem restartLane_broken {t : Time} {k : LaneIx} {m : MemberIx} {s : State} (h : (s.lane k).receiving = some m) :
    s.restartLane t k = (s.laneBroken t k m).releasePass t := by
  have hrestarted : ((s.refuseHeld k).breakMember t .restart k).mapLane k Lane.restarted = s.laneBroken t k m := by
    have hmember : (s.holdRefused k).member m = s.member m := rfl
    rw [refuseHeld_eq, breakMember_some (m := m) (by exact h), mapLane_setLane, hmember, State.laneBroken,
      raise_setLane]
    rfl
  rw [State.restartLane, hrestarted, h]
  exact if_pos rfl

/-- What of the part stands after the release pass as before it (R49, R50), lane `k` holding no write. -/
theorem releasePass_kept {k : LaneIx} {t : Time} {w r : State} (hr : r = w ∨ r = w.releasePass t) (h : (w.lane k).hold = []) :
    r.lane k = w.lane k ∧ r.sent = w.sent ∧ r.slots = w.slots ∧ r.readyQueue = w.readyQueue := by
  rcases hr with hr | hr
  · rw [hr]
    exact ⟨rfl, rfl, rfl, rfl⟩
  · rw [hr]
    have hpass := passes_releasePass t w
    exact ⟨lane_releasePass_unheld t h, hpass.sent, hpass.slots, hpass.readyQueue⟩

/-- LANE_RESTART of an enabled lane out of CONFIG (R37, R38). -/
theorem exec_laneRestart {s : State} (h : s.linkFree) {lane : Byte} {k : LaneIx} (hpart : s.part ≠ .config)
    (hk : k.val = lane.toNat) (he : (s.lane k).enabled = true) : exec (.laneRestart lane) s =
      .next (State.refill (((s.taken 4).restartLane s.clock k).respond .ok
        (le 4 (((s.taken 4).restartLane s.clock k).lane k).cursor))) := by
  rw [exec, execLaneRestart, takeFrame_linkFree h, State.carryOutLaneRestart, if_neg (by exact hpart), laneOf_of_val hk]
  dsimp only
  rw [if_pos (by exact he)]
  rfl

/-- Lane `l` at its next lead boundary `c`, with no member receiving and nothing held or collected (R38). -/
structure Lane.AtBoundary (c : Nat) (l : Lane) : Prop where
  cursor : l.cursor = c
  parser : l.parser = .lead
  leadBuffer : l.leadBuffer = []
  candidate : l.candidate = []
  pendingLead : l.pendingLead = none
  receiving : l.receiving = none
  remaining : l.remaining = 0
  hold : l.hold = []
  holdDeadline : l.holdDeadline = .absent

/-- What a restart leaves: the lane at a lead boundary, its held writes refused, and the slots and the READY queue as they were
(R38). -/
theorem restartLane_spec (t : Time) (k : LaneIx) (s : State) :
    ((s.restartLane t k).lane k).AtBoundary (((s.lane k).cursor + 63) / 64 * 64 % (s.lane k).size) ∧
    (s.restartLane t k).sent = s.sent ++ (s.lane k).hold.map (fun w => ⟨w.tag, .refused⟩) ∧
    (∀ m : MemberIx, (s.lane k).receiving = some m →
      ((s.restartLane t k).lane k).order = (s.lane k).order.filter (fun i => decide (i ≠ m)) ∧
      ((s.restartLane t k).lane k).counts.brokenMembers = satAdd (s.lane k).counts.brokenMembers 1) ∧
    ((s.lane k).receiving = none → ((s.restartLane t k).lane k).order = (s.lane k).order) ∧
    (s.restartLane t k).slots = s.slots ∧ (s.restartLane t k).readyQueue = s.readyQueue := by
  cases hr : (s.lane k).receiving with
  | none =>
    have hpass : s.restartLane t k = s.laneIdle k ∨ s.restartLane t k = (s.laneIdle k).releasePass t := by
      rw [restartLane_idle hr]
      exact (em _).imp (fun htail => if_pos htail) (fun htail => if_neg htail)
    have hlane : (s.laneIdle k).lane k = (s.lane k).restartedIdle := State.lane_setLane_same _ k _
    obtain ⟨hafter, hsent, hslots, hready⟩ := releasePass_kept hpass (by rw [hlane]; rfl)
    rw [hafter, hlane]
    exact ⟨⟨rfl, rfl, rfl, rfl, rfl, hr, rfl, rfl, rfl⟩, hsent, nofun, fun _ => rfl, hslots, hready⟩
  | some m =>
    have hlane : (s.laneBroken t k m).lane k = (s.lane k).restartedBroken m := lane_raise_setLane_same _ _ k _ _
    obtain ⟨hafter, hsent, hslots, hready⟩ := releasePass_kept (.inr (restartLane_broken (t := t) hr)) (by rw [hlane]; rfl)
    rw [hafter, hlane]
    refine ⟨⟨rfl, rfl, rfl, rfl, rfl, rfl, rfl, rfl, rfl⟩, hsent.trans (State.raise_sent _ _ _), fun i hi => ?_, nofun,
      hslots.trans (State.raise_slots _ _ _), hready.trans (State.raise_readyQueue _ _ _)⟩
    cases hi
    exact ⟨rfl, rfl⟩

end Sys2Proof.Machine

open Sys2Proof Sys2Proof.Machine

/-- Settles O51: a restarted lane is at a lead boundary, with its held writes refused and its receiving member broken. -/
theorem laneRestartAtLeadBoundary : Obligations.LaneRestartAtLeadBoundary := by
  unfold Obligations.LaneRestartAtLeadBoundary
  intro s lane h
  have hexec : exec (.laneRestart lane) s = .next ((s.taken 4).carryOutLaneRestart lane).refill := by
    rw [exec, execLaneRestart, takeFrame_linkFree h]
  refine ⟨fun hpart => ?_, fun hpart hbad => ?_, fun k hpart hk => ⟨fun hoff => ?_, fun hon => ?effects, fun hon => ?states⟩⟩
  · rw [hexec, State.carryOutLaneRestart, if_pos (by exact hpart)]
    rfl
  · rw [hexec, State.carryOutLaneRestart, if_neg (by exact hpart), laneOf_of_gt hbad]
    rfl
  · rw [hexec, State.carryOutLaneRestart, if_neg (by exact hpart), laneOf_of_val hk]
    dsimp only
    rw [if_neg (by rw [State.taken]; exact ne_true_of_eq_false hoff)]
    rfl
  case effects =>
    intro cursor
    obtain ⟨hlane, hsent, hbroken, hidle, hslots, hready⟩ := restartLane_spec s.clock k (s.taken 4)
    have hkeeps := keeps_restartLane s.clock k (s.taken 4)
    have hresult := exec_laneRestart h hpart hk hon
    generalize (s.taken 4).restartLane s.clock k = r at hlane hsent hbroken hidle hslots hready hkeeps hresult
    refine ⟨r.respond .ok (le 4 (r.lane k).cursor), hresult, ?_, hlane.cursor, hlane.parser, hlane.leadBuffer,
      hlane.candidate, hlane.pendingLead, hlane.receiving, hlane.remaining, hlane.hold, hlane.holdDeadline, hsent, hbroken,
      hidle, hslots, hready, hkeeps.clock, ?_⟩
    · rw [State.respond_response, hlane.cursor]
      rfl
    · obtain ⟨hwindow, hdirectory, henabled, hbase, hexponent⟩ := hkeeps.regions
      exact ⟨hwindow, hdirectory, henabled, hbase, hexponent⟩
  case states =>
    intro l cursor refused fresh finished
    have hresult := exec_laneRestart h hpart hk hon
    obtain ⟨hlane, _⟩ := restartLane_spec s.clock k (s.taken 4)
    rw [hlane.cursor] at hresult
    refine ⟨fun hr => ⟨fun htail => ?_, fun htail => ?_⟩, fun m hr => ⟨fun hmembers => ?_, ?_⟩⟩
    · rw [restartLane_idle (by exact hr), if_pos (by exact htail)] at hresult
      exact hresult
    · rw [restartLane_idle (by exact hr), if_neg (by exact htail)] at hresult
      exact hresult
    · have hput : (refused.setMember m {}).member m = {} := (MemberTable.get_put hmembers m m {}).trans (if_pos rfl)
      exact (congrArg (MemberTable.get · m) (State.raise_members _ _ _)).trans hput
    · rw [restartLane_broken (by exact hr)] at hresult
      exact hresult
end

/-! ## DISCARD_PACK and RECOMMIT_PACK -/

section
namespace Sys2Proof.Machine

/-! ### The units out and the record byte -/

/-- Units of pack `d` are out when it is the current pack and units are in flight (R107). -/
theorem unitsOut_iff {s : State} {d : PackIx} :
    s.unitsOut d = true ↔ 0 < s.engine.unitsInFlight ∧ ∃ cur, s.engine.current = some cur ∧ cur.record = d := by
  rw [State.unitsOut, Bool.and_eq_true, decide_eq_true_eq, and_comm, State.isCurrent]
  refine and_congr_right fun _ => ?_
  cases s.engine.current with
  | none => exact ⟨nofun, nofun⟩
  | some cur => simp

theorem unitsOut_of_idle {s : State} {d : PackIx}
    (h : ¬ (0 < s.engine.unitsInFlight ∧ ∃ cur, s.engine.current = some cur ∧ cur.record = d)) : s.unitsOut d = false :=
  Bool.eq_false_iff.2 fun hout => h (unitsOut_iff.1 hout)

theorem unitsOut_of_behind {s : State} {d : PackIx} (h : ∀ cur, s.engine.current = some cur → cur.record ≠ d) :
    s.unitsOut d = false :=
  unitsOut_of_idle fun ⟨_, cur, hcur, hd⟩ => h cur hcur hd

/-- The record byte that names pack `d` in a command (R105). -/
theorem packIx_byte (d : PackIx) : d.val = (BitVec.ofNat 8 d.val).toNat := by
  have := d.isLt
  rw [BitVec.toNat_ofNat, Nat.mod_eq_of_lt (by omega)]

/-! ### Out of the structure that holds the pack -/

theorem leaveCommit_eq (d : PackIx) (s : State) :
    s.leaveCommit d = { s with engine := (s.leaveCommit d).engine, arbiter := (s.leaveCommit d).arbiter } := by
  unfold State.leaveCommit
  dsimp only
  split
  · rw [beginCommit_eq]
    rfl
  · rfl

theorem leaveStructure_opened {s : State} {d : PackIx} (h : (s.pack d).state = .opened) :
    s.leaveStructure d = s.setPack d { s.pack d with state := .discarding, age := .absent } := by
  rw [State.leaveStructure, h]

theorem leaveStructure_ready {s : State} {d : PackIx} (h : (s.pack d).state = .ready) :
    s.leaveStructure d = { s with readyQueue := s.readyQueue.filter (fun x => decide (x ≠ d)) } := by
  rw [State.leaveStructure, h]

theorem leaveStructure_failed {s : State} {d : PackIx} (h : (s.pack d).state = .failed) : s.leaveStructure d = s := by
  rw [State.leaveStructure, h]

theorem leaveStructure_sealing {s : State} {d : PackIx} (h : (s.pack d).state = .sealing) :
    s.leaveStructure d = s.leaveCommit d := by
  rw [State.leaveStructure, h]

/-- Only a SEALING pack leaves the commit queue (R106 step 1). -/
theorem leaveStructure_engine {s : State} {d : PackIx} (h : (s.pack d).state ≠ .sealing) :
    (s.leaveStructure d).engine = s.engine ∧ (s.leaveStructure d).arbiter = s.arbiter := by
  unfold State.leaveStructure
  split
  next => exact ⟨rfl, rfl⟩
  next hs => exact absurd hs h
  next => exact ⟨rfl, rfl⟩
  next => exact ⟨rfl, rfl⟩

theorem pack_of_packs {s t : State} (h : t.packs = s.packs) (e : PackIx) : t.pack e = s.pack e := by
  rw [State.pack, h]
  rfl

/-- Leaving its structure changes pack `d`, the READY queue, the engine and the candidate alone, and keeps the pack's members
(R106 step 1). -/
structure LeftStructure (s : State) (d : PackIx) (l : State) : Prop where
  same : l = { s with packs := l.packs, readyQueue := l.readyQueue, engine := l.engine, arbiter := l.arbiter }
  others : ∀ e : PackIx, e ≠ d → l.pack e = s.pack e
  members : (l.pack d).members = (s.pack d).members

theorem LeftStructure.of_packs {s l : State} {d : PackIx} (h : l = { s with
    readyQueue := l.readyQueue, engine := l.engine, arbiter := l.arbiter }) : LeftStructure s d l := by
  have hpacks : l.packs = s.packs := (congrArg State.packs h :)
  exact ⟨by rw [hpacks]; exact h, fun e _ => pack_of_packs hpacks e, congrArg Pack.members (pack_of_packs hpacks d)⟩

theorem leftStructure_leaveCommit (d : PackIx) (s : State) : LeftStructure s d (s.leaveCommit d) := by
  have h := leaveCommit_eq d s
  generalize s.leaveCommit d = l at h
  rw [h]
  exact .of_packs rfl

theorem leftStructure_leaveStructure (d : PackIx) (s : State) : LeftStructure s d (s.leaveStructure d) := by
  unfold State.leaveStructure
  split
  · exact .of_packs rfl
  · exact leftStructure_leaveCommit d s
  · exact ⟨rfl, fun e he => State.pack_setPack_other s _ he, (congrArg Pack.members (State.pack_setPack_same s d _) :)⟩
  · exact .of_packs rfl

/-- The release of the members of a pack that has left its structure, with no write held (R106 step 2). -/
structure ReleasedFrom (s : State) (d : PackIx) (l r : State) : Prop where
  same : r = { l with members := r.members, lanes := r.lanes }
  members : ∀ m ∈ (s.pack d).members, (r.member m).state = .released ∨ (r.member m).state = .free

theorem LeftStructure.released {s l : State} {d : PackIx} (h : LeftStructure s d l) (hheld : s.nothingHeld)
    (hcanon : s.membersCanonical) (t : Time) : ReleasedFrom s d l (l.releasePack t d) := by
  have hlanes : l.lanes = s.lanes := (congrArg State.lanes h.same :)
  have hmembers : l.members = s.members := (congrArg State.members h.same :)
  obtain ⟨hsame, hreleased⟩ := releasePack_spec (s := l) (fun k => by rw [lane_of_lanes hlanes k]; exact hheld k) t d
  exact ⟨hsame, fun m hm => hreleased (by rw [State.membersCanonical, hmembers]; exact hcanon) m
    (by rw [h.members]; exact hm)⟩

theorem ReleasedFrom.pack {s l r : State} {d : PackIx} (h : ReleasedFrom s d l r) (e : PackIx) : r.pack e = l.pack e :=
  pack_of_packs (congrArg State.packs h.same :) e

/-- What the release keeps: the slots, the events, what was sent, the counters and the wait list (R64, R69). -/
theorem ReleasedFrom.keeps {s l r : State} {d : PackIx} (hr : ReleasedFrom s d l r) (hl : LeftStructure s d l) :
    r.slots = s.slots ∧ r.events = s.events ∧ r.sent = s.sent ∧ r.counters = s.counters ∧ r.waitList = s.waitList ∧
    r.readyQueue = l.readyQueue ∧ r.engine = l.engine ∧ r.arbiter = l.arbiter := by
  have hl := hl.same
  have hr := hr.same
  generalize r.members = ms, r.lanes = ls at hr
  subst hr
  generalize l.packs = ps, l.readyQueue = q, l.engine = eng, l.arbiter = a at hl
  subst hl
  exact ⟨rfl, rfl, rfl, rfl, rfl, rfl, rfl, rfl⟩

/-- What a discard answers with, record `p` in the place of pack `d` (R106, R107): the other packs, the slots, the events and
what was sent are kept, and the members of the pack are RELEASED or FREE. -/
structure DiscardAnswered (s l : State) (d : PackIx) (p : Pack) (c : Counters) (t : State) : Prop where
  pack : t.pack d = p
  others : ∀ e : PackIx, e ≠ d → t.pack e = s.pack e
  slots : t.slots = s.slots
  events : t.events = s.events
  sent : t.sent = s.sent
  members : ∀ m ∈ (s.pack d).members, (t.member m).state = .released ∨ (t.member m).state = .free
  readyQueue : t.readyQueue = l.readyQueue
  engine : t.engine = l.engine
  arbiter : t.arbiter = l.arbiter
  counters : t.counters = c

theorem ReleasedFrom.answered {s l r : State} {d : PackIx} (hr : ReleasedFrom s d l r) (hl : LeftStructure s d l)
    (st : Status) (payload : List Byte) (p : Pack) (c : Counters) :
    DiscardAnswered s l d p c (State.respond st payload { r.setPack d p with counters := c }) := by
  obtain ⟨hslots, hevents, hsent, _, _, hready, hengine, harbiter⟩ := hr.keeps hl
  have hpack : ∀ e, (State.respond st payload { r.setPack d p with counters := c }).pack e = (r.setPack d p).pack e :=
    fun e => pack_of_packs rfl e
  refine ⟨(hpack d).trans (State.pack_setPack_same r d p), fun e he => ?_, hslots, hevents, hsent, hr.members, hready,
    hengine, harbiter, rfl⟩
  rw [hpack e, State.pack_setPack_other r p he, hr.pack, hl.others e he]

/-! ### The two discards -/

/-- With no write held and no member waiting the discard of a pack without units out frees its record and counts (R106). -/
theorem discardWhole_unheld {s : State} (d : PackIx) (hheld : s.nothingHeld) (hcanon : s.membersCanonical)
    (hwait : s.waitList = []) (t : Time) : ∃ r : State, ReleasedFrom s d (s.leaveStructure d) r ∧
      s.discardWhole t d =
        { r.setPack d {} with counters := s.counters.bumpDiscarded (decide ((s.pack d).state = .opened)) } := by
  have hleft := leftStructure_leaveStructure d s
  have hr := hleft.released hheld hcanon t
  obtain ⟨_, _, _, hcounters, hwaits, _⟩ := hr.keeps hleft
  rw [State.discardWhole]
  generalize (s.leaveStructure d).releasePack t d = r at hr hcounters hwaits
  refine ⟨r, hr, ?_⟩
  rw [drainWaitList_nil t (by exact hwaits.trans hwait), ← hcounters]
  rfl

/-- The part with the engine at `e` and the candidate withdrawn (R125, R15). -/
def State.droppedTo (e : Engine) (s : State) : State :=
  { s with engine := e, arbiter := { s.arbiter with run := 0, burst := none } }

/-- The discard of the current pack with units out drops it, and puts its record on the discard list with the count of its
units (R107, R125). -/
theorem discardInFlight_drops {s : State} {cur : Current} (h : s.engine.current = some cur) (t : Time) :
    ∃ e : Engine, DroppedIn s e cur.record (s.engine.discards ++ [⟨cur.record, s.engine.unitsInFlight⟩]) ∧
      let r := (s.droppedTo e).releasePack t cur.record
      s.discardInFlight t cur.record = { r.setPack cur.record { r.pack cur.record with state := .discarding } with
        counters := r.counters.bumpDiscarded false } := by
  obtain ⟨e, hdropped, hleft⟩ := leaveCommit_current (s := { s with engine := { s.engine with
    discards := s.engine.discards ++ [⟨cur.record, s.engine.unitsInFlight⟩] } }) h
  have hwaits := hdropped.waits
  have hbegins := hdropped.begins
  refine ⟨e, ⟨hwaits, hbegins⟩, ?_⟩
  have hleft : State.leaveCommit cur.record { s with engine := { s.engine with
      discards := s.engine.discards ++ [⟨cur.record, s.engine.unitsInFlight⟩] } } = s.droppedTo e := hleft
  rw [State.discardInFlight, hleft]
  dsimp only
  generalize (s.droppedTo e).releasePack t cur.record = r
  rfl

/-- A pack that a discard takes: not FREE, not BOUND and not DISCARDING (R105). -/
abbrev PackState.discardable (st : PackState) : Prop := st ≠ .free ∧ st ≠ .bound ∧ st ≠ .discarding

section
variable {s : State} {d : PackIx} {st : PackState}

/-- DISCARD_PACK of a pack without units out (R106). -/
theorem exec_discardPack_whole (h : s.linkFree) (hp : s.part ≠ .config) (hs : (s.pack d).state = st) (hst : st.discardable)
    (hout : s.unitsOut d = false) : exec (.discardPack (BitVec.ofNat 8 d.val) (s.pack d).serial) s =
      .next (State.respond .ok (le 1 st.code) ((s.taken 8).discardWhole s.clock d)) := by
  subst hs
  obtain ⟨hfree, hbound, hdiscarding⟩ := hst
  rw [exec_discardPack_passes h (namedPack_passes hp (packIx_byte d) hfree rfl) hbound hdiscarding,
    if_neg (ne_true_of_eq_false hout)]

/-- DISCARD_PACK of a pack with units out (R107). -/
theorem exec_discardPack_inFlight (h : s.linkFree) (hp : s.part ≠ .config) (hs : (s.pack d).state = st)
    (hst : st.discardable) (hout : s.unitsOut d = true) :
    exec (.discardPack (BitVec.ofNat 8 d.val) (s.pack d).serial) s =
      .next (State.respond .ok (le 1 st.code) ((s.taken 8).discardInFlight s.clock d)) := by
  subst hs
  obtain ⟨hfree, hbound, hdiscarding⟩ := hst
  rw [exec_discardPack_passes h (namedPack_passes hp (packIx_byte d) hfree rfl) hbound hdiscarding, if_pos hout]

/-- DISCARD_PACK of a pack without units out, step by step: the pack out of its structure, the release, the record freed, the
counter and the drain (R106). -/
theorem exec_discardPack_steps (h : s.linkFree) (hp : s.part ≠ .config) (hs : (s.pack d).state = st) (hst : st.discardable)
    (hout : s.unitsOut d = false) {l : State} (hl : (s.taken 8).leaveStructure d = l) :
    exec (.discardPack (BitVec.ofNat 8 d.val) (s.pack d).serial) s =
      let u := (l.releasePack s.clock d).setPack d {}
      .next { State.drainWaitList s.clock { u with counters := u.counters.bumpDiscarded (decide (st = .opened)) } with
        response := .ready .ok (le 1 st.code) } := by
  rw [exec_discardPack_whole h hp hs hst hout, State.discardWhole, hl, State.taken_pack, hs]
  rfl

end

/-- Pack `d` SEALING again, at the tail of the commit queue (R108). -/
def State.recommitted (d : PackIx) (s : State) : State :=
  (s.setPack d { s.pack d with state := .sealing }).joinCommitQueue d

/-- A FAILED pack is SEALING at the tail of the commit queue with all else kept, and an IDLE engine in RUN begins (R108,
R116, R117). -/
theorem recommit_joins (s : State) (d : PackIx) :
    let t := s.recommitted d
    t = { s with packs := (s.setPack d { s.pack d with state := .sealing }).packs, engine := t.engine } ∧
    t.engine.queue = s.engine.queue ++ [d] ∧
    (s.engine.state ≠ .idle ∨ s.part ≠ .run → t.engine = { s.engine with queue := s.engine.queue ++ [d] }) ∧
    (s.engine.state = .idle → s.part = .run → s.engine.queue = [] →
      t.engine = s.begun d { s.engine with queue := [d] }) := by
  intro t
  let joined : State := { s.setPack d { s.pack d with state := .sealing } with
    engine := { s.engine with queue := s.engine.queue ++ [d] } }
  refine ⟨beginCommit_eq joined, beginCommit_queue joined, fun hwaits => ?_, fun hidle hrun hempty => ?_⟩
  · exact congrArg State.engine (beginCommit_same (s := joined) fun hbegins => hwaits.elim (· hbegins.1) (· hbegins.2))
  · have hqueue : joined.engine.queue = [d] := congrArg (· ++ [d]) hempty
    have hserial : (joined.pack d).serial = (s.pack d).serial :=
      (congrArg Pack.serial (State.pack_setPack_same s d { s.pack d with state := .sealing }) :)
    refine (beginCommit_begun (s := joined) hidle hrun hqueue).trans ?_
    rw [State.begun, State.begun, hserial, hqueue]

end Sys2Proof.Machine

open Sys2Proof Sys2Proof.Machine

/-- Settles O50: a discard takes the pack out of its structure, releases its members and frees or keeps its record; a
recommitted pack joins the commit queue. -/
theorem discardAndRecommit : Obligations.DiscardAndRecommit := by
  unfold Obligations.DiscardAndRecommit
  refine ⟨?unheld, fun s d h hp => ?steps, ?recommit⟩
  case unheld =>
    intro s d h hp hheld hwait hcanon hfree hbound hdiscarding
    have hst : (s.pack d).state.discardable := ⟨hfree, hbound, hdiscarding⟩
    by_cases hout : 0 < s.engine.unitsInFlight ∧ ∃ cur, s.engine.current = some cur ∧ cur.record = d
    · have hresult := exec_discardPack_inFlight h hp rfl hst (unitsOut_iff.2 hout)
      obtain ⟨hunits, cur, hcur, rfl⟩ := hout
      obtain ⟨e, hdropped, hflight⟩ := discardInFlight_drops (s := s.taken 8) hcur s.clock
      have hdropped : DroppedIn s e cur.record (s.engine.discards ++ [⟨cur.record, s.engine.unitsInFlight⟩]) :=
        ⟨hdropped.waits, hdropped.begins⟩
      have hleft : LeftStructure (s.taken 8) cur.record ((s.taken 8).droppedTo e) := .of_packs rfl
      have hr := hleft.released hheld hcanon s.clock
      dsimp only at hflight
      rw [hflight] at hresult
      clear hflight
      generalize ((s.taken 8).droppedTo e).releasePack s.clock cur.record = r at hr hresult
      have hpack : r.pack cur.record = s.pack cur.record := (hr.pack _).trans (pack_of_packs rfl _)
      obtain ⟨_, _, _, hcounters, _⟩ := hr.keeps hleft
      obtain ⟨t, hresult, ht⟩ : ∃ t,
          exec (.discardPack (BitVec.ofNat 8 cur.record.val) (s.pack cur.record).serial) s = .next t ∧
          DiscardAnswered (s.taken 8) _ cur.record { r.pack cur.record with state := .discarding }
            (r.counters.bumpDiscarded false) t := ⟨_, hresult, hr.answered hleft _ _ _ _⟩
      refine ⟨t, hresult, ht.others, ht.slots, ht.events, ht.sent, ht.members,
        fun hidle => absurd ⟨hunits, cur, hcur, rfl⟩ hidle, fun i _ hi _ => ?_⟩
      have hrecord := ht.pack
      rw [hpack] at hrecord
      rw [hrecord, ht.engine, ht.arbiter, ht.counters, hcounters]
      exact ⟨rfl, rfl, rfl, hdropped, rfl, rfl⟩
    · have hresult := exec_discardPack_whole h hp rfl hst (unitsOut_of_idle hout)
      have hleft := leftStructure_leaveStructure d (s.taken 8)
      obtain ⟨r, hr, hwhole⟩ := discardWhole_unheld (s := s.taken 8) d hheld hcanon hwait s.clock
      rw [hwhole] at hresult
      obtain ⟨t, hresult, ht⟩ : ∃ t, exec (.discardPack (BitVec.ofNat 8 d.val) (s.pack d).serial) s = .next t ∧
          DiscardAnswered (s.taken 8) _ d _ _ t := ⟨_, hresult, hr.answered hleft _ _ _ _⟩
      have hengine : (s.pack d).state ≠ .sealing → _ := leaveStructure_engine (s := s.taken 8) (d := d)
      have hready : (s.pack d).state = .ready → _ := leaveStructure_ready (s := s.taken 8) (d := d)
      have hsealing : (s.pack d).state = .sealing → _ := leaveStructure_sealing (s := s.taken 8) (d := d)
      generalize (s.taken 8).leaveStructure d = l at ht hengine hready hsealing
      refine ⟨t, hresult, ht.others, ht.slots, ht.events, ht.sent, ht.members,
        fun hidle => ⟨ht.pack, fun hs => ?_, fun hs => ?_, fun hs => ?_, fun hs => ?_,
          fun hs => ⟨fun hbehind => ?_, fun cur hcur hd => ?_⟩⟩,
        fun cur hunits hcur hd => absurd ⟨hunits, cur, hcur, hd⟩ hout⟩
      · rw [ht.counters, State.taken_pack, hs]
        rfl
      · rw [ht.counters, State.taken_pack, decide_eq_false hs]
        rfl
      · rw [ht.readyQueue, hready hs]
        rfl
      · rw [ht.engine, ht.arbiter]
        exact hengine hs
      · rw [ht.engine, ht.arbiter, hsealing hs, leaveCommit_behind (by exact hbehind)]
        exact ⟨rfl, rfl⟩
      · subst hd
        obtain ⟨e, hdropped, hcommit⟩ := leaveCommit_current (s := s.taken 8) hcur
        rw [ht.engine, ht.arbiter, hsealing hs, hcommit]
        exact ⟨⟨hdropped.waits, hdropped.begins⟩, rfl⟩
  case steps =>
    intro taken command freed idle finished
    refine ⟨fun hs hidle => ?_, fun hs hidle => ?_, fun hs hidle => ?_, fun hs hbehind => ?_, fun cur hs hcur hd hnone => ?_,
      fun cur hs hcur hd hout => ?_⟩
    · exact exec_discardPack_steps h hp hs (by decide) (unitsOut_of_idle hidle) (leaveStructure_opened (by exact hs))
    · exact exec_discardPack_steps h hp hs (by decide) (unitsOut_of_idle hidle) (leaveStructure_ready (by exact hs))
    · exact exec_discardPack_steps h hp hs (by decide) (unitsOut_of_idle hidle) (leaveStructure_failed (by exact hs))
    · exact exec_discardPack_steps h hp hs (by decide) (unitsOut_of_behind hbehind)
        ((leaveStructure_sealing (by exact hs)).trans (leaveCommit_behind (by exact hbehind)))
    · subst hd
      obtain ⟨e, hdropped, hleft⟩ := leaveCommit_current (s := s.taken 8) hcur
      have hwaits := hdropped.waits
      have hbegins := hdropped.begins
      exact ⟨e, ⟨hwaits, hbegins⟩, exec_discardPack_steps h hp hs (by decide)
        (unitsOut_of_idle fun hout => absurd hnone (Nat.ne_of_gt hout.1)) ((leaveStructure_sealing (by exact hs)).trans hleft)⟩
    · subst hd
      obtain ⟨e, hdropped, hflight⟩ := discardInFlight_drops (s := s.taken 8) hcur s.clock
      have hwaits := hdropped.waits
      have hbegins := hdropped.begins
      have hresult := exec_discardPack_inFlight h hp hs (by decide) (unitsOut_iff.2 ⟨hout, cur, hcur, rfl⟩)
      refine ⟨e, ⟨hwaits, hbegins⟩, ?_⟩
      intro left u
      have hu : u = ((s.taken 8).droppedTo e).releasePack s.clock cur.record := rfl
      clear_value u
      rw [hflight, ← hu] at hresult
      exact hresult
  case recommit =>
    intro s d h hp hs
    have hfree : (s.pack d).state ≠ .free := by rw [hs]; exact nofun
    have hresult : exec (.recommitPack (BitVec.ofNat 8 d.val) (s.pack d).serial) s =
        .next (((s.taken 8).recommitted d).respond .ok (le 1 PackState.failed.code)) :=
      exec_recommitPack_passes h (namedPack_passes hp (packIx_byte d) hfree rfl) hs
    obtain ⟨hsame, hqueue, hwaits, hbegins⟩ := recommit_joins (s.taken 8) d
    dsimp only at hsame hqueue hwaits hbegins
    generalize (s.taken 8).recommitted d = u at hresult hsame hqueue hwaits hbegins
    have hpack : ∀ e, u.pack e = ((s.taken 8).setPack d { s.pack d with state := .sealing }).pack e :=
      pack_of_packs (congrArg State.packs hsame :)
    refine ⟨_, hresult, (hpack d).trans (State.pack_setPack_same _ d _),
      fun e he => (hpack e).trans (State.pack_setPack_other _ _ he), hqueue, hwaits, hbegins, ?_⟩
    rw [hsame]
    rfl

end

/-! ## The reports: READ_PART, READ_LANE and READ_PACK -/

section
namespace Sys2Proof.Machine

/-! ### Fields that stand side by side -/

theorem leNat_take_add (a b : Nat) (l : List Byte) :
    leNat (l.take (a + b)) = leNat (l.take a) + 256 ^ a * leNat ((l.drop a).take b) := by
  induction a generalizing l with
  | zero => simp [leNat]
  | succ a ih =>
    cases l with
    | nil => simp [leNat]
    | cons x l =>
      rw [Nat.succ_add, List.take_succ_cons, List.take_succ_cons, List.drop_succ_cons, leNat, leNat, ih, Nat.pow_succ]
      ring

/-- A field is made of the fields of its first and of its remaining bytes. -/
theorem field_add (bytes : List Byte) (o a b : Nat) :
    field bytes o (a + b) = field bytes o a + 256 ^ a * field bytes (o + a) b := by
  rw [field, leNat_take_add, List.drop_drop]
  rfl

/-- An entry of a list of entries of one size. -/
theorem field_entry {n v : Nat} (l : List Nat) {i : Nat} (h : l[i]? = some v) :
    field (l.flatMap (le n)) (n * i) n = v % 256 ^ n := by
  induction l generalizing i with
  | nil => cases h
  | cons x l ih =>
    cases i with
    | zero =>
      cases h
      exact field_front n _ _
    | succ i =>
      have hi : l[i]? = some v := h
      have hbehind := field_behind (le n x) (l.flatMap (le n)) (n * i) n
      rw [le_length] at hbehind
      rw [List.flatMap_cons, Nat.mul_succ, Nat.add_comm, hbehind, ih hi]

theorem toNat_mod_addr (a : Addr) : a.toNat % 256 ^ 8 = a.toNat := Nat.mod_eq_of_lt (a.isLt.trans (by decide))

theorem length_fieldBytes (l : List (Nat × Nat)) : (fieldBytes l).length = (l.map Prod.fst).sum := by
  simp [fieldBytes, List.length_flatMap]

/-- A field of one byte that holds a flag is the flag's byte. -/
theorem getElem?_of_flag {bytes : List Byte} {o : Nat} {b : Bool} (ho : o < bytes.length)
    (h : field bytes o 1 = (if b then 1 else 0) % 256 ^ 1) : bytes[o]? = some (flagByte b) := by
  have htake : (bytes.drop o).take 1 = [bytes[o]] := by rw [List.drop_eq_getElem_cons ho]; rfl
  rw [field, htake] at h
  have hbyte : bytes[o].toNat = (flagByte b).toNat := by
    cases b <;> exact h
  rw [List.getElem?_eq_getElem ho, BitVec.eq_of_toNat_eq hbyte]

/-! ### Optional values and deadlines -/

/-- The fields of an optional value, by the value (Table 11-8). -/
def optionFields (size : Nat) : Option Nat → List (Nat × Nat)
  | none => [(1, 0), (size, 0)]
  | some v => [(1, 1), (size, v)]

theorem optionBytes_eq (size : Nat) (x : Option Nat) : optionBytes size x = fieldBytes (optionFields size x) := by
  cases x with
  | none => exact optionBytes_none size
  | some v => exact optionBytes_some size v

/-- Whether an optional value is present, as a report says it (Table 11-8). -/
def presence (x : Option Nat) : Nat := if x.isSome then 1 else 0

theorem optionFields_eq (size : Nat) (x : Option Nat) : optionFields size x = [(1, presence x), (size, x.getD 0)] := by
  cases x <;> rfl

/-- A deadline as a number, where a report shows one (R159). -/
def Deadline.number : Deadline → Option Nat
  | .absent => none
  | .pending v => some v.toNat
  | .due v => some v.toNat
  | .dormant => some (2 ^ 48 - 1)

theorem deadlineBytes_eq (d : Deadline) : d.bytes = fieldBytes (optionFields 8 d.number) := by
  rw [Deadline.bytes, optionBytes_eq]
  cases d <;> rfl

theorem number_lt {d : Deadline} : d.number.getD 0 < 256 ^ 8 := by
  cases d with
  | absent => decide
  | dormant => decide
  | pending v => exact v.isLt.trans (by decide)
  | due v => exact v.isLt.trans (by decide)

/-- What a report of a deadline holds, by the deadline (R159). -/
theorem deadline_fields {bytes : List Byte} {o : Nat} {d : Deadline} (hpresent : field bytes o 1 = presence d.number % 256 ^ 1)
    (hvalue : field bytes (o + 1) 8 = d.number.getD 0 % 256 ^ 8) :
    (d = .absent → field bytes o 9 = 0) ∧
    (∀ v : Time, d = .pending v ∨ d = .due v → field bytes o 1 = 1 ∧ field bytes (o + 1) 8 = v.toNat) ∧
    (d = .dormant → field bytes o 1 = 1 ∧ field bytes (o + 1) 8 = 2 ^ 48 - 1) := by
  rw [Nat.mod_eq_of_lt number_lt] at hvalue
  refine ⟨fun h => ?_, fun v h => ?_, fun h => ?_⟩
  · subst h
    rw [field_add bytes o 1 8, hpresent, hvalue]
    rfl
  · rcases h with h | h <;> subst h <;> exact ⟨hpresent, hvalue⟩
  · subst h
    exact ⟨hpresent, hvalue⟩

/-- What a report of an optional value holds. -/
theorem option_fields {bytes : List Byte} {o n : Nat} {x : Option Nat} (hpresent : field bytes o 1 = presence x % 256 ^ 1)
    (hvalue : field bytes (o + 1) n = x.getD 0 % 256 ^ n) :
    (x = none → field bytes o (1 + n) = 0) ∧
    (∀ v, x = some v → field bytes o 1 = 1 ∧ field bytes (o + 1) n = v % 256 ^ n) := by
  refine ⟨fun h => ?_, fun v h => ?_⟩
  · subst h
    rw [field_add bytes o 1 n, hpresent, hvalue]
    simp [presence]
  · subst h
    exact ⟨hpresent, hvalue⟩

/-! ### The part record -/

/-- The fields of the classes in the part record (Table 11-6). -/
def State.classFields (s : State) : List (Nat × Nat) :=
  (List.finRange 8).flatMap (fun c =>
    [(1, c.val), (1, if (s.cls c).enabled then 1 else 0), (2, (s.cls c).target), (2, (s.cls c).cap), (4, (s.cls c).ageLimit),
      (1, (s.cls c).retention.toNat)])

/-- The fields of the engine in the part record (R116). -/
def Engine.fields (e : Engine) : List (Nat × Nat) :=
  (1, e.state.code) :: (match e.current with
    | none => [(1, 0), (1, 0), (4, 0)]
    | some c => [(1, 1), (1, c.record.val), (4, c.serial.toNat)]) ++
  [(2, e.nextUnit), (2, e.unitsInFlight), (2, e.faults)] ++
  ((2, (e.queue.map Fin.val).length) :: (e.queue.map Fin.val).map (fun x => (1, x))) ++
  (2, e.discards.length) :: e.discards.flatMap (fun x => [(1, x.record.val), (2, x.units)])

/-- The fields of a slot in the part record (R146). -/
def State.slotFields (s : State) (j : SlotIx) : List (Nat × Nat) :=
  [(1, if s.slotEnabled j then 1 else 0), (1, (Config.slotStateCode (s.slot j).bound.isSome).toNat)] ++
  (match (s.slot j).bound with
    | none => [(1, 0), (1, 0), (4, 0), (4, 0)]
    | some b => [(1, 1), (1, b.record.val), (4, b.serial.toNat), (4, b.length)]) ++
  [(1, (s.slot j).reads), (1, pendingCode (s.slot j).pending)] ++ optionFields 8 (s.slot j).idle.number

/-- The fields of the part record, in the order of R163. -/
def State.partFields (s : State) : List (Nat × Nat) :=
  s.settingFields ++ s.classFields ++ (s.memberCensus ++ s.packCensus).map (fun n => (2, n)) ++
  ((2, s.waitList.length) :: optionFields 1 (s.waitList.head?.map (fun m => (s.member m).cls.val))) ++ s.engine.fields ++
  ((2, (s.readyQueue.map Fin.val).length) :: (s.readyQueue.map Fin.val).map (fun x => (1, x))) ++
  (List.finRange 4).flatMap s.slotFields ++ s.counters.all.map (fun c => (4, c.toNat))

theorem slotReport_fields (s : State) (j : SlotIx) : s.slotReport j = fieldBytes (s.slotFields j) := by
  rw [slotReport_eq, deadlineBytes_eq, ← fieldBytes_append]
  rfl

theorem partRecord_eq (s : State) : s.partRecord = fieldBytes s.partFields := by
  have hclasses : (List.finRange 8).flatMap (fun c => classBytes c (s.cls c)) = fieldBytes s.classFields := by
    rw [State.classFields, fieldBytes_flatMap]
    exact List.flatMap_congr fun c _ => classBytes_eq c (s.cls c)
  have hslots : (List.finRange 4).flatMap (fun j => s.slotReport j) = fieldBytes ((List.finRange 4).flatMap s.slotFields) := by
    rw [fieldBytes_flatMap]
    exact List.flatMap_congr fun j _ => slotReport_fields s j
  have hengine : s.engine.report = fieldBytes s.engine.fields := report_eq s.engine
  rw [State.partRecord, partSettings_eq, partTables_eq, hclasses, hslots, hengine, optionBytes_eq, listBytes_eq,
    ← fieldBytes_cons, State.partFields]
  simp only [fieldBytes_append, List.append_assoc]

/-! ### The lane report -/

/-- The fields of the lane report (R41). -/
def State.laneFields (s : State) (k : LaneIx) : List (Nat × Nat) :=
  let l := s.lane k
  [(1, if l.enabled then 1 else 0), (8, l.base.toNat), (1, l.exponent), (4, l.cursor), (4, s.tail k), (4, s.used k),
    (1, l.parser.code), (1, l.collected), (4, l.remaining), (1, presence (l.receiving.map Fin.val)),
    (2, (l.receiving.map Fin.val).getD 0), (1, presence l.pendingLead), (4, l.pendingLead.getD 0), (1, l.hold.length),
    (4, l.projected), (1, presence l.holdDeadline.number), (8, l.holdDeadline.number.getD 0)] ++
  l.counts.all.map (fun c => (4, c.toNat))

theorem laneReport_eq (s : State) (k : LaneIx) : s.laneReport k = fieldBytes (s.laneFields k) := by
  simp only [State.laneReport, State.laneFields, ← le_flag, optionBytes_eq, deadlineBytes_eq, optionFields_eq, counterBytes,
    fieldBytes_append, fieldBytes_map, fieldBytes_cons, fieldBytes_nil, List.append_assoc, List.append_nil]

/-! ### The pack report -/

/-- The fields of the pack report before the member list (R111). -/
def packFields (p : Pack) : List (Nat × Nat) :=
  [(1, p.state.code), (4, p.serial.toNat), (1, p.cls.val), (2, p.target), (2, p.cap), (1, p.retention.toNat),
    (4, p.members.length), (4, p.body), (4, p.digest.a.toNat), (4, p.digest.b.toNat), (4, p.projected), (8, p.openTime.toNat),
    (8, p.firstDone.toNat), (8, p.lastDone.toNat), (8, p.sealTime.toNat), (1, presence p.age.number),
    (8, p.age.number.getD 0), (1, sealCode p.cause), (1, presence (p.viewSlot.map Fin.val)),
    (1, (p.viewSlot.map Fin.val).getD 0), (4, p.returns.toNat), (2, p.members.length)]

theorem packReport_eq (s : State) (d : PackIx) :
    s.packReport d = fieldBytes (packFields (s.pack d)) ++ ((s.pack d).members.map Fin.val).flatMap (le 2) := by
  simp only [State.packReport, packFields, ← le_byte, Digest.bytes, listBytes, optionBytes_eq, deadlineBytes_eq,
    optionFields_eq, List.length_map, fieldBytes_cons, fieldBytes_nil, List.append_assoc, List.append_nil]

theorem PartState.code_lt (p : PartState) : p.code < 256 := by cases p <;> decide
theorem ParserState.code_lt (p : ParserState) : p.code < 256 := by cases p <;> decide
theorem PackState.code_lt (p : PackState) : p.code < 256 := by cases p <;> decide

/-- What a report of an optional index holds. -/
theorem index_fields {bytes : List Byte} {o n bound : Nat} {x : Option (Fin bound)} (hbound : bound ≤ 256 ^ n)
    (hpresent : field bytes o 1 = presence (x.map Fin.val) % 256 ^ 1)
    (hvalue : field bytes (o + 1) n = (x.map Fin.val).getD 0 % 256 ^ n) :
    (x = none → field bytes o (1 + n) = 0) ∧
    (∀ i, x = some i → field bytes o 1 = 1 ∧ field bytes (o + 1) n = i.val) := by
  obtain ⟨hnone, hsome⟩ := option_fields hpresent hvalue
  refine ⟨fun h => hnone (congrArg _ h), fun i h => ?_⟩
  obtain ⟨hone, hindex⟩ := hsome i.val (congrArg _ h)
  exact ⟨hone, hindex.trans (Nat.mod_eq_of_lt (i.isLt.trans_le hbound))⟩

theorem laneReport_reads (s : State) (k : LaneIx) : ReadsAt (s.laneReport k) 0 (s.laneFields k) [] :=
  readsAt_of_eq (by rw [laneReport_eq, List.append_nil])

/-- The beginning of the part record by place (R163). -/
theorem partRecord_begins (s : State) :
    field s.partRecord 0 1 = s.part.code ∧ s.partRecord[1]? = some (flagByte s.quiesceLine) ∧
    field s.partRecord 2 8 = s.clock.toNat ∧ s.partRecord[10]? = some (flagByte (decide (s.clock = timeMax))) ∧
    field s.partRecord 11 1 = s.events.length % 256 ∧ s.partRecord[12]? = some (flagByte s.overflow) := by
  obtain ⟨rest, hrecord⟩ : ∃ rest, s.partRecord = fieldBytes s.settingFields ++ rest :=
    ⟨_, by rw [State.partRecord, partSettings_eq, List.append_assoc]⟩
  have hlength : 12 < s.partRecord.length := by
    rw [hrecord, List.length_append, length_fieldBytes]
    simp [State.settingFields]
    omega
  have hreads := readsAt_of_eq hrecord
  simp only [State.settingFields, ReadsAt, Nat.reduceAdd] at hreads
  obtain ⟨hstate, hquiesce, hclock, hend, hevents, hoverflow, _⟩ := hreads
  exact ⟨hstate.trans (Nat.mod_eq_of_lt (PartState.code_lt _)), getElem?_of_flag (by omega) hquiesce,
    hclock.trans (toNat_mod_time _), getElem?_of_flag (by omega) hend, hevents, getElem?_of_flag hlength hoverflow⟩

/-- The fields of the lane report, each at its place (R41). -/
theorem laneReport_places (s : State) (k : LaneIx) :
    let l := s.lane k
    let r := s.laneReport k
    r[0]? = some (flagByte l.enabled) ∧ field r 1 8 = l.base.toNat ∧ field r 10 4 = l.cursor % 2 ^ 32 ∧
    field r 14 4 = s.tail k % 2 ^ 32 ∧
    r.length = 82 ∧ field r 9 1 = l.exponent % 256 ∧ field r 18 4 = s.used k % 2 ^ 32 ∧ field r 22 1 = l.parser.code ∧
    field r 23 1 = l.collected % 256 ∧ field r 24 4 = l.remaining % 2 ^ 32 ∧
    (l.receiving = none → field r 28 3 = 0) ∧
    (∀ m : MemberIx, l.receiving = some m → field r 28 1 = 1 ∧ field r 29 2 = m.val) ∧
    (l.pendingLead = none → field r 31 5 = 0) ∧
    (∀ p : Nat, l.pendingLead = some p → field r 31 1 = 1 ∧ field r 32 4 = p % 2 ^ 32) ∧
    field r 36 1 = l.hold.length % 256 ∧ field r 37 4 = l.projected % 2 ^ 32 ∧
    (l.holdDeadline = .absent → field r 41 9 = 0) ∧
    (∀ v : Time, l.holdDeadline = .pending v ∨ l.holdDeadline = .due v → field r 41 1 = 1 ∧ field r 42 8 = v.toNat) ∧
    (l.holdDeadline = .dormant → field r 41 1 = 1 ∧ field r 42 8 = 2 ^ 48 - 1) ∧
    (List.range 8).map (fun i => field r (50 + 4 * i) 4) = l.counts.all.map BitVec.toNat := by
  intro l r
  have hlength : r.length = 82 := by
    rw [show r = _ from laneReport_eq s k, length_fieldBytes]
    simp [State.laneFields, LaneCounters.all]
  have hreads := laneReport_reads s k
  change ReadsAt r 0 _ _ at hreads
  simp only [State.laneFields, LaneCounters.all, List.map_cons, List.map_nil, List.cons_append, List.nil_append, ReadsAt,
    Nat.reduceAdd, toNat_mod_word] at hreads
  obtain ⟨henabled, hbase, hexponent, hcursor, htail, hused, hparser, hcollected, hremaining, hreceiving, hmember, hpending,
    hstart, hhold, hprojected, hdeadline, htime, hc1, hc2, hc3, hc4, hc5, hc6, hc7, hc8, _⟩ := hreads
  obtain ⟨hidle, hmember⟩ := index_fields (by decide) hreceiving hmember
  obtain ⟨hclear, hstart⟩ := option_fields hpending hstart
  obtain ⟨habsent, harmed, hdormant⟩ := deadline_fields hdeadline htime
  refine ⟨getElem?_of_flag (by omega) henabled, hbase.trans (toNat_mod_addr _), hcursor, htail, hlength, hexponent, hused,
    hparser.trans (Nat.mod_eq_of_lt (ParserState.code_lt _)), hcollected, hremaining, hidle, hmember, hclear, hstart, hhold,
    hprojected, habsent, harmed, hdormant, ?_⟩
  simp only [List.range_succ, List.range_zero, List.nil_append, List.cons_append, List.map_cons, List.map_nil, Nat.reduceMul,
    Nat.reduceAdd, LaneCounters.all, hc1, hc2, hc3, hc4, hc5, hc6, hc7, hc8]
  rfl

/-- The fields of the pack report, each at its place (R111). -/
theorem packReport_places (s : State) (d : PackIx) :
    let p := s.pack d
    let r := s.packReport d
    r.length = 81 + 2 * p.members.length ∧ field r 0 1 = p.state.code ∧ field r 1 4 = p.serial.toNat ∧
    field r 5 1 = p.cls.val ∧ field r 6 2 = p.target % 2 ^ 16 ∧ field r 8 2 = p.cap % 2 ^ 16 ∧
    field r 10 1 = p.retention.toNat ∧ field r 11 4 = p.members.length % 2 ^ 32 ∧ field r 15 4 = p.body % 2 ^ 32 ∧
    field r 19 4 = p.digest.a.toNat ∧ field r 23 4 = p.digest.b.toNat ∧ field r 27 4 = p.projected % 2 ^ 32 ∧
    field r 31 8 = p.openTime.toNat ∧ field r 39 8 = p.firstDone.toNat ∧ field r 47 8 = p.lastDone.toNat ∧
    field r 55 8 = p.sealTime.toNat ∧
    (p.age = .absent → field r 63 9 = 0) ∧
    (∀ v : Time, p.age = .pending v ∨ p.age = .due v → field r 63 1 = 1 ∧ field r 64 8 = v.toNat) ∧
    (p.age = .dormant → field r 63 1 = 1 ∧ field r 64 8 = 2 ^ 48 - 1) ∧
    field r 72 1 = sealCode p.cause ∧
    (p.viewSlot = none → field r 73 2 = 0) ∧
    (∀ j : SlotIx, p.viewSlot = some j → field r 73 1 = 1 ∧ field r 74 1 = j.val) ∧
    field r 75 4 = p.returns.toNat ∧ field r 79 2 = p.members.length % 2 ^ 16 ∧
    (∀ (i : Nat) (m : MemberIx), p.members[i]? = some m → field r (81 + 2 * i) 2 = m.val) := by
  intro p r
  have hr : r = fieldBytes (packFields p) ++ (p.members.map Fin.val).flatMap (le 2) := packReport_eq s d
  have hlength : r.length = 81 + 2 * p.members.length := by
    rw [hr, List.length_append, length_fieldBytes]
    simp [packFields, List.length_flatMap, Function.comp_def, Nat.mul_comm]
  have hreads := readsAt_of_eq hr
  simp only [packFields, ReadsAt, Nat.reduceAdd] at hreads
  obtain ⟨hstate, hserial, hclass, htarget, hcap, hretention, hcount, hbody, ha, hb, hprojected, hopen, hfirst, hlast, hseal,
    hdeadline, htime, hcause, hviewed, hslot, hreturns, hlisted, hentries⟩ := hreads
  obtain ⟨habsent, harmed, hdormant⟩ := deadline_fields hdeadline htime
  obtain ⟨hunviewed, hslot⟩ := index_fields (by decide) hviewed hslot
  refine ⟨hlength, hstate.trans (Nat.mod_eq_of_lt (PackState.code_lt _)), hserial.trans (toNat_mod_word _),
    hclass.trans (Nat.mod_eq_of_lt (p.cls.isLt.trans (by decide))), htarget, hcap, hretention.trans (toNat_mod_byte _), hcount,
    hbody, ha.trans (toNat_mod_word _), hb.trans (toNat_mod_word _), hprojected, hopen.trans (toNat_mod_time _),
    hfirst.trans (toNat_mod_time _), hlast.trans (toNat_mod_time _), hseal.trans (toNat_mod_time _), habsent, harmed, hdormant,
    hcause.trans (Nat.mod_eq_of_lt (sealCode_lt _)), hunviewed, hslot, hreturns.trans (toNat_mod_word _), hlisted,
    fun i m hm => ?_⟩
  have hentry := field_entry (n := 2) (p.members.map Fin.val) (i := i) (v := m.val) (by rw [List.getElem?_map, hm]; rfl)
  rw [← hentries, Nat.mod_eq_of_lt (m.isLt.trans (by decide))] at hentry
  rw [← hentry, field, field, List.drop_drop]

end Sys2Proof.Machine

open Sys2Proof Sys2Proof.Machine

/-- Settles O42: the three reads answer with their report and change nothing else, and each report is its fields in order. -/
theorem reportsAreReturned : Obligations.ReportsAreReturned := by
  unfold Obligations.ReportsAreReturned
  refine ⟨fun s h => ⟨?_, fun lane k hk => ?_, fun lane hbad => ?_, fun record d hd => ?_, fun record hbad => ?_⟩,
    fun s => ?begins, fun s => ?part, fun s k hcursor htail => ?_, fun s k => ?lane, fun s d => ?pack, rfl, rfl, rfl, rfl, rfl,
    fun _ _ => rfl⟩
  · rw [exec, execReadPart, takeFrame_linkFree h]
    rfl
  · rw [exec, execReadLane, takeFrame_linkFree h, State.carryOutReadLane, laneOf_of_val hk]
    rfl
  · rw [exec, execReadLane, takeFrame_linkFree h, State.carryOutReadLane, laneOf_of_gt hbad]
    rfl
  · rw [exec, execReadPack, takeFrame_linkFree h, State.carryOutReadPack, packOf_of_val hd]
    rfl
  · rw [exec, execReadPack, takeFrame_linkFree h, State.carryOutReadPack, packOf_of_gt hbad]
    rfl
  case begins =>
    exact partRecord_begins s
  case part =>
    intro flag optional listed deadline settings classes census waiting e current engine slots n counters
    exact ⟨partRecord_eq s, rfl, memberCensus_eq⟩
  · obtain ⟨henabled, hbase, hcursor', htail', _⟩ := laneReport_places s k
    exact ⟨henabled, hbase, hcursor'.trans (Nat.mod_eq_of_lt hcursor), htail'.trans (Nat.mod_eq_of_lt htail)⟩
  case lane =>
    obtain ⟨_, _, _, _, hplaces⟩ := laneReport_places s k
    exact hplaces
  case pack =>
    exact packReport_places s d

end
